-- ==== Sys2Proof/Word.lean ====
section
/-! DEFINITION. The words of the P460: bytes, 16-bit words, the eight data bytes of a management record, and the index types
of chambers, channels, guard entries, input lines and notice slots (00_scope.md, "Chambers, channels, steps and slots"). -/

namespace Sys2Proof

/-- One byte of a frame or of a management record (R140, R153). -/
abbrev Byte := BitVec 8

/-- A 16-bit word of a slot or of a record (R140, R153). -/
abbrev Half := BitVec 16

/-- The data bytes 7 to 14 of a management record (Table 9-1). -/
abbrev Data := Vector Byte 8

/-- A chamber A, B, C, D by its index 0..3. -/
abbrev Chamber := Fin 4

/-- A channel of a chamber, 0..15. -/
abbrev Chan := Fin 16

/-- A guard entry of a chamber, 0..15. -/
abbrev GuardIndex := Fin 16

/-- An input line, 0..15. -/
abbrev Line := Fin 16

/-- A notice slot, 0..26 (R168). -/
abbrev NoticeIndex := Fin 27

end Sys2Proof
end

