-- ==== Sys2Proof/Syntax.lean ====
section
/-! DEFINITION. The commands of the block: one constructor per row of spec/opcode_table.json. A management row carries the
request it takes; the command code (and, for a row of one table, the table id) is fixed by the row. A passage carries the
bytes of its frame and its passage time, a pin event the time at which it happens. -/

namespace Sys2Proof

/-- The fields of a management request that its row does not fix (Table 9-1): address, tag, index or chamber mask, word and
data. The record check is a matter of the mailbox (R153) and is examined where a frame is taken. -/
structure Machine.Request where
  address : Byte
  tag : Byte
  index : Half
  word : Byte
  data : Data
deriving DecidableEq, Repr

/-- What begins a power-on reset (R152): power-up, or the reset line held low, for the time given in µs. -/
inductive Machine.ResetCause where
  | powerUp
  | lineLow (microseconds : Nat)
deriving DecidableEq, Repr

/-- The commands and events of spec/opcode_table.json, in the table's order. -/
inductive Instr where
  | outboundPassage (time : Nat) (frame : List Byte)
  | returnPassage (time : Nat) (frame : List Byte)
  | read (table : Byte) (request : Machine.Request)
  | write (table : Byte) (request : Machine.Request)
  | slotMapWrite (request : Machine.Request)
  | channelWrite (request : Machine.Request)
  | stepWrite (request : Machine.Request)
  | guardWrite (request : Machine.Request)
  | levelWrite (request : Machine.Request)
  | inputWrite (request : Machine.Request)
  | arbiterWrite (request : Machine.Request)
  | ringWrite (request : Machine.Request)
  | noticeWrite (request : Machine.Request)
  | stepCheck (request : Machine.Request)
  | levelCheck (request : Machine.Request)
  | start (request : Machine.Request)
  | hold (request : Machine.Request)
  | resume (request : Machine.Request)
  | abort (request : Machine.Request)
  | release (request : Machine.Request)
  | clear (request : Machine.Request)
  | lock (request : Machine.Request)
  | restartPart (request : Machine.Request)
  | assign (request : Machine.Request)
  | broadcast (command : Byte) (request : Machine.Request)
  | growthServed (chamber : Chamber)
  | lineGranted (chamber : Chamber)
  | dwellExpiry (chamber : Chamber)
  | settleExpiry
  | ringWatchExpiry
  | inputLevelChange (time : Nat) (line : Line) (high : Bool)
  | inputAcceptance (line : Line)
  | graceLapse (chamber : Chamber) (entry : GuardIndex)
  | powerOnReset (cause : Machine.ResetCause)
  | resetEnd
  | checkNoObject (table : Byte) (request : Machine.Request)
deriving DecidableEq, Repr

end Sys2Proof
end

