-- ==== Sys2Proof/Decode.lean ====
section
/-! DEFINITION. What a word of spec/opcode_table.json's bits spells. No row of this table gives bits (the part has no
instruction words; management records are decoded in Machine/Operands.lean, frames in Machine/Frames.lean), so no word
spells a command. -/

namespace Sys2Proof

/-- The command a word spells by the table's bits: none, since no row gives bits (log 22). -/
def decodeTableWord (_nbits _w : Nat) : Option Instr := none

end Sys2Proof
end

