-- ==== Sys2Proof/Machine/Bytes.lean ====
section
/-! DEFINITION. Byte order, packing and the two checks: multi-byte fields are carried most significant byte first (R140,
R153), CRC-16 closes a process frame (R140), CRC-8 a management record (R153). -/

namespace Sys2Proof.Machine

/-- The low byte of a number, as a one-byte field. -/
def be1 (n : Nat) : List Byte := [BitVec.ofNat 8 n]

/-- A two-byte field. -/
def be2 (n : Nat) : List Byte := be1 (n / 256) ++ be1 n

/-- A three-byte field. -/
def be3 (n : Nat) : List Byte := be1 (n / 65536) ++ be2 n

/-- A four-byte field; of a time it carries the low 32 bits (R9, R165). -/
def be4 (n : Nat) : List Byte := be2 (n / 65536) ++ be2 n

/-- The number a run of bytes carries, most significant byte first. -/
def fromBytes (bytes : List Byte) : Nat := bytes.foldl (fun n b => n * 256 + b.toNat) 0

/-- A two-valued field: 0 for no, clear, stopped or deasserted, 1 for yes, set, running or asserted (R153). -/
def flagByte (b : Bool) : List Byte := be1 (if b then 1 else 0)

/-- Eight data bytes from a run of fields, with unused bytes 0 (R153). -/
def packData (bytes : List Byte) : Data := Vector.ofFn fun i : Fin 8 => bytes.getD i.val 0#8

/-- Zero data. -/
def zeroData : Data := packData []

/-- One byte of a list, 0 past its end. -/
def byteAt (bytes : List Byte) (i : Nat) : Nat := (bytes.getD i 0#8).toNat

/-- `count` bytes from `offset`. -/
def bytesAt (bytes : List Byte) (offset count : Nat) : List Byte := (bytes.drop offset).take count

/-- The number in `count` bytes from `offset`. -/
def numberAt (bytes : List Byte) (offset count : Nat) : Nat := fromBytes (bytesAt bytes offset count)

/-- One bit of the CRC-16 register, polynomial x^16 + x^12 + x^5 + 1 (R140). -/
def crc16Bit (register : Half) : Half :=
  if register.msb then (register <<< 1) ^^^ 0x1021#16 else register <<< 1

/-- A byte fed into the CRC-16 register, most significant bit first. -/
def crc16Byte (register : Half) (byte : Byte) : Half :=
  let r := register ^^^ (byte.zeroExtend 16 <<< 8)
  crc16Bit (crc16Bit (crc16Bit (crc16Bit (crc16Bit (crc16Bit (crc16Bit (crc16Bit r)))))))

/-- The check of a frame: the register starts at all ones and is taken with no final inversion (R140). -/
def crc16 (bytes : List Byte) : Half := bytes.foldl crc16Byte 0xFFFF#16

/-- One bit of the CRC-8 register, polynomial x^8 + x^7 + x^4 + x^3 + x + 1 (R153). -/
def crc8Bit (register : Byte) : Byte :=
  if register.msb then (register <<< 1) ^^^ 0x9B#8 else register <<< 1

/-- A byte fed into the CRC-8 register, most significant bit first. -/
def crc8Byte (register byte : Byte) : Byte :=
  let r := register ^^^ byte
  crc8Bit (crc8Bit (crc8Bit (crc8Bit (crc8Bit (crc8Bit (crc8Bit (crc8Bit r)))))))

/-- The record check: the register starts at 0x5A and is taken with no final inversion (R153). -/
def crc8 (bytes : List Byte) : Byte := bytes.foldl crc8Byte 0x5A#8

end Sys2Proof.Machine
end

