-- ==== Sys2Proof/Machine/Frames.lean ====
section
/-! DEFINITION. The process frame (R140): its classes (R141), its slots and mailbox, and its bytes. -/

namespace Sys2Proof.Machine

/-- One slot of a frame (Table 8-1). -/
structure Slot where
  setpoint : Half
  readback : Half
  nodeFlags : Byte
  gateFlags : Byte
deriving DecidableEq, Repr

/-- A good frame's contents, less the check (Table 8-1). The slot count n and the mailbox count m are the lengths. -/
structure Frame where
  kind : Byte
  direction : Byte
  cycle : Half
  slots : List Slot
  mailbox : List (List Byte)
deriving DecidableEq, Repr

/-- The classes of R141. -/
inductive FrameClass where
  | bad
  | foreign
  | good (frame : Frame)
deriving DecidableEq, Repr

/-- The kind byte of a process frame. -/
def processKind : Byte := 0xC5#8
/-- The direction byte OUT. -/
def directionOut : Byte := 0x0F#8
/-- The direction byte RETURN. -/
def directionReturn : Byte := 0xF0#8

/-- The expected length of a frame with n slots and m mailbox entries (R140). -/
def frameLength (n m : Nat) : Nat := 6 + 6 * n + 16 * m + 2

/-- The slot carried by six bytes. -/
def slotOf (bytes : List Byte) : Slot where
  setpoint := BitVec.ofNat 16 (numberAt bytes 0 2)
  readback := BitVec.ofNat 16 (numberAt bytes 2 2)
  nodeFlags := bytes.getD 4 0#8
  gateFlags := bytes.getD 5 0#8

/-- The six bytes of a slot. -/
def Slot.bytes (s : Slot) : List Byte := be2 s.setpoint.toNat ++ be2 s.readback.toNat ++ [s.nodeFlags, s.gateFlags]

/-- The first n slots of a run of bytes. -/
def slotsOf : Nat → List Byte → List Slot
  | 0, _ => []
  | n + 1, bytes => slotOf bytes :: slotsOf n (bytes.drop 6)

/-- The first m mailbox entries of a run of bytes. -/
def entriesOf : Nat → List Byte → List (List Byte)
  | 0, _ => []
  | m + 1, bytes => bytes.take 16 :: entriesOf m (bytes.drop 16)

/-- The bytes of a frame before its check. -/
def Frame.body (f : Frame) : List Byte :=
  [f.kind, f.direction] ++ be2 f.cycle.toNat ++ be1 f.slots.length ++ be1 f.mailbox.length
    ++ f.slots.flatMap Slot.bytes ++ f.mailbox.flatten

/-- The bytes of a frame with its check computed (R140, R142). -/
def Frame.bytes (f : Frame) : List Byte := f.body ++ be2 (crc16 f.body).toNat

/-- The contents of a frame with n slots and m mailbox entries. -/
def frameOf (bytes : List Byte) (n m : Nat) : Frame where
  kind := bytes.getD 0 0#8
  direction := bytes.getD 1 0#8
  cycle := BitVec.ofNat 16 (numberAt bytes 2 2)
  slots := slotsOf n (bytes.drop 6)
  mailbox := entriesOf m (bytes.drop (6 + 6 * n))

/-- Whether a received frame is bad: its length, its check, or its expected length (R141). -/
def badFrame (bytes : List Byte) : Bool :=
  let length := bytes.length
  length < 8 || 840 < length || numberAt bytes (length - 2) 2 != (crc16 (bytes.take (length - 2))).toNat
    || length != frameLength (byteAt bytes 4) (byteAt bytes 5)

/-- The class of a received frame on the port whose good frames have the given direction (R141). -/
def classify (direction : Byte) (bytes : List Byte) : FrameClass :=
  let n := byteAt bytes 4
  let m := byteAt bytes 5
  if badFrame bytes then .bad
  else if bytes.getD 0 0#8 ≠ processKind ∨ bytes.getD 1 0#8 ≠ direction ∨ n < 1 ∨ 128 < n ∨ 4 < m then .foreign
  else .good (frameOf bytes n m)

/-! ### Mailbox entries -/

/-- An EMPTY record: every byte 0 (R155). -/
def emptyEntry : List Byte := List.replicate 16 0#8

/-- An entry is EMPTY when its command byte is 0, whatever its other bytes hold (R153). -/
def entryIsEmpty (entry : List Byte) : Bool := byteAt entry 1 == 0

/-- Whether the record check of an entry is correct (R153). -/
def entryCheckCorrect (entry : List Byte) : Bool := entry.getD 15 0#8 == crc8 (entry.take 15)

/-- Fifteen bytes of a record with its record check formed (R153). -/
def sealEntry (bytes : List Byte) : List Byte := bytes ++ [crc8 bytes]

/-- Posts records, in order, one into each EMPTY entry from entry 0 upward; gives the entries and the records that found no
room (R167, R171). -/
def postInto : List (List Byte) → List (List Byte) → List (List Byte) × List (List Byte)
  | [], records => ([], records)
  | entries, [] => (entries, [])
  | entry :: entries, record :: records =>
    if entryIsEmpty entry then
      let rest := postInto entries records
      (record :: rest.1, rest.2)
    else
      let rest := postInto entries (record :: records)
      (entry :: rest.1, rest.2)

end Sys2Proof.Machine
end

