-- ==== Sys2Proof/Config.lean ====
section
/-! DEFINITION. What the part fixes once (power-on values, identity codes, sizes), each from the rule named, and the free
values of the model: constants without a body, of which nothing can be proved, for the points the spec leaves open. -/

namespace Sys2Proof.Config

/-- Power-on value of the nominal period N in µs (R146). -/
def nominalPeriod : Nat := 1000
/-- Power-on value of the survival count S (R146). -/
def survivalCount : Nat := 8
/-- Power-on value of the roughing settle time in ms (R119). -/
def settleTime : Nat := 500
/-- The number of responses the response queue holds (R155, R167). -/
def responseRoom : Nat := 8
/-- IDENT word 0 (R166). -/
def vendorCode : Nat := 0x0D7A
/-- IDENT word 0 (R166). -/
def partCode : Nat := 0x0460
/-- The revision of parts described by the manual (R166). -/
def revision : Nat := 1
/-- The time the reset line must be low to be taken as asserted, in µs (R152). -/
def resetAssertTime : Nat := 10

/-- FREE VALUE (log 9): how the part reads a claims roughing or ramp byte of a step record that holds neither 0 nor 1
(R23 stores it as written, R30 examines it for no kind, R153 gives 0 and 1 alone). -/
opaque flagReading : Byte → Bool

/-- FREE VALUE (log 10): whether INPUT word 1 carries 1 for a high level and 0 for a low one, or the other way about. R116 names
the levels and R153 gives a two-valued field 0 and 1, but not which of the two a level is. -/
opaque highCarriesOne : Bool

/-- FREE VALUE (log 11): whether a channel record that breaks lo ≤ hi ≤ F is refused naming hi (true) or lo (false), for the
values lo, hi and F of the record (Table 1-3 and R6 give the one rule for both fields). -/
opaque limitsNameHi : Nat → Nat → Nat → Bool

/-- FREE VALUE (log 12): whether an entry that goes back from RELEASING to TRIPPED enters TRIPPED in the sense of R108 and
so raises GUARD_TRIP again. -/
opaque returnToTrippedIsTrip : Bool

/-- FREE VALUE (log 29): whether an entry whose source was lost, and has been put right without a rewrite of the entry, goes on
taking trip readings (true) or takes its source's own readings but for the release (false). R105 says that it does not release
until it is rewritten, and gives the trip reading to a source that does not satisfy R99. -/
opaque mendedSourceTrips : Bool

end Sys2Proof.Config
end

