-- ==== Sys2Proof/Machine/State.lean ====
section
/-! DEFINITION. The state of the P460 as plain data, block by block (Table 0-1), its values after power-on reset, and the
reasons a step can stop (there are none but the host's own). -/

namespace Sys2Proof.Machine

/-- The reasons the machine faults: none. The spec names no event that stops the part; a refused command is an answer
(Table 9-4) and a bad frame passes untouched (R142). Nothing raises one; safe. -/
inductive Fault where
deriving DecidableEq, Repr

/-- The reasons a command is refused by the model. -/
inductive Refusal where
  /-- Raised by `exec` alone, for a row that has no meaning yet; no arm raises it in this model. Safe. -/
  | notModelled (mnemonic : String)
deriving DecidableEq, Repr

/-! ### Channel table (Chapter 1) -/

/-- One entry of the slot map (R1). -/
inductive SlotUse where
  | unmapped
  | channel (chamber : Chamber) (channel : Chan)
  | report (chamber : Chamber)
deriving DecidableEq, Repr

/-- The twelve channel kinds, in the order of R4, which numbers them (R153). -/
inductive ChannelKind where
  | none | gasFlow | valve | roughValve | throttle | rfPower | setpoint
  | pressure | flowRead | rfForward | rfReflected | readback
deriving DecidableEq, Repr

/-- Who drives a setpoint channel while a sequence runs (R5). -/
inductive Owner where
  | sequence | controller
deriving DecidableEq, Repr

/-- What a setpoint channel carries while its chamber is HELD (R5). -/
inductive HoldBehaviour where
  | safeValue | keep
deriving DecidableEq, Repr

/-- A channel record, Table 1-2. -/
structure ChannelRecord where
  kind : ChannelKind := .none
  owner : Owner := .sequence
  holdBehaviour : HoldBehaviour := .safeValue
  weight : Nat := 0
  pair : Option Chan := Option.none
  fullScale : Nat := 1
  wordFullScale : Nat := 1
  lo : Nat := 0
  hi : Nat := 0
  safeValue : Nat := 0
  staleLimit : Nat := 1
  failValue : Nat := 0
deriving DecidableEq, Repr

/-- The state the CHT keeps for a channel: current value, missing count and stale flag of a readback kind, carried value and
change time of a setpoint kind (R9). After power-on reset the record has fail value 0 (R14, R17). -/
structure ChannelStatus where
  value : Nat := 0
  missing : Nat := 0
  stale : Bool := true
  carried : Nat := 0
  changed : Nat := 0
deriving DecidableEq, Repr

/-- A channel: its record and its status. -/
structure Channel where
  record : ChannelRecord := {}
  status : ChannelStatus := {}
deriving DecidableEq, Repr

/-- A pressure level table: T1 to T15 at positions 0 to 14, and the check state (R18). -/
structure LevelTable where
  thresholds : Vector Nat 15 := Vector.replicate 15 0
  checked : Bool := false
deriving DecidableEq, Repr

/-! ### Step pool (Chapter 2) -/

/-- The check state of a step record (R22). -/
inductive CheckState where
  | empty | unchecked | checked
deriving DecidableEq, Repr

/-- The step kinds in the order that numbers them, TIMED 0 to END 4 (R153). -/
inductive StepKind where
  | timed | pumpTo | ventTo | strike | endOfSequence
deriving DecidableEq, Repr

/-- The timeout actions of a conditioned step (Table 2-1). -/
inductive TimeoutAction where
  | toSafe | toHold | toAdvance
deriving DecidableEq, Repr

/-- One position of a setpoint list as stored (R23, R24); channel 0xFF is an absent position (R153). -/
structure SetpointEntry where
  channel : Byte := 0xFF#8
  target : Nat := 0
  ramp : Byte := 0#8
deriving DecidableEq, Repr

/-- A step record: every field as a WRITE left it, whatever its value (R23), and the check state (R22). Ramp time 0 and loop
target 0xFFFF are the absent values of R153. The defaults are the zero contents of Table 2-2; that the loop count beside an absent
loop target, and the target and ramp of an absent entry, are 0 is the model's choice (log 31). -/
structure StepRecord where
  check : CheckState := .empty
  kind : Byte := 0#8
  claims : Byte := 0#8
  timeout : Byte := 0#8
  guardMask : Half := 0#16
  duration : Nat := 0
  ramp : Nat := 0
  level : Nat := 0
  count : Nat := 0
  ratio : Nat := 0
  minForward : Nat := 0
  loopTarget : Nat := 0xFFFF
  loopCount : Nat := 0
  entries : Vector SetpointEntry 8 := Vector.replicate 8 {}
deriving DecidableEq, Repr

/-! ### Sequence engines (Chapters 3 and 4) -/

/-- The six engine states (Table 3-2). -/
inductive EngineState where
  | idle | waiting | running | held | safe | done
deriving DecidableEq, Repr

/-- What a WAITING engine waits for (Table 3-1). -/
inductive Awaited where
  | nothing | growth | line
deriving DecidableEq, Repr

/-- The four hold sources (Table 4-1). -/
inductive HoldSource where
  | controller | guard | ring | engine
deriving DecidableEq, Repr

/-- A hold-source set (R67): each source is in it or not. -/
structure HoldSources where
  controller : Bool := false
  guard : Bool := false
  ring : Bool := false
  engine : Bool := false
deriving DecidableEq, Repr

/-- CONTINUE or RESTART (R74). -/
inductive ResumeMode where
  | continue | restart
deriving DecidableEq, Repr

/-- The state a hold was entered from (Table 4-2). -/
inductive HeldFrom where
  | running | waiting
deriving DecidableEq, Repr

/-- One entry of a loop stack (R59). -/
structure LoopEntry where
  step : Nat
  remaining : Nat
deriving DecidableEq, Repr

/-- A table of one engineering value for each channel 0..15. -/
abbrev ValueTable := Vector Nat 16

/-- A hold record (Table 4-2). -/
structure HoldRecord where
  heldFrom : HeldFrom
  step : Nat
  elapsed : Nat
  loops : List LoopEntry
  startTable : ValueTable
  outputTable : ValueTable
  mode : ResumeMode
deriving DecidableEq, Repr

/-- An engine context (Table 3-1); the defaults are its values after power-on and soft reset (R41). The loop stack is kept
top entry first. -/
structure Engine where
  state : EngineState := .idle
  range : Option (Nat × Nat) := none
  step : Nat := 0
  awaited : Awaited := .nothing
  startTime : Nat := 0
  timer : Option Nat := none
  counter : Nat := 0
  loops : List LoopEntry := []
  startTable : ValueTable := Vector.replicate 16 0
  outputTable : ValueTable := Vector.replicate 16 0
  sources : HoldSources := {}
  hold : Option HoldRecord := none
deriving DecidableEq, Repr

/-! ### Guard unit (Chapter 6) -/

/-- What a guard entry watches, in the order that numbers the kinds (Table 6-1, R153). -/
inductive GuardKind where
  | off | levelAbove | levelBelow | valueAbove | valueBelow | deviation | inputHigh | inputLow
deriving DecidableEq, Repr

/-- When an entry is in force (R102). -/
inductive Scope where
  | always | runOnly | flagged
deriving DecidableEq, Repr

/-- What a trip does (R108). -/
inductive GuardAction where
  | note | hold | safe
deriving DecidableEq, Repr

/-- The state of a guard entry (R97). -/
inductive GuardState where
  | clear
  | counting (n : Nat)
  | tripped
  | releasing (n : Nat)
deriving DecidableEq, Repr

/-- The configuration fields of a guard entry (Table 6-1). -/
structure GuardConfig where
  kind : GuardKind := .off
  source : Fin 16 := 0
  scope : Scope := .always
  action : GuardAction := .note
  count : Nat := 0
  trip : Nat := 0
  release : Nat := 0
  tolerance : Nat := 0
  grace : Nat := 0
deriving DecidableEq, Repr

/-- A guard entry: configuration, guard state, the grace state, ARMED (`none`) or IN_GRACE with its lapse time (R107), and
whether a channel record written since the entry has left its source outside the source rules of R99: such an entry does not
release until it is rewritten (R105). -/
structure GuardEntry where
  config : GuardConfig := {}
  state : GuardState := .clear
  lapse : Option Nat := none
  sourceLost : Bool := false
deriving DecidableEq, Repr

/-- An input line (R112); true is high. -/
structure InputLine where
  raw : Bool := false
  accepted : Bool := false
  timer : Option Nat := none
  filter : Nat := 0
deriving DecidableEq, Repr

/-! ### Shared-resource arbiter (Chapter 7) -/

/-- The roughing line (R119); SETTLING carries the expiry of the settle timer, which runs in that state alone. -/
inductive LineState where
  | free
  | granted (holder : Chamber)
  | settling (expiry : Nat)
deriving DecidableEq, Repr

/-- A growth request (c, r′) of the abatement queue (R127). -/
structure GrowthRequest where
  chamber : Chamber
  requested : Nat
deriving DecidableEq, Repr

/-- The arbiter's state (R119, R120, R126, R127, R133), both queues earliest entry first. -/
structure Arbiter where
  line : LineState := .free
  settleTime : Nat := Config.settleTime
  priority : Vector Nat 4 := Vector.replicate 4 0
  queue : List Chamber := []
  budget : Nat := 0
  allowance : Vector Nat 4 := Vector.replicate 4 0
  reservation : Vector Nat 4 := Vector.replicate 4 0
  growth : List GrowthRequest := []
deriving DecidableEq, Repr

/-! ### Notice unit (Chapter 10) -/

/-- A notice slot (R168). -/
structure NoticeSlot where
  cls : Nat
  enabled : Bool := true
  pending : Bool := false
  merge : Nat := 0
  detail : Nat := 0
  cycle : Nat := 0
deriving DecidableEq, Repr

/-- The six notices of a chamber, by their place in Table 10-1. -/
inductive ChamberNotice where
  | sequenceDone | stepTimeout | guardTrip | holdEntered | safeEntered | loadRefused
deriving DecidableEq, Repr

/-! ### Ring interface (Chapter 8) -/

/-- The states of the cycle tracker (R146). -/
inductive TrackerState where
  | seeking | training | tracking | lost
deriving DecidableEq, Repr

/-- The cycle tracker (R146), the open-cycle record (section 8.3) and the number last taken into it (R169). -/
structure Ring where
  state : TrackerState := .seeking
  nominal : Nat := Config.nominalPeriod
  survival : Nat := Config.survivalCount
  learned : Nat := Config.nominalPeriod
  lastArrival : Option Nat := none
  count : Nat := 0
  sum : Nat := 0
  rejected : Bool := false
  watch : Option Nat := none
  openCycle : Option Nat := none
  lastCycle : Nat := 0
deriving DecidableEq, Repr

/-! ### Management agent (Chapter 9) -/

/-- The result codes in the order of Table 9-4. -/
inductive Result where
  | accepted | noObject | badValue | readOnly | inUse | locked | wrongState | notChecked | badSequence | stillTripped
  | overBudget | duplicate
deriving DecidableEq, Repr

/-- A queued response (R167): everything but the address, which its posting fills. -/
structure Response where
  code : Byte
  tag : Byte
  index : Half
  word : Byte
  result : Result
  data : Data
deriving DecidableEq, Repr

/-! ### The part -/

/-- What engine and arbiter events change: the engines, the arbiter, the notice slots and the RF-permit lines (R117). -/
structure Plant where
  engines : Vector Engine 4
  arbiter : Arbiter
  notices : Vector NoticeSlot 27
  permits : Vector Bool 4
deriving DecidableEq, Repr

/-- The state of the part. `pending` and the two transmit fields are the model's own (log 1, log 15). -/
structure State where
  now : Nat
  inReset : Bool
  slotMap : Vector SlotUse 128
  channels : Vector (Vector Channel 16) 4
  levels : Vector LevelTable 4
  pool : Vector StepRecord 512
  plant : Plant
  guards : Vector (Vector GuardEntry 16) 4
  inputs : Vector InputLine 16
  ring : Ring
  address : Byte
  lock : Bool
  responses : List Response
  threshold : Nat
  txDown : List Byte
  txUp : List Byte
  pending : List Instr
deriving DecidableEq, Repr

/-- What the events of engines and arbiter read and never change: the time of the event, the cycle number of an occurrence
(R169), the channel table and the step pool. -/
structure Ctx where
  now : Nat
  cycle : Nat
  channels : Vector (Vector Channel 16) 4
  levels : Vector LevelTable 4
  pool : Vector StepRecord 512

/-- The context of an event taken in state s. -/
def State.ctx (s : State) : Ctx :=
  { now := s.now, cycle := s.ring.lastCycle, channels := s.channels, levels := s.levels, pool := s.pool }

/-- The default class of a chamber's notice (Table 10-1). -/
def ChamberNotice.defaultClass : ChamberNotice → Nat
  | .sequenceDone => 1
  | .stepTimeout => 2
  | .guardTrip => 3
  | .holdEntered => 2
  | .safeEntered => 3
  | .loadRefused => 2

/-- The default classes of a chamber's six slots, in slot order (Table 10-1). -/
def chamberNoticeDefaults : List NoticeSlot :=
  [.sequenceDone, .stepTimeout, .guardTrip, .holdEntered, .safeEntered, .loadRefused].map
    fun n => { cls := ChamberNotice.defaultClass n }

/-- The notice slots after power-on reset (R168): slots 24 to 26 are RING_LOST, RING_UP and TRAINING_REJECTED. -/
def noticeDefaults : Vector NoticeSlot 27 :=
  ⟨(chamberNoticeDefaults ++ chamberNoticeDefaults ++ chamberNoticeDefaults ++ chamberNoticeDefaults
    ++ ([{ cls := 3 }, { cls := 1 }, { cls := 1 }] : List NoticeSlot)).toArray, by decide⟩

/-- The part right after power-on reset: every block at the value its own chapter gives (R152), the timebase at 0 (R15),
no command waiting. The raw input levels, which the outside sets, stand low (log 8). -/
def State.reset : State where
  now := 0
  inReset := false
  slotMap := Vector.replicate 128 .unmapped
  channels := Vector.replicate 4 (Vector.replicate 16 {})
  levels := Vector.replicate 4 {}
  pool := Vector.replicate 512 {}
  plant :=
    { engines := Vector.replicate 4 {}
      arbiter := {}
      notices := noticeDefaults
      permits := Vector.replicate 4 false }
  guards := Vector.replicate 4 (Vector.replicate 16 {})
  inputs := Vector.replicate 16 {}
  ring := {}
  address := 0#8
  lock := false
  responses := []
  threshold := 0
  txDown := []
  txUp := []
  pending := []

end Sys2Proof.Machine
end

