-- ==== Sys2Proof/Machine/Ops.lean ====
section
/-! DEFINITION. The named operations every meaning is written over: reading and writing engines, channels, guard entries and
records, raising a notice, converting between words and engineering values, and the pressure level. -/

namespace Sys2Proof.Machine

/-- The chambers in index order. -/
def chambers : List Chamber := [0, 1, 2, 3]

/-- The sixteen indices of a chamber's channels, of its guard entries, and of the input lines, in order. -/
def sixteen : List (Fin 16) := [0, 1, 2, 3, 4, 5, 6, 7, 8, 9, 10, 11, 12, 13, 14, 15]

/-- The chambers other than c, in index order. -/
def others (c : Chamber) : List Chamber := chambers.filter (· ≠ c)

/-! ### Kinds -/

/-- The setpoint kinds (R4). -/
def ChannelKind.isSetpoint : ChannelKind → Bool
  | .gasFlow | .valve | .roughValve | .throttle | .rfPower | .setpoint => true
  | .none | .pressure | .flowRead | .rfForward | .rfReflected | .readback => false

/-- The readback kinds (R4). -/
def ChannelKind.isReadback : ChannelKind → Bool
  | .pressure | .flowRead | .rfForward | .rfReflected | .readback => true
  | .none | .gasFlow | .valve | .roughValve | .throttle | .rfPower | .setpoint => false

/-- The kinds stored with owner SEQUENCE whatever was written (R8). -/
def ChannelKind.sequenceOwned : ChannelKind → Bool
  | .gasFlow | .roughValve | .rfPower => true
  | .none | .valve | .throttle | .setpoint | .pressure | .flowRead | .rfForward | .rfReflected | .readback => false

/-! ### Conversions (R10, R11) -/

/-- A slot word as an engineering value (R10). -/
def wordToValue (r : ChannelRecord) (word : Nat) : Nat :=
  if word ≤ r.wordFullScale then (word * r.fullScale + r.wordFullScale / 2) / r.wordFullScale else r.fullScale

/-- An engineering value as a slot word (R11). -/
def valueToWord (r : ChannelRecord) (v : Nat) : Nat := (v * r.wordFullScale + r.fullScale / 2) / r.fullScale

/-- A value clamped to the limits of a record (R86). -/
def clampTo (r : ChannelRecord) (v : Nat) : Nat := if v < r.lo then r.lo else if r.hi < v then r.hi else v

/-- The load of a gas flow: ceil(x × w / 1000) AU (R45, R87). -/
def flowLoad (x weight : Nat) : Nat := (x * weight + 999) / 1000

/-! ### Channels -/

/-- The record of channel h of chamber c. -/
def Ctx.record (x : Ctx) (c : Chamber) (h : Chan) : ChannelRecord := x.channels[c][h].record

/-- The status of channel h of chamber c. -/
def Ctx.status (x : Ctx) (c : Chamber) (h : Chan) : ChannelStatus := x.channels[c][h].status

/-- The first channel of chamber c whose record is of kind k; of PRESSURE, RF_FORWARD, RF_REFLECTED and ROUGH_VALVE there is
at most one (R7). -/
def Ctx.channelOfKind (x : Ctx) (c : Chamber) (k : ChannelKind) : Option Chan :=
  sixteen.find? fun h => (x.record c h).kind == k

/-- How many of T1..T15 are at or below a value. -/
def LevelTable.levelOf (t : LevelTable) (v : Nat) : Nat := (t.thresholds.toList.filter (· ≤ v)).length

/-- The pressure level of chamber c (R20). -/
def Ctx.pressureLevel (x : Ctx) (c : Chamber) : Nat :=
  match x.channelOfKind c .pressure with
  | none => 15
  | some h => if x.levels[c].checked then x.levels[c].levelOf (x.status c h).value else 15

/-! ### Step records -/

/-- A two-valued byte of a step record: 0 is no, 1 is yes (R153), another value is left open (log 9). -/
def readFlag (b : Byte) : Bool := if b.toNat = 0 then false else if b.toNat = 1 then true else Config.flagReading b

/-- The kind of a step record, if it is one of the five (R23). -/
def StepRecord.kindOf (r : StepRecord) : Option StepKind :=
  match r.kind.toNat with
  | 0 => some .timed
  | 1 => some .pumpTo
  | 2 => some .ventTo
  | 3 => some .strike
  | 4 => some .endOfSequence
  | _ => none

/-- The timeout action, absent for 0 and for a byte that is none of the three (R153). -/
def StepRecord.timeoutAction (r : StepRecord) : Option TimeoutAction :=
  match r.timeout.toNat with
  | 1 => some .toSafe
  | 2 => some .toHold
  | 3 => some .toAdvance
  | _ => none

/-- The END kind. -/
def StepRecord.isEnd (r : StepRecord) : Bool := r.kindOf == some .endOfSequence

/-- The kinds that end on a condition (Table 2-1). -/
def StepRecord.isConditioned (r : StepRecord) : Bool :=
  r.kindOf == some .pumpTo || r.kindOf == some .ventTo || r.kindOf == some .strike

/-- Whether the step claims roughing. -/
def StepRecord.claimsRoughing (r : StepRecord) : Bool := readFlag r.claims

/-- The loop part, absent when the target is 0xFFFF (R153). -/
def StepRecord.loopPart (r : StepRecord) : Option (Nat × Nat) :=
  if r.loopTarget = 0xFFFF then none else some (r.loopTarget, r.loopCount)

/-- The duration or deadline in µs (Table 2-1: units of 100 µs). -/
def StepRecord.dwell (r : StepRecord) : Nat := r.duration * 100

/-- The ramp time in µs: over R, or over D when R is absent (R84). -/
def StepRecord.rampTime (r : StepRecord) : Nat := (if r.ramp = 0 then r.duration else r.ramp) * 100

/-- A present entry of a setpoint list (R24). -/
structure Setpoint where
  channel : Chan
  target : Nat
  ramp : Bool
deriving DecidableEq, Repr

/-- The setpoint list: the present entries in position order (R24). A position naming a channel above 15 cannot stand in a
CHECKED record (R30) and is left out. -/
def StepRecord.setpoints (r : StepRecord) : List Setpoint :=
  r.entries.toList.filterMap fun e =>
    if h : e.channel.toNat < 16 then some ⟨⟨e.channel.toNat, h⟩, e.target, readFlag e.ramp⟩ else none

/-- The entry of the list that names channel h. -/
def StepRecord.setpointFor (r : StepRecord) (h : Chan) : Option Setpoint := r.setpoints.find? fun e => e.channel == h

/-- Record i of the step pool; a number beyond the pool names no record and reads as an EMPTY one. -/
def Ctx.stepRecord (x : Ctx) (i : Nat) : StepRecord := if h : i < 512 then x.pool[i] else {}

/-- Record i of the step pool of a state. -/
def State.stepRecord (s : State) (i : Nat) : StepRecord := s.ctx.stepRecord i

/-! ### Value tables -/

/-- Sets the channels of the list entries to their targets. -/
def setTargets (entries : List Setpoint) (t : ValueTable) : ValueTable :=
  entries.foldl (fun t e => t.set e.channel.val e.target e.channel.isLt) t

/-! ### Engines, arbiter and notices of the plant -/

/-- The engine of chamber c. -/
def Plant.engine (p : Plant) (c : Chamber) : Engine := p.engines[c]

/-- The plant with chamber c's engine replaced. -/
def Plant.setEngine (p : Plant) (c : Chamber) (e : Engine) : Plant :=
  { p with engines := p.engines.set c.val e c.isLt }

/-- The reservation r[c] (R126). -/
def Plant.reservation (p : Plant) (c : Chamber) : Nat := p.arbiter.reservation[c]

/-- The allowance a[c] (R126). -/
def Plant.allowance (p : Plant) (c : Chamber) : Nat := p.arbiter.allowance[c]

/-- The plant with r[c] set. -/
def Plant.setReservation (p : Plant) (c : Chamber) (v : Nat) : Plant :=
  { p with arbiter := { p.arbiter with reservation := p.arbiter.reservation.set c.val v c.isLt } }

/-- The plant with chamber c's RF-permit line set. -/
def Plant.setPermit (p : Plant) (c : Chamber) (level : Bool) : Plant :=
  { p with permits := p.permits.set c.val level c.isLt }

/-- An occurrence at a notice slot: raised, merged, or not recorded (R169). -/
def NoticeSlot.occur (n : NoticeSlot) (detail cycle : Nat) : NoticeSlot :=
  if !n.enabled then n
  else if n.pending then { n with merge := min 255 (n.merge + 1), detail := detail, cycle := cycle }
  else { n with pending := true, merge := 1, detail := detail, cycle := cycle }

/-- The plant after an occurrence at slot i. -/
def Plant.raiseAt (p : Plant) (i : NoticeIndex) (detail cycle : Nat) : Plant :=
  { p with notices := p.notices.set i.val (p.notices[i].occur detail cycle) i.isLt }

/-- The place of a chamber's notice among its six (Table 10-1). -/
def ChamberNotice.place : ChamberNotice → Fin 6
  | .sequenceDone => 0
  | .stepTimeout => 1
  | .guardTrip => 2
  | .holdEntered => 3
  | .safeEntered => 4
  | .loadRefused => 5

/-- The slot of a chamber's notice: c × 6 + its place (Table 10-1). -/
def noticeSlot (c : Chamber) (n : ChamberNotice) : NoticeIndex := ⟨c.val * 6 + n.place.val, by omega⟩

/-- The slots of RING_LOST, RING_UP and TRAINING_REJECTED (Table 10-1). -/
def ringLostSlot : NoticeIndex := 24
def ringUpSlot : NoticeIndex := 25
def trainingRejectedSlot : NoticeIndex := 26

/-- Raises a chamber's notice in the plant (R169). -/
def Plant.notify (x : Ctx) (c : Chamber) (n : ChamberNotice) (detail : Nat) (p : Plant) : Plant :=
  p.raiseAt (noticeSlot c n) detail x.cycle

/-- The chamber that holds the roughing line. -/
def Plant.holder (p : Plant) : Option Chamber :=
  match p.arbiter.line with
  | .granted c => some c
  | .free | .settling _ => none

/-- Whether chamber c holds the roughing line. -/
def Plant.holds (p : Plant) (c : Chamber) : Bool := p.holder == some c

/-- The sum of the reservations. -/
def Plant.reserved (p : Plant) : Nat := (chambers.map p.reservation).sum

/-! ### Hold sources -/

/-- The set with a source added (R68). -/
def HoldSources.insert (h : HoldSources) : HoldSource → HoldSources
  | .controller => { h with controller := true }
  | .guard => { h with guard := true }
  | .ring => { h with ring := true }
  | .engine => { h with engine := true }

/-- The set after a RESUME: CONTROLLER, RING and ENGINE are removed (R74). -/
def HoldSources.afterResume (h : HoldSources) : HoldSources := { guard := h.guard }

/-- The set after the guard unit removes GUARD (R75). -/
def HoldSources.withoutGuard (h : HoldSources) : HoldSources := { h with guard := false }

/-- Whether the set is empty. -/
def HoldSources.isEmpty (h : HoldSources) : Bool := !h.controller && !h.guard && !h.ring && !h.engine

/-! ### The state -/

/-- The engine of chamber c. -/
def State.engine (s : State) (c : Chamber) : Engine := s.plant.engine c

/-- Channel h of chamber c. -/
def State.channel (s : State) (c : Chamber) (h : Chan) : Channel := s.channels[c][h]

/-- The state with channel h of chamber c replaced. -/
def State.setChannel (s : State) (c : Chamber) (h : Chan) (ch : Channel) : State :=
  { s with channels := s.channels.set c.val (s.channels[c].set h.val ch h.isLt) c.isLt }

/-- Guard entry g of chamber c. -/
def State.guardEntry (s : State) (c : Chamber) (g : GuardIndex) : GuardEntry := s.guards[c][g]

/-- The state with guard entry g of chamber c replaced. -/
def State.setGuard (s : State) (c : Chamber) (g : GuardIndex) (e : GuardEntry) : State :=
  { s with guards := s.guards.set c.val (s.guards[c].set g.val e g.isLt) c.isLt }

/-- Input line l. -/
def State.input (s : State) (l : Line) : InputLine := s.inputs[l]

/-- The state with input line l replaced. -/
def State.setInput (s : State) (l : Line) (i : InputLine) : State := { s with inputs := s.inputs.set l.val i l.isLt }

/-- The state with step record i replaced. -/
def State.setStep (s : State) (i : Fin 512) (r : StepRecord) : State := { s with pool := s.pool.set i.val r i.isLt }

/-- The state with chamber c's level table replaced. -/
def State.setLevel (s : State) (c : Chamber) (t : LevelTable) : State :=
  { s with levels := s.levels.set c.val t c.isLt }

/-- The state with slot map entry k replaced. -/
def State.setSlot (s : State) (k : Fin 128) (u : SlotUse) : State :=
  { s with slotMap := s.slotMap.set k.val u k.isLt }

/-- An event at the engines and the arbiter, in the context of the state it is taken in. -/
def State.onPlant (s : State) (f : Ctx → Plant → Plant) : State := { s with plant := f s.ctx s.plant }

/-- The timebase at the taking of an event whose time is t: it never runs back (R15, log 1). -/
def State.advanceTo (s : State) (t : Nat) : State := { s with now := max s.now t }

/-- Raises a notice that belongs to no chamber (R169). -/
def State.notifyRing (s : State) (i : NoticeIndex) (detail : Nat) : State :=
  s.onPlant fun x p => p.raiseAt i detail x.cycle

/-- The ring is up while the tracker is in TRAINING or TRACKING (R146). -/
def Ring.up (r : Ring) : Bool := r.state == .training || r.state == .tracking

/-- Every engine is IDLE (R2). -/
def State.allIdle (s : State) : Bool := chambers.all fun c => (s.engine c).state == .idle

end Sys2Proof.Machine
end

