-- ==== Sys2Proof/Machine/Flags.lean ====
section
/-! DEFINITION. The flag computations: gate flags of a computed slot (R91, R92), node flags (R12, R94), the report word (R95),
codes of states and sources, and the RF-permit lines (R117). -/

namespace Sys2Proof.Machine

/-- The gate flags of a computed slot as its flag byte: bit 0 SUBSTITUTED, bit 1 CLAMPED, bit 2 FORCED, bits 3..7 written 0
(R92, R140). -/
def gateFlags (substituted clamped forced : Bool) : Byte :=
  BitVec.ofNat 8 ((if substituted then 1 else 0) + (if clamped then 2 else 0) + (if forced then 4 else 0))

/-- A reading is valid when NODE_VALID (bit 0) is set and NODE_FAULT (bit 1) is clear (R12). -/
def nodeReadingValid (flags : Byte) : Bool := flags.getLsbD 0 && !flags.getLsbD 1

/-- The node flags of a written REPORT slot: NODE_VALID set, NODE_FAULT cleared, bits 2..7 as received (R94). -/
def reportNodeFlags (flags : Byte) : Byte := (flags ||| 1#8) &&& 0xFD#8

/-- The code of an engine state (R95, R153). -/
def EngineState.code : EngineState → Nat
  | .idle => 0
  | .waiting => 1
  | .running => 2
  | .held => 3
  | .safe => 4
  | .done => 5

/-- The bits of a hold-source set: 0 CONTROLLER, 1 GUARD, 2 RING, 3 ENGINE (R95). -/
def HoldSources.bits (h : HoldSources) : Nat :=
  (if h.controller then 1 else 0) + (if h.guard then 2 else 0) + (if h.ring then 4 else 0) + (if h.engine then 8 else 0)

/-- The report word of an engine: state in bits 15..13, step index in 12..4, hold sources in 3..0 (R95). -/
def reportWord (e : Engine) : Half := BitVec.ofNat 16 (e.state.code * 8192 + e.step % 512 * 16 + e.sources.bits)

/-- What RF-permit line c carries: asserted only while the ring is up and chamber c is not SAFE (R117). -/
def permitLevel (ringUp : Bool) (e : EngineState) : Bool := ringUp && e != .safe

/-- The four RF-permit lines driven to what R117 gives for the tracker and the engine states as they stand. -/
def State.drivePermits (s : State) : State :=
  { s with plant :=
      { s.plant with permits := Vector.ofFn fun c : Fin 4 => permitLevel s.ring.up (s.engine c).state } }

end Sys2Proof.Machine
end

