-- ==== Sys2Proof/Machine/Arbiter.lean ====
section
/-! DEFINITION. The arbiter's own operations (Chapter 7): claims, withdrawals, the choice a selection makes, and the tests of a
growth request. What a grant sets going in an engine is in Machine/Engine.lean. -/

namespace Sys2Proof.Machine

/-- The plant with the arbiter's line and roughing queue set. -/
def Plant.setLine (p : Plant) (line : LineState) (queue : List Chamber) : Plant :=
  { p with arbiter := { p.arbiter with line := line, queue := queue } }

/-- The plant with the abatement queue set. -/
def Plant.setGrowth (p : Plant) (growth : List GrowthRequest) : Plant :=
  { p with arbiter := { p.arbiter with growth := growth } }

/-- A roughing claim for chamber c, by the line state (R121). -/
def claimLine (c : Chamber) (p : Plant) : Plant :=
  match p.arbiter.line with
  | .free => p.setLine (.granted c) p.arbiter.queue
  | .granted o => if o = c ∨ c ∈ p.arbiter.queue then p else p.setLine p.arbiter.line (p.arbiter.queue ++ [c])
  | .settling _ => if c ∈ p.arbiter.queue then p else p.setLine p.arbiter.line (p.arbiter.queue ++ [c])

/-- The withdrawal of chamber c's entry from the roughing queue (R122). -/
def withdrawLine (c : Chamber) (p : Plant) : Plant :=
  p.setLine p.arbiter.line (p.arbiter.queue.filter (· ≠ c))

/-- The withdrawal of chamber c's request from the abatement queue (R131). -/
def withdrawGrowth (c : Chamber) (p : Plant) : Plant :=
  p.setGrowth (p.arbiter.growth.filter fun g => g.chamber ≠ c)

/-- The withdrawal of chamber c from both queues (R61, R63, R70). -/
def withdrawBoth (c : Chamber) (p : Plant) : Plant := withdrawGrowth c (withdrawLine c p)

/-- The chamber a selection chooses: the lowest priority value, the earliest of those (R123). -/
def chooseChamber (priority : Vector Nat 4) : List Chamber → Option Chamber
  | [] => none
  | c :: rest =>
    match chooseChamber priority rest with
    | none => some c
    | some d => if priority[d] < priority[c] then some d else some c

/-- The chamber a selection would choose as the queue and the priorities stand (R123). -/
def Plant.chosen (p : Plant) : Option Chamber := chooseChamber p.arbiter.priority p.arbiter.queue

/-- The allowances of the chambers other than c together (R46). -/
def otherAllowances (p : Plant) (c : Chamber) : Nat := ((others c).map p.allowance).sum

/-- The reservations of the chambers other than c together (R129). -/
def otherReservations (p : Plant) (c : Chamber) : Nat := ((others c).map p.reservation).sum

/-- A requested reservation that can never be granted, because the other chambers may hold their allowances for ever
(R46). -/
def neverFits (p : Plant) (c : Chamber) (requested : Nat) : Bool :=
  p.arbiter.budget < requested + otherAllowances p c

/-- The head fits: its r′ plus the reservations of the other three is at most B (R129, test 1). -/
def headFits (p : Plant) (g : GrowthRequest) : Bool :=
  g.requested + otherReservations p g.chamber ≤ p.arbiter.budget

/-- Whether chamber o stands in the abatement queue. -/
def Plant.queuedForGrowth (p : Plant) (o : Chamber) : Bool := p.arbiter.growth.any fun g => g.chamber == o

/-- The head is stuck: r′ plus the reservations of the other chambers in the queue and the allowances of those not in it
exceeds B (R129, test 2). -/
def headStuck (p : Plant) (g : GrowthRequest) : Bool :=
  p.arbiter.budget < g.requested +
    ((others g.chamber).map fun o => if p.queuedForGrowth o then p.reservation o else p.allowance o).sum

end Sys2Proof.Machine
end

