-- ==== Sys2Proof/Machine/Engine.lean ====
section
/-! DEFINITION. The sequence engines (Chapters 3 and 4) with the grants of the arbiter (Chapter 7): step boundary, RUNNING
entry, step end, hold entry and leaving, SAFE entry, and the examination of the abatement queue.

These call one another in a ring: a release can grant the line to an engine, whose RUNNING entry can end its step at once
when it resumes with no time left (R77), whose next boundary can release, shrink or grow. The ring is cut at that one place:
every operation takes `expire`, what to do with the dwell timer of an engine that enters RUNNING with no time left, and
`expireWithin n` ties it n expiries deep. A hold record is used up by each such expiry, so there is at most one for each chamber in an
event, and `expireNow` is four deep (log 7). -/

namespace Sys2Proof.Machine

/-- What is done with the dwell timer of an engine that enters RUNNING with no time left. -/
abbrev Expire := Chamber → Plant → Plant

/-! ### Outputs of a hold -/

/-- The hold outputs formed on an output table (R71). -/
def holdOutputs (x : Ctx) (c : Chamber) (t : ValueTable) : ValueTable :=
  Vector.ofFn fun h : Fin 16 =>
    let r := x.record c h
    if r.kind.isSetpoint && r.holdBehaviour == .safeValue then r.safeValue else t[h]

/-- The resume values of a hold record (R76): held from RUNNING, the channels of the held step's list take their start table
values. -/
def resumeValues (x : Ctx) (r : HoldRecord) : ValueTable :=
  match r.heldFrom with
  | .waiting => r.outputTable
  | .running =>
    Vector.ofFn fun h : Fin 16 =>
      match (x.stepRecord r.step).setpointFor h with
      | some _ => r.startTable[h]
      | none => r.outputTable[h]

/-- The output table as SAFE entry leaves it (R61). -/
def safeOutputs (x : Ctx) (c : Chamber) : ValueTable :=
  Vector.ofFn fun h : Fin 16 => if (x.record c h).kind.isSetpoint then (x.record c h).safeValue else 0

/-- The output table START loads: carried values of setpoint channels, 0 for the others (R43). -/
def carriedOutputs (x : Ctx) (c : Chamber) : ValueTable :=
  Vector.ofFn fun h : Fin 16 => if (x.record c h).kind.isSetpoint then (x.status c h).carried else 0

/-! ### Entering RUNNING, WAITING and DONE -/

/-- The context of a step that enters RUNNING afresh from the output table t, at time `now` (R49). -/
def Engine.runFresh (e : Engine) (now : Nat) (r : StepRecord) (t : ValueTable) : Engine :=
  { e with
    state := .running, awaited := .nothing, startTime := now, timer := some (now + r.dwell), counter := 0
    startTable := t, outputTable := setTargets (r.setpoints.filter fun s => !s.ramp) t, hold := none }

/-- The elapsed time a resumed step starts from (R77). -/
def HoldRecord.resumeElapsed (r : HoldRecord) : Nat :=
  match r.mode with
  | .continue => r.elapsed
  | .restart => 0

/-- The context of a step held from RUNNING that enters RUNNING again (R77). -/
def Engine.runResumed (e : Engine) (now : Nat) (r : StepRecord) (h : HoldRecord) (t : ValueTable) : Engine :=
  { e with
    state := .running, awaited := .nothing, startTime := now - h.resumeElapsed
    timer := some (now + (r.dwell - h.resumeElapsed)), counter := 0
    outputTable := setTargets (r.setpoints.filter fun s => !s.ramp) t, hold := none }

/-- RUNNING entry of chamber c for its current step, both resources settled (R49, R77). A resumed step with no time left has
its dwell expiry in the same event. -/
def runStep (x : Ctx) (expire : Expire) (c : Chamber) (p : Plant) : Plant :=
  let e := p.engine c
  let r := x.stepRecord e.step
  match e.hold with
  | none => p.setEngine c (e.runFresh x.now r e.outputTable)
  | some h =>
    match h.heldFrom with
    | .waiting => p.setEngine c (e.runFresh x.now r (resumeValues x h))
    | .running =>
      let p := p.setEngine c (e.runResumed x.now r h (resumeValues x h))
      if r.dwell - h.resumeElapsed = 0 then expire c p else p

/-- The engine enters WAITING for a resource; with a resume pending its output table takes the hold outputs formed on the
resume values (R78). -/
def waitFor (x : Ctx) (c : Chamber) (a : Awaited) (p : Plant) : Plant :=
  let e := p.engine c
  let t := match e.hold with
    | none => e.outputTable
    | some h => holdOutputs x c (resumeValues x h)
  p.setEngine c { e with state := .waiting, awaited := a, outputTable := t }

/-- The END record is settled: END targets set, DONE entered, range given up, SEQUENCE_DONE raised (R50, R77). -/
def finishSequence (x : Ctx) (c : Chamber) (p : Plant) : Plant :=
  let e := p.engine c
  let t := match e.hold with
    | none => e.outputTable
    | some h => resumeValues x h
  (p.setEngine c
    { e with
      state := .done, awaited := .nothing, timer := none, range := none, hold := none
      outputTable := setTargets (x.stepRecord e.step).setpoints t }).notify x c .sequenceDone e.step

/-! ### The roughing line -/

/-- The grant handed to the chosen chamber: an engine WAITING for LINE enters RUNNING, an IDLE chamber holds the line
(R124). -/
def handLine (x : Ctx) (expire : Expire) (c : Chamber) (p : Plant) : Plant :=
  if (p.engine c).state = .waiting ∧ (p.engine c).awaited = .line then runStep x expire c p else p

/-- The line granted to a queued chamber, which leaves the queue, and the grant handed on (R123, R124). -/
def grantLine (x : Ctx) (expire : Expire) (c : Chamber) (p : Plant) : Plant :=
  handLine x expire c (p.setLine (.granted c) (p.arbiter.queue.filter (· ≠ c)))

/-- A selection (R123). -/
def selectLine (x : Ctx) (expire : Expire) (p : Plant) : Plant :=
  match p.chosen with
  | none => p.setLine .free p.arbiter.queue
  | some c => grantLine x expire c p

/-- The release of the line by chamber c, if it holds it (R122): SETTLING, or with settle time 0 FREE and a selection. -/
def releaseLine (x : Ctx) (expire : Expire) (c : Chamber) (p : Plant) : Plant :=
  if p.holds c then
    if p.arbiter.settleTime = 0 then selectLine x expire (p.setLine .free p.arbiter.queue)
    else p.setLine (.settling (x.now + p.arbiter.settleTime * 1000)) p.arbiter.queue
  else p

/-- The end of an IDLE chamber's implicit claim: a release of the line it holds, or a withdrawal from the queue (R90). -/
def endIdleClaim (x : Ctx) (expire : Expire) (c : Chamber) (p : Plant) : Plant :=
  if p.holds c then releaseLine x expire c p else withdrawLine c p

/-- The roughing line considered for the current step, its reservation settled (R48), and END settled (R50). -/
def considerLine (x : Ctx) (expire : Expire) (c : Chamber) (p : Plant) : Plant :=
  let r := x.stepRecord (p.engine c).step
  if r.isEnd then finishSequence x c (releaseLine x expire c p)
  else if r.claimsRoughing then
    let q := claimLine c p
    if q.holds c then runStep x expire c q else waitFor x c .line q
  else runStep x expire c (releaseLine x expire c p)

/-! ### Hold entry -/

/-- The hold record written at hold entry (R69): a record already present is kept with elapsed 0 and mode CONTINUE; a step
held from RUNNING saves its elapsed time, or D × 100 at TO_HOLD. -/
def Engine.writeHold (e : Engine) (now : Nat) (r : StepRecord) (atDeadline : Bool) : HoldRecord :=
  match e.hold with
  | some h => { h with elapsed := 0, mode := .continue }
  | none =>
    { heldFrom := if e.state = .running then .running else .waiting
      step := e.step
      elapsed := if e.state = .running then (if atDeadline then r.dwell else min (now - e.startTime) r.dwell) else 0
      loops := e.loops, startTable := e.startTable, outputTable := e.outputTable, mode := .continue }

/-- r[c] becomes a[c] (R61, R63, R64, R70). -/
def returnReservation (c : Chamber) (p : Plant) : Plant := p.setReservation c (p.allowance c)

/-- What a chamber gives up at hold entry, SAFE entry and ABORT, in this order (R61, R63, R70): its queue entries, the line,
and the reservation beyond its allowance, with the examination that follows. -/
def giveBack (x : Ctx) (expire : Expire) (examine : Plant → Plant) (c : Chamber) (p : Plant) : Plant :=
  examine (returnReservation c (releaseLine x expire c (withdrawBoth c p)))

/-- Hold entry of chamber c with its first source (R70), in the order of that rule. `examine` is the examination of step 5,
which the hold entry of a stuck head does not make (R129). -/
def enterHold (x : Ctx) (expire : Expire) (examine : Plant → Plant) (c : Chamber) (source : HoldSource)
    (atDeadline : Bool) (p : Plant) : Plant :=
  let e := p.engine c
  let p := p.setEngine c
    { e with hold := some (e.writeHold x.now (x.stepRecord e.step) atDeadline)
             timer := none, counter := 0, awaited := .nothing }
  let p := giveBack x expire examine c p
  let e := p.engine c
  (p.setEngine c
    { e with state := .held, sources := HoldSources.insert {} source, outputTable := holdOutputs x c e.outputTable }).notify
    x c .holdEntered e.step

/-! ### The abatement queue -/

/-- One head of the abatement queue acted upon (R129): served when it fits, held with LOAD_REFUSED when it is stuck; none
when the examination ends. -/
def examineHead (x : Ctx) (expire : Expire) (p : Plant) : Option Plant :=
  match p.arbiter.growth with
  | [] => none
  | g :: rest =>
    if headFits p g then
      let q := (p.setReservation g.chamber g.requested).setGrowth rest
      if (q.engine g.chamber).state = .waiting ∧ (q.engine g.chamber).awaited = .growth then
        some (considerLine x expire g.chamber q)
      else some q
    else if headStuck p g then
      some ((enterHold x expire id g.chamber .engine false p).notify x g.chamber .loadRefused (p.engine g.chamber).step)
    else none

/-- An examination that takes at most n heads. -/
def examineHeads (x : Ctx) (expire : Expire) : Nat → Plant → Plant
  | 0, p => p
  | n + 1, p =>
    match examineHead x expire p with
    | none => p
    | some q => examineHeads x expire n q

/-- An examination of the abatement queue (R129). Each head taken leaves the queue, and at most four requests can join it
while it runs, one for each chamber whose resumed step ends at once (log 7). -/
def examineGrowth (x : Ctx) (expire : Expire) (p : Plant) : Plant :=
  examineHeads x expire (p.arbiter.growth.length + 5) p

/-! ### Sources added and the step boundary -/

/-- The addition of a hold source by the engine's state (R68). -/
def addSource (x : Ctx) (expire : Expire) (c : Chamber) (source : HoldSource) (atDeadline : Bool) (p : Plant) : Plant :=
  let e := p.engine c
  match e.state with
  | .running | .waiting => enterHold x expire (examineGrowth x expire) c source atDeadline p
  | .held => p.setEngine c { e with sources := e.sources.insert source }
  | .idle | .done | .safe => p

/-- The load of a step for chamber c from the output table as it stands (R45). -/
def stepLoad (x : Ctx) (c : Chamber) (r : StepRecord) (t : ValueTable) : Nat :=
  min 65535 ((sixteen.map fun h =>
    if (x.record c h).kind = .gasFlow then
      flowLoad (match r.setpointFor h with
        | some s => max t[h] s.target
        | none => t[h]) (x.record c h).weight
    else 0).sum)

/-- The requested reservation r′ = max(a[c], L) of the current step (R46). -/
def requestedReservation (x : Ctx) (c : Chamber) (p : Plant) : Nat :=
  max (p.allowance c) (stepLoad x c (x.stepRecord (p.engine c).step) (p.engine c).outputTable)

/-- The step boundary of chamber c for its current step (R45 to R50): refused when the load can never fit, settled at once
when the reservation need not grow, else a growth request. -/
def stepBoundary (x : Ctx) (expire : Expire) (c : Chamber) (p : Plant) : Plant :=
  let wanted := requestedReservation x c p
  if neverFits p c wanted then
    let e := p.engine c
    (enterHold x expire (examineGrowth x expire) c .engine false
      (p.setEngine c { e with state := .waiting, awaited := .nothing })).notify x c .loadRefused e.step
  else if wanted ≤ p.reservation c then
    let q := p.setReservation c wanted
    considerLine x expire c (if wanted < p.reservation c then examineGrowth x expire q else q)
  else
    let p := waitFor x c .growth (releaseLine x expire c p)
    examineGrowth x expire (p.setGrowth (p.arbiter.growth ++ [⟨c, wanted⟩]))

/-! ### Ending a step -/

/-- The loop part of a step applied at its end: the loop stack and the next step index (R25, R59). -/
def applyLoop (step : Nat) (part : Option (Nat × Nat)) (loops : List LoopEntry) : List LoopEntry × Nat :=
  match part with
  | none => (loops, step + 1)
  | some (target, count) =>
    match loops with
    | top :: rest =>
      if top.step = step then
        if top.remaining ≤ 1 then (rest, step + 1) else ({ top with remaining := top.remaining - 1 } :: rest, target)
      else (⟨step, count⟩ :: loops, target)
    | [] => ([⟨step, count⟩], target)

/-- The end of chamber c's current step, by dwell expiry, condition or TO_ADVANCE (R58). -/
def endStep (x : Ctx) (expire : Expire) (c : Chamber) (p : Plant) : Plant :=
  let e := p.engine c
  let r := x.stepRecord e.step
  let next := applyLoop e.step r.loopPart e.loops
  stepBoundary x expire c (p.setEngine c
    { e with timer := none, outputTable := setTargets r.setpoints e.outputTable, loops := next.1, step := next.2 })

/-- SAFE entry of chamber c (R61), with its RF-permit line dropped in the same event (R117). -/
def enterSafe (x : Ctx) (expire : Expire) (c : Chamber) (p : Plant) : Plant :=
  let e := p.engine c
  let p := p.setEngine c { e with timer := none, counter := 0, awaited := .nothing }
  let p := giveBack x expire (examineGrowth x expire) c p
  let e := p.engine c
  ((p.setEngine c
    { e with state := .safe, hold := none, sources := {}, loops := [], range := none
             outputTable := safeOutputs x c }).setPermit c false).notify x c .safeEntered e.step

/-- The expiry of chamber c's running dwell timer (R52): a TIMED step ends, a conditioned step raises STEP_TIMEOUT and takes
its timeout action (R57). An engine that is not RUNNING, or whose timer is stopped, has no expiry. -/
def dwellEnds (x : Ctx) (expire : Expire) (c : Chamber) (p : Plant) : Plant :=
  let e := p.engine c
  let r := x.stepRecord e.step
  if e.state = .running ∧ e.timer.isSome then
    if r.isConditioned then
      let q := p.notify x c .stepTimeout e.step
      match r.timeoutAction with
      | some .toAdvance => endStep x expire c q
      | some .toHold => addSource x expire c .engine true q
      | some .toSafe => enterSafe x expire c q
      | none => q.setEngine c { e with timer := none }
    else endStep x expire c p
  else p

/-- The dwell expiry of an engine that entered RUNNING with no time left, at most n deep in one event; beyond that the timer
is left running with its expiry due, an event of its own (log 7). -/
def expireWithin (x : Ctx) : Nat → Chamber → Plant → Plant
  | 0, _, p => p
  | n + 1, c, p => dwellEnds x (expireWithin x n) c p

/-- The expiries of one event: at most one for each chamber. -/
def expireNow (x : Ctx) : Expire := expireWithin x 4

/-! ### Leaving a hold -/

/-- The leaving of the hold of chamber c (R76): context put back from the hold record, then the boundary of the held step. -/
def leaveHold (x : Ctx) (expire : Expire) (c : Chamber) (p : Plant) : Plant :=
  let e := p.engine c
  match e.hold with
  | none => stepBoundary x expire c p
  | some h =>
    stepBoundary x expire c (p.setEngine c
      { e with loops := h.loops, startTable := h.startTable, outputTable := resumeValues x h, step := h.step })

/-- The hold-source set of a HELD engine after a removal; when the removal empties it the hold is left (R67, R74, R75). -/
def removeSources (x : Ctx) (expire : Expire) (c : Chamber) (left : HoldSources) (p : Plant) : Plant :=
  let e := p.engine c
  let q := p.setEngine c { e with sources := left }
  if left.isEmpty then leaveHold x expire c q else q

/-! ### Step conditions -/

/-- The ratio of reflected to forward power in per mille (R55). -/
def powerRatio (forward reflected : Nat) : Nat := if forward = 0 then 1000 else reflected * 1000 / forward

/-- The current value of chamber c's channel of kind k; a chamber without one cannot run a step that needs it (R36). -/
def Ctx.valueOfKind (x : Ctx) (c : Chamber) (k : ChannelKind) : Nat :=
  match x.channelOfKind c k with
  | some h => (x.status c h).value
  | none => 0

/-- Whether the condition of a conditioned step is met (R55). -/
def conditionMet (x : Ctx) (c : Chamber) (r : StepRecord) : Bool :=
  match r.kindOf with
  | some .pumpTo => x.pressureLevel c ≤ r.level
  | some .ventTo => r.level ≤ x.pressureLevel c
  | some .strike =>
    let forward := x.valueOfKind c .rfForward
    r.minForward ≤ forward && powerRatio forward (x.valueOfKind c .rfReflected) ≤ r.ratio
  | some .timed | some .endOfSequence | none => false

/-- The condition of chamber c evaluated at a cycle close (R54): the counter rises or becomes 0, and the step ends when it
reaches the condition count (R56). -/
def evaluateCondition (x : Ctx) (expire : Expire) (c : Chamber) (p : Plant) : Plant :=
  let e := p.engine c
  let r := x.stepRecord e.step
  if e.state = .running ∧ r.isConditioned then
    if conditionMet x c r then
      let q := p.setEngine c { e with counter := e.counter + 1 }
      if r.count ≤ e.counter + 1 then endStep x expire c q else q
    else p.setEngine c { e with counter := 0 }
  else p

/-! ### Leaving a sequence -/

/-- ABORT taken by an engine that is not IDLE or SAFE (R63). -/
def abortEngine (x : Ctx) (expire : Expire) (c : Chamber) (p : Plant) : Plant :=
  let e := p.engine c
  let p := p.setEngine c { e with timer := none, counter := 0, awaited := .nothing }
  let p := giveBack x expire (examineGrowth x expire) c p
  let e := p.engine c
  p.setEngine c { e with state := .idle, hold := none, sources := {}, loops := [], range := none }

/-- RELEASE taken by a DONE engine (R64): it has the effect that ABORT has on such an engine, which stands in no queue and holds
nothing, so its condition counter goes to 0 and its loop stack is emptied (R63). -/
def releaseEngine (x : Ctx) (expire : Expire) (c : Chamber) (p : Plant) : Plant :=
  let e := p.engine c
  let p := examineGrowth x expire (returnReservation c (p.setEngine c { e with counter := 0 }))
  let e := p.engine c
  p.setEngine c { e with state := .idle, loops := [] }

/-- A START whose walk has passed, for the range [first, last] (R43, R44). A chamber that holds the line by an implicit claim
keeps it into the boundary. -/
def startEngine (x : Ctx) (expire : Expire) (c : Chamber) (first last : Nat) (p : Plant) : Plant :=
  let e := p.engine c
  stepBoundary x expire c (withdrawLine c (p.setEngine c
    { e with range := some (first, last), step := first, loops := [], sources := {}, counter := 0
             outputTable := carriedOutputs x c }))

end Sys2Proof.Machine
end

