-- ==== Sys2Proof/Machine/Guards.lean ====
section
/-! DEFINITION. The guard unit (Chapter 6): readings, scope, the movement of guard states, grace, what a trip does, and the
hold demand. -/

namespace Sys2Proof.Machine

/-- The class of a reading (R98). -/
inductive Reading where
  | trip | release | neither
deriving DecidableEq, Repr

/-- The kinds evaluated on input lines (R115). -/
def GuardKind.isInput : GuardKind → Bool
  | .inputHigh | .inputLow => true
  | .off | .levelAbove | .levelBelow | .valueAbove | .valueBelow | .deviation => false

/-- The frame-paced kinds (section 6.3). -/
def GuardKind.isFramePaced : GuardKind → Bool
  | .levelAbove | .levelBelow | .valueAbove | .valueBelow | .deviation => true
  | .off | .inputHigh | .inputLow => false

/-- The reading of an ABOVE kind (Table 6-2). -/
def readAbove (k : GuardConfig) (quantity : Nat) : Reading :=
  if k.trip < quantity then .trip else if quantity ≤ k.release then .release else .neither

/-- The reading of a BELOW kind (Table 6-2). -/
def readBelow (k : GuardConfig) (quantity : Nat) : Reading :=
  if quantity < k.trip then .trip else if k.release ≤ quantity then .release else .neither

/-- The GAS_FLOW channel a DEVIATION entry is judged against: the pair of its source, while that is a FLOW_READ channel with
its pair present (R99, R105, R106). -/
def Ctx.deviationPair (x : Ctx) (c : Chamber) (source : Chan) : Option Chan :=
  if (x.record c source).kind = .flowRead then (x.record c source).pair else none

/-- |f − s| (R106). -/
def distance (f s : Nat) : Nat := (f - s) + (s - f)

/-- Whether an entry's source satisfies the source rules of R99 (Table 6-3, orders 5 and 6), as the channel records stand. -/
def sourceHolds (x : Ctx) (c : Chamber) (k : GuardConfig) : Bool :=
  match k.kind with
  | .valueAbove | .valueBelow => (x.record c k.source).kind.isReadback
  | .deviation => (x.deviationPair c k.source).isSome
  | .off | .levelAbove | .levelBelow | .inputHigh | .inputLow => true

/-- The reading an entry takes for the reading of its source: one that has lost its source since it was written does not release
until it is rewritten (R105), whatever the source, put right, reads; whether it still takes a trip reading is a free value
(log 29). -/
def GuardEntry.takes (e : GuardEntry) (reading : Reading) : Reading :=
  if e.sourceLost then
    if Config.mendedSourceTrips then .trip else if reading = .release then .neither else reading
  else reading

/-- The reading of a frame-paced entry (R98); one whose source does not satisfy R99 takes a trip reading (R105). -/
def frameReading (x : Ctx) (c : Chamber) (e : GuardEntry) : Reading :=
  let k := e.config
  match k.kind with
  | .levelAbove => readAbove k (x.pressureLevel c)
  | .levelBelow => readBelow k (x.pressureLevel c)
  | .valueAbove =>
    if (x.record c k.source).kind.isReadback then e.takes (readAbove k (x.status c k.source).value) else .trip
  | .valueBelow =>
    if (x.record c k.source).kind.isReadback then e.takes (readBelow k (x.status c k.source).value) else .trip
  | .deviation =>
    match x.deviationPair c k.source with
    | none => .trip
    | some h =>
      let d := distance (x.status c k.source).value (x.status c h).carried
      e.takes (if e.lapse = none ∧ k.tolerance < d then .trip else if d ≤ k.release then .release else .neither)
  | .off | .inputHigh | .inputLow => .neither

/-- The reading of an INPUT entry on the accepted level of its line (R98). -/
def inputReading (accepted : Bool) (k : GuardConfig) : Reading :=
  match k.kind with
  | .inputHigh => if accepted then .trip else .release
  | .inputLow => if accepted then .release else .trip
  | .off | .levelAbove | .levelBelow | .valueAbove | .valueBelow | .deviation => .neither

/-- Whether entry g of a chamber is in scope for the state of its engine (R102). -/
def inScope (x : Ctx) (e : Engine) (g : GuardIndex) : Scope → Bool
  | .always => true
  | .runOnly => e.state == .running
  | .flagged => e.state == .running && (x.stepRecord e.step).guardMask.getLsbD g.val

/-- Table 6-5: a frame-paced guard state at a cycle close, with count C. -/
def moveFramePaced (count : Nat) (scope : Bool) (reading : Reading) : GuardState → GuardState
  | .clear =>
    if scope && reading == .trip then (if count ≤ 1 then .tripped else .counting 1) else .clear
  | .counting n =>
    if scope && reading == .trip then (if count ≤ n + 1 then .tripped else .counting (n + 1)) else .clear
  | .tripped => if reading = .release then (if count ≤ 1 then .clear else .releasing 1) else .tripped
  | .releasing n =>
    if reading = .release then (if count ≤ n + 1 then .clear else .releasing (n + 1)) else .tripped

/-- The movement of an INPUT entry (R115). COUNTING and RELEASING do not occur; they move as CLEAR and TRIPPED. -/
def moveInput (scope : Bool) (reading : Reading) : GuardState → GuardState
  | .clear | .counting _ => if scope && reading == .trip then .tripped else .clear
  | .tripped | .releasing _ => if reading = .release then .clear else .tripped

/-- Entry g of chamber c after one evaluation (R103 stage 2, R104, R115). -/
def evaluateEntry (s : State) (c : Chamber) (g : GuardIndex) : GuardEntry :=
  let e := s.guardEntry c g
  let scope := inScope s.ctx (s.engine c) g e.config.scope
  if e.config.kind.isFramePaced then
    { e with state := moveFramePaced e.config.count scope (frameReading s.ctx c e) e.state }
  else if e.config.kind.isInput then
    { e with state := moveInput scope (inputReading (s.input e.config.source).accepted e.config) e.state }
  else e

/-- Whether an entry has entered TRIPPED (R104, R108); the way back from RELEASING is left open (log 12). -/
def entersTripped (before after : GuardState) : Bool :=
  after == .tripped &&
    (match before with
      | .clear | .counting _ => true
      | .tripped => false
      | .releasing _ => Config.returnToTrippedIsTrip)

/-- The guard tables after the evaluation of the entries `which` selects. -/
def evaluateGuards (s : State) (which : Chamber → GuardIndex → Bool) : Vector (Vector GuardEntry 16) 4 :=
  Vector.ofFn fun c : Fin 4 => Vector.ofFn fun g : Fin 16 => if which c g then evaluateEntry s c g else s.guardEntry c g

/-- The entries that entered TRIPPED between two guard tables, chamber by chamber in index order and in entry order, each
with its action (R103 stage 3, R115). -/
def newTrips (before after : Vector (Vector GuardEntry 16) 4) : List (Chamber × GuardIndex × GuardAction) :=
  chambers.flatMap fun c => sixteen.filterMap fun g =>
    if entersTripped before[c][g].state after[c][g].state then some (c, g, after[c][g].config.action) else none

/-- The action of one trip (R108, R109): GUARD_TRIP, and SAFE entry for action SAFE unless the engine is SAFE. -/
def applyTrip (x : Ctx) (c : Chamber) (g : GuardIndex) (action : GuardAction) (p : Plant) : Plant :=
  let q := p.notify x c .guardTrip g.val
  if action = .safe ∧ (q.engine c).state ≠ .safe then enterSafe x (expireNow x) c q else q

/-- The actions of several trips, in order (R103 stage 3). -/
def applyTrips (x : Ctx) (trips : List (Chamber × GuardIndex × GuardAction)) (p : Plant) : Plant :=
  trips.foldl (fun p t => applyTrip x t.1 t.2.1 t.2.2 p) p

/-- TRIPPED or RELEASING. -/
def GuardState.standing : GuardState → Bool
  | .tripped | .releasing _ => true
  | .clear | .counting _ => false

/-- Whether a chamber has an entry of the given action TRIPPED or RELEASING (R65, R110). -/
def anyStanding (entries : Vector GuardEntry 16) (action : GuardAction) : Bool :=
  sixteen.any fun g => entries[g].config.action == action && entries[g].state.standing

/-- The hold demand of chamber c examined: GUARD added or removed (R110, R111, R75). -/
def examineDemand (x : Ctx) (guards : Vector (Vector GuardEntry 16) 4) (c : Chamber) (p : Plant) : Plant :=
  let e := p.engine c
  if anyStanding guards[c] .hold then
    if e.sources.guard then p else addSource x (expireNow x) c .guard false p
  else if e.state = .held ∧ e.sources.guard then removeSources x (expireNow x) c e.sources.withoutGuard p
  else p

/-- The hold demands of several chambers examined in order. -/
def examineDemands (x : Ctx) (guards : Vector (Vector GuardEntry 16) 4) (cs : List Chamber) (p : Plant) : Plant :=
  cs.foldl (fun p c => examineDemand x guards c p) p

/-- An evaluation of the selected entries with the actions of its trips, and the hold demands of the chambers `demands`
(R103 stages 1 to 4, R115). The scope of every entry is decided from the engine states before any action (R102). -/
def State.guardPass (s : State) (which : Chamber → GuardIndex → Bool) (demands : List Chamber) : State :=
  let guards := evaluateGuards s which
  let trips := newTrips s.guards guards
  { s with guards := guards, plant := examineDemands s.ctx guards demands (applyTrips s.ctx trips s.plant) }

/-- The grace state of an entry derived anew from the current pair's change time (R107, Derivation); an entry of another kind
has none. -/
def deriveGrace (x : Ctx) (c : Chamber) (e : GuardEntry) : Option Nat :=
  if e.config.kind = .deviation then
    match x.deviationPair c e.config.source with
    | none => none
    | some h =>
      let lapse := (x.status c h).changed + e.config.grace * 1000
      if lapse ≤ x.now then none else some lapse
  else none

/-- The guard entries of chamber c changed one by one. -/
def State.mapGuards (s : State) (c : Chamber) (f : GuardEntry → GuardEntry) : State :=
  { s with guards := s.guards.set c.val (Vector.ofFn fun g : Fin 16 => f s.guards[c][g]) c.isLt }

/-- The guard entries of a chamber at an accepted channel record write: their grace states derived anew (R107), and an entry
whose source no longer satisfies R99 marked until it is rewritten (R105). -/
def State.reviewGuards (s : State) (c : Chamber) : State :=
  s.mapGuards c fun e =>
    { e with lapse := deriveGrace s.ctx c e, sourceLost := e.sourceLost || !sourceHolds s.ctx c e.config }

/-- A new change time of channel h's carried value: the DEVIATION entries whose source names it as pair become IN_GRACE, or
ARMED with grace 0 (R107). -/
def State.restartGraces (s : State) (c : Chamber) (h : Chan) : State :=
  s.mapGuards c fun e =>
    if e.config.kind = .deviation ∧ s.ctx.deviationPair c e.config.source = some h then
      { e with lapse := deriveGrace s.ctx c e }
    else e

/-- Whether an entry watches input line l. -/
def watchesLine (s : State) (l : Line) (c : Chamber) (g : GuardIndex) : Bool :=
  let k := (s.guardEntry c g).config
  k.kind.isInput && k.source == l

/-- The acceptance of a level by line l: the accepted level becomes the raw level, the timer stops, and the input entries on
the line are evaluated (R114, R115). -/
def State.acceptLevel (s : State) (l : Line) : State :=
  let i := s.input l
  let s := s.setInput l { i with accepted := i.raw, timer := none }
  s.guardPass (watchesLine s l) chambers

end Sys2Proof.Machine
end

