-- ==== Sys2Proof/Machine/Operands.lean ====
section
/-! DEFINITION. The operand forms: the fields each table word carries, packed and unpacked as R153 lays down, and the codes of
the enumerated values. -/

namespace Sys2Proof.Machine

/-! ### Codes (R153, R154, Table 9-4) -/

/-- The channel kinds in the order that numbers them. -/
def channelKinds : List ChannelKind :=
  [.none, .gasFlow, .valve, .roughValve, .throttle, .rfPower, .setpoint, .pressure, .flowRead, .rfForward, .rfReflected,
   .readback]

/-- The code of a channel kind, its place in the order of R4. -/
def ChannelKind.code (k : ChannelKind) : Nat := channelKinds.idxOf k

/-- The guard source kinds in the order that numbers them (Table 6-1). -/
def guardKinds : List GuardKind :=
  [.off, .levelAbove, .levelBelow, .valueAbove, .valueBelow, .deviation, .inputHigh, .inputLow]

/-- The code of a guard source kind. -/
def GuardKind.code (k : GuardKind) : Nat := guardKinds.idxOf k

/-- The scopes in the order that numbers them. -/
def scopes : List Scope := [.always, .runOnly, .flagged]

/-- The guard actions in the order that numbers them. -/
def guardActions : List GuardAction := [.note, .hold, .safe]

/-- The code of a result (Table 9-4). -/
def Result.code : Result → Nat
  | .accepted => 0
  | .noObject => 1
  | .badValue => 2
  | .readOnly => 3
  | .inUse => 4
  | .locked => 5
  | .wrongState => 6
  | .notChecked => 7
  | .badSequence => 8
  | .stillTripped => 9
  | .overBudget => 10
  | .duplicate => 11

/-- The code of an awaited resource (R153). -/
def Awaited.code : Awaited → Nat
  | .nothing => 0
  | .growth => 1
  | .line => 2

/-- The code of a tracker state (R153). -/
def TrackerState.code : TrackerState → Nat
  | .seeking => 0
  | .training => 1
  | .tracking => 2
  | .lost => 3

/-! ### Fields of a request -/

/-- Byte i of the data of a request. -/
def Request.byte (r : Request) (i : Nat) : Nat := byteAt r.data.toList i

/-- The number in `count` data bytes from `offset`. -/
def Request.number (r : Request) (offset count : Nat) : Nat := numberAt r.data.toList offset count

/-- The chamber mask of a request names chamber c (R153). -/
def Request.names (r : Request) (c : Chamber) : Bool := r.index.getLsbD c.val

/-- A bit of the index above bit 3 is set (R162). -/
def Request.badMask (r : Request) : Bool := 16 ≤ r.index.toNat

/-! ### SLOT_MAP -/

/-- Word 0 of a slot map entry: kind, chamber, channel; a field the assignment does not have is absent (log 13). -/
def SlotUse.data : SlotUse → Data
  | .unmapped => packData (be1 0 ++ be1 0xFF ++ be1 0xFF)
  | .channel c h => packData (be1 1 ++ be1 c.val ++ be1 h.val)
  | .report c => packData (be1 2 ++ be1 c.val ++ be1 0xFF)

/-- The assignment a request carries, or the code of the field that makes it BAD_VALUE (R2, Table 9-5). With several fields out of
range at once it names the first in the order kind, chamber, channel (log 30). -/
def Request.slotUse (r : Request) : Except Nat SlotUse :=
  match r.byte 0 with
  | 0 => .ok .unmapped
  | 1 =>
    if hc : r.byte 1 < 4 then
      if hh : r.byte 2 < 16 then .ok (.channel ⟨r.byte 1, hc⟩ ⟨r.byte 2, hh⟩) else .error 3
    else .error 2
  | 2 => if hc : r.byte 1 < 4 then .ok (.report ⟨r.byte 1, hc⟩) else .error 2
  | _ => .error 1

/-! ### CHANNEL (Table 1-2, R9) -/

/-- The byte of an optional channel index: 0xFF when absent. -/
def pairByte : Option Chan → List Byte
  | none => be1 0xFF
  | some h => be1 h.val

/-- A word of a channel record or its status; words above 3 do not exist (R5, R9). -/
def Channel.wordData (ch : Channel) (word : Nat) : Option Data :=
  let r := ch.record
  match word with
  | 0 => some (packData (be1 r.kind.code ++ flagByte (r.owner == .controller) ++ flagByte (r.holdBehaviour == .keep)
      ++ be1 r.weight ++ pairByte r.pair))
  | 1 => some (packData (be2 r.fullScale ++ be2 r.wordFullScale ++ be2 r.lo ++ be2 r.hi))
  | 2 => some (packData (be2 r.safeValue ++ be1 r.staleLimit ++ be2 r.failValue))
  | 3 => some (
      if r.kind.isReadback then
        packData (be2 ch.status.value ++ be1 ch.status.missing ++ flagByte ch.status.stale)
      else if r.kind.isSetpoint then packData (be2 ch.status.carried ++ be4 ch.status.changed)
      else zeroData)
  | _ => none

/-- A channel record with the fields of one word replaced by those of a request, or the code of the first field outside its
stored range (Table 1-2, Table 9-5). That the first is taken in the order of Table 1-2 is the model's choice (log 30). -/
def Request.channelRecord (q : Request) (word : Nat) (r : ChannelRecord) : Except Nat ChannelRecord :=
  match word with
  | 0 =>
    match channelKinds[q.byte 0]? with
    | none => .error 1
    | some kind =>
      if 1 < q.byte 1 then .error 2
      else if 1 < q.byte 2 then .error 3
      else
        let owner := if q.byte 1 = 0 then Owner.sequence else .controller
        let hold := if q.byte 2 = 0 then HoldBehaviour.safeValue else .keep
        if h : q.byte 4 < 16 then
          .ok { r with kind := kind, owner := owner, holdBehaviour := hold, weight := q.byte 3
                       pair := some ⟨q.byte 4, h⟩ }
        else if q.byte 4 = 0xFF then
          .ok { r with kind := kind, owner := owner, holdBehaviour := hold, weight := q.byte 3, pair := none }
        else .error 5
  | 1 =>
    if q.number 0 2 = 0 then .error 6
    else if q.number 2 2 = 0 then .error 7
    else .ok { r with fullScale := q.number 0 2, wordFullScale := q.number 2 2, lo := q.number 4 2, hi := q.number 6 2 }
  | _ =>
    if q.byte 2 = 0 then .error 11
    else .ok { r with safeValue := q.number 0 2, staleLimit := q.byte 2, failValue := q.number 3 2 }

/-! ### STEP (Table 2-2) -/

/-- The four bytes of a setpoint entry. -/
def SetpointEntry.bytes (e : SetpointEntry) : List Byte := [e.channel] ++ be2 e.target ++ [e.ramp]

/-- The two entries of word 4 + g, positions 2g + 1 and 2g + 2. -/
def StepRecord.entryData (r : StepRecord) (g : Fin 4) : Data :=
  packData (r.entries[2 * g.val].bytes ++ r.entries[2 * g.val + 1].bytes)

/-- A word of a step record as stored (R23, R28); words above 7 do not exist. -/
def StepRecord.wordData (r : StepRecord) (word : Nat) : Option Data :=
  match word with
  | 0 => some (packData ([r.kind, r.claims, r.timeout] ++ be2 r.guardMask.toNat))
  | 1 => some (packData (be3 r.duration ++ be3 r.ramp))
  | 2 => some (packData (be1 r.level ++ be1 r.count ++ be2 r.ratio ++ be2 r.minForward))
  | 3 => some (packData (be2 r.loopTarget ++ be2 r.loopCount))
  | 4 => some (r.entryData 0)
  | 5 => some (r.entryData 1)
  | 6 => some (r.entryData 2)
  | 7 => some (r.entryData 3)
  | _ => none

/-- The setpoint entry a request carries at a byte offset. -/
def Request.setpointEntry (q : Request) (offset : Nat) : SetpointEntry where
  channel := BitVec.ofNat 8 (q.byte offset)
  target := q.number (offset + 1) 2
  ramp := BitVec.ofNat 8 (q.byte (offset + 3))

/-- A step record with two entries replaced by those of a request. -/
def Request.writeEntries (q : Request) (g : Fin 4) (r : StepRecord) : StepRecord :=
  { r with entries := (r.entries.set (2 * g.val) (q.setpointEntry 0)).set (2 * g.val + 1) (q.setpointEntry 4) }

/-- A step record with the fields of one word replaced by those of a request, whatever their values (R23, R26). -/
def Request.stepRecord (q : Request) (word : Nat) (r : StepRecord) : StepRecord :=
  match word with
  | 0 => { r with kind := BitVec.ofNat 8 (q.byte 0), claims := BitVec.ofNat 8 (q.byte 1)
                  timeout := BitVec.ofNat 8 (q.byte 2), guardMask := BitVec.ofNat 16 (q.number 3 2) }
  | 1 => { r with duration := q.number 0 3, ramp := q.number 3 3 }
  | 2 => { r with level := q.byte 0, count := q.byte 1, ratio := q.number 2 2, minForward := q.number 4 2 }
  | 3 => { r with loopTarget := q.number 0 2, loopCount := q.number 2 2 }
  | 4 => q.writeEntries 0 r
  | 5 => q.writeEntries 1 r
  | 6 => q.writeEntries 2 r
  | _ => q.writeEntries 3 r

/-! ### GUARD (Table 6-1, R101) -/

/-- The code and the count n of a guard state (R101). -/
def GuardState.fields : GuardState → Nat × Nat
  | .clear => (0, 0)
  | .counting n => (1, n)
  | .tripped => (2, 0)
  | .releasing n => (3, n)

/-- The grace state and lapse time of an entry, for DEVIATION (R101). -/
def GuardEntry.graceBytes (e : GuardEntry) : List Byte :=
  match e.lapse with
  | none => be1 0 ++ be4 0
  | some t => be1 1 ++ be4 t

/-- A word of a guard entry; words above 3 do not exist (R100, R101). -/
def GuardEntry.wordData (e : GuardEntry) (word : Nat) : Option Data :=
  let k := e.config
  match word with
  | 0 => some (packData (be1 k.kind.code ++ be1 k.source.val ++ be1 (scopes.idxOf k.scope)
      ++ be1 (guardActions.idxOf k.action) ++ be1 k.count))
  | 1 => some (packData (be2 k.trip ++ be2 k.release))
  | 2 => some (packData (be2 k.tolerance ++ be2 k.grace))
  | 3 => some (packData (be1 e.state.fields.1 ++ be1 e.state.fields.2
      ++ (if k.kind = .deviation then e.graceBytes else [])))
  | _ => none

/-- A guard entry's configuration with the fields of one word replaced by those of a request, or the code of the first field
outside its stored range (Table 6-1, Table 9-5). Kind, scope and action are read by their places in Table 6-1 (R153, log 14). -/
def Request.guardConfig (q : Request) (word : Nat) (k : GuardConfig) : Except Nat GuardConfig :=
  match word with
  | 0 =>
    match guardKinds[q.byte 0]? with
    | none => .error 1
    | some kind =>
      if hs : q.byte 1 < 16 then
        match scopes[q.byte 2]?, guardActions[q.byte 3]? with
        | none, _ => .error 3
        | some _, none => .error 4
        | some scope, some action =>
          if 15 < q.byte 4 then .error 5
          else .ok { k with kind := kind, source := ⟨q.byte 1, hs⟩, scope := scope, action := action, count := q.byte 4 }
      else .error 2
  | 1 => .ok { k with trip := q.number 0 2, release := q.number 2 2 }
  | _ => .ok { k with tolerance := q.number 0 2, grace := q.number 2 2 }

/-! ### LEVEL (R18) -/

/-- How many thresholds a word carries: four in words 0 to 2, three in word 3. -/
def thresholdsIn (word : Nat) : Nat := if word = 3 then 3 else 4

/-- A word of a chamber's level table; word 4 is the check state and the current level; words above 4 do not exist. -/
def levelWordData (x : Ctx) (c : Chamber) (word : Nat) : Option Data :=
  let t := x.levels[c]
  if word < 4 then
    some (packData (((t.thresholds.toList.drop (4 * word)).take (thresholdsIn word)).flatMap be2))
  else if word = 4 then some (packData (flagByte (!t.checked) ++ be1 (x.pressureLevel c)))
  else none

/-- A level table with the thresholds of one word replaced by those of a request; it becomes UNCHECKED (R18). -/
def Request.levelTable (q : Request) (word : Nat) (t : LevelTable) : LevelTable where
  thresholds := Vector.ofFn fun k : Fin 15 =>
    if k.val / 4 = word then q.number (2 * (k.val % 4)) 2 else t.thresholds[k]
  checked := false

/-! ### INPUT (R116) -/

/-- A timer's running flag and the low 32 bits of its expiry, 0 when it is stopped. -/
def timerBytes (t : Option Nat) : List Byte := flagByte t.isSome ++ be4 (t.getD 0)

/-- A level as the two-valued field of R153, high 1 and low 0 or the other way about (log 10). -/
def levelByte (high : Bool) : List Byte := flagByte (high == Config.highCarriesOne)

/-- A word of an input line; words above 1 do not exist. -/
def InputLine.wordData (i : InputLine) (word : Nat) : Option Data :=
  match word with
  | 0 => some (packData (be1 i.filter))
  | 1 => some (packData (levelByte i.raw ++ levelByte i.accepted ++ timerBytes i.timer))
  | _ => none

/-! ### ARBITER (R133) -/

/-- A word of table ARBITER. -/
def Arbiter.wordData (a : Arbiter) (index word : Nat) : Option Data :=
  if h : index < 4 then
    match word with
    | 0 => some (packData (be2 a.allowance[index]))
    | 1 => some (packData (be1 a.priority[index]))
    | _ => none
  else if index = 4 then
    match word with
    | 0 => some (packData (be2 a.budget))
    | 1 => some (packData (be2 a.settleTime))
    | _ => none
  else none

/-! ### RING and IDENT (R146, R166) -/

/-- A word of table RING. -/
def Ring.wordData (r : Ring) (word : Nat) : Option Data :=
  match word with
  | 0 => some (packData (be2 r.nominal))
  | 1 => some (packData (be1 r.survival))
  | 2 => some (packData (be1 r.state.code ++ be2 r.learned ++ be1 r.count ++ be4 r.sum))
  | _ => none

/-- A word of table IDENT. -/
def State.identData (s : State) (word : Nat) : Option Data :=
  match word with
  | 0 => some (packData (be2 Config.vendorCode ++ be2 Config.partCode ++ be1 Config.revision ++ [s.address]
      ++ flagByte s.lock))
  | 1 => some (packData (be2 s.ring.nominal ++ be2 s.ring.learned ++ be1 s.ring.state.code))
  | _ => none

/-! ### NOTICE (R170) -/

/-- A word of table NOTICE; index 27 has word 0 alone, the threshold. -/
def State.noticeData (s : State) (index word : Nat) : Option Data :=
  if h : index < 27 then
    let n := s.plant.notices[index]
    match word with
    | 0 => some (packData (be1 n.cls ++ flagByte n.enabled))
    | 1 => some (packData (flagByte n.pending ++ be1 n.merge ++ be2 n.detail ++ be2 n.cycle))
    | _ => none
  else if index = 27 ∧ word = 0 then some (packData (be1 s.threshold))
  else none

/-! ### STATE (R165, Table 9-6) -/

/-- The four values of channels 4g to 4g + 3. -/
def valueGroup (t : ValueTable) (g : Nat) : Data := packData (((t.toList.drop (4 * g)).take 4).flatMap be2)

/-- A loop stack entry, or the absent one. -/
def loopBytes : Option LoopEntry → List Byte
  | some l => be2 l.step ++ be2 l.remaining
  | none => be2 0xFFFF ++ be2 0

/-- A loop stack, bottom entry first. -/
def loopStackData (loops : List LoopEntry) : Data :=
  packData (loopBytes loops.reverse[0]? ++ loopBytes loops.reverse[1]?)

/-- Word 12 of an engine: the hold record, held-from state 0xFF when it is absent (log 13). -/
def holdData : Option HoldRecord → Data
  | none => packData (be1 0xFF)
  | some h => packData (
      be1 (match h.heldFrom with | .running => EngineState.running.code | .waiting => EngineState.waiting.code)
        ++ be2 h.step ++ flagByte (h.mode == .restart) ++ be4 h.elapsed)

/-- A word of an engine in table STATE. -/
def engineData (e : Engine) (permit : Bool) (word : Nat) : Option Data :=
  match word with
  | 0 => some (packData (be1 e.state.code ++ be2 e.step ++ be1 e.awaited.code ++ be1 e.sources.bits ++ be1 e.counter
      ++ flagByte e.timer.isSome ++ flagByte permit))
  | 1 => some (packData (match e.range with | some (a, b) => be2 a ++ be2 b | none => be2 0xFFFF ++ be2 0xFFFF))
  | 2 => some (loopStackData e.loops)
  | 3 => some (packData (be4 e.startTime ++ be4 (e.timer.getD 0)))
  | 4 | 5 | 6 | 7 => some (valueGroup e.outputTable (word - 4))
  | 8 | 9 | 10 | 11 => some (valueGroup e.startTable (word - 8))
  | 12 => some (holdData e.hold)
  | 13 => some (match e.hold with | some h => loopStackData h.loops | none => zeroData)
  | 14 | 15 | 16 | 17 => some (match e.hold with | some h => valueGroup h.startTable (word - 14) | none => zeroData)
  | 18 | 19 | 20 | 21 => some (match e.hold with | some h => valueGroup h.outputTable (word - 18) | none => zeroData)
  | _ => none

/-- The chamber byte of a queue position, 0xFF when the position is empty (log 13). -/
def chamberByte : Option Chamber → List Byte
  | some c => be1 c.val
  | none => be1 0xFF

/-- A request of the abatement queue: chamber and r′. -/
def growthBytes : Option GrowthRequest → List Byte
  | some g => be1 g.chamber.val ++ be2 g.requested
  | none => be1 0xFF ++ be2 0

/-- The line state, its holder and the settle expiry. -/
def lineBytes : LineState → List Byte
  | .free => be1 0 ++ be1 0xFF ++ be4 0
  | .granted c => be1 1 ++ be1 c.val ++ be4 0
  | .settling t => be1 2 ++ be1 0xFF ++ be4 t

/-- A word of the arbiter in table STATE (R138). -/
def arbiterStateData (p : Plant) (word : Nat) : Option Data :=
  let a := p.arbiter
  match word with
  | 0 => some (packData (lineBytes a.line))
  | 1 => some (packData (be1 a.queue.length ++ chamberByte a.queue[0]? ++ chamberByte a.queue[1]?
      ++ chamberByte a.queue[2]? ++ chamberByte a.queue[3]?))
  | 2 => some (packData (be1 a.growth.length ++ growthBytes a.growth[0]? ++ growthBytes a.growth[1]?))
  | 3 => some (packData (growthBytes a.growth[2]? ++ growthBytes a.growth[3]?))
  | 4 => some (packData (a.reservation.toList.flatMap be2))
  | 5 => some (packData (be2 a.budget ++ be2 (a.budget - p.reserved)))
  | _ => none

/-- A word of table STATE. -/
def State.stateData (s : State) (index word : Nat) : Option Data :=
  if h : index < 4 then engineData (s.engine ⟨index, h⟩) (s.plant.permits[index]) word
  else if index = 4 then arbiterStateData s.plant word
  else none

/-! ### The table directory (Table 9-3) -/

/-- The word of a table as it stands, none where the table, index or word does not exist (R157). -/
def State.tableWord (s : State) (table index word : Nat) : Option Data :=
  match table with
  | 1 => if h : index < 128 then (if word = 0 then some s.slotMap[index].data else none) else none
  | 2 => if h : index < 64 then (s.channel ⟨index / 16, by omega⟩ ⟨index % 16, by omega⟩).wordData word else none
  | 3 => if h : index < 512 then s.pool[index].wordData word else none
  | 4 => if h : index < 64 then (s.guardEntry ⟨index / 16, by omega⟩ ⟨index % 16, by omega⟩).wordData word else none
  | 5 => if h : index < 4 then levelWordData s.ctx ⟨index, h⟩ word else none
  | 6 => if h : index < 16 then (s.input ⟨index, h⟩).wordData word else none
  | 7 => s.plant.arbiter.wordData index word
  | 8 => if index = 0 then s.ring.wordData word else none
  | 9 => s.noticeData index word
  | 10 => s.stateData index word
  | 11 => if index = 0 then s.identData word else none
  | _ => none

end Sys2Proof.Machine
end

