-- ==== Sys2Proof/Machine/Ring.lean ====
section
/-! DEFINITION. The cycle tracker (sections 8.4 and 8.5): training window, judgement, ring watch, and ring loss. -/

namespace Sys2Proof.Machine

/-- The tracker with its training window emptied (R147). -/
def Ring.emptyWindow (r : Ring) : Ring := { r with lastArrival := none, count := 0, sum := 0 }

/-- The tracker moved by a good outbound arrival before the interval is counted: SEEKING and LOST go to TRAINING (R151). -/
def Ring.comeUp (r : Ring) : Ring :=
  match r.state with
  | .seeking => { r.emptyWindow with state := .training, learned := r.nominal, rejected := false }
  | .lost => { r.emptyWindow with state := .training, rejected := false }
  | .training | .tracking => r

/-- The interval of an arrival at `now` counted into the window (R147). -/
def Ring.countInterval (r : Ring) (now : Nat) : Ring :=
  match r.lastArrival with
  | none => { r with lastArrival := some now }
  | some last => { r with lastArrival := some now, count := r.count + 1, sum := r.sum + (now - last) }

/-- |M − N| ≤ floor(N / 10) (R148). -/
def Ring.meanWithinNominal (r : Ring) (m : Nat) : Bool := (m - r.nominal) + (r.nominal - m) ≤ r.nominal / 10

/-- A complete window judged, with the mean to report when TRAINING_REJECTED is raised (R148). -/
def Ring.judge (r : Ring) : Ring × Option Nat :=
  let m := r.sum / 64
  let r := { r with count := 0, sum := 0 }
  if r.state = .tracking then
    if r.meanWithinNominal m then
      ({ r with rejected := false
                learned := if r.learned / 100 ≤ (m - r.learned) + (r.learned - m) then m else r.learned }, none)
    else ({ r with rejected := true }, if r.rejected then none else some m)
  else if r.meanWithinNominal m then ({ r with state := .tracking, learned := m }, none)
  else (r, some m)

/-- The tracker after a good outbound arrival at `now`, with the mean of a window that was rejected (R147 to R149, R151). -/
def Ring.arrive (r : Ring) (now : Nat) : Ring × Option Nat :=
  let r := r.comeUp.countInterval now
  let judged := if 64 ≤ r.count then r.judge else (r, none)
  ({ judged.1 with watch := some (now + judged.1.survival * judged.1.learned) }, judged.2)

/-- A good outbound arrival taken by the cycle tracker (step 1 of R143): RING_UP when the ring was lost, TRAINING_REJECTED
when a window was rejected, RF permits following the ring state (R117). -/
def State.arrival (s : State) : State :=
  let wasLost := s.ring.state == .lost
  let (r, rejected) := s.ring.arrive s.now
  let s := { s with ring := r }.drivePermits
  let s := if wasLost then s.notifyRing ringUpSlot 0 else s
  match rejected with
  | none => s
  | some m => s.notifyRing trainingRejectedSlot (min m 65535)

/-- A bad frame restarts the training window and changes nothing else (R142, R147). -/
def State.badFrame (s : State) : State := { s with ring := s.ring.emptyWindow }

/-- What ring loss does to one chamber (step 4 of R150). -/
def loseRing (x : Ctx) (expire : Expire) (c : Chamber) (p : Plant) : Plant :=
  match (p.engine c).state with
  | .running | .waiting | .held => addSource x expire c .ring false p
  | .idle => endIdleClaim x expire c p
  | .done | .safe => p

/-- The ring is lost at the expiry of the ring watch (R150). -/
def State.loseRing (s : State) : State :=
  let s := s.notifyRing ringLostSlot 0
  let s := { s with ring := { s.ring.emptyWindow with state := .lost, watch := none, openCycle := none } }.drivePermits
  s.onPlant fun x p => chambers.foldl (fun p c => Sys2Proof.Machine.loseRing x (expireNow x) c p) p

/-- An accepted write of N (R146): P = N, the window emptied, the rejection flag cleared, TRACKING back to TRAINING. -/
def Ring.writeNominal (r : Ring) (n : Nat) : Ring :=
  { r.emptyWindow with
    nominal := n, learned := n, rejected := false, state := if r.state = .tracking then .training else r.state }

/-- The tracker and open-cycle record after a soft reset (R146, section 8.3). -/
def Ring.softReset (r : Ring) : Ring :=
  { r.emptyWindow with
    state := .seeking, learned := r.nominal, rejected := false, watch := none, openCycle := none }

end Sys2Proof.Machine
end

