-- ==== Sys2Proof/Machine/Sequences.lean ====
section
/-! DEFINITION. The rules of CHECK on step records (R30) and the START walk (R31 to R37). -/

namespace Sys2Proof.Machine

/-- The label of the first broken rule of a list of rules, each given as whether it is broken and its label. -/
def firstBroken {α : Type} : List (Bool × α) → Option α
  | [] => none
  | (broken, label) :: rest => if broken then some label else firstBroken rest

/-! ### CHECK on a step record -/

/-- A present position of a setpoint list breaks rule 11 of Table 2-3: its channel is above 15, or an earlier present position
names it. -/
def entryBroken (earlier : List SetpointEntry) (e : SetpointEntry) : Bool :=
  e.channel != 0xFF#8 && (15 < e.channel.toNat || earlier.any fun d => d.channel == e.channel)

/-- The lowest position that breaks rule 11, counted from `position` (Table 2-3). -/
def firstBrokenEntry (position : Nat) (earlier : List SetpointEntry) : List SetpointEntry → Option Nat
  | [] => none
  | e :: rest => if entryBroken earlier e then some position else firstBrokenEntry (position + 1) (earlier ++ [e]) rest

/-- The first rule of Table 2-3 that record i breaks: the field code (the order of the rule) and, for rule 11, the setpoint
entry position. -/
def checkFault (i : Nat) (r : StepRecord) : Option (Nat × Nat) :=
  let timedOrEnd := !r.isConditioned
  let levelled := r.kindOf == some .pumpTo || r.kindOf == some .ventTo
  let strike := r.kindOf == some .strike
  match firstBroken
    [ (r.kindOf == none, 1),
      (if r.isEnd then r.duration != 0 else r.duration == 0 || 6000000 < r.duration, 2),
      (if r.isEnd then r.ramp != 0 else r.duration < r.ramp, 3),
      (if timedOrEnd then r.timeout != 0#8 else r.timeoutAction == none, 4),
      (if levelled then 15 < r.level else r.level != 0, 5),
      (if timedOrEnd then r.count != 0 else r.count == 0 || 15 < r.count, 6),
      (if strike then 1000 < r.ratio else r.ratio != 0, 7),
      (!strike && r.minForward != 0, 8),
      (match r.loopPart with | none => false | some (t, _) => r.isEnd || i < t, 9),
      (match r.loopPart with | none => false | some (_, k) => k == 0, 10) ] with
  | some field => some (field, 0)
  | none => (firstBrokenEntry 1 [] r.entries.toList).map fun position => (11, position)

/-! ### The START walk -/

/-- Why a chamber refuses a command: the result, and for START the record index, field code and entry position (R31,
R162). -/
structure ChamberRefusal where
  result : Result
  index : Nat := 0
  field : Nat := 0
  position : Nat := 0
deriving DecidableEq, Repr

/-- The interval [T, L] of a loop part passed by the walk, with its depth (R34). -/
structure LoopInterval where
  first : Nat
  last : Nat
  depth : Nat
deriving DecidableEq, Repr

/-- The depth of an interval that begins at `target`, over the earlier intervals (R34). -/
def loopDepth (target : Nat) (earlier : List LoopInterval) : Nat :=
  1 + ((earlier.filter fun l => target ≤ l.first).map LoopInterval.depth).foldl max 0

/-- An earlier interval overlaps one that begins at `target`: T′ < T ≤ L′ (R34). -/
def loopOverlaps (target : Nat) (earlier : List LoopInterval) : Bool :=
  earlier.any fun l => l.first < target && target ≤ l.last

/-- The slot map holds an entry CHANNEL(c, h) (R35). -/
def mapped (slotMap : Vector SlotUse 128) (c : Chamber) (h : Chan) : Bool := slotMap.toList.contains (.channel c h)

/-- A present entry of a setpoint list names a usable setpoint channel of chamber c (R35). -/
def entryUsable (x : Ctx) (slotMap : Vector SlotUse 128) (c : Chamber) (e : SetpointEntry) : Bool :=
  if h : e.channel.toNat < 16 then
    let ch : Chan := ⟨e.channel.toNat, h⟩
    mapped slotMap c ch && (x.record c ch).kind.isSetpoint && (x.record c ch).owner == .sequence
  else false

/-- The lowest position whose present entry is not usable (R35). -/
def firstUnusable (x : Ctx) (slotMap : Vector SlotUse 128) (c : Chamber) (r : StepRecord) : Option Nat :=
  (r.entries.toList.zipIdx.find? fun e => e.1.channel != 0xFF#8 && !entryUsable x slotMap c e.1).map fun e => e.2 + 1

/-- The first test of Table 2-5 that record i fails, in a walk of chamber c that began at `start`. -/
def walkFault (x : Ctx) (slotMap : Vector SlotUse 128) (c : Chamber) (start i : Nat) (earlier : List LoopInterval) :
    Option ChamberRefusal :=
  let r := x.stepRecord i
  let target := r.loopPart.map Prod.fst
  let levelled := r.kindOf == some .pumpTo || r.kindOf == some .ventTo
  match firstBroken
    [ (r.check != .checked, { result := .notChecked, index := i : ChamberRefusal }),
      (match target with | some t => t < start | none => false, { result := .badSequence, index := i, field := 9 }),
      (match target with | some t => loopOverlaps t earlier || 3 ≤ loopDepth t earlier | none => false,
        { result := .badSequence, index := i, field := 9 }) ] with
  | some refusal => some refusal
  | none =>
    match firstUnusable x slotMap c r with
    | some position => some { result := .badValue, index := i, field := 11, position := position }
    | none =>
      firstBroken
        [ (levelled && ((x.channelOfKind c .pressure).isNone || !x.levels[c].checked),
            { result := .badSequence, index := i, field := 1 }),
          (r.kindOf == some .strike &&
              ((x.channelOfKind c .rfForward).isNone || (x.channelOfKind c .rfReflected).isNone),
            { result := .badSequence, index := i, field := 1 }),
          (r.isEnd && r.claimsRoughing, { result := .badSequence, index := i, field := 12 }) ]

/-- The loop intervals known after record i has passed (R34). -/
def intervalsAfter (r : StepRecord) (i : Nat) (earlier : List LoopInterval) : List LoopInterval :=
  match r.loopPart with
  | none => earlier
  | some (t, _) => earlier ++ [⟨t, i, loopDepth t earlier⟩]

/-- The walk of at most n records from record i on (R31): the end index, or the refusal of the record it stopped at. -/
def walkFrom (x : Ctx) (slotMap : Vector SlotUse 128) (c : Chamber) (start : Nat) :
    Nat → Nat → List LoopInterval → Except ChamberRefusal Nat
  | 0, _, _ => .error { result := .badSequence, index := 511 }
  | n + 1, i, earlier =>
    match walkFault x slotMap c start i earlier with
    | some refusal => .error refusal
    | none =>
      if (x.stepRecord i).isEnd then .ok i
      else walkFrom x slotMap c start n (i + 1) (intervalsAfter (x.stepRecord i) i earlier)

/-- The START walk for chamber c and start index s (R31). -/
def startWalk (x : Ctx) (slotMap : Vector SlotUse 128) (c : Chamber) (s : Nat) : Except ChamberRefusal Nat :=
  if 511 < s then .error { result := .badValue } else walkFrom x slotMap c s (512 - s) s []

end Sys2Proof.Machine
end

