-- ==== Sys2Proof/Machine/Tables.lean ====
section
/-! DEFINITION. WRITE, READ and CHECK on the tables (R157 to R161 and each owning chapter): the examination of a request in
its order, the answer, and the effects of an accepted one. -/

namespace Sys2Proof.Machine

/-- The answer to a command: result and response data (R160 to R163). -/
structure Answer where
  result : Result
  data : Data
deriving DecidableEq, Repr

/-- Table ids (Table 9-3). -/
def slotMapTable : Nat := 1
def channelTable : Nat := 2
def stepTable : Nat := 3
def guardTable : Nat := 4
def levelTable : Nat := 5
def inputTable : Nat := 6
def arbiterTable : Nat := 7
def ringTable : Nat := 8
def noticeTable : Nat := 9

/-- The word as it stands, zero data where it does not exist (R160). -/
def State.wordOrZero (s : State) (table : Nat) (r : Request) : Data :=
  (s.tableWord table r.index.toNat r.word.toNat).getD zeroData

/-- NO_OBJECT with zero data (R157). -/
def noObject : Answer := { result := .noObject, data := zeroData }

/-- BAD_VALUE naming a field (R160). -/
def badField (field : Nat) : Answer := { result := .badValue, data := packData (be1 field) }

/-- A refusal whose data is the word as stored: LOCKED, IN_USE, READ_ONLY (R160). -/
def State.refuseWith (s : State) (result : Result) (table : Nat) (r : Request) : Answer :=
  { result := result, data := s.wordOrZero table r }

/-- ACCEPTED with the word as stored after the write (R160). -/
def State.acceptWrite (s : State) (table : Nat) (r : Request) : State × Answer :=
  (s, { result := .accepted, data := s.wordOrZero table r })

/-! ### READ -/

/-- READ of a word of a table (R159); of table STEP the result reports the check state (R28). -/
def readTable (table : Nat) (r : Request) (s : State) : Answer :=
  match s.tableWord table r.index.toNat r.word.toNat with
  | none => noObject
  | some data =>
    if table = stepTable then
      match (s.stepRecord r.index.toNat).check with
      | .checked => { result := .accepted, data := data }
      | .unchecked => { result := .notChecked, data := data }
      | .empty => noObject
    else { result := .accepted, data := data }

/-! ### WRITE, table by table -/

/-- A slot other than slot k already holds an assignment other than UNMAPPED (R2). -/
def duplicateSlot (slotMap : Vector SlotUse 128) (k : Nat) (u : SlotUse) : Option Nat :=
  if u = .unmapped then none
  else (slotMap.toList.zipIdx.find? fun e => e.1 == u && e.2 != k).map Prod.snd

/-- WRITE on SLOT_MAP (R2, Table 1-1). -/
def writeSlotMap (r : Request) (s : State) : State × Answer :=
  if s.lock then (s, s.refuseWith .locked slotMapTable r)
  else if h : r.index.toNat < 128 ∧ r.word.toNat = 0 then
    if !s.allIdle then (s, s.refuseWith .inUse slotMapTable r)
    else match r.slotUse with
      | .error field => (s, badField field)
      | .ok u =>
        match duplicateSlot s.slotMap r.index.toNat u with
        | some k => (s, { result := .duplicate, data := packData (be2 k) })
        | none => (s.setSlot ⟨r.index.toNat, h.1⟩ u).acceptWrite slotMapTable r
  else (s, noObject)

/-- The kinds a chamber has at most one record of (R7). -/
def ChannelKind.single : ChannelKind → Bool
  | .pressure | .rfForward | .rfReflected | .roughValve => true
  | .none | .gasFlow | .valve | .throttle | .rfPower | .setpoint | .flowRead | .readback => false

/-- The first rule of R6, then of R7, that record h of a chamber breaks, by its field code (Table 9-5); `after` gives the
chamber's records as they would result. Which of lo and hi the one rule lo ≤ hi ≤ F names is a free value (log 11). -/
def channelFault (after : Chan → ChannelRecord) (h : Chan) : Option Nat :=
  let r := after h
  let k := r.kind
  let sameKind := sixteen.filter fun j => j ≠ h ∧ (after j).kind = k
  let fieldRules : List (Bool × Nat) :=
    [ ((k == .valve || k == .roughValve) && r.fullScale != 1, 6),
      (k.isSetpoint && (r.hi < r.lo || r.fullScale < r.hi), if Config.limitsNameHi r.lo r.hi r.fullScale then 9 else 8),
      (k == .gasFlow && r.lo != 0, 8),
      (k.isSetpoint && (r.safeValue < r.lo || r.hi < r.safeValue), 10),
      ((k == .gasFlow || k == .rfPower) && r.safeValue != 0, 10),
      ((k == .gasFlow || k == .rfPower) && r.holdBehaviour != .safeValue, 3),
      (k != .gasFlow && k != .none && r.weight != 0, 4),
      (k != .flowRead && k != .none && r.pair.isSome, 5),
      (k == .flowRead && (match r.pair with | none => false | some j => (after j).kind != .gasFlow), 5),
      (k.isReadback && r.fullScale < r.failValue, 12) ]
  firstBroken (fieldRules ++
    [ (k.single && !sameKind.isEmpty, 1),
      (k == .gasFlow && 8 ≤ sameKind.length, 1),
      (k != .gasFlow && sixteen.any (fun j => (after j).kind == .flowRead && (after j).pair == some h), 1) ])

/-- The status of a channel put in its power-on condition for the record's kind, at a write taken at `now` (R8). -/
def freshStatus (r : ChannelRecord) (now : Nat) : ChannelStatus :=
  if r.kind.isReadback then { value := r.failValue }
  else if r.kind.isSetpoint then { changed := now }
  else {}

/-- The effects of an accepted channel record write (R8, R90, R105, R107): the record replaced, its status put in its power-on
condition, the chamber's implicit claim ended when the record is or becomes a ROUGH_VALVE, grace derived anew, and the entries that have lost
their source marked (R105). -/
def State.storeChannel (s : State) (c : Chamber) (h : Chan) (r : ChannelRecord) : State :=
  let old := (s.channel c h).record
  let s := s.setChannel c h { record := r, status := freshStatus r s.now }
  let s := if old.kind = .roughValve ∨ r.kind = .roughValve then
      s.onPlant fun x p => endIdleClaim x (expireNow x) c p else s
  s.reviewGuards c

/-- The owner a record is stored with (R8). -/
def ChannelRecord.stored (r : ChannelRecord) : ChannelRecord :=
  if r.kind.sequenceOwned then { r with owner := .sequence } else r

/-- WRITE on CHANNEL (R8). -/
def writeChannel (r : Request) (s : State) : State × Answer :=
  if s.lock then (s, s.refuseWith .locked channelTable r)
  else if hi : r.index.toNat < 64 then
    let c : Chamber := ⟨r.index.toNat / 16, by omega⟩
    let h : Chan := ⟨r.index.toNat % 16, by omega⟩
    if 3 < r.word.toNat then (s, noObject)
    else if r.word.toNat = 3 then (s, s.refuseWith .readOnly channelTable r)
    else if (s.engine c).state ≠ .idle then (s, s.refuseWith .inUse channelTable r)
    else match r.channelRecord r.word.toNat (s.channel c h).record with
      | .error field => (s, badField field)
      | .ok record =>
        let record := record.stored
        match channelFault (fun j => if j = h then record else (s.channel c j).record) h with
        | some field => (s, badField field)
        | none => (s.storeChannel c h record).acceptWrite channelTable r
  else (s, noObject)

/-- Record i lies within the sequence range of a chamber whose engine is WAITING, RUNNING or HELD (R26, R38). -/
def State.stepInUse (s : State) (i : Nat) : Bool :=
  chambers.any fun c =>
    let e := s.engine c
    (e.state == .waiting || e.state == .running || e.state == .held) &&
      (match e.range with | some (first, last) => first ≤ i && i ≤ last | none => false)

/-- WRITE on STEP (R26, R27). -/
def writeStep (r : Request) (s : State) : State × Answer :=
  if h : r.index.toNat < 512 ∧ r.word.toNat < 8 then
    if s.stepInUse r.index.toNat then (s, s.refuseWith .inUse stepTable r)
    else
      let record := r.stepRecord r.word.toNat s.pool[r.index.toNat]
      (s.setStep ⟨r.index.toNat, h.1⟩ { record with check := .unchecked }).acceptWrite stepTable r
  else (s, noObject)

/-- The first rule of Table 6-3 that a guard entry of a chamber breaks, by its field code (R99). -/
def guardFault (record : Chan → ChannelRecord) (k : GuardConfig) : Option Nat :=
  let level := k.kind == .levelAbove || k.kind == .levelBelow
  let value := k.kind == .valueAbove || k.kind == .valueBelow
  let deviation := k.kind == .deviation
  let input := k.kind.isInput
  let above := k.kind == .levelAbove || k.kind == .valueAbove
  let below := k.kind == .levelBelow || k.kind == .valueBelow
  let source := record k.source
  firstBroken
    [ ((level || value || deviation) && (k.count == 0 || 15 < k.count), 5),
      (input && k.count != 1, 5),
      (level && k.source != 0, 2),
      (value && !source.kind.isReadback, 2),
      (deviation && !(source.kind == .flowRead && source.pair.isSome), 2),
      (level && 15 < k.trip, 6),
      ((deviation || input) && k.trip != 0, 6),
      (above && k.trip < k.release, 7),
      (below && (k.release < k.trip || (k.kind == .levelBelow && 15 < k.release)), 7),
      (deviation && k.tolerance < k.release, 7),
      (input && k.release != 0, 7),
      (k.kind != .off && !deviation && k.tolerance != 0, 8),
      (k.kind != .off && !deviation && k.grace != 0, 9) ]

/-- The effects of an accepted guard write (R100): the entry put to CLEAR with its grace derived and, rewritten, no source lost
(R105), an INPUT entry evaluated at once with its action, and the chamber's hold demand examined. -/
def State.storeGuard (s : State) (c : Chamber) (g : GuardIndex) (k : GuardConfig) : State :=
  let entry : GuardEntry := { config := k }
  let s := s.setGuard c g { entry with lapse := deriveGrace s.ctx c entry }
  s.guardPass (fun d j => d == c && j == g && k.kind.isInput) [c]

/-- WRITE on GUARD (R100). -/
def writeGuard (r : Request) (s : State) : State × Answer :=
  if s.lock then (s, s.refuseWith .locked guardTable r)
  else if hi : r.index.toNat < 64 then
    let c : Chamber := ⟨r.index.toNat / 16, by omega⟩
    let g : GuardIndex := ⟨r.index.toNat % 16, by omega⟩
    if 3 < r.word.toNat then (s, noObject)
    else if r.word.toNat = 3 then (s, s.refuseWith .readOnly guardTable r)
    else match r.guardConfig r.word.toNat (s.guardEntry c g).config with
      | .error field => (s, badField field)
      | .ok k =>
        match guardFault (fun h => (s.channel c h).record) k with
        | some field => (s, badField field)
        | none => (s.storeGuard c g k).acceptWrite guardTable r
  else (s, noObject)

/-- WRITE on LEVEL (R18). -/
def writeLevel (r : Request) (s : State) : State × Answer :=
  if s.lock then (s, s.refuseWith .locked levelTable r)
  else if h : r.index.toNat < 4 then
    let c : Chamber := ⟨r.index.toNat, h⟩
    if 4 < r.word.toNat then (s, noObject)
    else if r.word.toNat = 4 then (s, s.refuseWith .readOnly levelTable r)
    else if (s.engine c).state ≠ .idle then (s, s.refuseWith .inUse levelTable r)
    else (s.setLevel c (r.levelTable r.word.toNat s.levels[c])).acceptWrite levelTable r
  else (s, noObject)

/-- WRITE on INPUT (R116): a running timer keeps its expiry. -/
def writeInput (r : Request) (s : State) : State × Answer :=
  if s.lock then (s, s.refuseWith .locked inputTable r)
  else if h : r.index.toNat < 16 then
    if 1 < r.word.toNat then (s, noObject)
    else if r.word.toNat = 1 then (s, s.refuseWith .readOnly inputTable r)
    else
      let l : Line := ⟨r.index.toNat, h⟩
      (s.setInput l { s.input l with filter := r.byte 0 }).acceptWrite inputTable r
  else (s, noObject)

/-- OVER_BUDGET with the budget and the sum of the reservations (R160). -/
def State.overBudget (s : State) : Answer :=
  { result := .overBudget, data := packData (be2 s.plant.arbiter.budget ++ be2 s.plant.reserved) }

/-- The state with the arbiter's configuration replaced. -/
def State.setArbiter (s : State) (a : Arbiter) : State := { s with plant := { s.plant with arbiter := a } }

/-- The abatement queue examined (R129). -/
def State.examineGrowth (s : State) : State :=
  s.onPlant fun x p => Sys2Proof.Machine.examineGrowth x (expireNow x) p

/-- WRITE on ARBITER (R134 to R136). -/
def writeArbiter (r : Request) (s : State) : State × Answer :=
  let a := s.plant.arbiter
  if s.lock then (s, s.refuseWith .locked arbiterTable r)
  else if 4 < r.index.toNat ∨ 1 < r.word.toNat then (s, noObject)
  else if h : r.index.toNat < 4 then
    let c : Chamber := ⟨r.index.toNat, h⟩
    if r.word.toNat = 1 then
      if 15 < r.byte 0 then (s, badField 2)
      else (s.setArbiter { a with priority := a.priority.set c.val (r.byte 0) c.isLt }).acceptWrite arbiterTable r
    else if (s.engine c).state ≠ .idle then (s, s.refuseWith .inUse arbiterTable r)
    else
      let wanted := r.number 0 2
      if a.budget < max wanted (s.plant.reservation c) + otherReservations s.plant c then (s, s.overBudget)
      else ((s.setArbiter
        { a with allowance := a.allowance.set c.val wanted c.isLt
                 reservation := a.reservation.set c.val wanted c.isLt }).examineGrowth).acceptWrite arbiterTable r
  else if r.word.toNat = 1 then (s.setArbiter { a with settleTime := r.number 0 2 }).acceptWrite arbiterTable r
  else if r.number 0 2 < s.plant.reserved then (s, s.overBudget)
  else (s.setArbiter { a with budget := r.number 0 2 }).examineGrowth.acceptWrite arbiterTable r

/-- WRITE on RING (R146). -/
def writeRing (r : Request) (s : State) : State × Answer :=
  if s.lock then (s, s.refuseWith .locked ringTable r)
  else if r.index.toNat ≠ 0 ∨ 2 < r.word.toNat then (s, noObject)
  else if r.word.toNat = 2 then (s, s.refuseWith .readOnly ringTable r)
  else if r.word.toNat = 0 then
    let n := r.number 0 2
    if n < 250 ∨ 8000 < n then (s, badField 1)
    else ({ s with ring := s.ring.writeNominal n }).acceptWrite ringTable r
  else if r.byte 0 < 2 ∨ 64 < r.byte 0 then (s, badField 2)
  else ({ s with ring := { s.ring with survival := r.byte 0 } }).acceptWrite ringTable r

/-- WRITE on NOTICE (R170); the lock flag is not examined. With class and enable both out of range it names the class (log 30). -/
def writeNotice (r : Request) (s : State) : State × Answer :=
  if h : r.index.toNat < 27 then
    if 1 < r.word.toNat then (s, noObject)
    else if r.word.toNat = 1 then (s, s.refuseWith .readOnly noticeTable r)
    else if 3 < r.byte 0 then (s, badField 1)
    else if 1 < r.byte 1 then (s, badField 2)
    else
      let slot := { s.plant.notices[r.index.toNat] with cls := r.byte 0, enabled := r.byte 1 == 1 }
      ({ s with plant := { s.plant with notices := s.plant.notices.set r.index.toNat slot h } }).acceptWrite noticeTable r
  else if r.index.toNat = 27 ∧ r.word.toNat = 0 then
    if 4 < r.byte 0 then (s, badField 3) else ({ s with threshold := r.byte 0 }).acceptWrite noticeTable r
  else (s, noObject)

/-- WRITE on a read-only table or on none (R157, R165, R166). -/
def writeReadOnly (table : Nat) (r : Request) (s : State) : Answer :=
  match s.tableWord table r.index.toNat r.word.toNat with
  | some data => { result := .readOnly, data := data }
  | none => noObject

/-- WRITE on the table a record names (R158). -/
def writeTable (table : Nat) (r : Request) (s : State) : State × Answer :=
  match table with
  | 1 => writeSlotMap r s
  | 2 => writeChannel r s
  | 3 => writeStep r s
  | 4 => writeGuard r s
  | 5 => writeLevel r s
  | 6 => writeInput r s
  | 7 => writeArbiter r s
  | 8 => writeRing r s
  | 9 => writeNotice r s
  | _ => (s, writeReadOnly table r s)

/-! ### CHECK -/

/-- The answer of a CHECK that stopped (R161): the index, the field code, the entry position, and how many passed before. -/
def checkStopped (index field position passed : Nat) : Answer :=
  { result := .badValue, data := packData (be2 index ++ be1 field ++ be1 position ++ be1 passed) }

/-- The answer of a CHECK whose records or tables all passed (R161). -/
def checkPassed (count : Nat) : Answer := { result := .accepted, data := packData (be1 count) }

/-- The examination of n records from index i on, `passed` having passed before (R29). -/
def checkRecords : Nat → Nat → Nat → State → State × Answer
  | 0, _, passed, s => (s, checkPassed passed)
  | n + 1, i, passed, s =>
    if h : i < 512 then
      let record := s.pool[i]
      if record.check = .empty then (s, checkStopped i 0xFE 0 passed)
      else match checkFault i record with
        | some (field, position) => (s, checkStopped i field position passed)
        | none => checkRecords n (i + 1) (passed + 1) (s.setStep ⟨i, h⟩ { record with check := .checked })
    else (s, checkPassed passed)

/-- CHECK on STEP (R29, R161). -/
def checkSteps (r : Request) (s : State) : State × Answer :=
  let first := r.index.toNat
  let count := r.byte 0
  if 511 < first ∨ count = 0 ∨ 64 < count ∨ 512 < first + count then (s, { result := .badValue, data := zeroData })
  else checkRecords count first 0 s

/-- The number k + 1 of the first threshold that is not greater than the one before it, counted from `k` (R19). -/
def firstNotRising (k : Nat) : List Nat → Option Nat
  | a :: b :: rest => if a < b then firstNotRising (k + 1) (b :: rest) else some (k + 1)
  | _ => none

/-- The examination of n level tables from chamber c on (R19). -/
def checkLevelTables : Nat → Nat → Nat → State → State × Answer
  | 0, _, passed, s => (s, checkPassed passed)
  | n + 1, i, passed, s =>
    if h : i < 4 then
      let c : Chamber := ⟨i, h⟩
      match firstNotRising 1 s.levels[c].thresholds.toList with
      | some k => (s, checkStopped i k 0 passed)
      | none => checkLevelTables n (i + 1) (passed + 1) (s.setLevel c { s.levels[c] with checked := true })
    else (s, checkPassed passed)

/-- CHECK on LEVEL (R19, R161). -/
def checkLevels (r : Request) (s : State) : State × Answer :=
  let first := r.index.toNat
  let count := r.byte 0
  if 3 < first ∨ count = 0 ∨ 4 < first + count then (s, { result := .badValue, data := zeroData })
  else checkLevelTables count first 0 s

/-- CHECK on the table a record names (R158). -/
def checkTable (table : Nat) (r : Request) (s : State) : State × Answer :=
  match table with
  | 3 => checkSteps r s
  | 5 => checkLevels r s
  | _ => (s, noObject)

end Sys2Proof.Machine
end

