-- ==== Sys2Proof/Machine/Management.lean ====
section
/-! DEFINITION. The management agent (Chapter 9): the chamber commands with their masks and answers, soft reset, the taking of
a record, and the records it writes into a returning frame. -/

namespace Sys2Proof.Machine

/-! ### Chamber commands -/

/-- What one engine does with a chamber command: the part after it, and its refusal if it refuses. -/
abbrev ChamberStep := Chamber → State → State × Option ChamberRefusal

/-- A refusal with WRONG_STATE. -/
def wrongState : ChamberRefusal := { result := .wrongState }

/-- START at one engine (R43). -/
def startChamber (first : Nat) : ChamberStep := fun c s =>
  if (s.engine c).state ≠ .idle then (s, some wrongState)
  else match startWalk s.ctx s.slotMap c first with
    | .error refusal => (s, some refusal)
    | .ok last => (s.onPlant fun x p => startEngine x (expireNow x) c first last p, none)

/-- HOLD at one engine (R73). -/
def holdChamber : ChamberStep := fun c s =>
  match (s.engine c).state with
  | .running | .waiting | .held => (s.onPlant fun x p => addSource x (expireNow x) c .controller false p, none)
  | .idle | .done | .safe => (s, some wrongState)

/-- The resume mode a byte carries (Table 9-2). -/
def resumeMode (b : Nat) : Option ResumeMode :=
  match b with
  | 0 => some .continue
  | 1 => some .restart
  | _ => none

/-- The resume mode stored in the hold record of chamber c (R74). -/
def storeMode (c : Chamber) (m : ResumeMode) (p : Plant) : Plant :=
  p.setEngine c { p.engine c with hold := (p.engine c).hold.map fun h => { h with mode := m } }

/-- RESUME at one engine (R74). -/
def resumeChamber (mode : Nat) : ChamberStep := fun c s =>
  if (s.engine c).state ≠ .held then (s, some wrongState)
  else match resumeMode mode with
    | none => (s, some { result := .badValue })
    | some m =>
      (s.onPlant fun x p =>
        removeSources x (expireNow x) c (p.engine c).sources.afterResume (storeMode c m p), none)

/-- ABORT at one engine (R63). -/
def abortChamber : ChamberStep := fun c s =>
  match (s.engine c).state with
  | .waiting | .running | .held | .done => (s.onPlant fun x p => abortEngine x (expireNow x) c p, none)
  | .idle | .safe => (s, some wrongState)

/-- RELEASE at one engine (R64). -/
def releaseChamber : ChamberStep := fun c s =>
  if (s.engine c).state = .done then (s.onPlant fun x p => releaseEngine x (expireNow x) c p, none)
  else (s, some wrongState)

/-- CLEAR at one engine (R65); its RF-permit line follows (R117). -/
def clearChamber : ChamberStep := fun c s =>
  if (s.engine c).state ≠ .safe then (s, some wrongState)
  else if anyStanding s.guards[c] .safe then (s, some { result := .stillTripped })
  else
    let p := s.plant.setEngine c { s.engine c with state := .idle }
    ({ s with plant := p.setPermit c s.ring.up }, none)

/-- What the chambers of a mask have answered so far: those that accepted, and the first that refused with its refusal. -/
structure MaskTally where
  accepted : Nat := 0
  refused : Option (Chamber × ChamberRefusal) := none
deriving DecidableEq, Repr

/-- The chambers of a list taken one after another, each whole (R66), those alone that the request names. -/
def overMask (r : Request) (step : ChamberStep) : List Chamber → State → MaskTally → State × MaskTally
  | [], s, t => (s, t)
  | c :: rest, s, t =>
    if r.names c then
      let (s, refusal) := step c s
      match refusal with
      | none => overMask r step rest s { t with accepted := t.accepted + 2 ^ c.val }
      | some f => overMask r step rest s (if t.refused.isSome then t else { t with refused := some (c, f) })
    else overMask r step rest s t

/-- The answer of a chamber command (R162). -/
def MaskTally.answer (t : MaskTally) : Answer :=
  match t.refused with
  | none => { result := .accepted, data := packData (be1 t.accepted ++ be1 0xFF) }
  | some (c, f) =>
    { result := f.result
      data := packData (be1 t.accepted ++ be1 c.val ++ be1 f.result.code ++ be2 f.index ++ be1 f.field ++ be1 f.position) }

/-- A chamber command: BAD_VALUE for a mask with a bit above bit 3, else handed to the engines of the mask in index order
(R66, R162). -/
def chamberCommand (step : ChamberStep) (r : Request) (s : State) : State × Answer :=
  if r.badMask then (s, { result := .badValue, data := packData (be1 0 ++ be1 0xFF) })
  else
    let (s, t) := overMask r step chambers s {}
    (s, t.answer)

/-- The six chamber commands, with their operands from the data of the request (Table 9-2). -/
def commandStart (r : Request) : State → State × Answer := chamberCommand (startChamber (r.number 0 2)) r
def commandHold (r : Request) : State → State × Answer := chamberCommand holdChamber r
def commandResume (r : Request) : State → State × Answer := chamberCommand (resumeChamber (r.byte 0)) r
def commandAbort (r : Request) : State → State × Answer := chamberCommand abortChamber r
def commandRelease (r : Request) : State → State × Answer := chamberCommand releaseChamber r
def commandClear (r : Request) : State → State × Answer := chamberCommand clearChamber r

/-! ### Part commands -/

/-- LOCK (R163). -/
def commandLock (s : State) : State × Answer :=
  ({ s with lock := true }, { result := .accepted, data := packData (be1 1) })

/-- ASSIGN that the part takes (R154). -/
def commandAssign (r : Request) (s : State) : State × Answer :=
  let a := r.byte 0
  if a = 0 ∨ a = 255 then (s, { result := .badValue, data := packData (be1 0 ++ [s.address]) })
  else ({ s with address := BitVec.ofNat 8 a }, { result := .accepted, data := packData (be1 a) })

/-- The arbiter after a soft reset (R119, R120, R126, R127). -/
def Arbiter.softReset (a : Arbiter) : Arbiter :=
  { a with line := .free, queue := [], growth := [], reservation := a.allowance }

/-- A notice slot after a soft reset (R168). -/
def NoticeSlot.softReset (n : NoticeSlot) : NoticeSlot :=
  { n with pending := false, merge := 0, detail := 0, cycle := 0 }

/-- A soft reset (R164): every block at the state its own chapter gives, and the input entries evaluated at its end (R115),
after the notice slots are cleared (R168). -/
def State.softReset (s : State) : State :=
  let s :=
    { s with
      plant :=
        { engines := Vector.replicate 4 {}
          arbiter := s.plant.arbiter.softReset
          notices := s.plant.notices.map NoticeSlot.softReset
          permits := Vector.replicate 4 false }
      guards := Vector.ofFn fun c : Fin 4 => Vector.ofFn fun g : Fin 16 =>
        { s.guardEntry c g with state := .clear, lapse := deriveGrace s.ctx c (s.guardEntry c g) }
      ring := s.ring.softReset
      responses := [] }
  s.guardPass (fun c g => (s.guardEntry c g).config.kind.isInput) []

/-! ### Taking a record -/

/-- Command codes (Table 9-2). -/
def codeRead : Nat := 1
def codeWrite : Nat := 2
def codeCheck : Nat := 3
def codeStart : Nat := 4
def codeHold : Nat := 5
def codeResume : Nat := 6
def codeAbort : Nat := 7
def codeRelease : Nat := 8
def codeClear : Nat := 9
def codeLock : Nat := 10
def codeRestart : Nat := 11
def codeAssign : Nat := 12

/-- The response to a request (R167): everything but the address, filled at its posting. -/
def responseTo (code : Nat) (r : Request) (a : Answer) : Response where
  code := BitVec.ofNat 8 (code + 0x80)
  tag := r.tag
  index := r.index
  word := r.word
  result := a.result
  data := a.data

/-- The record is addressed to this part (R154, R155): its own nonzero address, or for ASSIGN its address as it stands, 0
while it is unassigned. -/
def State.addressed (s : State) (code : Nat) (r : Request) : Bool :=
  r.address == s.address && (s.address != 0#8 || code == codeAssign)

/-- The response queue has room (R155). -/
def State.hasRoom (s : State) : Bool := s.responses.length < Config.responseRoom

/-- A record taken that queues a response: executed, then its response appended (R155). -/
def State.takeWith (s : State) (code : Nat) (r : Request) (command : State → State × Answer) : State :=
  let (s, a) := command s
  { s with responses := s.responses ++ [responseTo code r a] }

/-- A record that queues a response, taken when it is addressed to this part and the response queue has room, else left
(R155). Nothing is taken while a reset lasts (R152). -/
def State.takeRecord (s : State) (code : Nat) (r : Request) (command : State → State × Answer) : State :=
  if !s.inReset && s.addressed code r && s.hasRoom then s.takeWith code r command else s

/-- What a command code does with a record of this part (Table 9-2), for the codes that queue a response. -/
def commandOf (code table : Nat) (r : Request) : State → State × Answer :=
  match code with
  | 1 => fun s => (s, readTable table r s)
  | 2 => writeTable table r
  | 3 => checkTable table r
  | 4 => commandStart r
  | 5 => commandHold r
  | 6 => commandResume r
  | 7 => commandAbort r
  | 8 => commandRelease r
  | 9 => commandClear r
  | 10 => commandLock
  | _ => commandAssign r

/-- A broadcast record (R156): HOLD, RESUME and ABORT with a sound mask are executed by a part with an address, without
response; any other is not executed. -/
def State.broadcast (s : State) (code : Nat) (r : Request) : State :=
  if s.inReset || s.address == 0#8 || r.badMask then s
  else if code = codeHold then (commandHold r s).1
  else if code = codeResume then (commandResume r s).1
  else if code = codeAbort then (commandAbort r s).1
  else s

/-- The request a mailbox entry carries (Table 9-1). -/
def requestOf (entry : List Byte) : Request where
  address := entry.getD 0 0#8
  tag := entry.getD 2 0#8
  index := BitVec.ofNat 16 (numberAt entry 4 2)
  word := entry.getD 6 0#8
  data := packData (bytesAt entry 7 8)

/-- One mailbox entry of a good outbound frame (R155, R156): the part after it, and the entry as it travels on. -/
def takeEntry (entry : List Byte) (s : State) : State × List Byte :=
  let code := byteAt entry 1
  let table := byteAt entry 3
  let r := requestOf entry
  if entryIsEmpty entry || !entryCheckCorrect entry || 12 < code then (s, entry)
  else if r.address = 0xFF#8 then (s.broadcast code r, entry)
  else if !s.addressed code r then (s, entry)
  else if code = codeRestart then (s.softReset, emptyEntry)
  else if s.hasRoom then (s.takeWith code r (commandOf code table r), emptyEntry)
  else (s, entry)

/-- The mailbox of a good outbound frame, entry 0 upward, each one whole before the next (R155). -/
def takeMailbox : List (List Byte) → State → List (List Byte) × State
  | [], s => ([], s)
  | entry :: rest, s =>
    let (s, entry) := takeEntry entry s
    let (rest, s) := takeMailbox rest s
    (entry :: rest, s)

/-! ### Posting -/

/-- A response as the record that posts it, with the part's address as it stands (R167). -/
def Response.record (p : Response) (address : Byte) : List Byte :=
  sealEntry ([address, p.code, p.tag] ++ be1 p.result.code ++ be2 p.index.toNat ++ [p.word] ++ p.data.toList)

/-- The chamber byte of a notice: 0xFF for slots 24 to 26 (R171). -/
def noticeChamber (i : NoticeIndex) : List Byte := if i.val < 24 then be1 (i.val / 6) else be1 0xFF

/-- A pending notice as the record that posts it (R171). -/
def NoticeSlot.record (n : NoticeSlot) (i : NoticeIndex) (address : Byte) : List Byte :=
  sealEntry ([address] ++ be1 0x40 ++ be1 0 ++ be1 i.val ++ noticeChamber i ++ be1 0 ++ be1 n.cls ++ be2 n.detail
    ++ be1 n.merge ++ be2 n.cycle ++ [0#8, 0#8, 0#8])

/-- Queued responses posted into the EMPTY entries of a good return frame, oldest first (R167). -/
def State.postResponses (s : State) (mailbox : List (List Byte)) : List (List Byte) × State :=
  let posted := postInto mailbox (s.responses.map fun p => p.record s.address)
  (posted.1, { s with responses := s.responses.drop (s.responses.length - posted.2.length) })

/-- The notice slots in order. -/
def noticeIndices : List NoticeIndex := List.finRange 27

/-- A notice that may be posted: pending, with its class at or above the threshold (R171). -/
def eligibleNotice (notices : Vector NoticeSlot 27) (threshold : Nat) (i : NoticeIndex) : Bool :=
  notices[i].pending && threshold ≤ notices[i].cls

/-- The notice posted next: the highest class, the lowest slot number of those (R171). -/
def nextNotice (notices : Vector NoticeSlot 27) (threshold : Nat) : Option NoticeIndex :=
  (noticeIndices.filter (eligibleNotice notices threshold)).foldl
    (fun best i => match best with
      | none => some i
      | some b => if notices[b].cls < notices[i].cls then some i else some b) none

/-- A posted notice slot: not pending, merge count 0, its detail and cycle number kept (R171). -/
def NoticeSlot.posted (n : NoticeSlot) : NoticeSlot := { n with pending := false, merge := 0 }

/-- Pending notices posted into the EMPTY entries that remain, from entry 0 upward (R171). -/
def postNotices (address : Byte) (threshold : Nat) :
    List (List Byte) → Vector NoticeSlot 27 → List (List Byte) × Vector NoticeSlot 27
  | [], notices => ([], notices)
  | entry :: rest, notices =>
    if entryIsEmpty entry then
      match nextNotice notices threshold with
      | none => (entry :: rest, notices)
      | some i =>
        let posted := postNotices address threshold rest (notices.set i.val notices[i].posted i.isLt)
        (notices[i].record i address :: posted.1, posted.2)
    else
      let posted := postNotices address threshold rest notices
      (entry :: posted.1, posted.2)

/-- The notices posted into a good return frame after its responses (R171). -/
def State.postNotices (s : State) (mailbox : List (List Byte)) : List (List Byte) × State :=
  let posted := Sys2Proof.Machine.postNotices s.address s.threshold mailbox s.plant.notices
  (posted.1, { s with plant := { s.plant with notices := posted.2 } })

end Sys2Proof.Machine
end

