-- ==== Sys2Proof/Machine/ChamberCommands.lean ====
section
/-! DEFINITION. The meanings of the chamber commands (R66, R162) and of a broadcast (R156). -/

namespace Sys2Proof.Machine

/-- START (R43). -/
def execStart (r : Request) (s : State) : Host.Outcome State Fault Refusal :=
  .next (s.takeRecord codeStart r (commandStart r))

/-- HOLD (R73). -/
def execHold (r : Request) (s : State) : Host.Outcome State Fault Refusal :=
  .next (s.takeRecord codeHold r (commandHold r))

/-- RESUME (R74). -/
def execResume (r : Request) (s : State) : Host.Outcome State Fault Refusal :=
  .next (s.takeRecord codeResume r (commandResume r))

/-- ABORT (R63). -/
def execAbort (r : Request) (s : State) : Host.Outcome State Fault Refusal :=
  .next (s.takeRecord codeAbort r (commandAbort r))

/-- RELEASE (R64). -/
def execRelease (r : Request) (s : State) : Host.Outcome State Fault Refusal :=
  .next (s.takeRecord codeRelease r (commandRelease r))

/-- CLEAR (R65). -/
def execClear (r : Request) (s : State) : Host.Outcome State Fault Refusal :=
  .next (s.takeRecord codeClear r (commandClear r))

/-- A broadcast of a command code (R156). -/
def execBroadcast (command : Byte) (r : Request) (s : State) : Host.Outcome State Fault Refusal :=
  .next (s.broadcast command.toNat r)

end Sys2Proof.Machine
end

