-- ==== Sys2Proof/Machine/Events.lean ====
section
/-! DEFINITION. The meanings of the events between frames: the arbiter's grants, the part's timers, and the input lines. A
timer's expiry is taken at its expiry time; a stopped timer has no expiry, and nothing happens (log 2). -/

namespace Sys2Proof.Machine

/-- GROWTH_SERVED (R51, R129): the examination of the abatement queue that serves chamber c's request, which stands at its
head and fits (log 5). -/
def execGrowthServed (c : Chamber) (s : State) : Host.Outcome State Fault Refusal :=
  .next (match s.plant.arbiter.growth with
    | [] => s
    | g :: _ =>
      if g.chamber = c ∧ headFits s.plant g = true then s.onPlant fun x p => examineGrowth x (expireNow x) p else s)

/-- The time at which a selection can be made: at once on a FREE line, at the settle expiry of a SETTLING one (R123). -/
def LineState.selectionTime : LineState → Option Nat
  | .free => some 0
  | .granted _ => none
  | .settling t => some t

/-- LINE_GRANTED (R51, R123, R124): the selection that chooses chamber c, on a line no chamber holds (log 6). -/
def execLineGranted (c : Chamber) (s : State) : Host.Outcome State Fault Refusal :=
  .next (match s.plant.arbiter.line.selectionTime with
    | none => s
    | some t =>
      if s.plant.chosen = some c then (s.advanceTo t).onPlant fun x p => grantLine x (expireNow x) c p else s)

/-- DWELL_EXPIRY (R52). -/
def execDwellExpiry (c : Chamber) (s : State) : Host.Outcome State Fault Refusal :=
  .next (match (s.engine c).timer with
    | none => s
    | some t =>
      if (s.engine c).state = .running then (s.advanceTo t).onPlant fun x p => dwellEnds x (expireNow x) c p else s)

/-- SETTLE_EXPIRY (R123). -/
def execSettleExpiry (s : State) : Host.Outcome State Fault Refusal :=
  .next (match s.plant.arbiter.line with
    | .settling t => (s.advanceTo t).onPlant fun x p => selectLine x (expireNow x) p
    | .free | .granted _ => s)

/-- RING_WATCH_EXPIRY (R150). -/
def execRingWatchExpiry (s : State) : Host.Outcome State Fault Refusal :=
  .next (match s.ring.watch with
    | none => s
    | some t => if s.ring.up then (s.advanceTo t).loseRing else s)

/-- A change of the raw level of line l while the part acts (R113). -/
def State.changeLevel (s : State) (l : Line) (high : Bool) : State :=
  let i := s.input l
  if high = i.raw then s
  else if high = i.accepted then s.setInput l { i with raw := high, timer := none }
  else if i.timer.isSome then s.setInput l { i with raw := high }
  else if i.filter = 0 then (s.setInput l { i with raw := high }).acceptLevel l
  else s.setInput l { i with raw := high, timer := some (s.now + i.filter * 1000) }

/-- INPUT_LEVEL_CHANGE (R113). While a reset lasts the raw level follows the line and nothing else happens (R112, R152). -/
def execInputLevelChange (time : Nat) (l : Line) (high : Bool) (s : State) : Host.Outcome State Fault Refusal :=
  .next (if s.inReset then s.setInput l { s.input l with raw := high } else (s.advanceTo time).changeLevel l high)

/-- INPUT_ACCEPTANCE (R114): the expiry of line l's filter timer. -/
def execInputAcceptance (l : Line) (s : State) : Host.Outcome State Fault Refusal :=
  .next (match (s.input l).timer with
    | none => s
    | some t => (s.advanceTo t).acceptLevel l)

/-- GRACE_LAPSE (R107): an IN_GRACE entry becomes ARMED at its lapse time. -/
def execGraceLapse (c : Chamber) (g : GuardIndex) (s : State) : Host.Outcome State Fault Refusal :=
  .next (match (s.guardEntry c g).lapse with
    | none => s
    | some t => (s.advanceTo t).setGuard c g { s.guardEntry c g with lapse := none })

end Sys2Proof.Machine
end

