-- ==== Sys2Proof/Machine/PartCommands.lean ====
section
/-! DEFINITION. The meanings of the part commands LOCK, RESTART_PART and ASSIGN, and of the reset line (R152). -/

namespace Sys2Proof.Machine

/-- LOCK (R163). -/
def execLock (r : Request) (s : State) : Host.Outcome State Fault Refusal :=
  .next (s.takeRecord codeLock r commandLock)

/-- RESTART_PART (R164): taken without need of room in the response queue and without response (R155). -/
def execRestartPart (r : Request) (s : State) : Host.Outcome State Fault Refusal :=
  .next (if !s.inReset && s.addressed codeRestart r then s.softReset else s)

/-- ASSIGN (R154). -/
def execAssign (r : Request) (s : State) : Host.Outcome State Fault Refusal :=
  .next (s.takeRecord codeAssign r (commandAssign r))

/-- Whether a cause begins a power-on reset: power-up, or the reset line held low for 10 µs (R152). -/
def ResetCause.asserts : ResetCause → Bool
  | .powerUp => true
  | .lineLow t => Config.resetAssertTime ≤ t

/-- The part while a power-on reset lasts: every block at its power-on values, the raw input levels as the lines stand; the
queue of waiting commands and the port records, which are the model's own, stay (log 16). -/
def State.powerOn (s : State) : State :=
  { State.reset with
    inReset := true
    inputs := Vector.ofFn fun l : Fin 16 => { raw := (s.input l).raw }
    txDown := s.txDown, txUp := s.txUp, pending := s.pending }

/-- POWER_ON_RESET (R152). -/
def execPowerOnReset (cause : ResetCause) (s : State) : Host.Outcome State Fault Refusal :=
  .next (if cause.asserts then s.powerOn else s)

/-- The end of a power-on reset (R112, R152): the accepted level of each line is its raw level. -/
def State.endReset (s : State) : State :=
  { s with inReset := false
           inputs := Vector.ofFn fun l : Fin 16 => { s.input l with accepted := (s.input l).raw } }

/-- RESET_END (R152); a part that is in no reset is unchanged. -/
def execResetEnd (s : State) : Host.Outcome State Fault Refusal := .next (if s.inReset then s.endReset else s)

end Sys2Proof.Machine
end

