-- ==== Sys2Proof/Machine/Substitution.lean ====
section
/-! DEFINITION. The substitution unit (Chapter 5): what each setpoint slot of a good outbound frame carries, and the report
slots of a good return frame. -/

namespace Sys2Proof.Machine

/-- The use the slot map gives slot number k (R1). -/
def State.slotUse (s : State) (k : Nat) : SlotUse := if h : k < 128 then s.slotMap[k] else .unmapped

/-- The ramp value of a ramped entry at a passage time (R84): the quotient truncated toward zero. -/
def rampValue (e : Engine) (r : StepRecord) (sp : Setpoint) (time : Nat) : Nat :=
  let v0 : Int := e.startTable[sp.channel]
  let elapsed : Nat := min (time - e.startTime) r.rampTime
  (v0 + Int.tdiv ((sp.target - v0) * elapsed) r.rampTime).toNat

/-- The ramped entry of the step a RUNNING engine runs that names channel h, if there is one (R84). -/
def rampedEntry (x : Ctx) (e : Engine) (h : Chan) : Option Setpoint :=
  if e.state = .running then ((x.stepRecord e.step).setpointFor h).filter fun sp => sp.ramp else none

/-- The base value of a setpoint slot (R82), from the engine context as the passage found it and the controller's value. -/
def baseValue (x : Ctx) (e : Engine) (r : ChannelRecord) (h : Chan) (controller : Nat) : Nat :=
  match e.state with
  | .idle => controller
  | .safe => r.safeValue
  | .running | .waiting | .held | .done =>
    if r.owner = .controller then controller
    else match rampedEntry x e h with
      | some sp => rampValue e (x.stepRecord e.step) sp x.now
      | none => e.outputTable[h]

/-- FORCED by the chamber's state (R92): SAFE on every setpoint channel; HELD, or WAITING with a hold record pending, on a
SEQUENCE-owned channel with hold behaviour SAFE_VALUE. -/
def forcedByState (e : Engine) (r : ChannelRecord) : Bool :=
  e.state == .safe ||
    ((e.state == .held || (e.state == .waiting && e.hold.isSome)) && r.owner == .sequence
      && r.holdBehaviour == .safeValue)

/-- The idle allowance clamp of one gas flow (R87): the value that passes, the remaining allowance after it, and whether the
value was cut. -/
def allowanceClamp (weight remaining v : Nat) : Nat × Nat × Bool :=
  if weight = 0 then (v, remaining, false)
  else if flowLoad v weight ≤ remaining then (v, remaining - flowLoad v weight, false)
  else
    let cut := remaining * 1000 / weight
    (cut, remaining - flowLoad cut weight, true)

/-- The roughing rule at a ROUGH_VALVE slot of chamber c (R88 to R90): the plant after the implicit claim or its end, the
value carried, and whether an open value was denied. -/
def roughingRule (x : Ctx) (c : Chamber) (idle : Bool) (v : Nat) (p : Plant) : Plant × Nat × Bool :=
  if v = 0 then (if idle then endIdleClaim x (expireNow x) c p else p, 0, false)
  else
    let q := if idle then claimLine c p else p
    if q.holds c then (q, v, false) else (q, 0, true)

/-- The carried value of a channel after a passage carried v (R16), and grace restarted by a new change time (R107). -/
def State.carry (s : State) (c : Chamber) (h : Chan) (v : Nat) : State :=
  let ch := s.channel c h
  if v = ch.status.carried then s
  else (s.setChannel c h { ch with status := { ch.status with carried := v, changed := s.now } }).restartGraces c h

/-- The output table takes the value a ramped channel carried (R85). -/
def handRamp (c : Chamber) (h : Chan) (v : Nat) (p : Plant) : Plant :=
  p.setEngine c { p.engine c with outputTable := (p.engine c).outputTable.set h.val v h.isLt }

/-- What one passage carries from slot to slot: the state, and what each IDLE chamber has left of its allowance (R87). -/
structure Passage where
  state : State
  remaining : Vector Nat 4

/-- The slot of a setpoint-kind channel computed (R81), with the engine contexts as the passage found them (R93, R124). -/
def computeSlot (engines : Vector Engine 4) (c : Chamber) (h : Chan) (slot : Slot) (a : Passage) : Slot × Passage :=
  let s := a.state
  let x := s.ctx
  let r := x.record c h
  let e := engines[c]
  let base := baseValue x e r h (wordToValue r slot.setpoint.toNat)
  let clamped := clampTo r base
  let (v, left, cut) :=
    if e.state = .idle ∧ r.kind = .gasFlow then allowanceClamp r.weight a.remaining[c] clamped
    else (clamped, a.remaining[c], false)
  let (plant, v, denied) :=
    if r.kind = .roughValve then roughingRule x c (e.state == .idle) v s.plant else (s.plant, v, false)
  let word := BitVec.ofNat 16 (valueToWord r v)
  let plant := if (rampedEntry x e h).isSome && r.owner == .sequence then handRamp c h v plant else plant
  ({ slot with
      setpoint := word
      gateFlags := gateFlags (word != slot.setpoint) (clamped != base) (forcedByState e r || cut || denied) },
   { state := { s with plant := plant }.carry c h v, remaining := a.remaining.set c.val left c.isLt })

/-- One slot of a good outbound frame (R3): computed for a channel of a setpoint kind, else as received. -/
def substituteSlot (engines : Vector Engine 4) (k : Nat) (slot : Slot) (a : Passage) : Slot × Passage :=
  match a.state.slotUse k with
  | .channel c h => if (a.state.ctx.record c h).kind.isSetpoint then computeSlot engines c h slot a else (slot, a)
  | .unmapped | .report _ => (slot, a)

/-- The slots of a good outbound frame from number k on, in slot number order (R81). -/
def substituteSlots (engines : Vector Engine 4) : Nat → List Slot → Passage → List Slot × Passage
  | _, [], a => ([], a)
  | k, slot :: rest, a =>
    let (slot', a) := substituteSlot engines k slot a
    let (rest', a) := substituteSlots engines (k + 1) rest a
    (slot' :: rest', a)

/-- The slots of a good outbound frame substituted (step 4 of R143). -/
def State.substitute (s : State) (slots : List Slot) : List Slot × State :=
  let (slots, a) := substituteSlots s.plant.engines 0 slots { state := s, remaining := s.plant.arbiter.allowance }
  (slots, a.state)

/-- A REPORT slot of a good return frame written (R94); every other slot passes as received. -/
def reportSlot (s : State) (k : Nat) (slot : Slot) : Slot :=
  match s.slotUse k with
  | .report c => { slot with readback := reportWord (s.engine c), nodeFlags := reportNodeFlags slot.nodeFlags }
  | .unmapped | .channel _ _ => slot

/-- The slots of a good return frame from number k on, with the REPORT slots written. -/
def reportSlots (s : State) : Nat → List Slot → List Slot
  | _, [] => []
  | k, slot :: rest => reportSlot s k slot :: reportSlots s (k + 1) rest

end Sys2Proof.Machine
end

