-- ==== Sys2Proof/Machine/Passages.lean ====
section
/-! DEFINITION. The passages (Chapter 8): cycle close, the good outbound frame and the good return frame in the order of R143
and R144, and the meanings of OUTBOUND_PASSAGE and RETURN_PASSAGE. -/

namespace Sys2Proof.Machine

/-! ### Cycle close -/

/-- The word of channel h of chamber c in the slots of a matched return frame, when its reading is valid (R12). -/
def readingOf (s : State) (slots : List Slot) (c : Chamber) (h : Chan) : Option Nat :=
  match s.slotMap.toList.idxOf? (.channel c h) with
  | none => none
  | some k =>
    match slots[k]? with
    | none => none
    | some slot => if nodeReadingValid slot.nodeFlags then some slot.readback.toNat else none

/-- A readback channel at a cycle close without a valid reading (R13). -/
def ChannelStatus.miss (t : ChannelStatus) (r : ChannelRecord) : ChannelStatus :=
  if 255 ≤ t.missing then t
  else if t.missing + 1 = r.staleLimit then
    { t with missing := t.missing + 1, value := r.failValue, stale := true }
  else { t with missing := t.missing + 1 }

/-- A readback channel at a cycle close with a valid reading (R12). -/
def ChannelStatus.take (t : ChannelStatus) (r : ChannelRecord) (word : Nat) : ChannelStatus :=
  { t with value := wordToValue r word, missing := 0, stale := false }

/-- A channel at a cycle close; only the readback kinds are updated (R12, R13). -/
def Channel.close (ch : Channel) (reading : Option Nat) : Channel :=
  if ch.record.kind.isReadback then
    match reading with
    | some word => { ch with status := ch.status.take ch.record word }
    | none => { ch with status := ch.status.miss ch.record }
  else ch

/-- The channel table at a cycle close with the given slots, none of them at an overrun (R12, R13). -/
def State.takeReadings (s : State) (slots : List Slot) : State :=
  { s with channels := Vector.ofFn fun c : Fin 4 => Vector.ofFn fun h : Fin 16 =>
      (s.channel c h).close (if (s.channel c h).record.kind.isReadback then readingOf s slots c h else none) }

/-- The step conditions of a cycle close, A to D, of the engines that were RUNNING when the guard evaluation began (R54). -/
def State.evaluateConditions (s : State) (runningBefore : Chamber → Bool) : State :=
  s.onPlant fun x p =>
    chambers.foldl (fun p c => if runningBefore c then evaluateCondition x (expireNow x) c p else p) p

/-- A cycle close with the readings of the given slots (R145): readings, guards in their four stages, step conditions. -/
def State.closeCycle (s : State) (slots : List Slot) : State :=
  let s := s.takeReadings slots
  let running := fun c => (s.engine c).state == .running
  (s.guardPass (fun _ _ => true) chambers).evaluateConditions running

/-! ### Outbound -/

/-- The open cycle closed by overrun, when there is one: every reading is missing (step 2 of R143). -/
def State.overrun (s : State) : State := if s.ring.openCycle.isSome then s.closeCycle [] else s

/-- The open-cycle record takes a cycle number (step 3 of R143). -/
def State.openCycleWith (s : State) (cycle : Nat) : State :=
  { s with ring := { s.ring with openCycle := some cycle, lastCycle := cycle } }

/-- A good outbound frame taken by the blocks in the order of R143, and the frame as it is transmitted. -/
def State.takeOutbound (s : State) (f : Frame) : State × Frame :=
  let s := (s.arrival.overrun).openCycleWith f.cycle.toNat
  let (slots, s) := s.substitute f.slots
  let (mailbox, s) := takeMailbox f.mailbox s
  (s, { f with slots := slots, mailbox := mailbox })

/-- A frame transmitted on the downstream port (R139). -/
def State.sendDown (s : State) (bytes : List Byte) : State := { s with txDown := bytes }

/-- A frame transmitted on the upstream port (R139). -/
def State.sendUp (s : State) (bytes : List Byte) : State := { s with txUp := bytes }

/-- OUTBOUND_PASSAGE (R142, R143): a frame received whole on the upstream port at a passage time. While a reset lasts it is
forwarded as received and has no effect (R152). -/
def execOutboundPassage (time : Nat) (bytes : List Byte) (s : State) : Host.Outcome State Fault Refusal :=
  .next (
    if s.inReset then s.sendDown bytes
    else match classify directionOut bytes with
      | .bad => (s.advanceTo time).badFrame.sendDown bytes
      | .foreign => (s.advanceTo time).sendDown bytes
      | .good f =>
        let taken := (s.advanceTo time).takeOutbound f
        taken.1.sendDown taken.2.bytes)

/-! ### Return -/

/-- A matched return frame closes its cycle with its readings and the open-cycle record becomes absent; an unmatched one
closes nothing (step 1 of R144). -/
def State.matchReturn (s : State) (f : Frame) : State :=
  if s.ring.openCycle = some f.cycle.toNat then
    let s := s.closeCycle f.slots
    { s with ring := { s.ring with openCycle := none } }
  else s

/-- A good return frame taken in the order of R144, and the frame as it is transmitted. -/
def State.takeReturn (s : State) (f : Frame) : State × Frame :=
  let s := s.matchReturn f
  let slots := reportSlots s 0 f.slots
  let (mailbox, s) := s.postResponses f.mailbox
  let (mailbox, s) := s.postNotices mailbox
  (s, { f with slots := slots, mailbox := mailbox })

/-- RETURN_PASSAGE (R142, R144): a frame received whole on the downstream port at a passage time. While a reset lasts it is
forwarded as received and has no effect (R152). -/
def execReturnPassage (time : Nat) (bytes : List Byte) (s : State) : Host.Outcome State Fault Refusal :=
  .next (
    if s.inReset then s.sendUp bytes
    else match classify directionReturn bytes with
      | .bad => (s.advanceTo time).badFrame.sendUp bytes
      | .foreign => (s.advanceTo time).sendUp bytes
      | .good f =>
        let taken := (s.advanceTo time).takeReturn f
        taken.1.sendUp taken.2.bytes)

end Sys2Proof.Machine
end

