-- ==== Sys2Proof/Machine/TableCommands.lean ====
section
/-! DEFINITION. The meanings of the table commands: the taking of a READ, WRITE or CHECK record (R155, R158), the command code
and table fixed by the row. -/

namespace Sys2Proof.Machine

/-- READ (R159). -/
def execRead (table : Byte) (r : Request) (s : State) : Host.Outcome State Fault Refusal :=
  .next (s.takeRecord codeRead r fun s => (s, readTable table.toNat r s))

/-- WRITE on a table without a row of its own: STATE, IDENT, or none (R157, R165, R166). -/
def execWrite (table : Byte) (r : Request) (s : State) : Host.Outcome State Fault Refusal :=
  .next (s.takeRecord codeWrite r (writeTable table.toNat r))

/-- WRITE on SLOT_MAP (R2). -/
def execSlotMapWrite (r : Request) (s : State) : Host.Outcome State Fault Refusal :=
  .next (s.takeRecord codeWrite r (writeSlotMap r))

/-- WRITE on CHANNEL (R8). -/
def execChannelWrite (r : Request) (s : State) : Host.Outcome State Fault Refusal :=
  .next (s.takeRecord codeWrite r (writeChannel r))

/-- WRITE on STEP (R26, R27). -/
def execStepWrite (r : Request) (s : State) : Host.Outcome State Fault Refusal :=
  .next (s.takeRecord codeWrite r (writeStep r))

/-- WRITE on GUARD (R100). -/
def execGuardWrite (r : Request) (s : State) : Host.Outcome State Fault Refusal :=
  .next (s.takeRecord codeWrite r (writeGuard r))

/-- WRITE on LEVEL (R18). -/
def execLevelWrite (r : Request) (s : State) : Host.Outcome State Fault Refusal :=
  .next (s.takeRecord codeWrite r (writeLevel r))

/-- WRITE on INPUT (R116). -/
def execInputWrite (r : Request) (s : State) : Host.Outcome State Fault Refusal :=
  .next (s.takeRecord codeWrite r (writeInput r))

/-- WRITE on ARBITER (R134). -/
def execArbiterWrite (r : Request) (s : State) : Host.Outcome State Fault Refusal :=
  .next (s.takeRecord codeWrite r (writeArbiter r))

/-- WRITE on RING (R146). -/
def execRingWrite (r : Request) (s : State) : Host.Outcome State Fault Refusal :=
  .next (s.takeRecord codeWrite r (writeRing r))

/-- WRITE on NOTICE (R170). -/
def execNoticeWrite (r : Request) (s : State) : Host.Outcome State Fault Refusal :=
  .next (s.takeRecord codeWrite r (writeNotice r))

/-- CHECK on STEP (R29). -/
def execStepCheck (r : Request) (s : State) : Host.Outcome State Fault Refusal :=
  .next (s.takeRecord codeCheck r (checkSteps r))

/-- CHECK on LEVEL (R19). -/
def execLevelCheck (r : Request) (s : State) : Host.Outcome State Fault Refusal :=
  .next (s.takeRecord codeCheck r (checkLevels r))

/-- CHECK on a table that has none (R158). -/
def execCheckNoObject (table : Byte) (r : Request) (s : State) : Host.Outcome State Fault Refusal :=
  .next (s.takeRecord codeCheck r (checkTable table.toNat r))

end Sys2Proof.Machine
end

