-- ==== Sys2Proof/Machine/Dispatch.lean ====
section
/-! DEFINITION. The effect of a command on everything but the queue: one arm per row of spec/opcode_table.json. -/

namespace Sys2Proof.Machine

def exec (i : Instr) (s : State) : Host.Outcome State Fault Refusal :=
  match i with
  | .outboundPassage time frame => Sys2Proof.Machine.execOutboundPassage time frame s
  | .returnPassage time frame => Sys2Proof.Machine.execReturnPassage time frame s
  | .read table request => Sys2Proof.Machine.execRead table request s
  | .write table request => Sys2Proof.Machine.execWrite table request s
  | .slotMapWrite request => Sys2Proof.Machine.execSlotMapWrite request s
  | .channelWrite request => Sys2Proof.Machine.execChannelWrite request s
  | .stepWrite request => Sys2Proof.Machine.execStepWrite request s
  | .guardWrite request => Sys2Proof.Machine.execGuardWrite request s
  | .levelWrite request => Sys2Proof.Machine.execLevelWrite request s
  | .inputWrite request => Sys2Proof.Machine.execInputWrite request s
  | .arbiterWrite request => Sys2Proof.Machine.execArbiterWrite request s
  | .ringWrite request => Sys2Proof.Machine.execRingWrite request s
  | .noticeWrite request => Sys2Proof.Machine.execNoticeWrite request s
  | .stepCheck request => Sys2Proof.Machine.execStepCheck request s
  | .levelCheck request => Sys2Proof.Machine.execLevelCheck request s
  | .start request => Sys2Proof.Machine.execStart request s
  | .hold request => Sys2Proof.Machine.execHold request s
  | .resume request => Sys2Proof.Machine.execResume request s
  | .abort request => Sys2Proof.Machine.execAbort request s
  | .release request => Sys2Proof.Machine.execRelease request s
  | .clear request => Sys2Proof.Machine.execClear request s
  | .lock request => Sys2Proof.Machine.execLock request s
  | .restartPart request => Sys2Proof.Machine.execRestartPart request s
  | .assign request => Sys2Proof.Machine.execAssign request s
  | .broadcast command request => Sys2Proof.Machine.execBroadcast command request s
  | .growthServed chamber => Sys2Proof.Machine.execGrowthServed chamber s
  | .lineGranted chamber => Sys2Proof.Machine.execLineGranted chamber s
  | .dwellExpiry chamber => Sys2Proof.Machine.execDwellExpiry chamber s
  | .settleExpiry => Sys2Proof.Machine.execSettleExpiry s
  | .ringWatchExpiry => Sys2Proof.Machine.execRingWatchExpiry s
  | .inputLevelChange time line high => Sys2Proof.Machine.execInputLevelChange time line high s
  | .inputAcceptance line => Sys2Proof.Machine.execInputAcceptance line s
  | .graceLapse chamber entry => Sys2Proof.Machine.execGraceLapse chamber entry s
  | .powerOnReset cause => Sys2Proof.Machine.execPowerOnReset cause s
  | .resetEnd => Sys2Proof.Machine.execResetEnd s
  | .checkNoObject table request => Sys2Proof.Machine.execCheckNoObject table request s

end Sys2Proof.Machine
end

