-- ==== Sys2Proof/Safety.lean ====
section
/-! DEFINITION. What the spec promises of every state of the part, as predicates that claims use. -/

namespace Sys2Proof.Machine

/-! ### Engines, arbiter and permits -/

/-- What an engine holds in its state (Tables 3-2 and 2-6, R67, R79): hold sources in HELD alone, a sequence range in WAITING,
RUNNING and HELD, a dwell timer in RUNNING alone, an awaited resource in WAITING alone, and a hold record in HELD, or in WAITING
with a resume pending. -/
structure Engine.Consistent (e : Engine) : Prop where
  sources : e.sources.isEmpty = true ↔ e.state ≠ .held
  range : e.range.isSome = true ↔ e.state = .waiting ∨ e.state = .running ∨ e.state = .held
  timer : e.timer.isSome = true → e.state = .running
  awaited : e.awaited ≠ .nothing ↔ e.state = .waiting
  held : e.state = .held → e.hold.isSome = true
  hold : e.hold.isSome = true → e.state = .held ∨ e.state = .waiting

/-- Every reservation covers its allowance, and the reservations fit in the budget (R126). -/
def Plant.WithinBudget (p : Plant) : Prop :=
  (∀ c : Chamber, p.allowance c ≤ p.reservation c) ∧ p.reserved ≤ p.arbiter.budget

/-- The abatement queue holds each chamber at most once, each WAITING for GROWTH beyond its reservation (R127). -/
def Plant.GrowthWaits (p : Plant) : Prop :=
  (p.arbiter.growth.map GrowthRequest.chamber).Nodup ∧
    ∀ g ∈ p.arbiter.growth, (p.engine g.chamber).state = .waiting ∧ (p.engine g.chamber).awaited = .growth ∧
      p.reservation g.chamber < g.requested

/-- The roughing queue holds each chamber at most once, each WAITING for LINE or IDLE, never the chamber that holds the line,
and is empty while the line is FREE (R119, R120, R121). -/
def Plant.QueueWaits (p : Plant) : Prop :=
  p.arbiter.queue.Nodup ∧
    (∀ c ∈ p.arbiter.queue, ((p.engine c).state = .waiting ∧ (p.engine c).awaited = .line) ∨ (p.engine c).state = .idle) ∧
    (p.arbiter.line = .free → p.arbiter.queue = []) ∧ ∀ c : Chamber, p.arbiter.line = .granted c → c ∉ p.arbiter.queue

/-- The chamber that holds the roughing line is RUNNING or IDLE (R119). -/
def Plant.HolderActive (p : Plant) : Prop :=
  ∀ c : Chamber, p.arbiter.line = .granted c → (p.engine c).state = .running ∨ (p.engine c).state = .idle

/-- The reservation of a chamber that is IDLE, HELD or SAFE is its allowance (R126). -/
def Plant.ReservationsSettled (p : Plant) : Prop :=
  ∀ c : Chamber, (p.engine c).state = .idle ∨ (p.engine c).state = .held ∨ (p.engine c).state = .safe →
    p.reservation c = p.allowance c

/-- The RF-permit lines are what R117 gives: asserted while the ring is up and the chamber is not SAFE, else not. -/
def Plant.PermitsFollow (up : Bool) (p : Plant) : Prop := ∀ c : Chamber, p.permits[c] = permitLevel up (p.engine c).state

/-- A notice slot's class is one of 0..3, and its merge count is between 1 and 255 while it is pending, 0 while it is not
(R168). -/
def Plant.NoticesCounted (p : Plant) : Prop :=
  ∀ i : NoticeIndex, p.notices[i].cls ≤ 3 ∧
    (if p.notices[i].pending then 1 ≤ p.notices[i].merge ∧ p.notices[i].merge ≤ 255 else p.notices[i].merge = 0)

/-- The promises on engines, arbiter, RF-permit lines and notice slots together. -/
structure Plant.Sound (up : Bool) (p : Plant) : Prop where
  budget : p.WithinBudget
  growth : p.GrowthWaits
  queue : p.QueueWaits
  holder : p.HolderActive
  cells : ∀ c : Chamber, (p.engine c).Consistent
  permits : p.PermitsFollow up
  notices : p.NoticesCounted
  settled : p.ReservationsSettled

/-- A safe state: its engines, arbiter, RF-permit lines and notice slots keep the promises above. -/
def State.Safe (s : State) : Prop := s.plant.Sound s.ring.up

/-! ### What an event leaves of a chamber -/

/-- Chamber c stands in neither arbiter queue. -/
def Plant.Out (c : Chamber) (p : Plant) : Prop :=
  c ∉ p.arbiter.queue ∧ ∀ g ∈ p.arbiter.growth, g.chamber ≠ c

/-- What an event of other chambers leaves of a chamber that stands in neither queue. -/
structure Plant.Spares (c : Chamber) (p q : Plant) : Prop where
  out : q.Out c
  engine : q.engine c = p.engine c
  reservation : q.reservation c = p.reservation c
  permit : q.permits[c] = p.permits[c]
  line : q.arbiter.line = .granted c ↔ p.arbiter.line = .granted c
  allowances : q.arbiter.allowance = p.arbiter.allowance
  budget : q.arbiter.budget = p.arbiter.budget
  settleTime : q.arbiter.settleTime = p.arbiter.settleTime
  priority : q.arbiter.priority = p.arbiter.priority

/-- A notice of chamber c is pending, where it is enabled. -/
def Plant.Raised (c : Chamber) (n : ChamberNotice) (p : Plant) : Prop :=
  p.notices[noticeSlot c n].enabled = true → p.notices[noticeSlot c n].pending = true

/-! ### What a chamber gives up -/

/-- The line as its release by chamber c leaves it, with a settle time (R122). -/
def Plant.freedLine (x : Ctx) (c : Chamber) (p : Plant) : LineState :=
  if p.arbiter.line = .granted c then .settling (x.now + p.arbiter.settleTime * 1000) else p.arbiter.line

/-- The line given up by chamber c, if it holds it: SETTLING with the settle timer started, or at settle time 0 FREE and a
selection made in the same event (R122, R123). -/
def Plant.lineLeft (x : Ctx) (expire : Expire) (c : Chamber) (p : Plant) : Plant :=
  if p.arbiter.line = .granted c ∧ p.arbiter.settleTime = 0 then
    selectLine x expire { p with arbiter := { p.arbiter with line := .free } }
  else { p with arbiter := { p.arbiter with line := p.freedLine x c } }

/-- Chamber c with engine e gives up what it has of the arbiter: its entries of both queues, then the line, then what its reservation
has beyond its allowance, and the abatement queue is examined once, after all of it (R122, R130, R131). -/
def Plant.handedBack (x : Ctx) (expire : Expire) (c : Chamber) (e : Engine) (p : Plant) : Plant :=
  let withdrawn : Plant :=
    { p.setEngine c e with
      arbiter := { p.arbiter with queue := p.arbiter.queue.filter (· ≠ c)
                                  growth := p.arbiter.growth.filter fun g => g.chamber ≠ c } }
  examineGrowth x expire ((withdrawn.lineLeft x expire c).setReservation c (p.allowance c))

/-- What an event in which chamber c gives up what it has of the arbiter, with engine e as it then is, leaves of the arbiter and of
the other engines; a line that c held is SETTLING after it, where there is a settle time (R119, R122, R130, R131). -/
structure Plant.HandsBack (x : Ctx) (expire : Expire) (c : Chamber) (e : Engine) (p q : Plant) : Prop where
  settles : p.arbiter.line = .granted c → p.arbiter.settleTime ≠ 0 →
    q.arbiter.line = .settling (x.now + p.arbiter.settleTime * 1000)
  arbiter : q.arbiter = (p.handedBack x expire c e).arbiter
  engines : ∀ d, d ≠ c → q.engine d = (p.handedBack x expire c e).engine d

/-- A reservation that need not grow, settled: what it has beyond the request goes back, and the abatement queue is examined before
chamber c goes on to the line (R47, R130). -/
def Plant.shrunk (x : Ctx) (expire : Expire) (c : Chamber) (p : Plant) : Plant :=
  let settled := p.setReservation c (requestedReservation x c p)
  if requestedReservation x c p < p.reservation c then examineGrowth x expire settled else settled

/-! ### The step boundary

Chamber c comes to its current step in plant p with no hold record and stands in neither queue; plant q is what its boundary
leaves. `expire` is what becomes of an engine that is served or granted the line in the same event with no time left (log 7). -/

/-- The step is entered afresh from the output table (R49). -/
structure Plant.StepRuns (x : Ctx) (c : Chamber) (p q : Plant) : Prop where
  out : q.Out c
  engine :
    let e := p.engine c
    let step := x.stepRecord e.step
    q.engine c =
      { e with state := .running, awaited := .nothing, startTime := x.now, timer := some (x.now + step.dwell), counter := 0
               startTable := e.outputTable
               outputTable := setTargets (step.setpoints.filter fun k => !k.ramp) e.outputTable }

/-- The step is END and the sequence is over (R50). -/
structure Plant.StepFinishes (x : Ctx) (c : Chamber) (p q : Plant) : Prop where
  out : q.Out c
  line : q.arbiter.line ≠ .granted c
  notice : q.Raised c .sequenceDone
  engine :
    let e := p.engine c
    q.engine c =
      { e with state := .done, awaited := .nothing, timer := none, range := none
               outputTable := setTargets (x.stepRecord e.step).setpoints e.outputTable }

/-- The engine waits for a resource (R47, R48). -/
def Plant.StepWaits (c : Chamber) (awaited : Awaited) (p q : Plant) : Prop :=
  q.engine c = { p.engine c with state := .waiting, awaited := awaited }

/-- The step can never be granted its load: WAITING, and at once HELD by ENGINE from WAITING with elapsed time 0 (R46, R69 to
R71). -/
structure Plant.StepRefused (x : Ctx) (expire : Expire) (c : Chamber) (p q : Plant) : Prop where
  out : q.Out c
  line : q.arbiter.line ≠ .granted c
  reservation : q.reservation c = p.allowance c
  notices : q.Raised c .loadRefused ∧ q.Raised c .holdEntered
  handsBack :
    let e := p.engine c
    p.HandsBack x expire c
      { e with state := .waiting, awaited := .nothing, timer := none, counter := 0
               hold := some { heldFrom := .waiting, step := e.step, elapsed := 0, loops := e.loops, startTable := e.startTable
                              outputTable := e.outputTable, mode := .continue } } q
  engine :
    let e := p.engine c
    q.engine c =
      { e with state := .held, awaited := .nothing, timer := none, counter := 0, sources := { engine := true }
               hold := some { heldFrom := .waiting, step := e.step, elapsed := 0, loops := e.loops, startTable := e.startTable
                              outputTable := e.outputTable, mode := .continue }
               outputTable := Vector.ofFn fun h : Fin 16 =>
                 let k := x.record c h
                 if k.kind.isSetpoint && k.holdBehaviour == .safeValue then k.safeValue else e.outputTable[h] }

/-- The chambers with its request last in the abatement queue, its line given up (R47, R128). -/
def Plant.asking (x : Ctx) (c : Chamber) (p : Plant) : Plant :=
  { p.setEngine c { p.engine c with state := .waiting, awaited := .growth } with
    arbiter := { p.arbiter with
      line := p.freedLine x c, growth := p.arbiter.growth ++ [⟨c, requestedReservation x c p⟩] } }

/-- Whether the requested reservation may one day be granted (R46). -/
def Plant.MayFit (x : Ctx) (c : Chamber) (p : Plant) : Prop :=
  requestedReservation x c p + otherAllowances p c ≤ p.arbiter.budget

/-- The step boundary (R45 to R50): a load that never fits; a reservation that need not grow, with the step's END, its RUNNING entry
without the line, its focus and its claim; a growth request that waits, and one that is served at once. What a shrink gives back
serves others before the chamber goes on to the line, and a line given up settles, so that the plant left is said by `shrunk` and
`lineLeft` (R47, R48, R122, R130). -/
structure Plant.TakesBoundary (x : Ctx) (expire : Expire) (c : Chamber) (p q : Plant) : Prop where
  others : ∀ d, d ≠ c → p.Out d → p.Spares d q
  refused : ¬p.MayFit x c → p.StepRefused x expire c q ∧ q.permits[c] = p.permits[c]
  reservation : p.MayFit x c → requestedReservation x c p ≤ p.reservation c →
    q.reservation c = requestedReservation x c p ∧ q.permits[c] = p.permits[c]
  finishes : p.MayFit x c → requestedReservation x c p ≤ p.reservation c → (x.stepRecord (p.engine c).step).isEnd = true →
    p.StepFinishes x c q ∧
    q = (((p.shrunk x expire c).lineLeft x expire c).setEngine c (q.engine c)).raiseAt (noticeSlot c .sequenceDone) (p.engine c).step x.cycle
  runs : p.MayFit x c → requestedReservation x c p ≤ p.reservation c → (x.stepRecord (p.engine c).step).isEnd = false →
    (x.stepRecord (p.engine c).step).claimsRoughing = false → p.StepRuns x c q ∧ q.arbiter.line ≠ .granted c ∧
    q = ((p.shrunk x expire c).lineLeft x expire c).setEngine c (q.engine c)
  settles : p.MayFit x c → requestedReservation x c p ≤ p.reservation c →
    (x.stepRecord (p.engine c).step).isEnd = true ∨ (x.stepRecord (p.engine c).step).claimsRoughing = false →
    p.arbiter.line = .granted c → p.arbiter.settleTime ≠ 0 →
    q.arbiter.line = .settling (x.now + p.arbiter.settleTime * 1000)
  keeps : p.MayFit x c → requestedReservation x c p ≤ p.reservation c → (x.stepRecord (p.engine c).step).isEnd = false →
    (x.stepRecord (p.engine c).step).claimsRoughing = true → p.arbiter.line = .granted c →
    p.StepRuns x c q ∧ q.arbiter.line = .granted c ∧ q = (p.shrunk x expire c).setEngine c (q.engine c)
  claims : p.MayFit x c → requestedReservation x c p ≤ p.reservation c → (x.stepRecord (p.engine c).step).isEnd = false →
    (x.stepRecord (p.engine c).step).claimsRoughing = true → p.arbiter.line ≠ .granted c →
    let m := p.shrunk x expire c
    (m.arbiter.line = .free → p.StepRuns x c q ∧ q.arbiter.line = .granted c ∧
      q = { m.setEngine c (q.engine c) with arbiter := { m.arbiter with line := .granted c } }) ∧
    (m.arbiter.line ≠ .free → p.StepWaits c .line q ∧ c ∈ q.arbiter.queue ∧
      q = { m.setEngine c (q.engine c) with arbiter := { m.arbiter with queue := m.arbiter.queue ++ [c] } })
  claimsAlone : p.MayFit x c → (x.stepRecord (p.engine c).step).isEnd = false →
    (x.stepRecord (p.engine c).step).claimsRoughing = true →
    requestedReservation x c p = p.reservation c ∨
      requestedReservation x c p < p.reservation c ∧ p.arbiter.growth = [] →
    (p.arbiter.line = .free → p.StepRuns x c q ∧ q.arbiter.line = .granted c) ∧
    (p.arbiter.line ≠ .free → p.arbiter.line ≠ .granted c →
      p.StepWaits c .line q ∧ q.arbiter.line = p.arbiter.line ∧ q.arbiter.queue = p.arbiter.queue ++ [c])
  grows : p.MayFit x c → p.reservation c < requestedReservation x c p →
    let left := p.lineLeft x expire c
    q = examineGrowth x expire
      { left.setEngine c { p.engine c with state := .waiting, awaited := .growth } with
        arbiter := { left.arbiter with growth := left.arbiter.growth ++ [⟨c, requestedReservation x c p⟩] } } ∧
    (p.arbiter.line = .granted c → p.arbiter.settleTime ≠ 0 →
      q.arbiter.line = .settling (x.now + p.arbiter.settleTime * 1000))
  waits : p.MayFit x c → p.reservation c < requestedReservation x c p →
    (p.arbiter.line = .granted c → p.arbiter.settleTime ≠ 0) →
    ∀ head rest, (p.asking x c).arbiter.growth = head :: rest → headFits (p.asking x c) head = false →
      headStuck (p.asking x c) head = false → q = p.asking x c
  served : p.MayFit x c → p.reservation c < requestedReservation x c p →
    (p.arbiter.line = .granted c → p.arbiter.settleTime ≠ 0) → p.arbiter.growth = [] →
    requestedReservation x c p + otherReservations p c ≤ p.arbiter.budget →
    q.reservation c = requestedReservation x c p ∧ q.arbiter.growth = [] ∧ q.permits[c] = p.permits[c] ∧
    ((x.stepRecord (p.engine c).step).isEnd = true → p.StepFinishes x c q) ∧
    ((x.stepRecord (p.engine c).step).isEnd = false →
      ((x.stepRecord (p.engine c).step).claimsRoughing = false → p.StepRuns x c q ∧ q.arbiter.line = p.freedLine x c) ∧
      ((x.stepRecord (p.engine c).step).claimsRoughing = true →
        (p.arbiter.line = .free → p.StepRuns x c q ∧ q.arbiter.line = .granted c) ∧
        (p.arbiter.line ≠ .free → p.StepWaits c .line q ∧ q.arbiter.line = p.freedLine x c ∧
          q.arbiter.queue = p.arbiter.queue ++ [c])))

/-- The engine as the end of its step leaves it for the boundary of the next (R58). -/
def Engine.afterStep (e : Engine) (step : StepRecord) : Engine :=
  { e with timer := none, outputTable := setTargets step.setpoints e.outputTable
           loops := (applyLoop e.step step.loopPart e.loops).1, step := (applyLoop e.step step.loopPart e.loops).2 }

/-! ### A step taken up after a hold -/

/-- The output table with the hold outputs formed on it (R71). -/
def heldValues (x : Ctx) (c : Chamber) (t : ValueTable) : ValueTable := Vector.ofFn fun h : Fin 16 =>
  let k := x.record c h
  if k.kind.isSetpoint && k.holdBehaviour == .safeValue then k.safeValue else t[h]

/-- The resume values of a hold record (R76). -/
def HoldRecord.values (x : Ctx) (h : HoldRecord) : ValueTable :=
  match h.heldFrom with
  | .waiting => h.outputTable
  | .running => Vector.ofFn fun k : Fin 16 =>
      if ((x.stepRecord h.step).setpointFor k).isSome then h.startTable[k] else h.outputTable[k]

/-- The elapsed time a step held from RUNNING is taken up with (R77). -/
def HoldRecord.takenUp (h : HoldRecord) : Nat :=
  match h.mode with
  | .continue => h.elapsed
  | .restart => 0

/-- The step of an engine that takes hold record h up has no time left (R77). -/
def Engine.Spent (x : Ctx) (e : Engine) (h : HoldRecord) : Prop :=
  h.heldFrom = .running ∧ (x.stepRecord e.step).dwell ≤ h.takenUp

/-- The engine with its hold left, before the boundary of the held step (R76). -/
def Engine.leaving (x : Ctx) (e : Engine) (h : HoldRecord) : Engine :=
  { e with sources := {}, hold := some h, loops := h.loops, startTable := h.startTable, outputTable := h.values x
           step := h.step }

/-- The engine as RUNNING entry leaves it for the step that hold record h takes up (R49, R77). -/
def Engine.resumed (x : Ctx) (e : Engine) (h : HoldRecord) : Engine :=
  let step := x.stepRecord e.step
  { e with
    state := .running, awaited := .nothing, counter := 0, hold := none
    outputTable := setTargets (step.setpoints.filter fun k => !k.ramp) (h.values x)
    startTime := (match h.heldFrom with | .running => x.now - h.takenUp | .waiting => x.now)
    timer := some (match h.heldFrom with | .running => x.now + (step.dwell - h.takenUp) | .waiting => x.now + step.dwell)
    startTable := (match h.heldFrom with | .running => e.startTable | .waiting => h.values x) }

/-- The engine that waits with its resume pending (R78). -/
def Engine.pending (x : Ctx) (c : Chamber) (e : Engine) (h : HoldRecord) (awaited : Awaited) : Engine :=
  { e with state := .waiting, awaited := awaited, outputTable := heldValues x c (h.values x) }

/-- Chamber c enters HELD or SAFE, its engine being e while it gives up what it has: what that leaves, and what the others keep (R61,
R70). -/
structure Plant.GivesUp (x : Ctx) (expire : Expire) (c : Chamber) (e : Engine) (p q : Plant) : Prop where
  out : q.Out c
  line : q.arbiter.line ≠ .granted c
  reservation : q.reservation c = p.allowance c
  handsBack : p.HandsBack x expire c e q
  others : ∀ d, d ≠ c → p.Out d → p.Spares d q

/-- The expiry of the dwell timer of the RUNNING engine of chamber c in plant p, by the step's kind and timeout action (R53, R57,
R58). -/
structure Plant.Expires (x : Ctx) (expire : Expire) (c : Chamber) (p q : Plant) : Prop where
  timed :
    let e := p.engine c
    let step := x.stepRecord e.step
    step.isConditioned = false → (p.setEngine c (e.afterStep step)).TakesBoundary x expire c q
  advances :
    let e := p.engine c
    let step := x.stepRecord e.step
    step.isConditioned = true → step.timeoutAction = some .toAdvance →
      ((p.raiseAt (noticeSlot c .stepTimeout) e.step x.cycle).setEngine c (e.afterStep step)).TakesBoundary x expire c q
  holds :
    let e := p.engine c
    let step := x.stepRecord e.step
    step.isConditioned = true → step.timeoutAction = some .toHold →
      let record : HoldRecord :=
        { heldFrom := .running, step := e.step, elapsed := step.dwell, loops := e.loops, startTable := e.startTable
          outputTable := e.outputTable, mode := .continue }
      (p.raiseAt (noticeSlot c .stepTimeout) e.step x.cycle).GivesUp x expire c
        { e with awaited := .nothing, timer := none, counter := 0, hold := some record } q ∧
      q.permits[c] = p.permits[c] ∧ q.Raised c .stepTimeout ∧ q.Raised c .holdEntered ∧
      q.engine c =
        { e with state := .held, awaited := .nothing, timer := none, counter := 0, sources := { engine := true }
                 hold := some record, outputTable := heldValues x c e.outputTable }
  safe :
    let e := p.engine c
    let step := x.stepRecord e.step
    step.isConditioned = true → step.timeoutAction = some .toSafe →
      (p.raiseAt (noticeSlot c .stepTimeout) e.step x.cycle).GivesUp x expire c
        { e with awaited := .nothing, timer := none, counter := 0 } q ∧
      q.permits[c] = false ∧ q.Raised c .stepTimeout ∧ q.Raised c .safeEntered ∧
      q.engine c =
        { e with state := .safe, awaited := .nothing, timer := none, counter := 0, hold := none, sources := {}, loops := []
                 range := none
                 outputTable := Vector.ofFn fun h : Fin 16 =>
                   if (x.record c h).kind.isSetpoint then (x.record c h).safeValue else 0 }

/-- The turn of chamber c at ring loss, in plant p (step 4 of R150): a RUNNING or WAITING engine enters HELD by RING, a HELD one has
RING join, an IDLE chamber's implicit claim ends, DONE and SAFE stand. Elapsed never passes D x 100 (R69, log 17). -/
structure Plant.LosesRing (x : Ctx) (expire : Expire) (c : Chamber) (p q : Plant) : Prop where
  enters : (p.engine c).state = .running ∨ (p.engine c).state = .waiting →
    let e := p.engine c
    let record : HoldRecord := match e.hold with
      | some h => { h with elapsed := 0, mode := .continue }
      | none =>
        { heldFrom := if e.state = .running then .running else .waiting, step := e.step
          elapsed := if e.state = .running then min (x.now - e.startTime) (x.stepRecord e.step).dwell else 0
          loops := e.loops, startTable := e.startTable, outputTable := e.outputTable, mode := .continue }
    p.GivesUp x expire c { e with awaited := .nothing, timer := none, counter := 0, hold := some record } q ∧
    q.permits[c] = p.permits[c] ∧ q.Raised c .holdEntered ∧
    q.engine c =
      { e with state := .held, awaited := .nothing, timer := none, counter := 0, sources := { ring := true }
               hold := some record, outputTable := heldValues x c e.outputTable }
  joins : (p.engine c).state = .held →
    q = p.setEngine c { p.engine c with sources := { (p.engine c).sources with ring := true } }
  claimEnds : (p.engine c).state = .idle →
    (p.arbiter.line = .granted c → q = p.lineLeft x expire c) ∧
    (p.arbiter.line ≠ .granted c →
      q = { p with arbiter := { p.arbiter with queue := p.arbiter.queue.filter (· ≠ c) } })
  stands : (p.engine c).state = .done ∨ (p.engine c).state = .safe → q = p

/-- The step that hold record h takes up goes RUNNING in plant p; with no time left it has its expiry in the same event (R77),
the first of at most four (log 7). -/
structure Plant.ResumesIn (x : Ctx) (c : Chamber) (h : HoldRecord) (p q : Plant) : Prop where
  runs : ¬(p.engine c).Spent x h → q = p.setEngine c ((p.engine c).resumed x h)
  expires : (p.engine c).Spent x h → (p.setEngine c ((p.engine c).resumed x h)).Expires x (expireWithin x 3) c q

/-- The resumed step with its reservation settled, of a chamber without the line: END ends the sequence, a step goes RUNNING, takes a
FREE line, or waits for it with the hold outputs on the resume values (R48, R50, R77, R78, R121). -/
structure Plant.ResumeSettles (x : Ctx) (c : Chamber) (h : HoldRecord) (p q : Plant) : Prop where
  finishes : (x.stepRecord (p.engine c).step).isEnd = true →
    q = (p.setEngine c
      { p.engine c with
        state := .done, awaited := .nothing, timer := none, range := none, hold := none
        outputTable := setTargets (x.stepRecord (p.engine c).step).setpoints (h.values x) }).raiseAt
      (noticeSlot c .sequenceDone) (p.engine c).step x.cycle
  runs : (x.stepRecord (p.engine c).step).isEnd = false →
    (x.stepRecord (p.engine c).step).claimsRoughing = false → p.ResumesIn x c h q
  claims : (x.stepRecord (p.engine c).step).isEnd = false → (x.stepRecord (p.engine c).step).claimsRoughing = true →
    (p.arbiter.line = .free →
      ({ p with arbiter := { p.arbiter with line := .granted c } } : Plant).ResumesIn x c h q) ∧
    (p.arbiter.line ≠ .free →
      q = { p.setEngine c ((p.engine c).pending x c h .line) with
            arbiter := { p.arbiter with queue := p.arbiter.queue ++ [c] } })

/-- The boundary of the step that hold record h takes up, in plant p of which chamber c is about to leave its hold without the line,
in neither queue and at its allowance: LOAD_REFUSED keeps the record and holds the chamber again; a load within the allowance is
settled at once; growth waits with the hold outputs on the resume values, or is served at once, and the examination goes on with
what an immediate expiry may have queued (R45 to R50, R76 to R78, R129). -/
structure Plant.ResumesBoundary (x : Ctx) (c : Chamber) (h : HoldRecord) (p q : Plant) : Prop where
  refused : ¬p.MayFit x c →
    let record : HoldRecord := { h with elapsed := 0, mode := .continue }
    p.GivesUp x (expireNow x) c
      { p.engine c with state := .waiting, awaited := .nothing, timer := none, counter := 0, hold := some record } q ∧
    q.permits[c] = p.permits[c] ∧ q.Raised c .loadRefused ∧ q.Raised c .holdEntered ∧
    q.engine c =
      { p.engine c with
        state := .held, awaited := .nothing, timer := none, counter := 0, sources := { engine := true }
        hold := some record, outputTable := heldValues x c (h.values x) }
  settled : p.MayFit x c → requestedReservation x c p = p.reservation c → p.ResumeSettles x c h q
  waits : p.MayFit x c → p.reservation c < requestedReservation x c p →
    let waiting : Plant :=
      { p.setEngine c ((p.engine c).pending x c h .growth) with
        arbiter := { p.arbiter with growth := p.arbiter.growth ++ [⟨c, requestedReservation x c p⟩] } }
    ∀ head rest, waiting.arbiter.growth = head :: rest → headFits waiting head = false → headStuck waiting head = false →
      q = waiting
  served : p.MayFit x c → p.reservation c < requestedReservation x c p → p.arbiter.growth = [] →
    requestedReservation x c p + otherReservations p c ≤ p.arbiter.budget →
    ∃ m : Plant, (p.setReservation c (requestedReservation x c p)).ResumeSettles x c h m ∧
      q = examineHeads x (expireNow x) 5 m ∧ (¬(p.engine c).Spent x h → q = m)

/-! ### Step records in use -/

/-- Every step record within the sequence range of a chamber is CHECKED (R39). -/
def State.RangesChecked (s : State) : Prop :=
  ∀ (c : Chamber) (first last : Nat), (s.engine c).range = some (first, last) →
    ∀ i, first ≤ i → i ≤ last → (s.stepRecord i).check = .checked

/-- Step record i lies within the sequence range of chamber c, which is WAITING, RUNNING or HELD (R38, R39). -/
def State.InUse (s : State) (c : Chamber) (i : Nat) : Prop :=
  ((s.engine c).state = .waiting ∨ (s.engine c).state = .running ∨ (s.engine c).state = .held) ∧
    ∃ first last : Nat, (s.engine c).range = some (first, last) ∧ first ≤ i ∧ i ≤ last

/-- The states at which the records of a mailbox are taken, one after another, from a state on (R155). -/
def mailboxStates : List (List Byte) → State → List State
  | [], _ => []
  | entry :: rest, s => s :: mailboxStates rest (takeEntry entry s).1

/-- The states at which a command takes records: those of the mailbox of a good outbound frame, after its slots (R143), else the
state that finds the command. -/
def State.recordStates (s : State) : Instr → List State
  | .outboundPassage time bytes =>
    if s.inReset then []
    else match classify directionOut bytes with
      | .bad | .foreign => []
      | .good f =>
        let opened := ((s.advanceTo time).arrival.overrun).openCycleWith f.cycle.toNat
        mailboxStates f.mailbox (opened.substitute f.slots).2
  | .returnPassage _ _ | .read _ _ | .write _ _ | .slotMapWrite _ | .channelWrite _ | .stepWrite _ | .guardWrite _
  | .levelWrite _ | .inputWrite _ | .arbiterWrite _ | .ringWrite _ | .noticeWrite _ | .stepCheck _ | .levelCheck _
  | .checkNoObject _ _ | .start _ | .hold _ | .resume _ | .abort _ | .release _ | .clear _ | .lock _ | .restartPart _
  | .assign _ | .broadcast _ _ | .growthServed _ | .lineGranted _ | .dwellExpiry _ | .settleExpiry | .ringWatchExpiry
  | .inputLevelChange _ _ _ | .inputAcceptance _ | .graceLapse _ _ | .powerOnReset _ | .resetEnd => [s]

/-- Nothing that chamber c's sequence stands on has changed: its channel records, its thresholds and a CHECKED level table, and the
slot map (R40). -/
structure State.KeepsFacts (c : Chamber) (s t : State) : Prop where
  channels : ∀ h : Chan, (t.channel c h).record = (s.channel c h).record
  thresholds : t.levels[c].thresholds = s.levels[c].thresholds
  checked : s.levels[c].checked = true → t.levels[c].checked = true
  slotMap : t.slotMap = s.slotMap

/-! ### Ring, management and notices -/

/-- No channel stands in two slots and no chamber's report in two (R1). -/
def State.SlotsDistinct (s : State) : Prop :=
  ∀ i j : Fin 128, s.slotMap[i] = s.slotMap[j] → s.slotMap[i] ≠ .unmapped → i = j

/-- The response queue holds at most 8 responses (R167). -/
def State.ResponsesFit (s : State) : Prop := s.responses.length ≤ Config.responseRoom

/-- The ring address is one of 0..254 (R154). -/
def State.AddressLegal (s : State) : Prop := s.address ≠ 0xFF#8

/-- The nominal period, the survival count and the learned period are in the ranges R146 and R148 give. -/
def Ring.InRange (r : Ring) : Prop :=
  250 ≤ r.nominal ∧ r.nominal ≤ 8000 ∧ 2 ≤ r.survival ∧ r.survival ≤ 64 ∧
    (r.learned - r.nominal) + (r.nominal - r.learned) ≤ r.nominal / 10

/-- The ring watch runs while the ring is up and is stopped in SEEKING and LOST, where no cycle is open (R149, R150). -/
def Ring.WatchFollows (r : Ring) : Prop := r.watch.isSome = r.up ∧ (r.openCycle.isSome = true → r.up = true)

/-- The promises on the slot map, the ring interface, the management agent and the notice threshold together. -/
structure State.Orderly (s : State) : Prop where
  slots : s.SlotsDistinct
  responses : s.ResponsesFit
  address : s.AddressLegal
  ring : s.ring.InRange
  watch : s.ring.WatchFollows
  threshold : s.threshold ≤ 4

/-! ### Taking a record -/

/-- A record of this part that finds room in the response queue is taken (R155). -/
def State.Takes (s : State) (r : Request) : Prop :=
  s.inReset = false ∧ s.address ≠ 0#8 ∧ r.address = s.address ∧ s.responses.length < Config.responseRoom

/-- The state with the response to a record of a command code appended (R155, R167). -/
def State.answered (s : State) (code : Nat) (r : Request) (result : Result) (data : Data) : State :=
  { s with responses := s.responses ++
      [{ code := BitVec.ofNat 8 (code + 0x80), tag := r.tag, index := r.index, word := r.word, result := result, data := data }] }

/-- The command code and the request of a row that takes a record, queues a response and is addressed by the part's own
nonzero address: every management row but RESTART_PART, ASSIGN and a broadcast. -/
def recordOf : Instr → Option (Nat × Request)
  | .read _ r => some (codeRead, r)
  | .write _ r | .slotMapWrite r | .channelWrite r | .stepWrite r | .guardWrite r | .levelWrite r | .inputWrite r
  | .arbiterWrite r | .ringWrite r | .noticeWrite r => some (codeWrite, r)
  | .stepCheck r | .levelCheck r | .checkNoObject _ r => some (codeCheck, r)
  | .start r => some (codeStart, r)
  | .hold r => some (codeHold, r)
  | .resume r => some (codeResume, r)
  | .abort r => some (codeAbort, r)
  | .release r => some (codeRelease, r)
  | .clear r => some (codeClear, r)
  | .lock r => some (codeLock, r)
  | .outboundPassage _ _ | .returnPassage _ _ | .restartPart _ | .assign _ | .broadcast _ _ | .growthServed _
  | .lineGranted _ | .dwellExpiry _ | .settleExpiry | .ringWatchExpiry | .inputLevelChange _ _ _ | .inputAcceptance _
  | .graceLapse _ _ | .powerOnReset _ | .resetEnd => none

/-- The state with the answer ACCEPTED to a WRITE of a table: the word as stored after the write (R160). -/
def State.stored (s : State) (table : Nat) (r : Request) : State :=
  s.answered codeWrite r .accepted ((s.tableWord table r.index.toNat r.word.toNat).getD zeroData)

/-- The state with a refusal of a WRITE whose data is the word as it stands, zero where it does not exist (R160). -/
def State.refused (s : State) (result : Result) (table : Nat) (r : Request) : State :=
  s.answered codeWrite r result ((s.tableWord table r.index.toNat r.word.toNat).getD zeroData)

/-- The state with a refusal that names a field (R160). -/
def State.refusedField (s : State) (r : Request) (field : Nat) : State :=
  s.answered codeWrite r .badValue (packData (be1 field))

/-- The state with the answer to a chamber command that chamber c alone took (R162). -/
def State.chamberTook (s : State) (code : Nat) (r : Request) (c : Chamber) : State :=
  s.answered code r .accepted (packData (be1 (2 ^ c.val) ++ be1 0xFF))

/-- The state with the answer to a chamber command that chamber c alone was named for and refused (R162). -/
def State.chamberRefused (s : State) (code : Nat) (r : Request) (c : Chamber) (f : ChamberRefusal) : State :=
  s.answered code r f.result
    (packData (be1 0 ++ be1 c.val ++ be1 f.result.code ++ be2 f.index ++ be1 f.field ++ be1 f.position))

/-- The rows of the six chamber commands, each with its code, its request and what it does at one engine (Table 9-2). -/
def chamberRow : Instr → Option (Nat × Request × ChamberStep)
  | .start r => some (codeStart, r, startChamber (r.number 0 2))
  | .hold r => some (codeHold, r, holdChamber)
  | .resume r => some (codeResume, r, resumeChamber (r.byte 0))
  | .abort r => some (codeAbort, r, abortChamber)
  | .release r => some (codeRelease, r, releaseChamber)
  | .clear r => some (codeClear, r, clearChamber)
  | .outboundPassage _ _ | .returnPassage _ _ | .read _ _ | .write _ _ | .slotMapWrite _ | .channelWrite _ | .stepWrite _
  | .guardWrite _ | .levelWrite _ | .inputWrite _ | .arbiterWrite _ | .ringWrite _ | .noticeWrite _ | .stepCheck _
  | .levelCheck _ | .lock _ | .restartPart _ | .assign _ | .broadcast _ _ | .growthServed _ | .lineGranted _
  | .dwellExpiry _ | .settleExpiry | .ringWatchExpiry | .inputLevelChange _ _ _ | .inputAcceptance _ | .graceLapse _ _
  | .powerOnReset _ | .resetEnd | .checkNoObject _ _ => none

/-- The row of the opcode table that a record with a command code and a table id is, EMPTY and unknown codes being none (Tables
9-2 and 9-3). -/
def rowOf (code table : Byte) (r : Request) : Option Instr :=
  match code.toNat with
  | 1 => some (.read table r)
  | 2 => some (match table.toNat with
    | 1 => .slotMapWrite r
    | 2 => .channelWrite r
    | 3 => .stepWrite r
    | 4 => .guardWrite r
    | 5 => .levelWrite r
    | 6 => .inputWrite r
    | 7 => .arbiterWrite r
    | 8 => .ringWrite r
    | 9 => .noticeWrite r
    | _ => .write table r)
  | 3 => some (match table.toNat with
    | 3 => .stepCheck r
    | 5 => .levelCheck r
    | _ => .checkNoObject table r)
  | 4 => some (.start r)
  | 5 => some (.hold r)
  | 6 => some (.resume r)
  | 7 => some (.abort r)
  | 8 => some (.release r)
  | 9 => some (.clear r)
  | 10 => some (.lock r)
  | 11 => some (.restartPart r)
  | 12 => some (.assign r)
  | _ => none

/-- What a lock protects of the tables it covers (R163): the slot map, the channel records, the thresholds of the level tables,
the guard configurations, the filter times, the arbiter's configuration, and the nominal period and survival count. -/
structure State.SameTables (s t : State) : Prop where
  slotMap : t.slotMap = s.slotMap
  channels : ∀ (c : Chamber) (h : Chan), (t.channel c h).record = (s.channel c h).record
  thresholds : ∀ c : Chamber, t.levels[c].thresholds = s.levels[c].thresholds
  guards : ∀ (c : Chamber) (g : GuardIndex), (t.guardEntry c g).config = (s.guardEntry c g).config
  filters : ∀ l : Line, (t.input l).filter = (s.input l).filter
  budget : t.plant.arbiter.budget = s.plant.arbiter.budget
  allowances : t.plant.arbiter.allowance = s.plant.arbiter.allowance
  settleTime : t.plant.arbiter.settleTime = s.plant.arbiter.settleTime
  priority : t.plant.arbiter.priority = s.plant.arbiter.priority
  nominal : t.ring.nominal = s.ring.nominal
  survival : t.ring.survival = s.ring.survival

/-- A chamber mask that names chamber c and no other (R162). -/
def Request.Only (r : Request) (c : Chamber) : Prop := r.index.toNat = 2 ^ c.val

/-! ### The rules a record must meet -/

/-- Table 2-3, the rules of CHECK on step record i, rule by rule (R30). -/
structure StepRecord.MeetsCheck (r : StepRecord) (i : Nat) : Prop where
  kind : r.kind.toNat ≤ 4
  duration : if r.kind.toNat = 4 then r.duration = 0 else 1 ≤ r.duration ∧ r.duration ≤ 6000000
  ramp : if r.kind.toNat = 4 then r.ramp = 0 else r.ramp ≤ r.duration
  timeout : if r.kind.toNat = 0 ∨ r.kind.toNat = 4 then r.timeout.toNat = 0 else 1 ≤ r.timeout.toNat ∧ r.timeout.toNat ≤ 3
  level : if r.kind.toNat = 1 ∨ r.kind.toNat = 2 then r.level ≤ 15 else r.level = 0
  count : if r.kind.toNat = 0 ∨ r.kind.toNat = 4 then r.count = 0 else 1 ≤ r.count ∧ r.count ≤ 15
  ratio : if r.kind.toNat = 3 then r.ratio ≤ 1000 else r.ratio = 0
  minForward : r.kind.toNat ≠ 3 → r.minForward = 0
  loopTarget : r.loopTarget ≠ 0xFFFF → r.kind.toNat ≠ 4 ∧ r.loopTarget ≤ i
  loopCount : r.loopTarget ≠ 0xFFFF → 1 ≤ r.loopCount
  entries : ∀ n : Fin 8, r.entries[n].channel ≠ 0xFF#8 → r.entries[n].channel.toNat ≤ 15 ∧
    ∀ m : Fin 8, m < n → r.entries[m].channel ≠ r.entries[n].channel

/-- The first row of Table 1-3: every field of a channel record within its stored range of Table 1-2 (R5, R6); kind, owner, hold
behaviour and pair are so by their types. -/
structure ChannelRecord.InRange (r : ChannelRecord) : Prop where
  weight : r.weight ≤ 255
  fullScale : 1 ≤ r.fullScale ∧ r.fullScale ≤ 65535
  wordFullScale : 1 ≤ r.wordFullScale ∧ r.wordFullScale ≤ 65535
  lo : r.lo ≤ 65535
  hi : r.hi ≤ 65535
  safeValue : r.safeValue ≤ 65535
  staleLimit : 1 ≤ r.staleLimit ∧ r.staleLimit ≤ 255
  failValue : r.failValue ≤ 65535

/-- The other rows of Table 1-3 and the limits of a chamber, for channel h of a chamber with the records `after` (R6, R7). -/
structure ChannelRules (after : Chan → ChannelRecord) (h : Chan) : Prop where
  valves : (after h).kind = .valve ∨ (after h).kind = .roughValve → (after h).fullScale = 1
  limits : (after h).kind.isSetpoint = true → (after h).lo ≤ (after h).hi ∧ (after h).hi ≤ (after h).fullScale
  gasLow : (after h).kind = .gasFlow → (after h).lo = 0
  safeWithin : (after h).kind.isSetpoint = true → (after h).lo ≤ (after h).safeValue ∧ (after h).safeValue ≤ (after h).hi
  safeZero : (after h).kind = .gasFlow ∨ (after h).kind = .rfPower → (after h).safeValue = 0
  safeHold : (after h).kind = .gasFlow ∨ (after h).kind = .rfPower → (after h).holdBehaviour = .safeValue
  weight : (after h).kind ≠ .gasFlow → (after h).kind ≠ .none → (after h).weight = 0
  pairAbsent : (after h).kind ≠ .flowRead → (after h).kind ≠ .none → (after h).pair = none
  pairGas : (after h).kind = .flowRead → ∀ j, (after h).pair = some j → (after j).kind = .gasFlow
  failValue : (after h).kind.isReadback = true → (after h).failValue ≤ (after h).fullScale
  single : (after h).kind.single = true → ∀ j, (after j).kind = (after h).kind → j = h
  gasCount : (after h).kind = .gasFlow → (sixteen.filter fun j => (after j).kind = .gasFlow).length ≤ 8
  paired : (after h).kind ≠ .gasFlow → ∀ j, (after j).kind = .flowRead → (after j).pair ≠ some h

/-- Table 6-3 for a guard entry of a chamber with the channel records `record` (R99). -/
structure GuardConfig.Rules (k : GuardConfig) (record : Chan → ChannelRecord) : Prop where
  count : k.kind.isFramePaced = true → 1 ≤ k.count ∧ k.count ≤ 15
  inputCount : k.kind.isInput = true → k.count = 1
  levelSource : k.kind = .levelAbove ∨ k.kind = .levelBelow → k.source = 0 ∧ k.trip ≤ 15
  valueSource : k.kind = .valueAbove ∨ k.kind = .valueBelow → (record k.source).kind.isReadback = true
  deviation : k.kind = .deviation → (record k.source).kind = .flowRead ∧ (record k.source).pair.isSome = true ∧
    k.trip = 0 ∧ k.release ≤ k.tolerance
  input : k.kind.isInput = true → k.trip = 0 ∧ k.release = 0
  above : k.kind = .levelAbove ∨ k.kind = .valueAbove → k.release ≤ k.trip
  below : k.kind = .levelBelow ∨ k.kind = .valueBelow → k.trip ≤ k.release
  belowLevel : k.kind = .levelBelow → k.release ≤ 15
  unused : k.kind ≠ .off → k.kind ≠ .deviation → k.tolerance = 0 ∧ k.grace = 0

/-- Of a list of rules, each with what it names when it is broken, the first that does not hold names `label`. -/
def FirstBroken {α : Type} (rules : List (Prop × α)) (label : α) : Prop :=
  ∃ (before after : List (Prop × α)) (rule : Prop),
    rules = before ++ (rule, label) :: after ∧ (∀ b ∈ before, b.1) ∧ ¬rule

/-- Table 2-3 in its order for step record i, each rule with the field code it names and, for the entries, their position; a repeated
channel is named at the later of its positions (R30, R161). -/
def checkRules (i : Nat) (r : StepRecord) : List (Prop × Nat × Nat) :=
  let ends : Prop := r.kind.toNat = 4
  let conditioned : Prop := 1 ≤ r.kind.toNat ∧ r.kind.toNat ≤ 3
  let levelled : Prop := r.kind.toNat = 1 ∨ r.kind.toNat = 2
  let strike : Prop := r.kind.toNat = 3
  let looped : Prop := r.loopTarget ≠ 0xFFFF
  let sound (n : Fin 8) : Prop := r.entries[n].channel ≠ 0xFF#8 → r.entries[n].channel.toNat ≤ 15 ∧
    ∀ m : Fin 8, m < n → r.entries[m].channel ≠ r.entries[n].channel
  [ (r.kind.toNat ≤ 4, 1, 0),
    ((ends → r.duration = 0) ∧ (¬ends → 1 ≤ r.duration ∧ r.duration ≤ 6000000), 2, 0),
    ((ends → r.ramp = 0) ∧ (¬ends → r.ramp ≤ r.duration), 3, 0),
    ((conditioned → 1 ≤ r.timeout.toNat ∧ r.timeout.toNat ≤ 3) ∧ (¬conditioned → r.timeout.toNat = 0), 4, 0),
    ((levelled → r.level ≤ 15) ∧ (¬levelled → r.level = 0), 5, 0),
    ((conditioned → 1 ≤ r.count ∧ r.count ≤ 15) ∧ (¬conditioned → r.count = 0), 6, 0),
    ((strike → r.ratio ≤ 1000) ∧ (¬strike → r.ratio = 0), 7, 0),
    (¬strike → r.minForward = 0, 8, 0),
    (looped → ¬ends ∧ r.loopTarget ≤ i, 9, 0),
    (looped → 1 ≤ r.loopCount, 10, 0) ] ++
  (List.finRange 8).map fun n => (sound n, 11, n.val + 1)

/-- Table 1-3 in its order and then R7, for channel h of a chamber with the records `after`, with the field codes of Table 9-5.
Which of lo and hi the third row names is left open (log 11). -/
def channelRules (after : Chan → ChannelRecord) (h : Chan) : List (Prop × Nat) :=
  let r := after h
  [ (r.kind = .valve ∨ r.kind = .roughValve → r.fullScale = 1, 6),
    (r.kind.isSetpoint = true → r.lo ≤ r.hi ∧ r.hi ≤ r.fullScale,
      if Config.limitsNameHi r.lo r.hi r.fullScale then 9 else 8),
    (r.kind = .gasFlow → r.lo = 0, 8),
    (r.kind.isSetpoint = true → r.lo ≤ r.safeValue ∧ r.safeValue ≤ r.hi, 10),
    (r.kind = .gasFlow ∨ r.kind = .rfPower → r.safeValue = 0, 10),
    (r.kind = .gasFlow ∨ r.kind = .rfPower → r.holdBehaviour = .safeValue, 3),
    (r.kind ≠ .gasFlow → r.kind ≠ .none → r.weight = 0, 4),
    (r.kind ≠ .flowRead → r.kind ≠ .none → r.pair = none, 5),
    (r.kind = .flowRead → ∀ j, r.pair = some j → (after j).kind = .gasFlow, 5),
    (r.kind.isReadback = true → r.failValue ≤ r.fullScale, 12),
    (r.kind.single = true → ∀ j, (after j).kind = r.kind → j = h, 1),
    (r.kind = .gasFlow → (sixteen.filter fun j => (after j).kind = .gasFlow).length ≤ 8, 1),
    (r.kind ≠ .gasFlow → ∀ j, (after j).kind = .flowRead → (after j).pair ≠ some h, 1) ]

/-- Table 6-3 from its second row on, in its order, for a guard entry of a chamber with the channel records `record`, with the
field codes of Table 9-5. -/
def guardRules (record : Chan → ChannelRecord) (k : GuardConfig) : List (Prop × Nat) :=
  [ (k.kind.isFramePaced = true → 1 ≤ k.count ∧ k.count ≤ 15, 5),
    (k.kind.isInput = true → k.count = 1, 5),
    (k.kind = .levelAbove ∨ k.kind = .levelBelow → k.source = 0, 2),
    (k.kind = .valueAbove ∨ k.kind = .valueBelow → (record k.source).kind.isReadback = true, 2),
    (k.kind = .deviation → (record k.source).kind = .flowRead ∧ (record k.source).pair.isSome = true, 2),
    (k.kind = .levelAbove ∨ k.kind = .levelBelow → k.trip ≤ 15, 6),
    (k.kind = .deviation ∨ k.kind.isInput = true → k.trip = 0, 6),
    (k.kind = .levelAbove ∨ k.kind = .valueAbove → k.release ≤ k.trip, 7),
    (k.kind = .levelBelow ∨ k.kind = .valueBelow → k.trip ≤ k.release ∧ (k.kind = .levelBelow → k.release ≤ 15), 7),
    (k.kind = .deviation → k.release ≤ k.tolerance, 7),
    (k.kind.isInput = true → k.release = 0, 7),
    (k.kind ≠ .off → k.kind ≠ .deviation → k.tolerance = 0, 8),
    (k.kind ≠ .off → k.kind ≠ .deviation → k.grace = 0, 9) ]

/-- Table 2-5 for record i in a walk of chamber c that began at record s, in its order, each test with the refusal it gives (R31 to
R37): CHECKED; the loop target at or above s; its interval apart from or around every earlier one, and no loop of a loop within it;
the eight entry positions; the channels and the level table of a conditioned step; END without the line. -/
def walkRules (x : Ctx) (slotMap : Vector SlotUse 128) (c : Chamber) (s i : Nat) : List (Prop × ChamberRefusal) :=
  let r := x.stepRecord i
  let loops (j T : Nat) : Prop := (x.stepRecord j).loopTarget = T ∧ T ≠ 0xFFFF
  let has (k : ChannelKind) : Prop := ∃ h : Chan, (x.record c h).kind = k
  let usable (n : Fin 8) : Prop := r.entries[n].channel = 0xFF#8 ∨ ∃ h : Chan, r.entries[n].channel.toNat = h.val ∧
    (∃ k : Fin 128, slotMap[k] = .channel c h) ∧ (x.record c h).kind.isSetpoint = true ∧ (x.record c h).owner = .sequence
  [ (r.check = .checked, { result := .notChecked, index := i }),
    (∀ T, loops i T → s ≤ T, { result := .badSequence, index := i, field := 9 }),
    (∀ T, loops i T →
        (∀ L T', s ≤ L → L < i → loops L T' → L < T ∨ T ≤ T') ∧
        ¬∃ (k j U V : Nat), s ≤ j ∧ j < k ∧ k < i ∧ loops k U ∧ loops j V ∧ T ≤ U ∧ U ≤ V,
      { result := .badSequence, index := i, field := 9 }) ] ++
  (List.finRange 8).map (fun n => (usable n, { result := .badValue, index := i, field := 11, position := n.val + 1 })) ++
  [ (r.kind.toNat = 1 ∨ r.kind.toNat = 2 → has .pressure ∧ x.levels[c].checked = true,
      { result := .badSequence, index := i, field := 1 }),
    (r.kind.toNat = 3 → has .rfForward ∧ has .rfReflected, { result := .badSequence, index := i, field := 1 }),
    (r.kind.toNat = 4 → r.claimsRoughing = false, { result := .badSequence, index := i, field := 12 }) ]

/-- What the tables promise of every state: the records of held ranges CHECKED (R39), CHECKED records sound (R22, R30), EMPTY ones
of zero contents (R22), CHECKED level tables rising (R18, R19), and every channel record within R6, the stored ranges of Table 1-2
included, and R7. -/
structure State.RecordsSound (s : State) : Prop where
  ranges : s.RangesChecked
  checkedSteps : ∀ i : Fin 512, s.pool[i].check = .checked → s.pool[i].MeetsCheck i.val
  emptySteps : ∀ i : Fin 512, s.pool[i].check = .empty → s.pool[i] = {}
  checkedLevels : ∀ (c : Chamber) (k : Fin 14), s.levels[c].checked = true →
    s.levels[c].thresholds[k.val] < s.levels[c].thresholds[k.val + 1]
  stored : ∀ (c : Chamber) (h : Chan), (s.channel c h).record.InRange
  channels : ∀ (c : Chamber) (h : Chan), ChannelRules (fun j => (s.channel c j).record) h

/-- What the guards promise of every state: a chamber with a SAFE-action entry TRIPPED or RELEASING is SAFE (R109), and GUARD is a
hold source only while a HOLD-action entry is TRIPPED or RELEASING (R75, R110, R111). -/
structure State.GuardsAct (s : State) : Prop where
  safe : ∀ (c : Chamber) (g : GuardIndex), (s.guardEntry c g).config.action = .safe →
    (s.guardEntry c g).state.standing = true → (s.engine c).state = .safe
  hold : ∀ c : Chamber, (s.engine c).sources.guard = true →
    ∃ g : GuardIndex, (s.guardEntry c g).config.action = .hold ∧ (s.guardEntry c g).state.standing = true

end Sys2Proof.Machine
end

