-- ==== Sys2Proof/WellFormed.lean ====
section
/-! DEFINITION. When a command is the one its row stands for: WRITE is the row of the tables that have no row of their own,
CHECK_NO_OBJECT of the tables without CHECK, BROADCAST of address 255 and no other row of a record at that address. -/

namespace Sys2Proof

/-- The tables that have a WRITE row of their own, ids 1 (SLOT_MAP) to 9 (NOTICE) of Table 9-3. -/
def tableHasOwnWriteRow (table : Byte) : Bool := 1 ≤ table.toNat && table.toNat ≤ 9

/-- The tables CHECK examines: STEP (3) and LEVEL (5), R158. -/
def tableHasCheck (table : Byte) : Bool := table.toNat == 3 || table.toNat == 5

/-- A record at address 255 is a broadcast (R156) and no part takes it as its own. -/
def Machine.Request.single (r : Machine.Request) : Bool := r.address.toNat != 255

/-- The checks on a command; every other row is well-formed with any operands. -/
def Instr.wellFormed : Instr → Bool
  | .write table r => !tableHasOwnWriteRow table && r.single
  | .checkNoObject table r => !tableHasCheck table && r.single
  | .broadcast _ r => !r.single
  | .read _ r => r.single
  | .slotMapWrite r | .channelWrite r | .stepWrite r | .guardWrite r | .levelWrite r | .inputWrite r
  | .arbiterWrite r | .ringWrite r | .noticeWrite r | .stepCheck r | .levelCheck r
  | .start r | .hold r | .resume r | .abort r | .release r | .clear r
  | .lock r | .restartPart r | .assign r => r.single
  | .outboundPassage _ _ | .returnPassage _ _ | .growthServed _ | .lineGranted _ | .dwellExpiry _ | .settleExpiry
  | .ringWatchExpiry | .inputLevelChange _ _ _ | .inputAcceptance _ | .graceLapse _ _ | .powerOnReset _
  | .resetEnd => true

end Sys2Proof
end

