-- ==== Sys2Proof/Certificates/Slice0/Obligations.lean ====
section
/-! DEFINITION. The statements for the provers, from the numbered rules of spec/. A statement's docstring names the rules it
rests on, and the log entry of every choice of the model it uses. -/

open Sys2Proof Sys2Proof.Machine

/-! ### The machine as a whole -/

/-- A step runs the command at the front of the queue on the part with the queue's rest; an empty queue idles (log 1). -/
def Obligations.StepRunsFrontCommand : Prop :=
  (∀ (i : Instr) (s : State), step { s with pending := i :: s.pending } = exec i s) ∧
  (∀ (i : Instr) (rest : List Instr) (s : State), s.pending = i :: rest → step s = exec i { s with pending := rest }) ∧
  ∀ s : State, s.pending = [] → step s = .next s

/-- Every command answers a next state: the spec names no event that stops the part, and a refusal is an answer (Table 9-4).
That the queue of waiting commands is then the one the command found is the model's own choice, since the queue itself is the
model's (log 1; for POWER_ON_RESET log 16). -/
def Obligations.EveryCommandAnswers : Prop :=
  ∀ (i : Instr) (s : State), ∃ t, exec i s = .next t ∧ t.pending = s.pending

/-- Every step keeps what R38, R67, R119 to R121, R126, R127, R117 and R168 say of engines, arbiter, RF-permit lines and notice
slots in every state. -/
def Obligations.StepKeepsSafe : Prop := ∀ s t : State, s.Safe → step s = .next t → t.Safe

/-- Every step keeps the slot map without duplicates (R1), the response queue within 8 (R167), the address within 0..254
(R154), N, S and P in their ranges and the ring watch running exactly while the ring is up (R146, R148, R149). -/
def Obligations.StepKeepsOrderly : Prop := ∀ s t : State, s.Orderly → step s = .next t → t.Orderly

/-- Every step keeps the records within a held sequence range CHECKED (R39), every CHECKED record within Table 2-3 and every
EMPTY one of zero contents (R22, R30), every CHECKED level table strictly rising (R18, R19), and every channel record within R6,
the stored ranges of Table 1-2 included, and R7. Short of a power-on reset every command keeps a step record within the range of a chamber that stays WAITING, RUNNING or
HELD (R39), and of a chamber that stays out of IDLE its channel records, its level table and the slot map (R40): of a frame
whose mailbox carries several records the chamber stays so when it is so at the taking of each. One mailbox entry keeps what is
in use when it is taken. -/
def Obligations.StepKeepsRecordsSound : Prop :=
  (∀ s t : State, s.Safe → s.RecordsSound → step s = .next t → t.RecordsSound) ∧
  (∀ (i : Instr) (s t : State) (c : Chamber), s.Safe → s.RangesChecked → exec i s = .next t →
    (∀ cause, i = .powerOnReset cause → cause.asserts = false) →
    (∀ k : Fin 512, (∀ u ∈ s.recordStates i, u.InUse c k.val) → t.pool[k] = s.pool[k]) ∧
    ((∀ u ∈ s.recordStates i, (u.engine c).state ≠ .idle) → s.KeepsFacts c t)) ∧
  ∀ (entry : List Byte) (s : State) (c : Chamber), s.Safe → s.RangesChecked →
    let t := (takeEntry entry s).1
    (∀ k : Fin 512, s.InUse c k.val → t.pool[k] = s.pool[k]) ∧ ((s.engine c).state ≠ .idle → s.KeepsFacts c t)

/-- Every step keeps a chamber with a standing SAFE-action entry SAFE (R109), and GUARD a hold source only while a HOLD-action
entry stands (R75, R110, R111). -/
def Obligations.StepKeepsGuardsActing : Prop :=
  ∀ s t : State, s.Safe → s.GuardsAct → step s = .next t → t.GuardsAct

/-- The part after power-on reset meets every promise that the steps keep, and its tables, engines, guards, arbiter
configuration and tracker hold the values of their chapters: every slot UNMAPPED (R1), every record and status as Table 1-2 and
its chapter give them (R5, R14, R17), every level table UNCHECKED at 0 (R18), every step record EMPTY with zero contents (R22;
what an absent part holds beside its mark of absence: log 31), every engine with the last column of Table 3-1 (R41), every guard
entry with that of Table 6-1 (R97), budget, allowances and reservations 0 (R126), priorities 0 (R133), the tracker SEEKING with
N = 1000, S = 8 and P = 1000 (R146), and the cycle number that a notice takes 0 (R169). -/
def Obligations.ResetKeepsPromises : Prop :=
  (State.reset.Safe ∧ State.reset.Orderly ∧ State.reset.RecordsSound ∧ State.reset.GuardsAct) ∧
  (∀ k : Fin 128, State.reset.slotMap[k] = .unmapped) ∧
  (∀ (c : Chamber) (h : Chan), State.reset.channel c h =
    { record := { kind := .none, owner := .sequence, holdBehaviour := .safeValue, weight := 0, pair := none, fullScale := 1
                  wordFullScale := 1, lo := 0, hi := 0, safeValue := 0, staleLimit := 1, failValue := 0 }
      status := { value := 0, missing := 0, stale := true, carried := 0, changed := 0 } }) ∧
  (∀ c : Chamber, State.reset.levels[c] = { thresholds := Vector.replicate 15 0, checked := false }) ∧
  (∀ i : Fin 512, State.reset.pool[i] =
    { check := .empty, kind := 0#8, claims := 0#8, timeout := 0#8, guardMask := 0#16, duration := 0, ramp := 0, level := 0
      count := 0, ratio := 0, minForward := 0, loopTarget := 0xFFFF, loopCount := 0
      entries := Vector.replicate 8 { channel := 0xFF#8, target := 0, ramp := 0#8 } }) ∧
  (∀ c : Chamber, State.reset.engine c =
    { state := .idle, range := none, step := 0, awaited := .nothing, startTime := 0, timer := none, counter := 0, loops := []
      startTable := Vector.replicate 16 0, outputTable := Vector.replicate 16 0
      sources := { controller := false, guard := false, ring := false, engine := false }, hold := none }) ∧
  (∀ (c : Chamber) (g : GuardIndex), State.reset.guardEntry c g =
    { config := { kind := .off, source := 0, scope := .always, action := .note, count := 0, trip := 0, release := 0
                  tolerance := 0, grace := 0 }
      state := .clear, lapse := none, sourceLost := false }) ∧
  (∀ c : Chamber, State.reset.plant.allowance c = 0 ∧ State.reset.plant.reservation c = 0 ∧
    State.reset.plant.arbiter.priority[c] = 0) ∧ State.reset.plant.arbiter.budget = 0 ∧
  State.reset.ring =
    { state := .seeking, nominal := 1000, survival := 8, learned := 1000, lastArrival := none, count := 0, sum := 0
      rejected := false, watch := none, openCycle := none, lastCycle := 0 }

/-- On a locked part every command but a power-on reset leaves the lock flag set and every field that a write to a locked table
could change (R163). -/
def Obligations.LockedPartKeepsItsTables : Prop :=
  ∀ (i : Instr) (s t : State), s.lock = true → exec i s = .next t →
    (∃ cause, i = .powerOnReset cause ∧ cause.asserts = true) ∨ (t.lock = true ∧ s.SameTables t)

/-- Writes to STEP and NOTICE, CHECK, ASSIGN, the chamber commands, and READ of every table but IDENT (which shows the flag)
do on a locked part what they do on an unlocked one (R163). -/
def Obligations.UnlockedCommandsIgnoreLock : Prop :=
  ∀ (i : Instr) (s t : State),
    (match i with
      | .read table _ => table.toNat ≠ 11
      | .stepWrite _ | .noticeWrite _ | .stepCheck _ | .levelCheck _ | .checkNoObject _ _ | .start _ | .hold _ | .resume _
      | .abort _ | .release _ | .clear _ | .assign _ => True
      | _ => False) →
    exec i s = .next t → exec i { s with lock := true } = .next { t with lock := true }

/-! ### Frames -/

/-- The contents of a frame of a legal shape are read back whole from its bytes, with the check computed (R140, R141). The bytes
are those of Table 8-1, and the check is the CRC-16 of R140: a register of all ones that takes each byte most significant bit
first, with the polynomial x^16 + x^12 + x^5 + 1, and is the check as it stands. A received frame is bad by its length, its
check or its expected length; else foreign by its kind, its direction, n or m; else good, with n slots and m entries (R141). -/
def Obligations.FrameDecodesItsBytes : Prop :=
  (∀ (direction : Byte) (bytes : List Byte),
    let n := (bytes.getD 4 0#8).toNat
    let m := (bytes.getD 5 0#8).toNat
    let before := bytes.take (bytes.length - 2)
    let bad : Prop := bytes.length < 8 ∨ 840 < bytes.length ∨ bytes ≠ before ++ be2 (crc16 before).toNat ∨
      bytes.length ≠ 6 + 6 * n + 16 * m + 2
    let foreign : Prop := bytes.getD 0 0#8 ≠ 0xC5#8 ∨ bytes.getD 1 0#8 ≠ direction ∨ n < 1 ∨ 128 < n ∨ 4 < m
    (classify direction bytes = .bad ↔ bad) ∧ (classify direction bytes = .foreign ↔ ¬bad ∧ foreign) ∧
    (¬bad → ¬foreign → ∃ f : Frame, classify direction bytes = .good f ∧ f.slots.length = n ∧ f.mailbox.length = m)) ∧
  directionOut = 0x0F#8 ∧ directionReturn = 0xF0#8 ∧ processKind = 0xC5#8 ∧
  (∀ (direction : Byte) (f : Frame), f.kind = processKind → f.direction = direction → 1 ≤ f.slots.length →
    f.slots.length ≤ 128 → f.mailbox.length ≤ 4 → (∀ e ∈ f.mailbox, e.length = 16) →
      classify direction f.bytes = .good f) ∧
  (∀ f : Frame,
    let slots := f.slots.flatMap fun k => be2 k.setpoint.toNat ++ be2 k.readback.toNat ++ [k.nodeFlags, k.gateFlags]
    let fields := [f.kind, f.direction] ++ be2 f.cycle.toNat ++ be1 f.slots.length ++ be1 f.mailbox.length ++ slots ++
      f.mailbox.flatten
    f.bytes = fields ++ be2 (crc16 fields).toNat) ∧
  crc16 [] = 0xFFFF#16 ∧
  ∀ (bytes : List Byte) (byte : Byte), crc16 (bytes ++ [byte]) =
    [7, 6, 5, 4, 3, 2, 1, 0].foldl (fun (register : Half) k => (register <<< 1) ^^^
      (if register.getLsbD 15 != byte.getLsbD k then BitVec.ofNat 16 (2 ^ 12 + 2 ^ 5 + 1) else 0#16)) (crc16 bytes)

/-- The bytes of a good frame are its contents with the check computed, so a frame the part altered nothing in leaves as it
came (R142). -/
def Obligations.UnalteredFrameKeepsItsBytes : Prop :=
  ∀ (direction : Byte) (bytes : List Byte) (f : Frame), classify direction bytes = .good f → f.bytes = bytes

/-- A good outbound frame is taken in the order of R143: the cycle tracker, an overrun of an open cycle, the open-cycle record,
the slots, the mailbox, then it is forwarded with what was altered. A good return frame is taken in the order of R144: a match
closes the open cycle with the frame's readings, the REPORT slots are written, queued responses are posted, then notices. That
the event's time is the row's operand, taken at the later of it and the timebase, is the model's choice (log 1), and so is the
record of what each port transmitted last (log 15). -/
def Obligations.GoodFramesInOrder : Prop :=
  (∀ (time : Nat) (bytes : List Byte) (f : Frame) (s : State), s.inReset = false → classify directionOut bytes = .good f →
    let arrived := (s.advanceTo time).arrival
    let closed := if arrived.ring.openCycle = none then arrived else arrived.closeCycle []
    let opened :=
      { closed with ring := { closed.ring with openCycle := some f.cycle.toNat, lastCycle := f.cycle.toNat } }
    let filled := opened.substitute f.slots
    let taken := takeMailbox f.mailbox filled.2
    exec (.outboundPassage time bytes) s =
      .next (taken.2.sendDown ({ f with slots := filled.1, mailbox := taken.1 } : Frame).bytes)) ∧
  ∀ (time : Nat) (bytes : List Byte) (f : Frame) (s : State), s.inReset = false → classify directionReturn bytes = .good f →
    let now := s.advanceTo time
    let closed := now.closeCycle f.slots
    let matched :=
      if s.ring.openCycle = some f.cycle.toNat then { closed with ring := { closed.ring with openCycle := none } } else now
    let responded := matched.postResponses f.mailbox
    let noticed := responded.2.postNotices responded.1
    exec (.returnPassage time bytes) s =
      .next (noticed.2.sendUp ({ f with slots := reportSlots matched 0 f.slots, mailbox := noticed.1 } : Frame).bytes)

/-- A bad frame is forwarded as received and empties the training window, on either port (R142, R147); a foreign one is forwarded
as received and changes no block (R142); in reset a frame is forwarded and has no effect (R152). That the frame's time is the row's
operand, at the later of which and the timebase it is taken, is the model's choice (log 1), and so is the record of what each port
transmitted last (log 15). -/
def Obligations.FramesPassUntouched : Prop :=
  ∀ (time : Nat) (bytes : List Byte) (s : State),
    (s.inReset = true → exec (.outboundPassage time bytes) s = .next { s with txDown := bytes } ∧
      exec (.returnPassage time bytes) s = .next { s with txUp := bytes }) ∧
    (s.inReset = false →
      (classify directionOut bytes = .bad → exec (.outboundPassage time bytes) s =
        .next { s with now := max s.now time, txDown := bytes,
                       ring := { s.ring with lastArrival := none, count := 0, sum := 0 } }) ∧
      (classify directionReturn bytes = .bad → exec (.returnPassage time bytes) s =
        .next { s with now := max s.now time, txUp := bytes,
                       ring := { s.ring with lastArrival := none, count := 0, sum := 0 } }) ∧
      (classify directionOut bytes = .foreign → exec (.outboundPassage time bytes) s =
        .next { s with now := max s.now time, txDown := bytes }) ∧
      (classify directionReturn bytes = .foreign → exec (.returnPassage time bytes) s =
        .next { s with now := max s.now time, txUp := bytes }))

/-! ### Records and their answers -/

/-- A record that is not addressed to the part, finds no room in the response queue, or comes in reset leaves the part as it
was (R152, R154, R155). RESTART_PART needs no room, ASSIGN is addressed by 0 while the part has no address. -/
def Obligations.RecordNotTakenLeavesPart : Prop :=
  (∀ (i : Instr) (code : Nat) (r : Request) (s : State), recordOf i = some (code, r) → ¬s.Takes r → exec i s = .next s) ∧
  (∀ (r : Request) (s : State),
    s.inReset = true ∨ r.address ≠ s.address ∨ Config.responseRoom ≤ s.responses.length → exec (.assign r) s = .next s) ∧
  ∀ (r : Request) (s : State),
    s.inReset = true ∨ r.address ≠ s.address ∨ s.address = 0#8 → exec (.restartPart r) s = .next s

/-- A record that is taken queues one response behind those that wait, with the tag, index and word of its request (R155, R167),
and changes neither the timebase, the address nor what was transmitted. In a mailbox an entry is left as it came when it is
EMPTY, of an unknown code, of a wrong record check, not of this part, or finds no room; taken, it does what the row of its
command does (log 3) and leaves an EMPTY entry; entries are taken from entry 0 upward, each whole before the next (R153, R155;
broadcasts are R156). The record check is the CRC-8 of R153: a register of 0x5A that takes bytes 0 to 14 most significant bit
first, with the polynomial x^8 + x^7 + x^4 + x^3 + x + 1, and is the check as it stands. -/
def Obligations.TakenRecordAnswered : Prop :=
  (∀ (i : Instr) (code : Nat) (r : Request) (s t : State), recordOf i = some (code, r) → s.Takes r → exec i s = .next t →
    ∃ (result : Result) (data : Data),
      t.responses = (s.answered code r result data).responses ∧ t.now = s.now ∧ t.inReset = s.inReset ∧
        t.address = s.address ∧ t.txDown = s.txDown ∧ t.txUp = s.txUp) ∧
  (∀ (r : Request) (code table : Byte),
    let fields := [r.address, code, r.tag, table] ++ be2 r.index.toNat ++ [r.word] ++ r.data.toList
    let entry := fields ++ [crc8 fields]
    entry.length = 16 ∧ requestOf entry = r ∧ entryCheckCorrect entry = true ∧ entry.getD 1 0#8 = code ∧
      entry.getD 3 0#8 = table) ∧
  ((∀ entry : List Byte, entryCheckCorrect entry = true ↔ entry.getD 15 0#8 = crc8 (entry.take 15)) ∧
    crc8 [] = 0x5A#8 ∧
    ∀ (bytes : List Byte) (byte : Byte), crc8 (bytes ++ [byte]) =
      [7, 6, 5, 4, 3, 2, 1, 0].foldl (fun (register : Byte) k => (register <<< 1) ^^^
        (if register.getLsbD 7 != byte.getLsbD k then BitVec.ofNat 8 (2 ^ 7 + 2 ^ 4 + 2 ^ 3 + 2 + 1) else 0#8)) (crc8 bytes)) ∧
  (∀ (entry : List Byte) (s : State), s.inReset = false →
    let r := requestOf entry
    let row := rowOf (entry.getD 1 0#8) (entry.getD 3 0#8) r
    let restart : Prop := entry.getD 1 0#8 = 11#8
    let mine : Prop := r.address = s.address ∧ (s.address ≠ 0#8 ∨ entry.getD 1 0#8 = 12#8)
    (row = none ∨ entryCheckCorrect entry = false ∨
        r.address ≠ 0xFF#8 ∧ (¬mine ∨ ¬restart ∧ 8 ≤ s.responses.length) → takeEntry entry s = (s, entry)) ∧
    (entryCheckCorrect entry = true → r.address ≠ 0xFF#8 → mine → restart ∨ s.responses.length < 8 →
      ∀ i, row = some i → ∃ t, exec i s = .next t ∧ takeEntry entry s = (t, List.replicate 16 0#8))) ∧
  ∀ (entry : List Byte) (rest : List (List Byte)) (s : State),
    takeMailbox [] s = ([], s) ∧
    takeMailbox (entry :: rest) s =
      ((takeEntry entry s).2 :: (takeMailbox rest (takeEntry entry s).1).1, (takeMailbox rest (takeEntry entry s).1).2)

/-- READ of a table other than STEP answers the word as it stands, or NO_OBJECT with zero data, and changes nothing else (R159);
outside the indices of Table 9-3 there is no word. The words as they stand: a slot's assignment (R1), a channel's record and
status (R5, R9), a guard entry's configuration and status (R101), a chamber's level table (R18), an input line's filter and
levels (R116, with the levels' codes distinct but open by log 10), the arbiter's configuration (R133), the tracker (R146), a
notice slot and the threshold (R170), the engines and the arbiter of table STATE (R138, Table 9-6) and IDENT (R166). The packing
is that of Chapter 9, every code written out; absent fields (log 13), and widths and codes (log 14), are read from its general
clause. -/
def Obligations.ReadAnswersWord : Prop :=
  (∀ (table : Byte) (r : Request) (s : State), s.Takes r → table.toNat ≠ 3 →
    (∀ data, s.tableWord table.toNat r.index.toNat r.word.toNat = some data →
      exec (.read table r) s = .next (s.answered codeRead r .accepted data)) ∧
    (s.tableWord table.toNat r.index.toNat r.word.toNat = none →
      exec (.read table r) s = .next (s.answered codeRead r .noObject zeroData))) ∧
  ∀ (s : State) (c : Chamber),
    (∀ h : Chan,
      let word (n : Nat) : Option Data := s.tableWord 2 (c.val * 16 + h.val) n
      let r := (s.channel c h).record
      let t := (s.channel c h).status
      let kind : Nat := match r.kind with
        | .none => 0 | .gasFlow => 1 | .valve => 2 | .roughValve => 3 | .throttle => 4 | .rfPower => 5 | .setpoint => 6
        | .pressure => 7 | .flowRead => 8 | .rfForward => 9 | .rfReflected => 10 | .readback => 11
      word 0 = some (packData (be1 kind ++ be1 (if r.owner = .controller then 1 else 0) ++
        be1 (if r.holdBehaviour = .keep then 1 else 0) ++ be1 r.weight ++
        be1 (match r.pair with | none => 0xFF | some j => j.val))) ∧
      word 1 = some (packData (be2 r.fullScale ++ be2 r.wordFullScale ++ be2 r.lo ++ be2 r.hi)) ∧
      word 2 = some (packData (be2 r.safeValue ++ be1 r.staleLimit ++ be2 r.failValue)) ∧
      word 3 = some (match r.kind with
        | .none => zeroData
        | .gasFlow | .valve | .roughValve | .throttle | .rfPower | .setpoint => packData (be2 t.carried ++ be4 t.changed)
        | .pressure | .flowRead | .rfForward | .rfReflected | .readback =>
          packData (be2 t.value ++ be1 t.missing ++ be1 (if t.stale then 1 else 0))) ∧ ∀ n, 4 ≤ n → word n = none) ∧
    (∀ g : GuardIndex,
      let word (n : Nat) : Option Data := s.tableWord 4 (c.val * 16 + g.val) n
      let e := s.guardEntry c g
      let k := e.config
      let standing : List Byte := match e.state with
        | .clear => be1 0 ++ be1 0
        | .counting n => be1 1 ++ be1 n
        | .tripped => be1 2 ++ be1 0
        | .releasing n => be1 3 ++ be1 n
      let kind : Nat := match k.kind with
        | .off => 0 | .levelAbove => 1 | .levelBelow => 2 | .valueAbove => 3 | .valueBelow => 4 | .deviation => 5
        | .inputHigh => 6 | .inputLow => 7
      word 0 = some (packData (be1 kind ++ be1 k.source.val ++
        be1 (match k.scope with | .always => 0 | .runOnly => 1 | .flagged => 2) ++
        be1 (match k.action with | .note => 0 | .hold => 1 | .safe => 2) ++ be1 k.count)) ∧
      word 1 = some (packData (be2 k.trip ++ be2 k.release)) ∧ word 2 = some (packData (be2 k.tolerance ++ be2 k.grace)) ∧
      (k.kind ≠ .deviation → word 3 = some (packData standing)) ∧
      (k.kind = .deviation → e.lapse = none → word 3 = some (packData (standing ++ be1 0 ++ be4 0))) ∧
      (∀ t, k.kind = .deviation → e.lapse = some t → word 3 = some (packData (standing ++ be1 1 ++ be4 t))) ∧
      ∀ n, 4 ≤ n → word n = none) ∧
    (∀ l : Line,
      let i := s.input l
      s.tableWord 6 l.val 0 = some (packData (be1 i.filter)) ∧
      s.tableWord 6 l.val 1 = some (packData (levelByte i.raw ++ levelByte i.accepted ++
        be1 (if i.timer = none then 0 else 1) ++ be4 (i.timer.getD 0))) ∧
      (levelByte true = be1 1 ∧ levelByte false = be1 0 ∨ levelByte true = be1 0 ∧ levelByte false = be1 1)) ∧
    (let word (n : Nat) : Option Data := s.tableWord 10 c.val n
      let e := s.engine c
      let values (v : ValueTable) (g : Fin 4) : Data :=
        packData (be2 v[4 * g.val] ++ be2 v[4 * g.val + 1] ++ be2 v[4 * g.val + 2] ++ be2 v[4 * g.val + 3])
      let stack (loops : List LoopEntry) : Data := match loops with
        | [] => packData (be2 0xFFFF ++ be2 0 ++ be2 0xFFFF ++ be2 0)
        | [bottom] => packData (be2 bottom.step ++ be2 bottom.remaining ++ be2 0xFFFF ++ be2 0)
        | top :: bottom :: _ => packData (be2 bottom.step ++ be2 bottom.remaining ++ be2 top.step ++ be2 top.remaining)
      let bit (b : Bool) (n : Nat) : Nat := if b then n else 0
      word 0 = some (packData (
        be1 (match e.state with | .idle => 0 | .waiting => 1 | .running => 2 | .held => 3 | .safe => 4 | .done => 5) ++
        be2 e.step ++ be1 (match e.awaited with | .nothing => 0 | .growth => 1 | .line => 2) ++
        be1 (bit e.sources.controller 1 + bit e.sources.guard 2 + bit e.sources.ring 4 + bit e.sources.engine 8) ++
        be1 e.counter ++ be1 (if e.timer = none then 0 else 1) ++ be1 (bit s.plant.permits[c] 1))) ∧
      word 1 = some (packData (match e.range with
        | none => be2 0xFFFF ++ be2 0xFFFF
        | some (first, last) => be2 first ++ be2 last)) ∧
      (e.loops.length ≤ 2 → word 2 = some (stack e.loops)) ∧
      word 3 = some (packData (be4 e.startTime ++ be4 (e.timer.getD 0))) ∧
      (∀ g : Fin 4, word (4 + g.val) = some (values e.outputTable g) ∧ word (8 + g.val) = some (values e.startTable g)) ∧
      (e.hold = none → word 12 = some (packData (be1 0xFF)) ∧ ∀ n, 13 ≤ n → n ≤ 21 → word n = some zeroData) ∧
      (∀ k, e.hold = some k →
        word 12 = some (packData (be1 (match k.heldFrom with | .running => 2 | .waiting => 1) ++ be2 k.step ++
          be1 (match k.mode with | .continue => 0 | .restart => 1) ++ be4 k.elapsed)) ∧
        (k.loops.length ≤ 2 → word 13 = some (stack k.loops)) ∧
        ∀ g : Fin 4, word (14 + g.val) = some (values k.startTable g) ∧ word (18 + g.val) = some (values k.outputTable g)) ∧
      ∀ n, 22 ≤ n → word n = none) ∧
    (let word (n : Nat) : Option Data := s.tableWord 10 4 n
      let a := s.plant.arbiter
      let place (n : Nat) : List Byte := be1 (match a.queue[n]? with | none => 0xFF | some d => d.val)
      let request (n : Nat) : List Byte := match a.growth[n]? with
        | none => be1 0xFF ++ be2 0
        | some g => be1 g.chamber.val ++ be2 g.requested
      word 0 = some (packData (match a.line with
        | .free => be1 0 ++ be1 0xFF ++ be4 0
        | .granted d => be1 1 ++ be1 d.val ++ be4 0
        | .settling t => be1 2 ++ be1 0xFF ++ be4 t)) ∧
      word 1 = some (packData (be1 a.queue.length ++ place 0 ++ place 1 ++ place 2 ++ place 3)) ∧
      word 2 = some (packData (be1 a.growth.length ++ request 0 ++ request 1)) ∧
      word 3 = some (packData (request 2 ++ request 3)) ∧
      word 4 = some (packData (be2 (s.plant.reservation 0) ++ be2 (s.plant.reservation 1) ++ be2 (s.plant.reservation 2) ++
        be2 (s.plant.reservation 3))) ∧
      word 5 = some (packData (be2 a.budget ++ be2 (a.budget - (s.plant.reservation 0 + s.plant.reservation 1 +
        s.plant.reservation 2 + s.plant.reservation 3)))) ∧
      ∀ n, 6 ≤ n → word n = none) ∧
    (∀ k : Fin 128, s.tableWord 1 k.val 0 = some (packData (match s.slotMap[k] with
        | .unmapped => be1 0 ++ be1 0xFF ++ be1 0xFF
        | .channel d h => be1 1 ++ be1 d.val ++ be1 h.val
        | .report d => be1 2 ++ be1 d.val ++ be1 0xFF)) ∧ ∀ n, 1 ≤ n → s.tableWord 1 k.val n = none) ∧
    (let word (n : Nat) : Option Data := s.tableWord 5 c.val n
      let t := s.levels[c].thresholds
      word 0 = some (packData (be2 t[0] ++ be2 t[1] ++ be2 t[2] ++ be2 t[3])) ∧
      word 1 = some (packData (be2 t[4] ++ be2 t[5] ++ be2 t[6] ++ be2 t[7])) ∧
      word 2 = some (packData (be2 t[8] ++ be2 t[9] ++ be2 t[10] ++ be2 t[11])) ∧
      word 3 = some (packData (be2 t[12] ++ be2 t[13] ++ be2 t[14])) ∧
      word 4 = some (packData (be1 (if s.levels[c].checked then 0 else 1) ++ be1 (s.ctx.pressureLevel c))) ∧
      ∀ n, 5 ≤ n → word n = none) ∧
    (s.tableWord 7 c.val 0 = some (packData (be2 (s.plant.allowance c))) ∧
      s.tableWord 7 c.val 1 = some (packData (be1 s.plant.arbiter.priority[c])) ∧
      s.tableWord 7 4 0 = some (packData (be2 s.plant.arbiter.budget)) ∧
      s.tableWord 7 4 1 = some (packData (be2 s.plant.arbiter.settleTime)) ∧
      ∀ k n, 2 ≤ n → s.tableWord 7 k n = none) ∧
    (s.tableWord 8 0 0 = some (packData (be2 s.ring.nominal)) ∧ s.tableWord 8 0 1 = some (packData (be1 s.ring.survival)) ∧
      s.tableWord 8 0 2 = some (packData (
        be1 (match s.ring.state with | .seeking => 0 | .training => 1 | .tracking => 2 | .lost => 3) ++
        be2 s.ring.learned ++ be1 s.ring.count ++ be4 s.ring.sum)) ∧ ∀ n, 3 ≤ n → s.tableWord 8 0 n = none) ∧
    (∀ i : NoticeIndex,
      let slot := s.plant.notices[i]
      s.tableWord 9 i.val 0 = some (packData (be1 slot.cls ++ be1 (if slot.enabled then 1 else 0))) ∧
      s.tableWord 9 i.val 1 = some (packData (be1 (if slot.pending then 1 else 0) ++ be1 slot.merge ++ be2 slot.detail ++
        be2 slot.cycle)) ∧ ∀ n, 2 ≤ n → s.tableWord 9 i.val n = none) ∧
    (s.tableWord 9 27 0 = some (packData (be1 s.threshold)) ∧ ∀ n, 1 ≤ n → s.tableWord 9 27 n = none) ∧
    (∀ table k n : Nat, 12 ≤ table ∨ (match table with
        | 1 => 128 ≤ k
        | 2 | 4 => 64 ≤ k
        | 5 => 4 ≤ k
        | 6 => 16 ≤ k
        | 7 | 10 => 5 ≤ k
        | 8 | 11 => 1 ≤ k
        | 9 => 28 ≤ k
        | 0 => True
        | _ => False) → s.tableWord table k n = none) ∧
    (∀ (l : Line) (n : Nat), 2 ≤ n → s.tableWord 6 l.val n = none) ∧ (∀ n, 2 ≤ n → s.tableWord 11 0 n = none) ∧
    s.tableWord 11 0 0 = some (packData (be2 0x0D7A ++ be2 0x0460 ++ be1 1 ++ [s.address] ++ be1 (if s.lock then 1 else 0))) ∧
    s.tableWord 11 0 1 = some (packData (be2 s.ring.nominal ++ be2 s.ring.learned ++
      be1 (match s.ring.state with | .seeking => 0 | .training => 1 | .tracking => 2 | .lost => 3)))

/-- READ on table STEP answers the word as stored and reports the check state in its result, in every engine state, locked or
not, and changes nothing (R28). The eight words carry the fields as Table 2-2 groups them, packed by R153 (widths: log 14). -/
def Obligations.ReadStepReportsCheck : Prop :=
  ∀ (table : Byte) (r : Request) (s : State), s.Takes r → table.toNat = 3 →
    (∀ (h : r.index.toNat < 512) (data : Data), s.pool[r.index.toNat].wordData r.word.toNat = some data →
      exec (.read table r) s = .next (match s.pool[r.index.toNat].check with
        | .checked => s.answered codeRead r .accepted data
        | .unchecked => s.answered codeRead r .notChecked data
        | .empty => s.answered codeRead r .noObject zeroData)) ∧
    (512 ≤ r.index.toNat ∨ 8 ≤ r.word.toNat → exec (.read table r) s = .next (s.answered codeRead r .noObject zeroData)) ∧
    (∀ h : r.index.toNat < 512, (s.pool[r.index.toNat].wordData r.word.toNat).isSome = decide (r.word.toNat < 8)) ∧
    ∀ p : StepRecord,
      let place (n : Fin 8) : List Byte := [p.entries[n].channel] ++ be2 p.entries[n].target ++ [p.entries[n].ramp]
      p.wordData 0 = some (packData ([p.kind] ++ [p.claims] ++ [p.timeout] ++ be2 p.guardMask.toNat)) ∧
      p.wordData 1 = some (packData (be3 p.duration ++ be3 p.ramp)) ∧
      p.wordData 2 = some (packData (be1 p.level ++ be1 p.count ++ be2 p.ratio ++ be2 p.minForward)) ∧
      p.wordData 3 = some (packData (be2 p.loopTarget ++ be2 p.loopCount)) ∧
      p.wordData 4 = some (packData (place 0 ++ place 1)) ∧ p.wordData 5 = some (packData (place 2 ++ place 3)) ∧
      p.wordData 6 = some (packData (place 4 ++ place 5)) ∧ p.wordData 7 = some (packData (place 6 ++ place 7))

/-- A WRITE of STATE or IDENT answers READ_ONLY with the word as it stands, of no word or no table NO_OBJECT; a CHECK of a table
that has none answers NO_OBJECT (R157, R158, R165, R166). -/
def Obligations.WriteReadOnlyAndCheckNoObject : Prop :=
  ∀ (table : Byte) (r : Request) (s : State), s.Takes r →
    (tableHasOwnWriteRow table = false →
      (∀ data, s.tableWord table.toNat r.index.toNat r.word.toNat = some data →
        exec (.write table r) s = .next (s.answered codeWrite r .readOnly data)) ∧
      (s.tableWord table.toNat r.index.toNat r.word.toNat = none →
        exec (.write table r) s = .next (s.answered codeWrite r .noObject zeroData))) ∧
    (tableHasCheck table = false → exec (.checkNoObject table r) s = .next (s.answered codeCheck r .noObject zeroData))

/-! ### Writes to the tables -/

/-- WRITE on SLOT_MAP, examined in the order of Table 1-1: LOCKED, NO_OBJECT, IN_USE, BAD_VALUE naming the field, DUPLICATE
naming the slot that holds the assignment, else the one entry is replaced and nothing else changes (R2). That UNMAPPED is taken
with any chamber and channel byte and REPORT with any channel byte is the model's choice (log 26), and so is the field named
where several are out of range at once: the first of kind, chamber and channel (log 30). The fields stand in data as R153 packs
them, the kinds of assignment with their places in R1 as codes (log 14). -/
def Obligations.SlotMapWriteOutcomes : Prop :=
  ∀ (r : Request) (s : State), s.Takes r →
    (r.byte 0 = 0 → r.slotUse = .ok .unmapped) ∧ (2 < r.byte 0 → r.slotUse = .error 1) ∧
    (1 ≤ r.byte 0 → r.byte 0 ≤ 2 → 3 < r.byte 1 → r.slotUse = .error 2) ∧
    (r.byte 0 = 1 → r.byte 1 ≤ 3 → 15 < r.byte 2 → r.slotUse = .error 3) ∧
    (∀ (c : Chamber) (h : Chan), r.byte 1 = c.val →
      (r.byte 0 = 1 → r.byte 2 = h.val → r.slotUse = .ok (.channel c h)) ∧
      (r.byte 0 = 2 → r.slotUse = .ok (.report c))) ∧
    (s.lock = true → exec (.slotMapWrite r) s = .next (s.refused .locked 1 r)) ∧
    (s.lock = false →
      (128 ≤ r.index.toNat ∨ r.word.toNat ≠ 0 →
        exec (.slotMapWrite r) s = .next (s.answered codeWrite r .noObject zeroData)) ∧
      ∀ k : Fin 128, r.index.toNat = k.val → r.word.toNat = 0 →
        (∀ c : Chamber, (s.engine c).state ≠ .idle → exec (.slotMapWrite r) s = .next (s.refused .inUse 1 r)) ∧
        ((∀ c : Chamber, (s.engine c).state = .idle) →
          (∀ field, r.slotUse = .error field → exec (.slotMapWrite r) s = .next (s.refusedField r field)) ∧
          ∀ u, r.slotUse = .ok u →
            (∀ j : Fin 128, j ≠ k → u ≠ .unmapped → s.slotMap[j] = u → s.SlotsDistinct →
              exec (.slotMapWrite r) s = .next (s.answered codeWrite r .duplicate (packData (be2 j.val)))) ∧
            ((∀ j : Fin 128, j ≠ k → s.slotMap[j] = u → u = .unmapped) →
              exec (.slotMapWrite r) s = .next ((s.setSlot k u).stored 1 r))))

/-- A WRITE on CHANNEL of a record that meets Tables 1-2 and 1-3 of an IDLE chamber of an unlocked part: the record is stored
(with owner SEQUENCE for the three kinds of R8), its status put in its power-on condition (log 18), the grace of the chamber
derived anew (R107), the chamber's implicit claim ended when the record is or becomes a ROUGH_VALVE (R90), and nothing else
changes. R105 names this write as what takes an entry's source outside the source rules of R99; that the entry is marked as
having lost its source at the write itself, and not first at a cycle close, and that a mark set earlier stays when the source is
sound again, is the model's reading (log 32, DEDUCED). Which bytes of the request become which fields of words 0 to 2 is said
field by field (R5; packed by R153, with widths and the codes of owner and hold behaviour from its general clause: log 14), and
so is the derivation: an entry that is no DEVIATION (log 19), or whose source names no pair, is ARMED, another is IN_GRACE until
grace milliseconds after its pair's change time. A field that is stored is within its range of Table 1-2. The classes of R4, the
kinds of R8 that SEQUENCE owns and those of R7 that a chamber has once are written out. -/
def Obligations.ChannelWriteAccepted : Prop :=
  (∀ (r : Request) (old : ChannelRecord),
    (∀ (kind : ChannelKind) (pair : Option Chan), r.byte 0 = (match kind with
        | .none => 0 | .gasFlow => 1 | .valve => 2 | .roughValve => 3 | .throttle => 4 | .rfPower => 5 | .setpoint => 6
        | .pressure => 7 | .flowRead => 8 | .rfForward => 9 | .rfReflected => 10 | .readback => 11) → r.byte 1 ≤ 1 → r.byte 2 ≤ 1 →
      r.byte 4 = (match pair with | none => 0xFF | some j => j.val) → r.channelRecord 0 old =
        .ok { old with kind := kind, owner := if r.byte 1 = 0 then .sequence else .controller
                       holdBehaviour := if r.byte 2 = 0 then .safeValue else .keep, weight := r.byte 3, pair := pair }) ∧
    (r.number 0 2 ≠ 0 → r.number 2 2 ≠ 0 → r.channelRecord 1 old =
      .ok { old with fullScale := r.number 0 2, wordFullScale := r.number 2 2, lo := r.number 4 2, hi := r.number 6 2 }) ∧
    (r.byte 2 ≠ 0 → r.channelRecord 2 old =
      .ok { old with safeValue := r.number 0 2, staleLimit := r.byte 2, failValue := r.number 3 2 }) ∧
    (∀ (word : Nat) (given : ChannelRecord), word < 3 → old.InRange → r.channelRecord word old = .ok given → given.InRange)) ∧
  (∀ k : ChannelKind,
    (k.isSetpoint = true ↔ k = .gasFlow ∨ k = .valve ∨ k = .roughValve ∨ k = .throttle ∨ k = .rfPower ∨ k = .setpoint) ∧
    (k.isReadback = true ↔ k = .pressure ∨ k = .flowRead ∨ k = .rfForward ∨ k = .rfReflected ∨ k = .readback) ∧
    (k.sequenceOwned = true ↔ k = .gasFlow ∨ k = .roughValve ∨ k = .rfPower) ∧
    (k.single = true ↔ k = .pressure ∨ k = .rfForward ∨ k = .rfReflected ∨ k = .roughValve)) ∧
  (∀ (s : State) (c : Chamber),
    ∃ entries : Vector GuardEntry 16, s.reviewGuards c = { s with guards := s.guards.set c entries } ∧
      ∀ g : GuardIndex,
        let e := s.guardEntry c g
        let source := (s.channel c e.config.source).record
        let lost : Prop :=
          (e.config.kind = .valueAbove ∨ e.config.kind = .valueBelow) ∧ source.kind.isReadback = false ∨
          e.config.kind = .deviation ∧ (source.kind ≠ .flowRead ∨ source.pair = none)
        (lost → entries[g] = { e with lapse := deriveGrace s.ctx c e, sourceLost := true }) ∧
        (¬lost → entries[g] = { e with lapse := deriveGrace s.ctx c e })) ∧
  (∀ (x : Ctx) (c : Chamber) (e : GuardEntry),
    let source := x.record c e.config.source
    (e.config.kind ≠ .deviation ∨ source.kind ≠ .flowRead ∨ source.pair = none → deriveGrace x c e = none) ∧
    ∀ j, e.config.kind = .deviation → source.kind = .flowRead → source.pair = some j →
      let lapse := (x.status c j).changed + e.config.grace * 1000
      (lapse ≤ x.now → deriveGrace x c e = none) ∧ (x.now < lapse → deriveGrace x c e = some lapse)) ∧
  ∀ (r : Request) (s : State) (c : Chamber) (h : Chan) (given record : ChannelRecord), s.Takes r → s.lock = false →
    r.index.toNat = c.val * 16 + h.val → r.word.toNat < 3 → (s.engine c).state = .idle →
    r.channelRecord r.word.toNat (s.channel c h).record = .ok given →
    record = { given with owner := if given.kind.sequenceOwned then .sequence else given.owner } →
    ChannelRules (fun j => if j = h then record else (s.channel c j).record) h →
    let status : ChannelStatus :=
      { value := if record.kind.isReadback then record.failValue else 0, missing := 0, stale := true, carried := 0
        changed := if record.kind.isSetpoint then s.now else 0 }
    let written := s.setChannel c h ⟨record, status⟩
    let rough : Prop := (s.channel c h).record.kind = .roughValve ∨ record.kind = .roughValve
    (¬rough → exec (.channelWrite r) s = .next ((written.reviewGuards c).stored 2 r)) ∧
    (rough →
      let p := endIdleClaim written.ctx (expireNow written.ctx) c s.plant
      exec (.channelWrite r) s = .next ((({ written with plant := p } : State).reviewGuards c).stored 2 r) ∧
      (s.plant.arbiter.line ≠ .granted c →
        p = { s.plant with arbiter := { s.plant.arbiter with queue := s.plant.arbiter.queue.filter (· ≠ c) } }) ∧
      (s.plant.arbiter.line = .granted c → s.plant.arbiter.settleTime ≠ 0 →
        p = { s.plant with arbiter :=
          { s.plant.arbiter with line := .settling (s.now + s.plant.arbiter.settleTime * 1000) } }) ∧
      (s.Safe → c ∉ p.arbiter.queue ∧ p.arbiter.line ≠ .granted c ∧ p.engine c = s.engine c ∧
        ∀ d, d ≠ c → s.plant.Out d → s.plant.Spares d p))

/-- A WRITE on CHANNEL that is refused, in the order of R8: no object, the read-only word, a chamber that is not IDLE, a field
out of its stored range, and a broken rule, which the answer names by the field code of the first one broken, of Table 1-3 in
its order and then of R7 (which of lo and hi: log 11). That of several fields out of their ranges at once the first in the order
of Table 1-2 is named is the model's choice (log 30). The words that are not written are within their ranges as they stand
(StepKeepsRecordsSound). The fields stand in data as R153 packs them (widths, and the codes of
owner and hold behaviour: log 14). -/
def Obligations.ChannelWriteRefused : Prop :=
  ∀ (r : Request) (s : State), s.Takes r → s.lock = false →
    (64 ≤ r.index.toNat ∨ 3 < r.word.toNat →
      exec (.channelWrite r) s = .next (s.answered codeWrite r .noObject zeroData)) ∧
    ∀ (c : Chamber) (h : Chan), r.index.toNat = c.val * 16 + h.val →
      (r.word.toNat = 3 → exec (.channelWrite r) s = .next (s.refused .readOnly 2 r)) ∧
      (r.word.toNat < 3 →
        ((s.engine c).state ≠ .idle → exec (.channelWrite r) s = .next (s.refused .inUse 2 r)) ∧
        ((s.engine c).state = .idle →
          (∀ field, r.channelRecord r.word.toNat (s.channel c h).record = .error field →
            exec (.channelWrite r) s = .next (s.refusedField r field)) ∧
          (∀ old : ChannelRecord,
            (11 < r.byte 0 → r.channelRecord 0 old = .error 1) ∧
            (r.byte 0 ≤ 11 → 1 < r.byte 1 → r.channelRecord 0 old = .error 2) ∧
            (r.byte 0 ≤ 11 → r.byte 1 ≤ 1 → 1 < r.byte 2 → r.channelRecord 0 old = .error 3) ∧
            (r.byte 0 ≤ 11 → r.byte 1 ≤ 1 → r.byte 2 ≤ 1 → 15 < r.byte 4 → r.byte 4 ≠ 0xFF →
              r.channelRecord 0 old = .error 5) ∧
            (r.number 0 2 = 0 → r.channelRecord 1 old = .error 6) ∧
            (r.number 0 2 ≠ 0 → r.number 2 2 = 0 → r.channelRecord 1 old = .error 7) ∧
            (r.byte 2 = 0 → r.channelRecord 2 old = .error 11)) ∧
          ∀ given, r.channelRecord r.word.toNat (s.channel c h).record = .ok given →
            let after : Chan → ChannelRecord := fun j => if j = h then given.stored else (s.channel c j).record
            (∀ field, FirstBroken (channelRules after h) field →
              exec (.channelWrite r) s = .next (s.refusedField r field)) ∧
            (¬ChannelRules after h → ∃ field, FirstBroken (channelRules after h) field ∧ 1 ≤ field ∧ field ≤ 12)))

/-- An accepted WRITE on STEP stores the fields its word carries as they are sent (Table 2-2, R23; multi-byte fields most
significant byte first, R153; widths: log 14), keeps the other seven words, and makes the record UNCHECKED whatever it was, so
that a START of it is refused NOT_CHECKED (R27, R32); an index or a word that does not exist is answered NO_OBJECT, and a record
within the range of a chamber that is WAITING, RUNNING or HELD is refused IN_USE (R26). -/
def Obligations.StepWriteMakesUnchecked : Prop :=
  (∀ (r : Request) (s : State), s.Takes r → 512 ≤ r.index.toNat ∨ 7 < r.word.toNat →
    exec (.stepWrite r) s = .next (s.answered codeWrite r .noObject zeroData)) ∧
  ∀ (r : Request) (s : State) (i : Fin 512), s.Takes r → r.index.toNat = i.val → r.word.toNat < 8 →
    ((∀ (c : Chamber) (first last : Nat), (s.engine c).range = some (first, last) → first ≤ i.val → i.val ≤ last →
        (s.engine c).state ≠ .waiting ∧ (s.engine c).state ≠ .running ∧ (s.engine c).state ≠ .held) →
      ∃ record : StepRecord, let t := s.setStep i { record with check := .unchecked }
        exec (.stepWrite r) s = .next (t.stored 3 r) ∧ record = r.stepRecord r.word.toNat s.pool[i] ∧
        (∀ w, w ≠ r.word.toNat → record.wordData w = s.pool[i].wordData w) ∧
        ∀ c : Chamber, startWalk t.ctx t.slotMap c i.val = .error { result := .notChecked, index := i.val }) ∧
    (∀ (c : Chamber) (first last : Nat), (s.engine c).range = some (first, last) → first ≤ i.val → i.val ≤ last →
      (s.engine c).state = .waiting ∨ (s.engine c).state = .running ∨ (s.engine c).state = .held →
      exec (.stepWrite r) s = .next (s.refused .inUse 3 r)) ∧
    let p := s.pool[i]
    let entry (offset : Nat) : SetpointEntry :=
      { channel := BitVec.ofNat 8 (r.byte offset), target := r.number (offset + 1) 2
        ramp := BitVec.ofNat 8 (r.byte (offset + 3)) }
    r.stepRecord 0 p =
      { p with kind := BitVec.ofNat 8 (r.byte 0), claims := BitVec.ofNat 8 (r.byte 1)
               timeout := BitVec.ofNat 8 (r.byte 2), guardMask := BitVec.ofNat 16 (r.number 3 2) } ∧
    r.stepRecord 1 p = { p with duration := r.number 0 3, ramp := r.number 3 3 } ∧
    r.stepRecord 2 p =
      { p with level := r.byte 0, count := r.byte 1, ratio := r.number 2 2, minForward := r.number 4 2 } ∧
    r.stepRecord 3 p = { p with loopTarget := r.number 0 2, loopCount := r.number 2 2 } ∧
    (∀ g : Fin 4, r.stepRecord (4 + g.val) p =
      { p with entries := Vector.ofFn fun n : Fin 8 =>
          if n.val = 2 * g.val then entry 0 else if n.val = 2 * g.val + 1 then entry 4 else p.entries[n] }) ∧
    (∀ n : Fin 8, r.byte n.val = r.data[n].toNat) ∧
    (∀ n, n ≤ 6 → r.number n 2 = 256 * r.byte n + r.byte (n + 1)) ∧
    ∀ n, n ≤ 5 → r.number n 3 = 65536 * r.byte n + 256 * r.byte (n + 1) + r.byte (n + 2)

/-- A WRITE on GUARD of an entry that meets Table 6-3: the entry is stored, put to CLEAR and its grace derived; an INPUT entry
is evaluated at once and acts when it trips, and the chamber's hold demand is examined. In the order of R100 the refusals are
NO_OBJECT, READ_ONLY for word 3, BAD_VALUE for a field out of its range of Table 6-1, and BAD_VALUE naming the field of the
first rule of Table 6-3 that is broken (R99). A rewritten entry has lost no source (R105). The fields stand in data as R153
packs them; that its general clause gives the codes of guard kind, scope and action, their places in Table 6-1, and with them
the codes that are admitted, and the widths of the other fields, is the model's reading (log 14, DEDUCED). -/
def Obligations.GuardWriteStored : Prop :=
  (∀ k : GuardKind, (k.isInput = true ↔ k = .inputHigh ∨ k = .inputLow) ∧
    (k.isFramePaced = true ↔ k = .levelAbove ∨ k = .levelBelow ∨ k = .valueAbove ∨ k = .valueBelow ∨ k = .deviation)) ∧
  ∀ (r : Request) (s : State), s.Takes r → s.lock = false →
    (64 ≤ r.index.toNat ∨ 3 < r.word.toNat →
      exec (.guardWrite r) s = .next (s.answered codeWrite r .noObject zeroData)) ∧
    ∀ (c : Chamber) (g : GuardIndex), r.index.toNat = c.val * 16 + g.val →
      (r.word.toNat = 3 → exec (.guardWrite r) s = .next (s.refused .readOnly 4 r)) ∧
      (r.word.toNat = 0 →
        (7 < r.byte 0 → exec (.guardWrite r) s = .next (s.refusedField r 1)) ∧
        (r.byte 0 ≤ 7 → 15 < r.byte 1 → exec (.guardWrite r) s = .next (s.refusedField r 2)) ∧
        (r.byte 0 ≤ 7 → r.byte 1 ≤ 15 → 2 < r.byte 2 → exec (.guardWrite r) s = .next (s.refusedField r 3)) ∧
        (r.byte 0 ≤ 7 → r.byte 1 ≤ 15 → r.byte 2 ≤ 2 → 2 < r.byte 3 →
          exec (.guardWrite r) s = .next (s.refusedField r 4)) ∧
        (r.byte 0 ≤ 7 → r.byte 1 ≤ 15 → r.byte 2 ≤ 2 → r.byte 3 ≤ 2 → 15 < r.byte 4 →
          exec (.guardWrite r) s = .next (s.refusedField r 5))) ∧
      (r.word.toNat < 3 →
        (∀ old : GuardConfig,
          (∀ (kind : GuardKind) (source : Fin 16) (scope : Scope) (action : GuardAction), r.byte 0 = (match kind with
              | .off => 0 | .levelAbove => 1 | .levelBelow => 2 | .valueAbove => 3 | .valueBelow => 4 | .deviation => 5
              | .inputHigh => 6 | .inputLow => 7) →
            r.byte 1 = source.val → r.byte 2 = (match scope with | .always => 0 | .runOnly => 1 | .flagged => 2) →
            r.byte 3 = (match action with | .note => 0 | .hold => 1 | .safe => 2) → r.byte 4 ≤ 15 → r.guardConfig 0 old =
              .ok { old with kind := kind, source := source, scope := scope, action := action, count := r.byte 4 }) ∧
          r.guardConfig 1 old = .ok { old with trip := r.number 0 2, release := r.number 2 2 } ∧
          r.guardConfig 2 old = .ok { old with tolerance := r.number 0 2, grace := r.number 2 2 }) ∧
        ∀ k : GuardConfig, r.guardConfig r.word.toNat (s.guardEntry c g).config = .ok k →
          let record : Chan → ChannelRecord := fun h => (s.channel c h).record
          (k.Rules record →
            let trips := (k.kind == .inputHigh || k.kind == .inputLow) && inScope s.ctx (s.engine c) g k.scope &&
              inputReading (s.input k.source).accepted k == .trip
            let written := s.setGuard c g
              { config := k, state := if trips then .tripped else .clear, lapse := deriveGrace s.ctx c { config := k }
                sourceLost := false }
            let acted := if trips then applyTrip s.ctx c g k.action s.plant else s.plant
            exec (.guardWrite r) s =
              .next (({ written with plant := examineDemand s.ctx written.guards c acted } : State).stored 4 r)) ∧
          (∀ field, FirstBroken (guardRules record k) field →
            exec (.guardWrite r) s = .next (s.refusedField r field)) ∧
          (¬k.Rules record → ∃ field, FirstBroken (guardRules record k) field ∧ 1 ≤ field ∧ field ≤ 9))

/-- A WRITE on LEVEL of an IDLE chamber replaces the thresholds of its word and makes the table UNCHECKED, the refusals in the
order of R18; a WRITE on INPUT word 0 stores the filter time and leaves a running filter timer its expiry, word 1 is read-only
(R116). The fields stand in data as R153 packs them (widths: log 14). -/
def Obligations.LevelAndInputWritesStored : Prop :=
  (∀ (r : Request) (s : State), s.Takes r → s.lock = false →
    (4 ≤ r.index.toNat ∨ 4 < r.word.toNat →
      exec (.levelWrite r) s = .next (s.answered codeWrite r .noObject zeroData)) ∧
    ∀ c : Chamber, r.index.toNat = c.val →
      (r.word.toNat = 4 → exec (.levelWrite r) s = .next (s.refused .readOnly 5 r)) ∧
      (r.word.toNat < 4 →
        ((s.engine c).state ≠ .idle → exec (.levelWrite r) s = .next (s.refused .inUse 5 r)) ∧
        ((s.engine c).state = .idle → exec (.levelWrite r) s = .next ((s.setLevel c
          { thresholds := Vector.ofFn fun k : Fin 15 =>
              if k.val / 4 = r.word.toNat then r.number (2 * (k.val % 4)) 2 else s.levels[c].thresholds[k]
            checked := false }).stored 5 r)))) ∧
  ∀ (r : Request) (s : State), s.Takes r → s.lock = false →
    (16 ≤ r.index.toNat ∨ 1 < r.word.toNat →
      exec (.inputWrite r) s = .next (s.answered codeWrite r .noObject zeroData)) ∧
    ∀ l : Line, r.index.toNat = l.val →
      (r.word.toNat = 1 → exec (.inputWrite r) s = .next (s.refused .readOnly 6 r)) ∧
      (r.word.toNat = 0 →
        exec (.inputWrite r) s = .next ((s.setInput l { s.input l with filter := r.byte 0 }).stored 6 r))

/-- WRITEs on ARBITER (R134 to R136): priority, settle time, budget and allowance, each stored, with the examination of the
abatement queue that a budget or an allowance causes, or refused with the data R160 gives; an examination of an empty queue, or of
one whose head neither fits nor is stuck, changes nothing (R129). The fields stand in data as R153 packs them (widths: log 14). -/
def Obligations.ArbiterWritesStored : Prop :=
  (∀ (r : Request) (s : State), s.Takes r → s.lock = false →
    let a := s.plant.arbiter
    let overBudget := s.answered codeWrite r .overBudget (packData (be2 a.budget ++ be2 s.plant.reserved))
    (4 < r.index.toNat ∨ 1 < r.word.toNat →
      exec (.arbiterWrite r) s = .next (s.answered codeWrite r .noObject zeroData)) ∧
    (r.index.toNat = 4 → r.word.toNat = 1 →
      exec (.arbiterWrite r) s = .next ((s.setArbiter { a with settleTime := r.number 0 2 }).stored 7 r)) ∧
    (r.index.toNat = 4 → r.word.toNat = 0 →
      exec (.arbiterWrite r) s = .next (
        if s.plant.reserved ≤ r.number 0 2 then
          ((s.setArbiter { a with budget := r.number 0 2 }).examineGrowth).stored 7 r
        else overBudget)) ∧
    ∀ c : Chamber, r.index.toNat = c.val →
      (r.word.toNat = 1 → exec (.arbiterWrite r) s = .next (
        if r.byte 0 ≤ 15 then (s.setArbiter { a with priority := a.priority.set c (r.byte 0) }).stored 7 r
        else s.refusedField r 2)) ∧
      (r.word.toNat = 0 →
        ((s.engine c).state ≠ .idle → exec (.arbiterWrite r) s = .next (s.refused .inUse 7 r)) ∧
        ((s.engine c).state = .idle → exec (.arbiterWrite r) s = .next (
          if max (r.number 0 2) (s.plant.reservation c) + otherReservations s.plant c ≤ a.budget then
            ((s.setArbiter { a with allowance := a.allowance.set c (r.number 0 2)
                                    reservation := a.reservation.set c (r.number 0 2) }).examineGrowth).stored 7 r
          else overBudget)))) ∧
  ∀ s : State, (∀ g rest, s.plant.arbiter.growth = g :: rest → headFits s.plant g = false ∧ headStuck s.plant g = false) →
    s.examineGrowth = s

/-- WRITEs on RING (R146): N in 250..8000 makes P = N, empties the window, clears the rejection flag and takes TRACKING back to
TRAINING; S in 2..64 is stored and no running watch moved; other values are BAD_VALUE with code 1 or 2, word 2 is read-only.
The fields stand in data as R153 packs them (widths: log 14). -/
def Obligations.RingWritesStored : Prop :=
  ∀ (r : Request) (s : State), s.Takes r → s.lock = false →
    (r.index.toNat ≠ 0 ∨ 2 < r.word.toNat →
      exec (.ringWrite r) s = .next (s.answered codeWrite r .noObject zeroData)) ∧
    (r.index.toNat = 0 →
      (r.word.toNat = 2 → exec (.ringWrite r) s = .next (s.refused .readOnly 8 r)) ∧
      (r.word.toNat = 0 →
        (250 ≤ r.number 0 2 → r.number 0 2 ≤ 8000 →
          exec (.ringWrite r) s = .next (({ s with ring :=
            { s.ring with nominal := r.number 0 2, learned := r.number 0 2, lastArrival := none, count := 0, sum := 0
                          rejected := false
                          state := if s.ring.state = .tracking then .training else s.ring.state } } : State).stored 8 r)) ∧
        (r.number 0 2 < 250 ∨ 8000 < r.number 0 2 → exec (.ringWrite r) s = .next (s.refusedField r 1))) ∧
      (r.word.toNat = 1 →
        (2 ≤ r.byte 0 → r.byte 0 ≤ 64 →
          exec (.ringWrite r) s = .next (({ s with ring := { s.ring with survival := r.byte 0 } } : State).stored 8 r)) ∧
        (r.byte 0 < 2 ∨ 64 < r.byte 0 → exec (.ringWrite r) s = .next (s.refusedField r 2))))

/-- WRITEs on NOTICE (R170): class and enable of a slot, with its pending state kept, and the class threshold; the lock flag is not
examined. That the class is named where class and enable are both out of range is the model's choice (log 30). The fields stand
in data as R153 packs them (widths: log 14). -/
def Obligations.NoticeWritesStored : Prop :=
  ∀ (r : Request) (s : State), s.Takes r →
    (28 ≤ r.index.toNat ∨ 1 < r.word.toNat ∨ r.index.toNat = 27 ∧ r.word.toNat ≠ 0 →
      exec (.noticeWrite r) s = .next (s.answered codeWrite r .noObject zeroData)) ∧
    (r.index.toNat = 27 → r.word.toNat = 0 →
      exec (.noticeWrite r) s = .next (
        if r.byte 0 ≤ 4 then ({ s with threshold := r.byte 0 } : State).stored 9 r else s.refusedField r 3)) ∧
    ∀ i : NoticeIndex, r.index.toNat = i.val →
      (r.word.toNat = 1 → exec (.noticeWrite r) s = .next (s.refused .readOnly 9 r)) ∧
      (r.word.toNat = 0 →
        (3 < r.byte 0 → exec (.noticeWrite r) s = .next (s.refusedField r 1)) ∧
        (r.byte 0 ≤ 3 → 1 < r.byte 1 → exec (.noticeWrite r) s = .next (s.refusedField r 2)) ∧
        (r.byte 0 ≤ 3 → r.byte 1 ≤ 1 →
          let slot := { s.plant.notices[i] with cls := r.byte 0, enabled := r.byte 1 == 1 }
          exec (.noticeWrite r) s =
            .next (({ s with plant := { s.plant with notices := s.plant.notices.set i slot } } : State).stored 9 r)))

/-- On a locked part a WRITE of each of the seven tables the lock covers is answered LOCKED with the word as stored, and changes
nothing, whatever its index, word and data (R163, R160). -/
def Obligations.LockedWritesRefused : Prop :=
  ∀ (r : Request) (s : State), s.Takes r → s.lock = true →
    exec (.slotMapWrite r) s = .next (s.refused .locked 1 r) ∧ exec (.channelWrite r) s = .next (s.refused .locked 2 r) ∧
    exec (.guardWrite r) s = .next (s.refused .locked 4 r) ∧ exec (.levelWrite r) s = .next (s.refused .locked 5 r) ∧
    exec (.inputWrite r) s = .next (s.refused .locked 6 r) ∧ exec (.arbiterWrite r) s = .next (s.refused .locked 7 r) ∧
    exec (.ringWrite r) s = .next (s.refused .locked 8 r)

/-! ### CHECK -/

/-- CHECK on STEP (R29): outside its bounds it examines nothing; else the records from the first index on that meet Table 2-3
become CHECKED up to the first that is EMPTY or breaks a rule. The answer names that record and the field of the first rule
broken, in the order of the table, with the entry's position for the entries, or the code of EMPTY (R30, R161); bytes of the
answer that R161 does not name, all of a bounds refusal's, are 0 (log 20). It is taken in every engine state, locked or not, and
changes no field of a record. -/
def Obligations.StepCheckBlock : Prop :=
  ∀ (r : Request) (s : State), s.Takes r →
    let first := r.index.toNat
    let count := r.byte 0
    let checkedTo (k : Nat) : State := { s with pool := Vector.ofFn fun i : Fin 512 =>
      if first ≤ i.val ∧ i.val < first + k then { s.pool[i] with check := .checked } else s.pool[i] }
    let passes (i : Fin 512) : Prop := s.pool[i].check ≠ .empty ∧ s.pool[i].MeetsCheck i.val
    (511 < first ∨ count = 0 ∨ 64 < count ∨ 512 < first + count →
      exec (.stepCheck r) s = .next (s.answered codeCheck r .badValue zeroData)) ∧
    (1 ≤ count → count ≤ 64 → first + count ≤ 512 →
      ((∀ i : Fin 512, first ≤ i.val → i.val < first + count → passes i) →
        exec (.stepCheck r) s = .next ((checkedTo count).answered codeCheck r .accepted (packData (be1 count)))) ∧
      ∀ k : Fin 512, first ≤ k.val → k.val < first + count → ¬passes k →
        (∀ i : Fin 512, first ≤ i.val → i < k → passes i) →
        ∃ field position : Nat,
          (if s.pool[k].check = .empty then field = 0xFE ∧ position = 0
            else FirstBroken (checkRules k.val s.pool[k]) (field, position)) ∧
          exec (.stepCheck r) s = .next ((checkedTo (k.val - first)).answered codeCheck r .badValue
            (packData (be2 k.val ++ be1 field ++ be1 position ++ be1 (k.val - first)))))

/-- CHECK on LEVEL (R19): outside its bounds it examines nothing; else the tables whose thresholds rise strictly become CHECKED
up to the first that does not, which the answer names with the first threshold that is not greater than the one before it
(R161); bytes of the answer that R161 does not name, all of a bounds refusal's, are 0 (log 20). -/
def Obligations.LevelCheckBlock : Prop :=
  ∀ (r : Request) (s : State), s.Takes r →
    let first := r.index.toNat
    let count := r.byte 0
    let checkedTo (k : Nat) : State := { s with levels := Vector.ofFn fun c : Fin 4 =>
      if first ≤ c.val ∧ c.val < first + k then { s.levels[c] with checked := true } else s.levels[c] }
    let rises (c : Chamber) (k : Fin 14) : Prop :=
      s.levels[c].thresholds[k.val] < s.levels[c].thresholds[k.val + 1]
    (3 < first ∨ count = 0 ∨ 4 < first + count →
      exec (.levelCheck r) s = .next (s.answered codeCheck r .badValue zeroData)) ∧
    (1 ≤ count → first + count ≤ 4 →
      ((∀ c : Chamber, first ≤ c.val → c.val < first + count → ∀ k, rises c k) →
        exec (.levelCheck r) s = .next ((checkedTo count).answered codeCheck r .accepted (packData (be1 count)))) ∧
      ∀ (c : Chamber) (k : Fin 14), first ≤ c.val → c.val < first + count → ¬rises c k → (∀ j, j < k → rises c j) →
        (∀ d : Chamber, first ≤ d.val → d < c → ∀ j, rises d j) →
        exec (.levelCheck r) s = .next ((checkedTo (c.val - first)).answered codeCheck r .badValue
          (packData (be2 c.val ++ be1 (k.val + 2) ++ be1 0 ++ be1 (c.val - first)))))

/-! ### Chamber commands -/

/-- A chamber command with a sound mask is taken by the engines of the mask in index order, each whole before the next, whatever
the others answer; the response names the chambers that accepted and the first that refused. A mask with a bit above bit 3 is
answered BAD_VALUE, an empty one ACCEPTED, and neither touches an engine (R66, R162). Bytes of the response that R162 does not
name are 0 (log 20). -/
def Obligations.MaskInIndexOrder : Prop :=
  (∀ (i : Instr) (code : Nat) (r : Request) (act : ChamberStep) (s : State), chamberRow i = some (code, r, act) →
    s.Takes r → r.index.toNat < 16 →
    let before (n : Nat) : State := (chambers.take n).foldl (fun s c => if r.names c then (act c s).1 else s) s
    let refusal (c : Chamber) : Option ChamberRefusal := (act c (before c.val)).2
    ((∀ c, r.names c = true → refusal c = none) → exec i s =
      .next ((before 4).answered code r .accepted (packData (be1 r.index.toNat ++ be1 0xFF)))) ∧
    ∀ (c : Chamber) (f : ChamberRefusal), r.names c = true → refusal c = some f →
      (∀ d, d < c → r.names d = true → refusal d = none) →
      let result : Nat := match f.result with
        | .accepted => 0 | .noObject => 1 | .badValue => 2 | .readOnly => 3 | .inUse => 4 | .locked => 5 | .wrongState => 6
        | .notChecked => 7 | .badSequence => 8 | .stillTripped => 9 | .overBudget => 10 | .duplicate => 11
      ∃ mask : Half, (∀ d : Chamber, mask.getLsbD d.val = true ↔ r.names d = true ∧ refusal d = none) ∧
        mask.toNat < 16 ∧ exec i s = .next ((before 4).answered code r f.result (packData
          (be1 mask.toNat ++ be1 c.val ++ be1 result ++ be2 f.index ++ be1 f.field ++ be1 f.position)))) ∧
  ∀ (i : Instr) (code : Nat) (r : Request) (act : ChamberStep) (s : State), chamberRow i = some (code, r, act) →
    s.Takes r →
    (16 ≤ r.index.toNat → exec i s = .next (s.answered code r .badValue (packData (be1 0 ++ be1 0xFF)))) ∧
    (r.index.toNat = 0 → exec i s = .next (s.answered code r .accepted (packData (be1 0 ++ be1 0xFF))))

/-- START of an IDLE chamber whose walk passes: the range is recorded, the step index set to the first record, loops, sources
and counter emptied, the output table loaded from the carried values of the setpoint channels, 0 for the others, the queue entry
of an idle claim withdrawn, a grant kept, and the boundary of the first step taken, in each of its outcomes: RUNNING, WAITING,
HELD by ENGINE with LOAD_REFUSED, and DONE where the first record is END (R43 to R50), with the examination that a shrink makes
before the line and the settling of a line given up (R122, R130). Where the first step, not END, needs no more than the
allowance, written out: it runs at once, or waits for a line it claims and cannot have; chambers in neither queue are spared
(R121). -/
def Obligations.StartEntersFirstStep : Prop :=
  (∀ (r : Request) (s : State) (c : Chamber) (first last : Nat), s.Takes r → r.Only c → s.Safe →
    (s.engine c).state = .idle → first = r.number 0 2 → startWalk s.ctx s.slotMap c first = .ok last →
    let entered : Plant :=
      { s.plant.setEngine c
          { s.engine c with range := some (first, last), step := first, loops := [], sources := {}, counter := 0
                            outputTable := carriedOutputs s.ctx c } with
        arbiter := { s.plant.arbiter with queue := s.plant.arbiter.queue.filter (· ≠ c) } }
    ∃ p : Plant, exec (.start r) s = .next ({ s with plant := p }.chamberTook codeStart r c) ∧ entered.Out c ∧
      entered.TakesBoundary s.ctx (expireNow s.ctx) c p ∧ ∀ d, d ≠ c → s.plant.Out d → s.plant.Spares d p) ∧
  ∀ (r : Request) (s : State) (c : Chamber) (first last : Nat), s.Takes r → r.Only c → s.Safe →
    (s.engine c).state = .idle → first = r.number 0 2 → startWalk s.ctx s.slotMap c first = .ok last →
    (s.stepRecord first).isEnd = false →
    let step := s.stepRecord first
    let table := carriedOutputs s.ctx c
    let running : Engine :=
      { state := .running, range := some (first, last), step := first, startTime := s.now, timer := some (s.now + step.dwell)
        startTable := table, outputTable := setTargets (step.setpoints.filter fun e => !e.ramp) table }
    (∀ h : Chan, table[h] = if (s.channel c h).record.kind.isSetpoint then (s.channel c h).status.carried else 0) ∧
    (stepLoad s.ctx c step table ≤ s.plant.allowance c →
    ∃ p : Plant, exec (.start r) s = .next ({ s with plant := p }.chamberTook codeStart r c) ∧
      p.reservation c = s.plant.reservation c ∧ (∀ d, d ≠ c → s.plant.Out d → s.plant.Spares d p) ∧
      (step.claimsRoughing = false → p.engine c = running ∧ p.Out c ∧ p.arbiter.line ≠ .granted c) ∧
      (step.claimsRoughing = true →
        (s.plant.arbiter.line = .free ∨ s.plant.arbiter.line = .granted c →
          p.engine c = running ∧ p.Out c ∧ p.arbiter.line = .granted c) ∧
        (s.plant.arbiter.line ≠ .free → s.plant.arbiter.line ≠ .granted c →
          p.engine c = { s.engine c with state := .waiting, awaited := .line, range := some (first, last), step := first
                                         loops := [], sources := {}, counter := 0, outputTable := table } ∧
          p.arbiter.line = s.plant.arbiter.line ∧
          p.arbiter.queue = s.plant.arbiter.queue.filter (· ≠ c) ++ [c])))

/-- HOLD: a RUNNING or WAITING engine enters HELD with CONTROLLER alone, its hold record written or kept, its timer stopped, its
queue entries, line and growth given up as `HandsBack` says (a line it held SETTLING, the abatement queue examined after it:
R122, R130, R131), its hold outputs formed and HOLD_ENTERED raised; a HELD one only has CONTROLLER join; in the other states the
refusal is WRONG_STATE (R69 to R73). Elapsed never passes D × 100 (R69, log 17). -/
def Obligations.HoldEnters : Prop :=
  ∀ (r : Request) (s : State) (c : Chamber), s.Takes r → r.Only c →
    let e := s.engine c
    let dwell := (s.stepRecord e.step).dwell
    let record : HoldRecord := match e.hold with
      | some h => { h with elapsed := 0, mode := .continue }
      | none =>
        { heldFrom := if e.state = .running then .running else .waiting, step := e.step
          elapsed := if e.state = .running then min (s.now - e.startTime) dwell else 0, loops := e.loops
          startTable := e.startTable, outputTable := e.outputTable, mode := .continue }
    (e.state = .running ∨ e.state = .waiting →
      ∃ p : Plant, exec (.hold r) s = .next ({ s with plant := p }.chamberTook codeHold r c) ∧
        p.engine c =
          { e with state := .held, awaited := .nothing, timer := none, counter := 0, sources := { controller := true }
                   hold := some record
                   outputTable := Vector.ofFn fun h : Fin 16 =>
                     let k := (s.channel c h).record
                     if k.kind.isSetpoint && k.holdBehaviour == .safeValue then k.safeValue else e.outputTable[h] } ∧
        p.reservation c = s.plant.allowance c ∧ p.permits[c] = s.plant.permits[c] ∧ p.Out c ∧
        p.arbiter.line ≠ .granted c ∧ (∀ d, d ≠ c → s.plant.Out d → s.plant.Spares d p) ∧
        s.plant.HandsBack s.ctx (expireNow s.ctx) c
          { e with awaited := .nothing, timer := none, counter := 0, hold := some record } p ∧
        (s.plant.notices[noticeSlot c .holdEntered].enabled = true →
          p.notices[noticeSlot c .holdEntered].pending = true)) ∧
    (e.state = .held →
      let joined : Engine := { e with sources := { e.sources with controller := true } }
      exec (.hold r) s = .next ({ s with plant := s.plant.setEngine c joined }.chamberTook codeHold r c)) ∧
    (e.state = .idle ∨ e.state = .done ∨ e.state = .safe →
      exec (.hold r) s = .next (s.chamberRefused codeHold r c { result := .wrongState }))

/-- START of a chamber that is not IDLE is refused WRONG_STATE without a walk, and one whose walk refuses reports the walk's
code, index, field and position (R31, R43). A walk from s above 511 is refused at once; else, where all records before record i
pass the tests of Table 2-5 and none is END, record i ends it: refused by the first test it fails, by the rules of R32 to R37 as
`walkRules` lists them, the end index where it passes and is END, and refused where it passes and is record 511 without being
END. RESUME of an engine that is not HELD is refused WRONG_STATE, of a mode that is neither CONTINUE nor RESTART BAD_VALUE;
while GUARD remains the mode is stored and the engine stays HELD (R74). -/
def Obligations.StartAndResumeRefused : Prop :=
  (∀ (r : Request) (s : State) (c : Chamber), s.Takes r → r.Only c →
    ((s.engine c).state ≠ .idle → exec (.start r) s = .next (s.chamberRefused codeStart r c { result := .wrongState })) ∧
    ∀ f, (s.engine c).state = .idle → startWalk s.ctx s.slotMap c (r.number 0 2) = .error f →
      exec (.start r) s = .next (s.chamberRefused codeStart r c f)) ∧
  (∀ (x : Ctx) (slotMap : Vector SlotUse 128) (c : Chamber) (s : Nat),
    let passes (i : Nat) : Prop := ∀ test ∈ walkRules x slotMap c s i, test.1
    let walk := startWalk x slotMap c s
    (512 ≤ s → walk = .error { result := .badValue }) ∧
    ∀ i, s ≤ i → i < 512 → (∀ j, s ≤ j → j < i → passes j ∧ (x.stepRecord j).kind.toNat ≠ 4) →
      (∀ f, FirstBroken (walkRules x slotMap c s i) f → walk = .error f) ∧
      (passes i → (x.stepRecord i).kind.toNat = 4 → walk = .ok i) ∧
      (passes i → (x.stepRecord i).kind.toNat ≠ 4 → i = 511 → walk = .error { result := .badSequence, index := 511 })) ∧
  ∀ (r : Request) (s : State) (c : Chamber), s.Takes r → r.Only c →
    ((s.engine c).state ≠ .held →
      exec (.resume r) s = .next (s.chamberRefused codeResume r c { result := .wrongState })) ∧
    ((s.engine c).state = .held → 1 < r.byte 0 →
      exec (.resume r) s = .next (s.chamberRefused codeResume r c { result := .badValue })) ∧
    ∀ h, (s.engine c).state = .held → r.byte 0 ≤ 1 → (s.engine c).hold = some h → (s.engine c).sources.guard = true →
      let held : Engine := { s.engine c with
        sources := { guard := true }, hold := some { h with mode := if r.byte 0 = 0 then .continue else .restart } }
      exec (.resume r) s = .next ({ s with plant := s.plant.setEngine c held }.chamberTook codeResume r c)

/-- RESUME of a HELD engine without GUARD leaves the hold with the mode it names, and the boundary of the held step is taken: by
its load, its END, its claim, and its time left, as `ResumesBoundary` says, of a chamber that stands in neither queue and at its
allowance; chambers in neither queue are spared (R74, R76 to R78). Where the held step is not END, claims no line and needs no
more than the allowance, written out: the engine is RUNNING again, from RUNNING with the saved start table and the saved elapsed
time (CONTINUE) or none (RESTART), from WAITING with a fresh step, and nothing else changes. A resumed step without time left
has its deadline in the same event (R57). -/
def Obligations.ResumeTakesHeldStepUp : Prop :=
  (∀ (r : Request) (s : State) (c : Chamber) (h : HoldRecord), s.Takes r → r.Only c → s.Safe →
    (s.engine c).state = .held → r.byte 0 ≤ 1 → (s.engine c).hold = some h → (s.engine c).sources.guard = false →
    let taken : HoldRecord := { h with mode := if r.byte 0 = 0 then .continue else .restart }
    let left := s.plant.setEngine c ((s.engine c).leaving s.ctx taken)
    ∃ q : Plant, exec (.resume r) s = .next ({ s with plant := q }.chamberTook codeResume r c) ∧
      left.Out c ∧ left.arbiter.line ≠ .granted c ∧ left.reservation c = left.allowance c ∧
      left.ResumesBoundary s.ctx c taken q ∧ ∀ d, d ≠ c → s.plant.Out d → s.plant.Spares d q) ∧
  ∀ (r : Request) (s : State) (c : Chamber) (h : HoldRecord), s.Takes r → r.Only c → s.Safe →
    (s.engine c).state = .held → r.byte 0 ≤ 1 → (s.engine c).hold = some h → (s.engine c).sources.guard = false →
    let step := s.stepRecord h.step
    let values : ValueTable := match h.heldFrom with
      | .waiting => h.outputTable
      | .running => Vector.ofFn fun k : Fin 16 =>
          if (step.setpointFor k).isSome then h.startTable[k] else h.outputTable[k]
    let elapsed := if r.byte 0 = 0 then h.elapsed else 0
    let outputs := setTargets (step.setpoints.filter fun e => !e.ramp) values
    step.isEnd = false → step.claimsRoughing = false → stepLoad s.ctx c step values ≤ s.plant.allowance c →
    (h.heldFrom = .running → elapsed < step.dwell) →
    let resumed : Engine :=
      { state := .running, range := (s.engine c).range, step := h.step, awaited := .nothing, counter := 0, sources := {}
        hold := none, loops := h.loops, outputTable := outputs
        startTime := (match h.heldFrom with | .running => s.now - elapsed | .waiting => s.now)
        timer := some (match h.heldFrom with | .running => s.now + (step.dwell - elapsed) | .waiting => s.now + step.dwell)
        startTable := (match h.heldFrom with | .running => h.startTable | .waiting => values) }
    exec (.resume r) s = .next ({ s with plant := s.plant.setEngine c resumed }.chamberTook codeResume r c)

/-- ABORT takes WAITING, RUNNING, HELD and DONE to IDLE: timer, counter, awaited resource, hold, sources, loops and range given
up, the output table and step index kept, queue entries and line given up, the reservation at the allowance (R63), a line it
held SETTLING or at settle time 0 selected anew, and the abatement queue examined once after all of it (R122, R123, R130, R131).
In IDLE and SAFE it is refused WRONG_STATE. -/
def Obligations.AbortReturnsToIdle : Prop :=
  ∀ (r : Request) (s : State) (c : Chamber), s.Takes r → r.Only c →
    ((s.engine c).state ≠ .idle → (s.engine c).state ≠ .safe →
      ∃ p : Plant, exec (.abort r) s = .next ({ s with plant := p }.chamberTook codeAbort r c) ∧
        p.engine c =
          { s.engine c with state := .idle, timer := none, counter := 0, awaited := .nothing, hold := none, sources := {}
                            loops := [], range := none } ∧
        p.reservation c = s.plant.allowance c ∧ p.permits[c] = s.plant.permits[c] ∧ p.Out c ∧
        p.arbiter.line ≠ .granted c ∧ (∀ d, d ≠ c → s.plant.Out d → s.plant.Spares d p) ∧
        s.plant.HandsBack s.ctx (expireNow s.ctx) c { s.engine c with awaited := .nothing, timer := none, counter := 0 } p) ∧
    ((s.engine c).state = .idle ∨ (s.engine c).state = .safe →
      exec (.abort r) s = .next (s.chamberRefused codeAbort r c { result := .wrongState }))

/-- RELEASE takes DONE to IDLE, keeps step index and output table, sets the reservation to the allowance and has the abatement
queue examined; it leaves the plant that ABORT leaves of a DONE engine, whose condition counter goes to 0 and whose loop stack is
emptied (R63, R64). In any other state it is refused WRONG_STATE. -/
def Obligations.ReleaseReturnsToIdle : Prop :=
  ∀ (r : Request) (s : State) (c : Chamber), s.Takes r → r.Only c →
    (s.Safe → (s.engine c).state = .done →
      ∃ p : Plant, exec (.release r) s = .next ({ s with plant := p }.chamberTook codeRelease r c) ∧
        exec (.abort r) s = .next ({ s with plant := p }.chamberTook codeAbort r c) ∧
        p.engine c = { s.engine c with state := .idle, counter := 0, loops := [] } ∧
        p.reservation c = s.plant.allowance c ∧ p.permits[c] = s.plant.permits[c] ∧
        (∀ d, d ≠ c → s.plant.Out d → s.plant.Spares d p) ∧
        (let zeroed := s.plant.setEngine c { s.engine c with counter := 0 }
         p = (examineGrowth s.ctx (expireNow s.ctx) (zeroed.setReservation c (s.plant.allowance c))).setEngine c
          { s.engine c with state := .idle, counter := 0, loops := [] })) ∧
    ((s.engine c).state ≠ .done →
      exec (.release r) s = .next (s.chamberRefused codeRelease r c { result := .wrongState }))

/-- CLEAR takes SAFE to IDLE with step index and output table kept, no notice, the RF-permit line following the ring, and the
controller's value the base value again; while a SAFE-action guard stands it is refused STILL_TRIPPED, in any other state
WRONG_STATE (R65). -/
def Obligations.ClearLeavesSafe : Prop :=
  ∀ (r : Request) (s : State) (c : Chamber), s.Takes r → r.Only c →
    let standing (g : GuardIndex) : Prop := (s.guardEntry c g).config.action = .safe ∧
      ((s.guardEntry c g).state = .tripped ∨ ∃ n, (s.guardEntry c g).state = .releasing n)
    ((s.engine c).state = .safe → (∃ g, standing g) →
      exec (.clear r) s = .next (s.chamberRefused codeClear r c { result := .stillTripped })) ∧
    ((s.engine c).state = .safe → (∀ g, ¬standing g) →
      let cleared : Engine := { s.engine c with state := .idle }
      exec (.clear r) s = .next
        ({ s with plant := (s.plant.setEngine c cleared).setPermit c s.ring.up }.chamberTook codeClear r c) ∧
      (s.Safe → s.plant.reservation c = s.plant.allowance c) ∧
      ∀ (k : ChannelRecord) (h : Chan) (v : Nat), baseValue s.ctx cleared k h v = v) ∧
    ((s.engine c).state ≠ .safe →
      exec (.clear r) s = .next (s.chamberRefused codeClear r c { result := .wrongState }))

/-! ### Part commands, broadcasts and reset -/

/-- RESTART_PART needs no room and queues no response (R155, R164): it empties the response queue, puts engines, arbiter queues
and line, guards, notices, permits, tracker and open-cycle record to their soft-reset values, and keeps the timebase, the
address, the lock flag and every table. Then the INPUT entries of scope ALWAYS that read trip are TRIPPED (R115): they raise
GUARD_TRIP, those of action SAFE make their chamber SAFE with its safe values, and nothing else of what the reset left changes.
That an entry keeps the mark of a lost source over the soft reset, which is taken for no rewrite of it, is the model's reading
(log 32, DEDUCED). -/
def Obligations.RestartPartResets : Prop :=
  ∀ (r : Request) (s : State), s.inReset = false → s.address ≠ 0#8 → r.address = s.address →
    let a := s.plant.arbiter
    let trips (c : Chamber) (g : GuardIndex) : Prop :=
      let k := (s.guardEntry c g).config
      k.kind.isInput = true ∧ k.scope = .always ∧ inputReading (s.input k.source).accepted k = .trip
    let safes (c : Chamber) : Prop := ∃ g, trips c g ∧ (s.guardEntry c g).config.action = .safe
    let cleared : State :=
      { s with
        plant :=
          { engines := Vector.replicate 4 {}
            arbiter := { a with line := .free, queue := [], growth := [], reservation := a.allowance }
            notices := s.plant.notices.map fun n => { n with pending := false, merge := 0, detail := 0, cycle := 0 }
            permits := Vector.replicate 4 false }
        guards := Vector.ofFn fun c : Fin 4 => Vector.ofFn fun g : Fin 16 =>
          { s.guardEntry c g with state := .clear, lapse := deriveGrace s.ctx c (s.guardEntry c g) }
        ring := { s.ring with state := .seeking, learned := s.ring.nominal, lastArrival := none, count := 0, sum := 0
                              rejected := false, watch := none, openCycle := none }
        responses := [] }
    let entered : State := cleared.guardPass (fun c g => (s.guardEntry c g).config.kind.isInput) []
    exec (.restartPart r) s = .next entered ∧
    ((∀ c g, ¬trips c g) → entered = cleared) ∧
    entered = { cleared with plant := entered.plant, guards := entered.guards } ∧
    (∀ c g, (trips c g → entered.guardEntry c g = { cleared.guardEntry c g with state := .tripped }) ∧
      (¬trips c g → entered.guardEntry c g = cleared.guardEntry c g)) ∧
    entered.plant.arbiter = cleared.plant.arbiter ∧ entered.plant.permits = cleared.plant.permits ∧
    (∀ c, (safes c → entered.engine c =
        { state := .safe
          outputTable := Vector.ofFn fun h : Fin 16 =>
            if (s.channel c h).record.kind.isSetpoint then (s.channel c h).record.safeValue else 0 }) ∧
      (¬safes c → entered.engine c = {})) ∧
    (∀ c, ((∃ g, trips c g) → s.plant.notices[noticeSlot c .guardTrip].enabled = true →
        entered.plant.notices[noticeSlot c .guardTrip].pending = true) ∧
      (safes c → s.plant.notices[noticeSlot c .safeEntered].enabled = true →
        entered.plant.notices[noticeSlot c .safeEntered].pending = true)) ∧
    ∀ i : NoticeIndex, (∀ c, (∃ g, trips c g) → i ≠ noticeSlot c .guardTrip) → (∀ c, safes c → i ≠ noticeSlot c .safeEntered) →
      entered.plant.notices[i] = cleared.plant.notices[i]

/-- LOCK sets the lock flag and answers it; a second LOCK is answered the same and changes nothing (R163). ASSIGN, taken at the
part's address as it stands, 0 while it is unassigned, makes 1..254 the address; 0 and 255 are answered BAD_VALUE with the
address kept (R154). -/
def Obligations.LockAndAssign : Prop :=
  (∀ (r : Request) (s : State), s.Takes r →
    exec (.lock r) s = .next ({ s with lock := true }.answered codeLock r .accepted (packData (be1 1)))) ∧
  ∀ (r : Request) (s : State), s.inReset = false → r.address = s.address → s.responses.length < Config.responseRoom →
    (1 ≤ r.byte 0 → r.byte 0 ≤ 254 → exec (.assign r) s = .next
      ({ s with address := BitVec.ofNat 8 (r.byte 0) }.answered codeAssign r .accepted (packData (be1 (r.byte 0))))) ∧
    (r.byte 0 = 0 ∨ r.byte 0 = 255 → exec (.assign r) s = .next
      (s.answered codeAssign r .badValue (packData (be1 0 ++ [s.address]))))

/-- A broadcast HOLD, RESUME or ABORT with a sound mask is executed by a part with an address, without response and without need
of room; an unassigned part, another code or a mask with a bit above bit 3 changes nothing; the record itself travels on with
every byte as received (R156). That a broadcast command is taken here whatever the address byte of its request holds is the
model's choice (log 4). -/
def Obligations.BroadcastExecuted : Prop :=
  ∀ (command : Byte) (r : Request) (s : State), s.inReset = false →
    let after (act : ChamberStep) : State := chambers.foldl (fun s c => if r.names c then (act c s).1 else s) s
    (s.address ≠ 0#8 → r.index.toNat < 16 →
      (command.toNat = codeHold → exec (.broadcast command r) s = .next (after holdChamber)) ∧
      (command.toNat = codeResume → exec (.broadcast command r) s = .next (after (resumeChamber (r.byte 0)))) ∧
      (command.toNat = codeAbort → exec (.broadcast command r) s = .next (after abortChamber))) ∧
    (s.address = 0#8 ∨ 16 ≤ r.index.toNat ∨
        (command.toNat ≠ codeHold ∧ command.toNat ≠ codeResume ∧ command.toNat ≠ codeAbort) →
      exec (.broadcast command r) s = .next s) ∧
    (∀ act : ChamberStep, act = holdChamber ∨ act = resumeChamber (r.byte 0) ∨ act = abortChamber →
      (after act).responses = s.responses) ∧
    ∀ entry : List Byte, entryCheckCorrect entry = true → entry.getD 0 0#8 = 0xFF#8 → requestOf entry = r →
      entry.getD 1 0#8 = command → command ≠ 0#8 → (takeEntry entry s).2 = entry ∧
        (command.toNat ≤ 12 → exec (.broadcast command r) s = .next (takeEntry entry s).1)

/-- POWER_ON_RESET puts every block at its power-on values, holds the part in reset and leaves the raw input levels as the lines
stand; the line low for less than 10 µs is ignored; RESET_END ends the reset with each accepted level at its raw level (R112,
R152). Among the values: filter times 0 and filter timers stopped (R112), the line FREE with settle time 500 ms and both queues
empty (R119, R120, R127), the RF-permit lines low (R117), the address 0 (R154), the lock flag clear (R163), no response (R167),
and the notice slots enabled, with the classes of Table 10-1, none pending, at threshold 0 (R168); the tables, engines, guards
and tracker are in ResetKeepsPromises. What stays of the queue and the port records is the model's own (log 16). -/
def Obligations.ResetLineRestores : Prop :=
  (∀ s : State,
    let begun : State :=
      { State.reset with
        inReset := true, inputs := Vector.ofFn fun l : Fin 16 => { raw := (s.input l).raw }
        txDown := s.txDown, txUp := s.txUp, pending := s.pending }
    exec (.powerOnReset .powerUp) s = .next begun ∧
    (∀ t, 10 ≤ t → exec (.powerOnReset (.lineLow t)) s = .next begun) ∧
    (∀ t, t < 10 → exec (.powerOnReset (.lineLow t)) s = .next s) ∧
    (∀ l : Line, (begun.input l).filter = 0 ∧ (begun.input l).timer = none ∧ (begun.input l).raw = (s.input l).raw) ∧
    (s.inReset = true → exec .resetEnd s = .next
      { s with inReset := false
               inputs := Vector.ofFn fun l : Fin 16 => { s.input l with accepted := (s.input l).raw } }) ∧
    (s.inReset = false → exec .resetEnd s = .next s)) ∧
  State.reset.now = 0 ∧ State.reset.inReset = false ∧ State.reset.address = 0#8 ∧ State.reset.lock = false ∧
  State.reset.responses = [] ∧ State.reset.threshold = 0 ∧ State.reset.plant.arbiter.line = .free ∧
  State.reset.plant.arbiter.settleTime = 500 ∧ State.reset.plant.arbiter.queue = [] ∧ State.reset.plant.arbiter.growth = [] ∧
  (∀ c : Chamber, State.reset.plant.permits[c] = false) ∧
  ∀ i : NoticeIndex, State.reset.plant.notices[i] =
    { cls := if i.val = 24 then 3 else if 24 < i.val then 1 else match i.val % 6 with
        | 0 => 1
        | 1 | 3 | 5 => 2
        | _ => 3
      enabled := true, pending := false, merge := 0, detail := 0, cycle := 0 }

/-! ### Arbiter and timer events -/

/-- GROWTH_SERVED of the chamber whose request stands at the head and fits: its reservation becomes the requested one and a
fresh step goes on: END ends the sequence, a step goes RUNNING at once when it claims no line or the line is FREE, else it waits
for the line with its claim queued (R47 to R51, R129). Asked of any other chamber, or while the head does not fit, the event
changes nothing (log 5). A head that does not fit beside the reservations of the chambers queued and the allowances of the
others is stuck: an examination takes it out, HELD by ENGINE with LOAD_REFUSED, and its reservation falls to its allowance (test
2 of R129). A step that waited with its resume pending is taken up by `ResumeSettles`, from its hold record (R77, R78), and the
examination goes on with the heads behind it. -/
def Obligations.GrowthServed : Prop :=
  (∀ (s : State) (c : Chamber),
    (∀ g rest, s.Safe → s.plant.arbiter.growth = g :: rest → g.chamber = c →
      g.requested + otherReservations s.plant c ≤ s.plant.arbiter.budget → (s.engine c).hold = none →
      let e := s.engine c
      let step := s.stepRecord e.step
      (step.isEnd = false → step.claimsRoughing = false ∨ s.plant.arbiter.line = .free →
        ∃ p : Plant, exec (.growthServed c) s = .next { s with plant := p } ∧
          p.engine c = { e with
            state := .running, awaited := .nothing, startTime := s.now, timer := some (s.now + step.dwell), counter := 0
            startTable := e.outputTable, outputTable := setTargets (step.setpoints.filter fun t => !t.ramp) e.outputTable } ∧
          p.reservation c = g.requested ∧ p.Out c ∧
          (p.arbiter.line = .granted c ↔ step.claimsRoughing = true) ∧ ∀ d, d ≠ c → s.plant.Out d → s.plant.Spares d p) ∧
      (step.isEnd = true →
        ∃ p : Plant, exec (.growthServed c) s = .next { s with plant := p } ∧ s.plant.StepFinishes s.ctx c p ∧
          p.reservation c = g.requested ∧ ∀ d, d ≠ c → s.plant.Out d → s.plant.Spares d p) ∧
      (step.isEnd = false → step.claimsRoughing = true → s.plant.arbiter.line ≠ .free → rest = [] →
        exec (.growthServed c) s = .next { s with plant :=
          { s.plant.setEngine c { e with awaited := .line } with
            arbiter := { s.plant.arbiter with
              growth := [], queue := s.plant.arbiter.queue ++ [c]
              reservation := s.plant.arbiter.reservation.set c g.requested } } })) ∧
    (∀ g rest h, s.Safe → s.plant.arbiter.growth = g :: rest → g.chamber = c →
      g.requested + otherReservations s.plant c ≤ s.plant.arbiter.budget → (s.engine c).hold = some h →
      ∃ m p : Plant, ((s.plant.setReservation c g.requested).setGrowth rest).ResumeSettles s.ctx c h m ∧
        p = examineHeads s.ctx (expireNow s.ctx) (rest.length + 5) m ∧ exec (.growthServed c) s = .next { s with plant := p } ∧
        (m.Out c → m.Spares c p) ∧ (rest = [] → ¬(s.engine c).Spent s.ctx h → p = m) ∧
        ∀ d, d ≠ c → s.plant.Out d → s.plant.Spares d p) ∧
    ((∀ g rest, s.plant.arbiter.growth = g :: rest → g.chamber = c →
        s.plant.arbiter.budget < g.requested + otherReservations s.plant c) →
      exec (.growthServed c) s = .next s)) ∧
  ∀ (s : State) (c : Chamber) (requested : Nat) (rest : List GrowthRequest), s.Safe →
    s.plant.arbiter.growth = ⟨c, requested⟩ :: rest →
    s.plant.arbiter.budget < requested + otherReservations s.plant c →
    s.plant.arbiter.budget < requested + ((chambers.filter (· ≠ c)).map fun d =>
      if ∃ g ∈ s.plant.arbiter.growth, g.chamber = d then s.plant.reservation d else s.plant.allowance d).sum →
    let e := s.engine c
    let t := s.examineGrowth
    t.engine c = { e with
      state := .held, awaited := .nothing, timer := none, counter := 0, sources := { engine := true }
      hold := some (match e.hold with
        | some h => { h with elapsed := 0, mode := .continue }
        | none => { heldFrom := .waiting, step := e.step, elapsed := 0, loops := e.loops, startTable := e.startTable
                    outputTable := e.outputTable, mode := .continue })
      outputTable := holdOutputs s.ctx c e.outputTable } ∧
    t.plant.reservation c = s.plant.allowance c ∧ t.plant.Out c ∧ t.plant.arbiter.line ≠ .granted c ∧
    t.plant.permits[c] = s.plant.permits[c] ∧ t.plant.Raised c .loadRefused ∧ t.plant.Raised c .holdEntered ∧
    ∀ d, d ≠ c → s.plant.Out d → s.plant.Spares d t.plant

/-- A selection, at the settle timer's expiry: an empty queue frees the line; else the chamber of the lowest priority value, the
earliest of those, leaves the queue and holds the line, and if its engine is WAITING for it enters RUNNING, for a fresh step
(R123, R124) or for the step of its pending hold record (R77, R78). LINE_GRANTED of that chamber is the same selection (log 6);
other chambers are not granted. The event is taken at the later of the expiry and the timebase, and a stopped settle timer has no
expiry (log 2); on a line a chamber holds, or with no chamber queued, LINE_GRANTED changes nothing (log 6). -/
def Obligations.SelectionGrantsLine : Prop :=
  (∀ s : State,
    ((∀ t, s.plant.arbiter.line ≠ .settling t) → exec .settleExpiry s = .next s) ∧
    ∀ c, s.plant.arbiter.queue = [] ∨ (∃ d, s.plant.arbiter.line = .granted d) → exec (.lineGranted c) s = .next s) ∧
  ∀ (s : State) (t : Nat), s.plant.arbiter.line = .settling t →
    let at_ := s.advanceTo t
    (s.plant.arbiter.queue = [] → exec .settleExpiry s = .next { at_ with plant := s.plant.setLine .free [] }) ∧
    ∀ (c : Chamber) (before after : List Chamber), s.plant.arbiter.queue = before ++ c :: after →
      (∀ d ∈ before, s.plant.arbiter.priority[c] < s.plant.arbiter.priority[d]) →
      (∀ d ∈ after, s.plant.arbiter.priority[c] ≤ s.plant.arbiter.priority[d]) → s.Safe →
      let granted := s.plant.setLine (.granted c) (before ++ after)
      let e := s.engine c
      let step := s.stepRecord e.step
      let running : Engine := { e with
        state := .running, awaited := .nothing, startTime := at_.now, timer := some (at_.now + step.dwell), counter := 0
        startTable := e.outputTable, outputTable := setTargets (step.setpoints.filter fun k => !k.ramp) e.outputTable }
      (e.state = .idle → exec .settleExpiry s = .next { at_ with plant := granted } ∧
        exec (.lineGranted c) s = .next { at_ with plant := granted }) ∧
      (e.state = .waiting → e.hold = none →
        exec .settleExpiry s = .next { at_ with plant := granted.setEngine c running } ∧
        exec (.lineGranted c) s = .next { at_ with plant := granted.setEngine c running }) ∧
      (∀ h, e.state = .waiting → e.hold = some h →
        ∃ q : Plant, granted.ResumesIn at_.ctx c h q ∧ exec .settleExpiry s = .next { at_ with plant := q } ∧
          exec (.lineGranted c) s = .next { at_ with plant := q }) ∧
      ∀ d, d ≠ c → exec (.lineGranted d) s = .next s

/-- The expiry of the dwell timer of a TIMED step: the targets are set, the loop part applied, and the boundary of the next step
taken in the same event (R52, R53, R58): by its load and the line it runs, ends the sequence in DONE, keeps the line by focus,
claims it, waits for it or for growth, or is held as one whose load never fits (R45 to R50); what a shrink gives back serves
others first, and a line given up settles (R122, R130). A stopped timer has no expiry (log 2). What is read of a step record
(Tables 2-1 and 2-2; a claims byte above 1: log 9), and what setting targets does, is said first. -/
def Obligations.DwellExpiryEndsStep : Prop :=
  (∀ r : StepRecord,
    (r.isEnd = true ↔ r.kind.toNat = 4) ∧ (r.isConditioned = true ↔ 1 ≤ r.kind.toNat ∧ r.kind.toNat ≤ 3) ∧
    r.dwell = r.duration * 100 ∧ (r.ramp = 0 → r.rampTime = r.duration * 100) ∧ (r.ramp ≠ 0 → r.rampTime = r.ramp * 100) ∧
    (r.claims = 0#8 → r.claimsRoughing = false) ∧ (r.claims = 1#8 → r.claimsRoughing = true) ∧
    (r.timeoutAction = some .toSafe ↔ r.timeout.toNat = 1) ∧ (r.timeoutAction = some .toHold ↔ r.timeout.toNat = 2) ∧
    (r.timeoutAction = some .toAdvance ↔ r.timeout.toNat = 3) ∧
    (r.loopTarget = 0xFFFF → r.loopPart = none) ∧
    (r.loopTarget ≠ 0xFFFF → r.loopPart = some (r.loopTarget, r.loopCount))) ∧
  (∀ (targets : List Setpoint) (t : ValueTable) (h : Chan),
    ((∀ e ∈ targets, e.channel ≠ h) → (setTargets targets t)[h] = t[h]) ∧
    ∀ e ∈ targets, e.channel = h → (∀ d ∈ targets, d.channel = h → d = e) → (setTargets targets t)[h] = e.target) ∧
  ∀ (s : State) (c : Chamber),
    ((s.engine c).timer = none → exec (.dwellExpiry c) s = .next s) ∧
    ∀ (t : Nat), s.Safe → (s.engine c).timer = some t → (s.stepRecord (s.engine c).step).isConditioned = false →
      let e := s.engine c
      ∃ p : Plant, exec (.dwellExpiry c) s = .next { s.advanceTo t with plant := p } ∧
        (s.plant.setEngine c (e.afterStep (s.stepRecord e.step))).TakesBoundary (s.advanceTo t).ctx
          (expireNow (s.advanceTo t).ctx) c p

/-- The loop part at a step's end: no part goes on; a top entry of another step, or an empty stack, has (L, k) pushed and the
branch taken; a top entry of L has its count lowered and the branch taken, or is removed when it reaches 0 (R25). -/
def Obligations.LoopPartApplied : Prop :=
  ∀ (L T k remaining : Nat) (rest loops : List LoopEntry),
    applyLoop L none loops = (loops, L + 1) ∧
    ((∀ top tail, loops = top :: tail → top.step ≠ L) → applyLoop L (some (T, k)) loops = (⟨L, k⟩ :: loops, T)) ∧
    (2 ≤ remaining → applyLoop L (some (T, k)) (⟨L, remaining⟩ :: rest) = (⟨L, remaining - 1⟩ :: rest, T)) ∧
    applyLoop L (some (T, k)) (⟨L, 1⟩ :: rest) = (rest, L + 1)

/-- The deadline of a conditioned step raises STEP_TIMEOUT and takes its action: TO_SAFE enters SAFE with the safe values,
TO_HOLD enters HELD with ENGINE and the whole deadline as elapsed time, without the step's targets, both with the line given up
SETTLING and the abatement queue examined after it (R122, R130, R131), TO_ADVANCE ends the step as its condition would (R57,
R58, R61, R69, R70). At a cycle close the engines that were RUNNING when the guards began, in index order, count a met condition
of Table 3-5 up, zero the count of one not met, and end the step when the count is reached (R54 to R56). An expiry is taken at
its time (R52); that it comes as a command, taken at the later of that time and the timebase, is the model's choice (log 2). -/
def Obligations.DwellExpiryTimesOut : Prop :=
  (∀ (s : State) (c : Chamber) (t : Nat), s.Safe → (s.engine c).timer = some t →
    (s.stepRecord (s.engine c).step).isConditioned = true →
    let e := s.engine c
    let step := s.stepRecord e.step
    let raised (p : Plant) (n : ChamberNotice) : Prop :=
      s.plant.notices[noticeSlot c n].enabled = true → p.notices[noticeSlot c n].pending = true
    let handsBack (stopped : Engine) (p : Plant) : Prop :=
      (s.plant.raiseAt (noticeSlot c .stepTimeout) e.step s.ring.lastCycle).HandsBack (s.advanceTo t).ctx
        (expireNow (s.advanceTo t).ctx) c stopped p
    (step.timeoutAction = some .toSafe →
      ∃ p : Plant, exec (.dwellExpiry c) s = .next { s.advanceTo t with plant := p } ∧
        p.engine c = { e with
          state := .safe, timer := none, counter := 0, hold := none, loops := [], range := none
          outputTable := Vector.ofFn fun h : Fin 16 =>
            if (s.channel c h).record.kind.isSetpoint then (s.channel c h).record.safeValue else 0 } ∧
        p.reservation c = s.plant.allowance c ∧ p.permits[c] = false ∧ p.Out c ∧ p.arbiter.line ≠ .granted c ∧
        raised p .stepTimeout ∧ raised p .safeEntered ∧ handsBack { e with timer := none, counter := 0 } p ∧
        ∀ d, d ≠ c → s.plant.Out d → s.plant.Spares d p) ∧
    (step.timeoutAction = some .toHold →
      let record : HoldRecord :=
        { heldFrom := .running, step := e.step, elapsed := step.dwell, loops := e.loops, startTable := e.startTable
          outputTable := e.outputTable, mode := .continue }
      ∃ p : Plant, exec (.dwellExpiry c) s = .next { s.advanceTo t with plant := p } ∧
        p.engine c = { e with
          state := .held, timer := none, counter := 0, sources := { engine := true }, hold := some record
          outputTable := holdOutputs s.ctx c e.outputTable } ∧
        p.reservation c = s.plant.allowance c ∧ p.permits[c] = s.plant.permits[c] ∧ p.Out c ∧
        p.arbiter.line ≠ .granted c ∧ raised p .stepTimeout ∧ raised p .holdEntered ∧
        handsBack { e with timer := none, counter := 0, hold := some record } p ∧ ∀ d, d ≠ c → s.plant.Out d → s.plant.Spares d p) ∧
    (step.timeoutAction = some .toAdvance →
      ∃ p : Plant, exec (.dwellExpiry c) s = .next { s.advanceTo t with plant := p } ∧ raised p .stepTimeout ∧
        ((s.plant.raiseAt (noticeSlot c .stepTimeout) e.step s.ring.lastCycle).setEngine c (e.afterStep step)).TakesBoundary
          (s.advanceTo t).ctx (expireNow (s.advanceTo t).ctx) c p)) ∧
  (∀ (x : Ctx) (up : Bool) (p : Plant) (c : Chamber), p.Sound up →
    let e := p.engine c
    let step := x.stepRecord e.step
    let q := evaluateCondition x (expireNow x) c p
    (e.state ≠ .running ∨ step.isConditioned = false → q = p) ∧
    (e.state = .running → step.isConditioned = true →
      (conditionMet x c step = false → q = p.setEngine c { e with counter := 0 }) ∧
      (conditionMet x c step = true →
        (e.counter + 1 < step.count → q = p.setEngine c { e with counter := e.counter + 1 }) ∧
        (step.count ≤ e.counter + 1 → (p.setEngine c
          (({ e with counter := e.counter + 1 } : Engine).afterStep step)).TakesBoundary x (expireNow x) c q)))) ∧
  (∀ (x : Ctx) (c : Chamber) (step : StepRecord),
    (step.kind.toNat = 1 → (conditionMet x c step = true ↔ x.pressureLevel c ≤ step.level)) ∧
    (step.kind.toNat = 2 → (conditionMet x c step = true ↔ step.level ≤ x.pressureLevel c)) ∧
    ∀ f g : Chan, step.kind.toNat = 3 → (x.record c f).kind = .rfForward → (x.record c g).kind = .rfReflected →
      (∀ h, (x.record c h).kind = .rfForward → h = f) → (∀ h, (x.record c h).kind = .rfReflected → h = g) →
      let forward := (x.status c f).value
      let ratio := if forward = 0 then 1000 else (x.status c g).value * 1000 / forward
      (conditionMet x c step = true ↔ step.minForward ≤ forward ∧ ratio ≤ step.ratio)) ∧
  ∀ (s : State) (slots : List Slot),
    let guarded := (s.takeReadings slots).guardPass (fun _ _ => true) [0, 1, 2, 3]
    s.closeCycle slots = { guarded with plant := ([0, 1, 2, 3] : List Chamber).foldl (fun p c =>
      if (s.engine c).state = .running then evaluateCondition guarded.ctx (expireNow guarded.ctx) c p else p) guarded.plant }

/-- Ring loss: RING_LOST is raised, the window emptied, the open cycle discarded, the RF permits dropped. Then the chambers have
their turns in index order, each whole before the next, as `LosesRing` says, with the line releases, selections and examinations
of the queue it causes (R150; immediate expiries: log 7): a RUNNING or WAITING engine enters HELD by RING with its hold record (elapsed at most D x 100: log
17), its hold outputs and HOLD_ENTERED (R69 to R71), a HELD one has RING join (R68), an IDLE chamber's implicit claim ends (R90),
DONE and SAFE stand, and what its turn leaves of an engine stands. A RUNNING engine comes to its turn as it is, so does a WAITING
one where no growth is queued and no line can be handed on; another WAITING one may have been served by then, and ends DONE or
SAFE only where it comes to its turn so. In the end no chamber stands in a queue or at the line, which one that held it leaves
SETTLING (R122). A stopped watch has no expiry (log 2). -/
def Obligations.RingLossHoldsEngines : Prop :=
  ∀ s : State, (s.ring.watch = none → exec .ringWatchExpiry s = .next s) ∧
    ∀ t, s.Safe → s.ring.watch = some t → s.ring.up = true →
      let x := (s.advanceTo t).ctx
      ∃ (p : Plant) (turn : Nat → Plant), exec .ringWatchExpiry s = .next
        { s.advanceTo t with
          plant := p
          ring := { s.ring with lastArrival := none, count := 0, sum := 0, state := .lost, watch := none, openCycle := none } } ∧
        turn 0 = { s.plant.raiseAt ringLostSlot 0 s.ring.lastCycle with permits := Vector.replicate 4 false } ∧
        (∀ c : Chamber, (turn c.val).LosesRing x (expireNow x) c (turn (c.val + 1))) ∧ p = turn 4 ∧
        p.arbiter.queue = [] ∧ p.arbiter.growth = [] ∧ (∀ c, p.arbiter.line ≠ .granted c) ∧ (∀ c : Chamber, p.permits[c] = false) ∧
        ((∃ c, s.plant.arbiter.line = .granted c) → s.plant.arbiter.settleTime ≠ 0 →
          p.arbiter.line = .settling (max s.now t + s.plant.arbiter.settleTime * 1000)) ∧
        (s.plant.notices[ringLostSlot].enabled = true → p.notices[ringLostSlot].pending = true) ∧
        ∀ c : Chamber,
          let e := s.engine c
          let dwell := (s.stepRecord e.step).dwell
          let record : HoldRecord := match e.hold with
            | some h => { h with elapsed := 0, mode := .continue }
            | none =>
              { heldFrom := if e.state = .running then .running else .waiting, step := e.step
                elapsed := if e.state = .running then min (max s.now t - e.startTime) dwell else 0, loops := e.loops
                startTable := e.startTable, outputTable := e.outputTable, mode := .continue }
          let unserved : Prop := s.plant.arbiter.growth = [] ∧
            ((∃ d, s.plant.arbiter.line = .granted d) → s.plant.arbiter.settleTime ≠ 0)
          p.engine c = (turn (c.val + 1)).engine c ∧
          (e.state = .running ∨ e.state = .waiting ∧ unserved →
            p.engine c =
              { e with state := .held, awaited := .nothing, timer := none, counter := 0, sources := { ring := true }
                       hold := some record
                       outputTable := Vector.ofFn fun h : Fin 16 =>
                         let k := (s.channel c h).record
                         if k.kind.isSetpoint && k.holdBehaviour == .safeValue then k.safeValue else e.outputTable[h] } ∧
            p.reservation c = s.plant.allowance c ∧
            (s.plant.notices[noticeSlot c .holdEntered].enabled = true →
              p.notices[noticeSlot c .holdEntered].pending = true)) ∧
          (e.state = .waiting →
            ((p.engine c).state = .held ∧ (p.engine c).sources.ring = true ∧ p.reservation c = s.plant.allowance c) ∨
            (((turn c.val).engine c).state = .done ∨ ((turn c.val).engine c).state = .safe) ∧
              p.engine c = (turn c.val).engine c) ∧
          ((s.engine c).state = .held →
            p.engine c = { s.engine c with sources := { (s.engine c).sources with ring := true } }) ∧
          ((s.engine c).state = .idle ∨ (s.engine c).state = .done ∨ (s.engine c).state = .safe →
            p.engine c = s.engine c ∧ p.reservation c = s.plant.reservation c)

/-! ### Input lines and grace -/

/-- A change of a line's raw level: away from the accepted level it starts a stopped filter timer, or with filter time 0 is
accepted in the same event; back at the accepted level it stops a running timer and accepts nothing (R113). The event's time is
its operand (log 1). While a reset lasts the raw level follows the line and nothing else happens (R112, R152, log 16). -/
def Obligations.InputChangeFiltered : Prop :=
  (∀ (time : Nat) (l : Line) (high : Bool) (s : State), s.inReset = true →
    exec (.inputLevelChange time l high) s = .next (s.setInput l { s.input l with raw := high })) ∧
  ∀ (time : Nat) (l : Line) (high : Bool) (s : State), s.inReset = false →
    let i := s.input l
    let at_ := s.advanceTo time
    (high ≠ i.raw → high ≠ i.accepted → i.timer = none →
      (i.filter ≠ 0 → exec (.inputLevelChange time l high) s =
        .next (at_.setInput l { i with raw := high, timer := some (max s.now time + i.filter * 1000) })) ∧
      (i.filter = 0 → exec (.inputLevelChange time l high) s =
        .next ((at_.setInput l { i with raw := high }).acceptLevel l))) ∧
    (high ≠ i.raw → high = i.accepted →
      exec (.inputLevelChange time l high) s = .next (at_.setInput l { i with raw := high, timer := none })) ∧
    (high ≠ i.raw → high ≠ i.accepted → i.timer.isSome = true →
      exec (.inputLevelChange time l high) s = .next (at_.setInput l { i with raw := high }))

/-- The expiry of a line's filter timer accepts the raw level and evaluates, in the same event and in every state of the ring,
the INPUT entries of the four chambers on that line, with the actions of their trips and the hold demands; no other entry
changes (R114, R115; the moves, the trips and their actions, and the demands are in FramePacedStatesMove). The event is taken at
the later of the expiry and the timebase (log 2). -/
def Obligations.InputAcceptanceEvaluates : Prop :=
  ∀ (l : Line) (s : State) (t : Nat), (s.input l).timer = some t →
      let at_ := s.advanceTo t
      let guards : Vector (Vector GuardEntry 16) 4 := Vector.ofFn fun c : Fin 4 => Vector.ofFn fun g : Fin 16 =>
        let e := s.guardEntry c g
        if e.config.kind.isInput = true ∧ e.config.source = l then
          { e with state := moveInput (inScope s.ctx (s.engine c) g e.config.scope)
                              (inputReading (s.input l).raw e.config) e.state }
        else e
      let acted := applyTrips at_.ctx (newTrips s.guards guards) s.plant
      exec (.inputAcceptance l) s = .next
        { at_.setInput l { s.input l with accepted := (s.input l).raw, timer := none } with
          guards := guards, plant := examineDemands at_.ctx guards chambers acted }

/-- At its lapse time an IN_GRACE entry becomes ARMED and nothing else changes (R107). An ARMED entry has no lapse, a stopped
filter timer no expiry (log 2), and a raw level that is no change only carries the time of its event (log 1). -/
def Obligations.GraceLapsesAndNothingElse : Prop :=
  (∀ (c : Chamber) (g : GuardIndex) (s : State),
    (∀ t, (s.guardEntry c g).lapse = some t →
      exec (.graceLapse c g) s = .next ((s.advanceTo t).setGuard c g { s.guardEntry c g with lapse := none })) ∧
    ((s.guardEntry c g).lapse = none → exec (.graceLapse c g) s = .next s)) ∧
  ∀ (l : Line) (s : State),
    ((s.input l).timer = none → exec (.inputAcceptance l) s = .next s) ∧
    ∀ time, s.inReset = false → exec (.inputLevelChange time l (s.input l).raw) s = .next (s.advanceTo time)

/-! ### Values and flags -/

/-- The conversions between words and engineering values (R10, R11): their values, their ends, their ranges, and the round trip of
every value when the word scale is no coarser than the value scale. -/
def Obligations.ConversionsRoundToNearest : Prop :=
  ∀ r : ChannelRecord, 1 ≤ r.fullScale → 1 ≤ r.wordFullScale →
    (∀ w, w ≤ r.wordFullScale → wordToValue r w = (w * r.fullScale + r.wordFullScale / 2) / r.wordFullScale) ∧
    (∀ w, r.wordFullScale < w → wordToValue r w = r.fullScale) ∧
    wordToValue r 0 = 0 ∧ wordToValue r r.wordFullScale = r.fullScale ∧ (∀ w, wordToValue r w ≤ r.fullScale) ∧
    valueToWord r 0 = 0 ∧ valueToWord r r.fullScale = r.wordFullScale ∧
    (∀ v, v ≤ r.fullScale → valueToWord r v = (v * r.wordFullScale + r.fullScale / 2) / r.fullScale ∧
      valueToWord r v ≤ r.wordFullScale) ∧
    (r.fullScale ≤ r.wordFullScale → ∀ v, v ≤ r.fullScale → wordToValue r (valueToWord r v) = v)

/-- A cycle close takes each readback channel's reading when it is valid, else counts it missing, saturating, with the fail
value and the stale flag at the stale limit, and changes no other channel (R12, R13); the pressure level is 15 without a CHECKED
table or a PRESSURE channel, else the number of thresholds at or below the reading (R20). -/
def Obligations.ReadingsAndPressureLevel : Prop :=
  (∀ (s : State) (slots : List Slot) (c : Chamber) (h : Chan),
    let old := s.channel c h
    let new := (s.takeReadings slots).channel c h
    (old.record.kind.isReadback = false → new = old) ∧
    (∀ (k : Fin 128) (slot : Slot), old.record.kind.isReadback = true → s.SlotsDistinct →
      s.slotMap[k] = .channel c h → slots[k.val]? = some slot → slot.nodeFlags.getLsbD 0 = true →
      slot.nodeFlags.getLsbD 1 = false →
      new = { old with status := { old.status with
        value := wordToValue old.record slot.readback.toNat, missing := 0, stale := false } }) ∧
    (old.record.kind.isReadback = true →
      (∀ (k : Fin 128) (slot : Slot), s.slotMap[k] = .channel c h → slots[k.val]? = some slot →
        slot.nodeFlags.getLsbD 0 = false ∨ slot.nodeFlags.getLsbD 1 = true) →
      new = { old with status :=
        if 255 ≤ old.status.missing then old.status
        else if old.status.missing + 1 = old.record.staleLimit then
          { old.status with missing := old.status.missing + 1, value := old.record.failValue, stale := true }
        else { old.status with missing := old.status.missing + 1 } })) ∧
  ∀ (s : State) (c : Chamber),
    (s.levels[c].checked = false ∨ (∀ h, (s.channel c h).record.kind ≠ .pressure) → s.ctx.pressureLevel c = 15) ∧
    ∀ h, s.levels[c].checked = true → (s.channel c h).record.kind = .pressure →
      (∀ j, (s.channel c j).record.kind = .pressure → j = h) →
      s.ctx.pressureLevel c =
        (List.finRange 15).countP fun k => s.levels[c].thresholds[k] ≤ (s.channel c h).status.value

/-- Table 6-5 for an entry of count C, line by line; an entry is evaluated at a cycle close by it, on its reading and its scope;
TRIPPED entered from CLEAR or COUNTING is a trip, standing TRIPPED is none (R104; for the way back from RELEASING see log 12).
The readings of Table 6-2 (R98, R106); an entry without a valid source reads trip, and one that has lost its source since it was
written never reads release, so that TRIPPED or RELEASING it is TRIPPED after the close, source put right or not (R105; from when
to when an entry counts as such: log 32; which of its other readings it then takes: log 29); the scopes of Table 6-4 (R102); the
moves of an INPUT entry, which a cycle close evaluates anew on the accepted level (R115). Then, in the order of R103, the trips chamber by chamber and entry by entry: each
raises GUARD_TRIP with the entry as detail, and action SAFE takes a chamber that is not SAFE to SAFE (R108, R109), which hands
back what it has of the arbiter, a line to its settle time (R122). Last the hold demand: standing, it holds a RUNNING or WAITING
chamber by GUARD, its elapsed time at most D x 100 (log 17), joins a HELD one and leaves an IDLE, DONE or SAFE one (R110); no
longer standing, GUARD goes, and with it the hold when it was the last source, the held step then coming to its boundary (R111).
-/
def Obligations.FramePacedStatesMove : Prop :=
  (∀ (C n : Nat), 1 ≤ C → n < C →
    (moveFramePaced C true .trip .clear = if C = 1 then .tripped else .counting 1) ∧
    (moveFramePaced C true .trip (.counting n) = if n + 1 = C then .tripped else .counting (n + 1)) ∧
    (∀ reading, reading ≠ .trip → moveFramePaced C true reading .clear = .clear ∧
      moveFramePaced C true reading (.counting n) = .clear) ∧
    (∀ reading, moveFramePaced C false reading .clear = .clear ∧ moveFramePaced C false reading (.counting n) = .clear) ∧
    ∀ scope,
      (moveFramePaced C scope .release .tripped = if C = 1 then .clear else .releasing 1) ∧
      (moveFramePaced C scope .release (.releasing n) = if n + 1 = C then .clear else .releasing (n + 1)) ∧
      ∀ reading, reading ≠ .release →
        moveFramePaced C scope reading .tripped = .tripped ∧ moveFramePaced C scope reading (.releasing n) = .tripped) ∧
  (∀ n, entersTripped .clear .tripped = true ∧ entersTripped (.counting n) .tripped = true ∧
    entersTripped .tripped .tripped = false) ∧
  (∀ (s : State) (c : Chamber) (g : GuardIndex) (slots : List Slot),
    (s.guardEntry c g).config.kind.isFramePaced = true →
    let read := s.takeReadings slots
    let e := s.guardEntry c g
    let scope := inScope s.ctx (s.engine c) g e.config.scope
    (s.closeCycle slots).guardEntry c g =
      { e with state := moveFramePaced e.config.count scope (frameReading read.ctx c e) e.state }) ∧
  (∀ (s : State) (c : Chamber) (g : GuardIndex) (slots : List Slot),
    let e := s.guardEntry c g
    let scope := inScope s.ctx (s.engine c) g e.config.scope
    (e.config.kind = .inputHigh ∨ e.config.kind = .inputLow → (s.closeCycle slots).guardEntry c g =
      { e with state := moveInput scope (inputReading (s.input e.config.source).accepted e.config) e.state }) ∧
    (e.config.kind = .off → (s.closeCycle slots).guardEntry c g = e) ∧
    (e.config.kind = .valueAbove ∨ e.config.kind = .valueBelow ∨ e.config.kind = .deviation → e.sourceLost = true →
      e.state.standing = true → (s.closeCycle slots).guardEntry c g = { e with state := .tripped })) ∧
  (∀ (s : State) (slots : List Slot),
    let read := s.takeReadings slots
    let guards := (s.closeCycle slots).guards
    read.guardPass (fun _ _ => true) [0, 1, 2, 3] =
      { read with guards := guards
                  plant := examineDemands read.ctx guards [0, 1, 2, 3]
                    (applyTrips read.ctx (newTrips s.guards guards) s.plant) }) ∧
  (∀ before after : Vector (Vector GuardEntry 16) 4,
    (∀ (c : Chamber) (g : GuardIndex) (action : GuardAction), (c, g, action) ∈ newTrips before after ↔
      entersTripped before[c][g].state after[c][g].state = true ∧ action = after[c][g].config.action) ∧
    (newTrips before after).Pairwise fun t u => t.1 < u.1 ∨ t.1 = u.1 ∧ t.2.1 < u.2.1) ∧
  (∀ (x : Ctx) (guards : Vector (Vector GuardEntry 16) 4) (p : Plant),
    applyTrips x [] p = p ∧ examineDemands x guards [] p = p ∧
    (∀ c g action trips, applyTrips x ((c, g, action) :: trips) p = applyTrips x trips (applyTrip x c g action p)) ∧
    ∀ c cs, examineDemands x guards (c :: cs) p = examineDemands x guards cs (examineDemand x guards c p)) ∧
  (∀ (x : Ctx) (p : Plant) (c : Chamber) (g : GuardIndex) (action : GuardAction),
    let raised := p.raiseAt (noticeSlot c .guardTrip) g.val x.cycle
    let q := applyTrip x c g action p
    (action ≠ .safe ∨ (p.engine c).state = .safe → q = raised) ∧
    (action = .safe → (p.engine c).state ≠ .safe →
      q = enterSafe x (expireNow x) c raised ∧
      q.engine c =
        { p.engine c with
          state := .safe, timer := none, counter := 0, awaited := .nothing, hold := none, sources := {}, loops := []
          range := none
          outputTable := Vector.ofFn fun h : Fin 16 =>
            if (x.record c h).kind.isSetpoint then (x.record c h).safeValue else 0 } ∧
      q.reservation c = p.allowance c ∧ q.permits[c] = false ∧ q.Out c ∧ q.arbiter.line ≠ .granted c ∧
      q.Raised c .guardTrip ∧ q.Raised c .safeEntered ∧
      raised.HandsBack x (expireNow x) c { p.engine c with awaited := .nothing, timer := none, counter := 0 } q ∧
      ∀ d, d ≠ c → p.Out d → p.Spares d q)) ∧
  (∀ (x : Ctx) (c : Chamber) (e : GuardEntry),
    let k := e.config
    let valid := (x.record c k.source).kind.isReadback
    let value := (x.status c k.source).value
    (k.kind = .levelAbove → k.release ≤ k.trip → frameReading x c e =
      if k.trip < x.pressureLevel c then .trip else if k.release < x.pressureLevel c then .neither else .release) ∧
    (k.kind = .levelBelow → k.trip ≤ k.release → frameReading x c e =
      if x.pressureLevel c < k.trip then .trip else if x.pressureLevel c < k.release then .neither else .release) ∧
    (k.kind = .valueAbove → valid = true → e.sourceLost = false → k.release ≤ k.trip → frameReading x c e =
      if k.trip < value then .trip else if k.release < value then .neither else .release) ∧
    (k.kind = .valueBelow → valid = true → e.sourceLost = false → k.trip ≤ k.release → frameReading x c e =
      if value < k.trip then .trip else if value < k.release then .neither else .release) ∧
    (k.kind = .valueAbove ∨ k.kind = .valueBelow → valid = false → frameReading x c e = .trip) ∧
    (k.kind = .deviation → (x.record c k.source).kind ≠ .flowRead ∨ (x.record c k.source).pair = none →
      frameReading x c e = .trip) ∧
    (k.kind = .valueAbove ∨ k.kind = .valueBelow ∨ k.kind = .deviation → e.sourceLost = true →
      frameReading x c e = .trip ∨ frameReading x c e = .neither ∧ frameReading x c { e with sourceLost := false } ≠ .trip) ∧
    ∀ h, k.kind = .deviation → (x.record c k.source).kind = .flowRead → (x.record c k.source).pair = some h →
      e.sourceLost = false → k.release ≤ k.tolerance →
      let f := value
      let carried := (x.status c h).carried
      let deviation := max f carried - min f carried
      frameReading x c e =
        if deviation ≤ k.release then .release
        else if k.tolerance < deviation ∧ e.lapse = none then .trip else .neither) ∧
  (∀ (accepted : Bool) (k : GuardConfig),
    (k.kind = .inputHigh → inputReading accepted k = if accepted then .trip else .release) ∧
    (k.kind = .inputLow → inputReading accepted k = if accepted then .release else .trip)) ∧
  (∀ (x : Ctx) (e : Engine) (g : GuardIndex),
    inScope x e g .always = true ∧ (inScope x e g .runOnly = true ↔ e.state = .running) ∧
    (inScope x e g .flagged = true ↔ e.state = .running ∧ (x.stepRecord e.step).guardMask.getLsbD g.val = true)) ∧
  (∀ scope : Bool,
    moveInput true .trip .clear = .tripped ∧ moveInput scope .release .clear = .clear ∧
    (∀ reading, moveInput false reading .clear = .clear) ∧ moveInput scope .release .tripped = .clear ∧
    moveInput scope .trip .tripped = .tripped) ∧
  ∀ (x : Ctx) (up : Bool) (p : Plant) (guards : Vector (Vector GuardEntry 16) 4) (c : Chamber), p.Sound up →
    let e := p.engine c
    let q := examineDemand x guards c p
    let demand : Prop := ∃ g : GuardIndex, guards[c][g].config.action = .hold ∧
      (guards[c][g].state = .tripped ∨ ∃ n, guards[c][g].state = .releasing n)
    (demand →
      (e.state = .running ∨ e.state = .waiting →
        let record : HoldRecord := match e.hold with
          | some h => { h with elapsed := 0, mode := .continue }
          | none =>
            { heldFrom := if e.state = .running then .running else .waiting, step := e.step
              elapsed := if e.state = .running then min (x.now - e.startTime) (x.stepRecord e.step).dwell else 0
              loops := e.loops, startTable := e.startTable, outputTable := e.outputTable, mode := .continue }
        q.engine c = { e with
          state := .held, awaited := .nothing, timer := none, counter := 0, sources := { guard := true }
          hold := some record, outputTable := holdOutputs x c e.outputTable } ∧
        p.HandsBack x (expireNow x) c { e with awaited := .nothing, timer := none, counter := 0, hold := some record } q ∧
        q.reservation c = p.allowance c ∧ q.permits[c] = p.permits[c] ∧ q.Out c ∧ q.arbiter.line ≠ .granted c ∧
        q.Raised c .holdEntered ∧ ∀ d, d ≠ c → p.Out d → p.Spares d q) ∧
      (e.state = .held → q = p.setEngine c { e with sources := { e.sources with guard := true } }) ∧
      (e.state = .idle ∨ e.state = .done ∨ e.state = .safe → q = p)) ∧
    (¬demand →
      (e.state ≠ .held ∨ e.sources.guard = false → q = p) ∧
      (e.state = .held → e.sources.guard = true → e.sources ≠ { guard := true } →
        q = p.setEngine c { e with sources := { e.sources with guard := false } }) ∧
      (e.state = .held → e.sources = { guard := true } →
        q = leaveHold x (expireNow x) c (p.setEngine c { e with sources := {} }) ∧
        (∀ h : HoldRecord, e.hold = some h → (p.setEngine c (e.leaving x h)).ResumesBoundary x c h q) ∧
        ∀ h : HoldRecord, e.hold = some h →
          let step := x.stepRecord h.step
          let values : ValueTable := match h.heldFrom with
            | .waiting => h.outputTable
            | .running => Vector.ofFn fun k : Fin 16 =>
                if (step.setpointFor k).isSome then h.startTable[k] else h.outputTable[k]
          let elapsed := match h.mode with | .continue => h.elapsed | .restart => 0
          step.isEnd = false → step.claimsRoughing = false → stepLoad x c step values ≤ p.allowance c →
          (h.heldFrom = .running → elapsed < step.dwell) →
          q = p.setEngine c
            { e with
              state := .running, step := h.step, sources := {}, hold := none, loops := h.loops, awaited := .nothing
              counter := 0, outputTable := setTargets (step.setpoints.filter fun k => !k.ramp) values
              startTime := match h.heldFrom with | .running => x.now - elapsed | .waiting => x.now
              timer := some (match h.heldFrom with
                | .running => x.now + (step.dwell - elapsed)
                | .waiting => x.now + step.dwell)
              startTable := match h.heldFrom with | .running => h.startTable | .waiting => values }))

/-- Every slot of a good outbound frame: a slot of a setpoint channel carries the word of the value its channel is left with as
carried value, within the channel's limits, or 0 on a ROUGH_VALVE, and open there only with the line granted to its chamber; its
SUBSTITUTED flag says whether the word changed; every other slot, and every readback word and node flag, passes as received (R3,
R86, R88, R91). One slot computed: its base value by state and owner (R82), the clamp and the idle allowance, the roughing rule
with the implicit claim and its end (R89, R90), its three flags (R92), its carried value and change time with the grace
restarted (R16), and the ramp handed to the output table (R85). A record outside its limits is taken as log 21 says. A passage
takes the slots from slot 0 upward, each computed from what the slot before it left, with every chamber's allowance at the start
and the engine contexts as the passage found them (R81, R93); a slot of no setpoint channel changes nothing (R3). -/
def Obligations.PassageKeepsLimits : Prop :=
  (∀ (s : State) (slots : List Slot), ∃ left : Nat → Passage,
    left 0 = { state := s, remaining := s.plant.arbiter.allowance } ∧ (s.substitute slots).2 = (left slots.length).state ∧
    (s.substitute slots).1.length = slots.length ∧
    ∀ (k : Nat) (slot : Slot), slots[k]? = some slot →
      let taken : Slot × Passage := match s.slotUse k with
        | .channel c h =>
          if (s.channel c h).record.kind.isSetpoint then computeSlot s.plant.engines c h slot (left k) else (slot, left k)
        | .unmapped | .report _ => (slot, left k)
      (s.substitute slots).1[k]? = some taken.1 ∧ left (k + 1) = taken.2) ∧
  (∀ (s : State) (slots : List Slot) (k : Nat) (slot : Slot), s.RecordsSound → s.SlotsDistinct → slots[k]? = some slot →
    let after := (s.substitute slots).2
    ∃ out, (s.substitute slots).1[k]? = some out ∧ out.readback = slot.readback ∧ out.nodeFlags = slot.nodeFlags ∧
      match s.slotUse k with
      | .channel c h =>
        let r := (s.channel c h).record
        if r.kind.isSetpoint then
          let v := (after.channel c h).status.carried
          out.setpoint = BitVec.ofNat 16 (valueToWord r v) ∧
            (r.lo ≤ v ∧ v ≤ r.hi ∨ r.kind = .roughValve ∧ v = 0) ∧
            (r.kind = .roughValve → v ≠ 0 → after.plant.arbiter.line = .granted c) ∧
            out.gateFlags.getLsbD 0 = (out.setpoint != slot.setpoint) ∧ out.gateFlags.toNat < 8
        else out = slot
      | .unmapped | .report _ => out = slot) ∧
  ∀ (engines : Vector Engine 4) (c : Chamber) (h : Chan) (slot : Slot) (a : Passage),
    let s := a.state
    let r := (s.channel c h).record
    let e := engines[c]
    let step := s.stepRecord e.step
    let controller := wordToValue r slot.setpoint.toNat
    let base := baseValue s.ctx e r h controller
    let clamped := if base < r.lo then r.lo else if r.hi < base then r.hi else base
    let out := (computeSlot engines c h slot a).1
    let done := (computeSlot engines c h slot a).2
    let v := (done.state.channel c h).status.carried
    let held : Prop := done.state.plant.arbiter.line = .granted c
    let ramped : Prop := e.state = .running ∧ r.owner = .sequence ∧ ∃ sp, step.setpointFor h = some sp ∧ sp.ramp = true
    -- R82
    (e.state = .idle → base = controller) ∧ (e.state = .safe → base = r.safeValue) ∧
    (e.state ≠ .idle → e.state ≠ .safe → r.owner = .controller → base = controller) ∧
    (r.owner = .sequence → e.state = .waiting ∨ e.state = .held ∨ e.state = .done → base = e.outputTable[h]) ∧
    (r.owner = .sequence → e.state = .running →
      (∀ sp, step.setpointFor h = some sp → sp.ramp = true → base = rampValue e step sp s.now) ∧
      ((∀ sp, step.setpointFor h = some sp → sp.ramp = false) → base = e.outputTable[h])) ∧
    -- R86 to R91
    out = { slot with setpoint := BitVec.ofNat 16 (valueToWord r v), gateFlags := out.gateFlags } ∧
    (r.kind = .gasFlow → e.state = .idle →
      v = (allowanceClamp r.weight a.remaining[c] clamped).1 ∧
        done.remaining = a.remaining.set c (allowanceClamp r.weight a.remaining[c] clamped).2.1) ∧
    (r.kind = .roughValve → (held → v = clamped) ∧ (¬held → v = 0)) ∧
    (r.kind ≠ .roughValve → r.kind ≠ .gasFlow ∨ e.state ≠ .idle → v = clamped) ∧
    (r.kind ≠ .gasFlow ∨ e.state ≠ .idle → done.remaining = a.remaining) ∧
    -- R92
    out.gateFlags.toNat < 8 ∧ out.gateFlags.getLsbD 0 = (out.setpoint != slot.setpoint) ∧
    out.gateFlags.getLsbD 1 = (clamped != base) ∧
    (out.gateFlags.getLsbD 2 = true ↔ e.state = .safe ∨ v ≠ clamped ∨
      (e.state = .held ∨ e.state = .waiting ∧ e.hold.isSome = true) ∧ r.owner = .sequence ∧ r.holdBehaviour = .safeValue) ∧
    -- R89, R90
    (r.kind ≠ .roughValve ∨ e.state ≠ .idle → done.state.plant.arbiter = s.plant.arbiter) ∧
    (r.kind = .roughValve → e.state = .idle →
      let kept := s.plant.arbiter
      let claimed : Arbiter :=
        if kept.line = .free then { kept with line := .granted c }
        else if kept.line = .granted c ∨ c ∈ kept.queue then kept
        else { kept with queue := kept.queue ++ [c] }
      let withdrawn : Arbiter := { kept with queue := kept.queue.filter (· ≠ c) }
      let settling : Arbiter := { kept with line := .settling (s.now + kept.settleTime * 1000) }
      let freed : Plant := { s.plant with arbiter := { kept with line := .free } }
      (clamped ≠ 0 → done.state.plant = { s.plant with arbiter := claimed }) ∧
      (clamped = 0 →
        (kept.line ≠ .granted c → done.state.plant = { s.plant with arbiter := withdrawn }) ∧
        (kept.line = .granted c → kept.settleTime ≠ 0 → done.state.plant = { s.plant with arbiter := settling }) ∧
        (kept.line = .granted c → kept.settleTime = 0 →
          done.state.plant = selectLine s.ctx (expireNow s.ctx) freed))) ∧
    -- R85
    (r.kind ≠ .roughValve ∨ e.state ≠ .idle →
      (ramped → done.state.plant = s.plant.setEngine c
        { s.engine c with outputTable := (s.engine c).outputTable.set h v }) ∧
      (¬ramped → done.state.plant = s.plant)) ∧
    -- R16, R107
    (v = (s.channel c h).status.carried → done.state = { s with plant := done.state.plant }) ∧
    (v ≠ (s.channel c h).status.carried → done.state =
      { s.setChannel c h ⟨r, { (s.channel c h).status with carried := v, changed := s.now }⟩ with
        plant := done.state.plant
        guards := s.guards.set c (Vector.ofFn fun g : Fin 16 =>
          let k := (s.guardEntry c g).config
          let source := (s.channel c k.source).record
          if k.kind = .deviation ∧ source.kind = .flowRead ∧ source.pair = some h then
            { s.guardEntry c g with lapse := if k.grace = 0 then none else some (s.now + k.grace * 1000) }
          else s.guardEntry c g) })

/-- The load of a flow is value times weight over 1000, rounded up; the load of a step is the sum of the loads of the chamber's
gas flows at the greater of output table value and target, at most 65535 (R45), and the requested reservation the greater of
allowance and load (R46). The idle allowance clamp of one gas flow: a value that fits passes, another is cut to what does,
nothing is lost from the remaining allowance but the load of the value that passes, and the cut is what FORCED reports (R87). -/
def Obligations.AllowanceClampFits : Prop :=
  (∀ v weight : Nat, v * weight ≤ 1000 * flowLoad v weight ∧ 1000 * flowLoad v weight < v * weight + 1000) ∧
  (∀ (x : Ctx) (c : Chamber) (step : StepRecord) (table : ValueTable),
    let greatest (h : Chan) : Nat := match step.setpointFor h with
      | none => table[h]
      | some e => if table[h] < e.target then e.target else table[h]
    let total := ((List.finRange 16).map fun h =>
      if (x.record c h).kind = .gasFlow then flowLoad (greatest h) (x.record c h).weight else 0).sum
    (total ≤ 65535 → stepLoad x c step table = total) ∧ (65535 < total → stepLoad x c step table = 65535)) ∧
  (∀ (step : StepRecord) (h : Chan),
    ((∀ n : Fin 8, step.entries[n].channel.toNat ≠ h.val) → step.setpointFor h = none) ∧
    ∀ n : Fin 8, step.entries[n].channel.toNat = h.val →
      (∀ m : Fin 8, m < n → step.entries[m].channel.toNat ≠ h.val) →
      ∃ ramp : Bool, step.setpointFor h = some { channel := h, target := step.entries[n].target, ramp := ramp } ∧
        (step.entries[n].ramp = 0#8 → ramp = false) ∧ (step.entries[n].ramp = 1#8 → ramp = true)) ∧
  (∀ (x : Ctx) (c : Chamber) (p : Plant),
    let load := stepLoad x c (x.stepRecord (p.engine c).step) (p.engine c).outputTable
    (load ≤ p.allowance c → requestedReservation x c p = p.allowance c) ∧
    (p.allowance c ≤ load → requestedReservation x c p = load)) ∧
  ∀ weight remaining v : Nat,
    let out := allowanceClamp weight remaining v
    out.1 ≤ v ∧ flowLoad out.1 weight + out.2.1 = remaining ∧
    (out.2.2 = true ↔ remaining < flowLoad v weight) ∧ (out.2.2 = false → out.1 = v) ∧
    (out.2.2 = true → out.1 = remaining * 1000 / weight)

/-- The base value of a channel in a ramped entry of the step that is RUNNING is its ramp value: the start value and the signed
difference to the target times the elapsed time over the ramp time, the quotient truncated toward zero. It lies between start value
and target, never passes the target, and is the target once the ramp time has passed; the product is formed exactly. The step start
time is that of RUNNING entry, moved back by the saved elapsed time for CONTINUE, with the saved start table (R84). -/
def Obligations.RampStaysBetween : Prop :=
  (∀ r : StepRecord, (r.ramp ≠ 0 → r.rampTime = r.ramp * 100) ∧ (r.ramp = 0 → r.rampTime = r.duration * 100)) ∧
  (∀ (x : Ctx) (e : Engine) (k : ChannelRecord) (h : Chan) (controller : Nat) (sp : Setpoint), e.state = .running →
    k.owner = .sequence → (x.stepRecord e.step).setpointFor h = some sp → sp.ramp = true →
      sp.channel = h ∧ baseValue x e k h controller = rampValue e (x.stepRecord e.step) sp x.now) ∧
  (∀ (e : Engine) (now : Nat) (step : StepRecord) (table : ValueTable), (e.runFresh now step table).startTime = now ∧
    ∀ h : HoldRecord, let resumed := e.runResumed now step h table
      resumed.startTable = e.startTable ∧ (h.mode = .continue → resumed.startTime = now - h.elapsed) ∧
        (h.mode = .restart → resumed.startTime = now)) ∧
  ∀ (e : Engine) (r : StepRecord) (sp : Setpoint) (time : Nat), 1 ≤ r.rampTime →
    let v0 := e.startTable[sp.channel]
    let v1 := sp.target
    let elapsed := min (time - e.startTime) r.rampTime
    (v0 ≤ v1 → rampValue e r sp time = v0 + (v1 - v0) * elapsed / r.rampTime ∧
      v0 ≤ rampValue e r sp time ∧ rampValue e r sp time ≤ v1) ∧
    (v1 ≤ v0 → rampValue e r sp time = v0 - (v0 - v1) * elapsed / r.rampTime ∧
      v1 ≤ rampValue e r sp time ∧ rampValue e r sp time ≤ v0) ∧
    (e.startTime + r.rampTime ≤ time → rampValue e r sp time = v1) ∧
    (v0 ≤ 65535 → v1 ≤ 65535 → r.rampTime ≤ 600000000 →
      (max v0 v1 - min v0 v1) * elapsed ≤ 65535 * 600000000 ∧ 65535 * 600000000 < 2 ^ 46)

/-- The report word holds the engine state in bits 15..13, the step index in bits 12..4 and the hold sources in bits 3..0 (R95);
a REPORT slot carries it with NODE_VALID set and NODE_FAULT clear, its other bits and every other slot as received (R94). Slot
number k of the frame that is transmitted is slot k so written. -/
def Obligations.ReportSlotsWritten : Prop :=
  ∀ (s : State) (k : Nat) (slot : Slot) (c : Chamber),
    (s.slotUse k = .report c →
      let e := s.engine c
      let out := reportSlot s k slot
      out.setpoint = slot.setpoint ∧ out.gateFlags = slot.gateFlags ∧
      out.nodeFlags.getLsbD 0 = true ∧ out.nodeFlags.getLsbD 1 = false ∧
      (∀ n, 2 ≤ n → out.nodeFlags.getLsbD n = slot.nodeFlags.getLsbD n) ∧
      (e.step < 512 → out.readback.toNat / 8192 = (match e.state with
          | .idle => 0 | .waiting => 1 | .running => 2 | .held => 3 | .safe => 4 | .done => 5) ∧ out.readback.toNat / 16 % 512 = e.step ∧
        out.readback.getLsbD 0 = e.sources.controller ∧ out.readback.getLsbD 1 = e.sources.guard ∧
        out.readback.getLsbD 2 = e.sources.ring ∧ out.readback.getLsbD 3 = e.sources.engine)) ∧
    ((∀ d, s.slotUse k ≠ .report d) → reportSlot s k slot = slot) ∧
    ∀ slots : List Slot, (reportSlots s 0 slots)[k]? = slots[k]?.map (reportSlot s k)

/-! ### Notices and the cycle tracker -/

/-- An occurrence of a notice: nothing at a disabled slot, the first becomes pending with merge count 1, a later one merges,
saturating at 255, and replaces detail and cycle number (R169); the notice posted next is the pending one of the highest class
at or above the threshold, of the lowest slot among equals (R171). Into a returning mailbox, from entry 0 upward, the queued
responses go oldest first into the EMPTY entries, each leaving the queue (R167), then the notices into those that remain, each
no longer pending with merge count 0 (R171); other entries stay as received. The records they post have the layout of Table 9-1
with the record check formed. -/
def Obligations.NoticesRaisedAndPosted : Prop :=
  (∀ (n : NoticeSlot) (detail cycle : Nat),
    (n.enabled = false → n.occur detail cycle = n) ∧
    (n.enabled = true → n.pending = false →
      n.occur detail cycle = { n with pending := true, merge := 1, detail := detail, cycle := cycle }) ∧
    (n.enabled = true → n.pending = true →
      n.occur detail cycle = { n with merge := min 255 (n.merge + 1), detail := detail, cycle := cycle })) ∧
  (∀ (notices : Vector NoticeSlot 27) (threshold : Nat),
    let eligible (i : NoticeIndex) : Prop := notices[i].pending = true ∧ threshold ≤ notices[i].cls
    (nextNotice notices threshold = none ↔ ∀ i, ¬eligible i) ∧
    ∀ i, nextNotice notices threshold = some i ↔
      eligible i ∧ ∀ j, eligible j → notices[j].cls < notices[i].cls ∨ notices[j].cls = notices[i].cls ∧ i ≤ j) ∧
  (∀ (s : State) (entry : List Byte) (rest : List (List Byte)),
    let kept (post : State → List (List Byte) → List (List Byte) × State) : List (List Byte) × State :=
      (entry :: (post s rest).1, (post s rest).2)
    let empty : Prop := entry.getD 1 0#8 = 0#8
    s.postResponses [] = ([], s) ∧ s.postNotices [] = ([], s) ∧
    (s.responses = [] → s.postResponses (entry :: rest) = (entry :: rest, s)) ∧
    (¬empty → s.postResponses (entry :: rest) = kept State.postResponses) ∧
    (∀ p later, empty → s.responses = p :: later →
      let left : State := { s with responses := later }
      s.postResponses (entry :: rest) = (p.record s.address :: (left.postResponses rest).1, (left.postResponses rest).2)) ∧
    (nextNotice s.plant.notices s.threshold = none → s.postNotices (entry :: rest) = (entry :: rest, s)) ∧
    (¬empty → s.postNotices (entry :: rest) = kept State.postNotices) ∧
    ∀ i, empty → nextNotice s.plant.notices s.threshold = some i →
      let n := s.plant.notices[i]
      let left : State := { s with plant := { s.plant with
        notices := s.plant.notices.set i { n with pending := false, merge := 0 } } }
      s.postNotices (entry :: rest) = (n.record i s.address :: (left.postNotices rest).1, (left.postNotices rest).2)) ∧
  (∀ (p : Response) (address : Byte),
    let fields := [address, p.code, p.tag] ++ be1 (match p.result with
      | .accepted => 0 | .noObject => 1 | .badValue => 2 | .readOnly => 3 | .inUse => 4 | .locked => 5 | .wrongState => 6
      | .notChecked => 7 | .badSequence => 8 | .stillTripped => 9 | .overBudget => 10 | .duplicate => 11) ++
      be2 p.index.toNat ++ [p.word] ++ p.data.toList
    fields.length = 15 ∧ p.record address = fields ++ [crc8 fields]) ∧
  ∀ (n : NoticeSlot) (i : NoticeIndex) (address : Byte),
    let fields := [address, 0x40#8, 0#8] ++ be1 i.val ++ be1 (if i.val < 24 then i.val / 6 else 0xFF) ++ [0#8] ++ be1 n.cls ++
      be2 n.detail ++ be1 n.merge ++ be2 n.cycle ++ [0#8, 0#8, 0#8]
    fields.length = 15 ∧ n.record i address = fields ++ [crc8 fields]

/-- The cycle tracker at a good outbound arrival: SEEKING and LOST go to TRAINING with an empty window, an interval is counted,
the 64th judges the window by its mean against N, and the watch restarts at now + S × P (R147, R148, R149, R151). With it the
RF-permit line of every chamber that is not SAFE rises (R117), RING_UP is raised when the ring was LOST (R151),
TRAINING_REJECTED with the mean of a rejected window, at most 65535, as detail (R148), and nothing else of the part changes. -/
def Obligations.ArrivalTrains : Prop :=
  (∀ s : State,
    let t := s.arrival
    let judged := s.ring.arrive s.now
    let before := s.plant.notices
    t = { s with ring := judged.1, plant := { s.plant with permits := t.plant.permits, notices := t.plant.notices } } ∧
    (∀ c : Chamber, t.plant.permits[c] = true ↔ (s.engine c).state ≠ .safe) ∧
    (∀ i : NoticeIndex, i ≠ ringUpSlot → i ≠ trainingRejectedSlot → t.plant.notices[i] = before[i]) ∧
    (s.ring.state ≠ .lost → t.plant.notices[ringUpSlot] = before[ringUpSlot]) ∧
    (s.ring.state = .lost → t.plant.notices[ringUpSlot] = before[ringUpSlot].occur 0 s.ring.lastCycle) ∧
    (judged.2 = none → t.plant.notices[trainingRejectedSlot] = before[trainingRejectedSlot]) ∧
    ∀ m, judged.2 = some m →
      t.plant.notices[trainingRejectedSlot] = before[trainingRejectedSlot].occur (min m 65535) s.ring.lastCycle) ∧
  ∀ (r : Ring) (now : Nat),
    (r.state = .seeking → r.arrive now = ({ r with
      state := .training, learned := r.nominal, lastArrival := some now, count := 0, sum := 0, rejected := false
      watch := some (now + r.survival * r.nominal) }, none)) ∧
    (r.state = .lost → r.arrive now = ({ r with
      state := .training, lastArrival := some now, count := 0, sum := 0, rejected := false
      watch := some (now + r.survival * r.learned) }, none)) ∧
    (r.state = .training ∨ r.state = .tracking →
      (r.lastArrival = none → r.count < 64 → r.arrive now = ({ r with
        lastArrival := some now, watch := some (now + r.survival * r.learned) }, none)) ∧
      ∀ last, r.lastArrival = some last →
        (r.count + 1 < 64 → r.arrive now = ({ r with
          lastArrival := some now, count := r.count + 1, sum := r.sum + (now - last)
          watch := some (now + r.survival * r.learned) }, none)) ∧
        (r.count + 1 = 64 →
          let m := (r.sum + (now - last)) / 64
          let near : Prop := (m - r.nominal) + (r.nominal - m) ≤ r.nominal / 10
          let judged : Ring := { r with lastArrival := some now, count := 0, sum := 0 }
          (r.state = .training → near → r.arrive now =
            ({ judged with state := .tracking, learned := m, watch := some (now + r.survival * m) }, none)) ∧
          (r.state = .training → ¬near → r.arrive now =
            ({ judged with watch := some (now + r.survival * r.learned) }, some m)) ∧
          (r.state = .tracking → near →
            let p := if r.learned / 100 ≤ (m - r.learned) + (r.learned - m) then m else r.learned
            r.arrive now =
              ({ judged with learned := p, rejected := false, watch := some (now + r.survival * p) }, none)) ∧
          (r.state = .tracking → ¬near → r.arrive now =
            ({ judged with rejected := true, watch := some (now + r.survival * r.learned) },
              if r.rejected then none else some m))))
end

