-- ==== Sys2Proof/Laws/State.lean ====
section
/-! SUPPORT. The small lemmas of the named updates: what each writes reads back as written, and what it leaves reads as before.
All are simp lemmas; no later proof unfolds a record update. -/

namespace Sys2Proof.Machine

/-! ### Plant updates -/

@[simp] theorem Plant.engine_setEngine_self (p : Plant) (c : Chamber) (e : Engine) : (p.setEngine c e).engine c = e := by
  simp [Plant.engine, Plant.setEngine]

theorem Plant.engine_setEngine_ne (p : Plant) {c d : Chamber} (e : Engine) (h : c ≠ d) :
    (p.setEngine c e).engine d = p.engine d := by
  have h' : c.val ≠ d.val := fun hv => h (Fin.ext hv)
  simp [Plant.engine, Plant.setEngine, h']

theorem Plant.setEngine_setEngine (p : Plant) (c : Chamber) (e f : Engine) : (p.setEngine c e).setEngine c f = p.setEngine c f := by
  unfold Plant.setEngine
  rw [Vector.set_set]

@[simp] theorem Plant.engine_setEngine (p : Plant) (c d : Chamber) (e : Engine) :
    (p.setEngine c e).engine d = if c = d then e else p.engine d := by
  by_cases h : c = d
  · subst h; simp
  · simp [h, Plant.engine_setEngine_ne]

@[simp] theorem Plant.setEngine_arbiter (p : Plant) (c : Chamber) (e : Engine) : (p.setEngine c e).arbiter = p.arbiter := rfl
@[simp] theorem Plant.setEngine_notices (p : Plant) (c : Chamber) (e : Engine) : (p.setEngine c e).notices = p.notices := rfl
@[simp] theorem Plant.setEngine_permits (p : Plant) (c : Chamber) (e : Engine) : (p.setEngine c e).permits = p.permits := rfl

@[simp] theorem Plant.setReservation_engines (p : Plant) (c : Chamber) (v : Nat) :
    (p.setReservation c v).engines = p.engines := rfl
@[simp] theorem Plant.setReservation_engine (p : Plant) (c d : Chamber) (v : Nat) :
    (p.setReservation c v).engine d = p.engine d := rfl
@[simp] theorem Plant.setReservation_notices (p : Plant) (c : Chamber) (v : Nat) :
    (p.setReservation c v).notices = p.notices := rfl
@[simp] theorem Plant.setReservation_permits (p : Plant) (c : Chamber) (v : Nat) :
    (p.setReservation c v).permits = p.permits := rfl
@[simp] theorem Plant.setReservation_line (p : Plant) (c : Chamber) (v : Nat) :
    (p.setReservation c v).arbiter.line = p.arbiter.line := rfl
@[simp] theorem Plant.setReservation_settleTime (p : Plant) (c : Chamber) (v : Nat) :
    (p.setReservation c v).arbiter.settleTime = p.arbiter.settleTime := rfl
@[simp] theorem Plant.setReservation_priority (p : Plant) (c : Chamber) (v : Nat) :
    (p.setReservation c v).arbiter.priority = p.arbiter.priority := rfl
@[simp] theorem Plant.setReservation_queue (p : Plant) (c : Chamber) (v : Nat) :
    (p.setReservation c v).arbiter.queue = p.arbiter.queue := rfl
@[simp] theorem Plant.setReservation_budget (p : Plant) (c : Chamber) (v : Nat) :
    (p.setReservation c v).arbiter.budget = p.arbiter.budget := rfl
@[simp] theorem Plant.setReservation_allowances (p : Plant) (c : Chamber) (v : Nat) :
    (p.setReservation c v).arbiter.allowance = p.arbiter.allowance := rfl
@[simp] theorem Plant.setReservation_allowance (p : Plant) (c d : Chamber) (v : Nat) :
    (p.setReservation c v).allowance d = p.allowance d := rfl
@[simp] theorem Plant.setReservation_growth (p : Plant) (c : Chamber) (v : Nat) :
    (p.setReservation c v).arbiter.growth = p.arbiter.growth := rfl
@[simp] theorem Plant.setReservation_holds (p : Plant) (c d : Chamber) (v : Nat) :
    (p.setReservation c v).holds d = p.holds d := rfl

@[simp] theorem Plant.reservation_setReservation (p : Plant) (c d : Chamber) (v : Nat) :
    (p.setReservation c v).reservation d = if c = d then v else p.reservation d := by
  by_cases h : c = d
  · subst h; simp [Plant.reservation, Plant.setReservation]
  · have h' : c.val ≠ d.val := fun hv => h (Fin.ext hv)
    simp [Plant.reservation, Plant.setReservation, h, h']

@[simp] theorem Plant.setEngine_reservation (p : Plant) (c d : Chamber) (e : Engine) :
    (p.setEngine c e).reservation d = p.reservation d := rfl
@[simp] theorem Plant.setEngine_allowance (p : Plant) (c d : Chamber) (e : Engine) :
    (p.setEngine c e).allowance d = p.allowance d := rfl
@[simp] theorem Plant.setEngine_holds (p : Plant) (c d : Chamber) (e : Engine) : (p.setEngine c e).holds d = p.holds d := rfl

@[simp] theorem Plant.setPermit_engines (p : Plant) (c : Chamber) (l : Bool) : (p.setPermit c l).engines = p.engines := rfl
@[simp] theorem Plant.setPermit_engine (p : Plant) (c d : Chamber) (l : Bool) : (p.setPermit c l).engine d = p.engine d := rfl
@[simp] theorem Plant.setPermit_arbiter (p : Plant) (c : Chamber) (l : Bool) : (p.setPermit c l).arbiter = p.arbiter := rfl
@[simp] theorem Plant.setPermit_reservation (p : Plant) (c d : Chamber) (l : Bool) :
    (p.setPermit c l).reservation d = p.reservation d := rfl
@[simp] theorem Plant.setPermit_allowance (p : Plant) (c d : Chamber) (l : Bool) :
    (p.setPermit c l).allowance d = p.allowance d := rfl
@[simp] theorem Plant.setPermit_notices (p : Plant) (c : Chamber) (l : Bool) : (p.setPermit c l).notices = p.notices := rfl

/-- The level of RF-permit line c. -/
abbrev Plant.permit (p : Plant) (c : Chamber) : Bool := p.permits[c]

@[simp] theorem Plant.permit_setPermit (p : Plant) (c d : Chamber) (l : Bool) :
    (p.setPermit c l).permits[d] = if c = d then l else p.permits[d] := by
  by_cases h : c = d
  · subst h; simp [Plant.setPermit]
  · have h' : c.val ≠ d.val := fun hv => h (Fin.ext hv)
    simp [Plant.setPermit, h, h']

@[simp] theorem Plant.setLine_engines (p : Plant) (l : LineState) (q : List Chamber) : (p.setLine l q).engines = p.engines := rfl
@[simp] theorem Plant.setLine_engine (p : Plant) (l : LineState) (q : List Chamber) (c : Chamber) :
    (p.setLine l q).engine c = p.engine c := rfl
@[simp] theorem Plant.setLine_notices (p : Plant) (l : LineState) (q : List Chamber) : (p.setLine l q).notices = p.notices := rfl
@[simp] theorem Plant.setLine_permits (p : Plant) (l : LineState) (q : List Chamber) : (p.setLine l q).permits = p.permits := rfl
@[simp] theorem Plant.setLine_line (p : Plant) (l : LineState) (q : List Chamber) : (p.setLine l q).arbiter.line = l := rfl
@[simp] theorem Plant.setLine_queue (p : Plant) (l : LineState) (q : List Chamber) : (p.setLine l q).arbiter.queue = q := rfl
@[simp] theorem Plant.setLine_growth (p : Plant) (l : LineState) (q : List Chamber) :
    (p.setLine l q).arbiter.growth = p.arbiter.growth := rfl
@[simp] theorem Plant.setLine_settleTime (p : Plant) (l : LineState) (q : List Chamber) :
    (p.setLine l q).arbiter.settleTime = p.arbiter.settleTime := rfl
@[simp] theorem Plant.setLine_priority (p : Plant) (l : LineState) (q : List Chamber) :
    (p.setLine l q).arbiter.priority = p.arbiter.priority := rfl
@[simp] theorem Plant.setLine_budget (p : Plant) (l : LineState) (q : List Chamber) :
    (p.setLine l q).arbiter.budget = p.arbiter.budget := rfl
@[simp] theorem Plant.setLine_reservation (p : Plant) (l : LineState) (q : List Chamber) (c : Chamber) :
    (p.setLine l q).reservation c = p.reservation c := rfl
@[simp] theorem Plant.setLine_allowance (p : Plant) (l : LineState) (q : List Chamber) (c : Chamber) :
    (p.setLine l q).allowance c = p.allowance c := rfl

@[simp] theorem Plant.setGrowth_engines (p : Plant) (g : List GrowthRequest) : (p.setGrowth g).engines = p.engines := rfl
@[simp] theorem Plant.setGrowth_engine (p : Plant) (g : List GrowthRequest) (c : Chamber) :
    (p.setGrowth g).engine c = p.engine c := rfl
@[simp] theorem Plant.setGrowth_notices (p : Plant) (g : List GrowthRequest) : (p.setGrowth g).notices = p.notices := rfl
@[simp] theorem Plant.setGrowth_permits (p : Plant) (g : List GrowthRequest) : (p.setGrowth g).permits = p.permits := rfl
@[simp] theorem Plant.setGrowth_growth (p : Plant) (g : List GrowthRequest) : (p.setGrowth g).arbiter.growth = g := rfl
@[simp] theorem Plant.setGrowth_line (p : Plant) (g : List GrowthRequest) : (p.setGrowth g).arbiter.line = p.arbiter.line := rfl
@[simp] theorem Plant.setGrowth_queue (p : Plant) (g : List GrowthRequest) :
    (p.setGrowth g).arbiter.queue = p.arbiter.queue := rfl
@[simp] theorem Plant.setGrowth_settleTime (p : Plant) (g : List GrowthRequest) :
    (p.setGrowth g).arbiter.settleTime = p.arbiter.settleTime := rfl
@[simp] theorem Plant.setGrowth_priority (p : Plant) (g : List GrowthRequest) :
    (p.setGrowth g).arbiter.priority = p.arbiter.priority := rfl
@[simp] theorem Plant.setGrowth_budget (p : Plant) (g : List GrowthRequest) :
    (p.setGrowth g).arbiter.budget = p.arbiter.budget := rfl
@[simp] theorem Plant.setGrowth_reservation (p : Plant) (g : List GrowthRequest) (c : Chamber) :
    (p.setGrowth g).reservation c = p.reservation c := rfl
@[simp] theorem Plant.setGrowth_allowance (p : Plant) (g : List GrowthRequest) (c : Chamber) :
    (p.setGrowth g).allowance c = p.allowance c := rfl
@[simp] theorem Plant.setGrowth_holds (p : Plant) (g : List GrowthRequest) (c : Chamber) :
    (p.setGrowth g).holds c = p.holds c := rfl

@[simp] theorem Plant.raiseAt_engines (p : Plant) (i : NoticeIndex) (d k : Nat) : (p.raiseAt i d k).engines = p.engines := rfl
@[simp] theorem Plant.raiseAt_arbiter (p : Plant) (i : NoticeIndex) (d k : Nat) : (p.raiseAt i d k).arbiter = p.arbiter := rfl
@[simp] theorem Plant.raiseAt_permits (p : Plant) (i : NoticeIndex) (d k : Nat) : (p.raiseAt i d k).permits = p.permits := rfl
@[simp] theorem Plant.raiseAt_notices (p : Plant) (i j : NoticeIndex) (d k : Nat) :
    (p.raiseAt i d k).notices[j] = if i = j then p.notices[j].occur d k else p.notices[j] := by
  by_cases h : i = j
  · subst h; simp [Plant.raiseAt]
  · have h' : i.val ≠ j.val := fun hv => h (Fin.ext hv)
    simp [Plant.raiseAt, h, h']

@[simp] theorem Plant.notify_engines (x : Ctx) (c : Chamber) (n : ChamberNotice) (d : Nat) (p : Plant) :
    (p.notify x c n d).engines = p.engines := rfl
@[simp] theorem Plant.notify_engine (x : Ctx) (c o : Chamber) (n : ChamberNotice) (d : Nat) (p : Plant) :
    (p.notify x c n d).engine o = p.engine o := rfl
@[simp] theorem Plant.notify_arbiter (x : Ctx) (c : Chamber) (n : ChamberNotice) (d : Nat) (p : Plant) :
    (p.notify x c n d).arbiter = p.arbiter := rfl
@[simp] theorem Plant.notify_permits (x : Ctx) (c : Chamber) (n : ChamberNotice) (d : Nat) (p : Plant) :
    (p.notify x c n d).permits = p.permits := rfl
@[simp] theorem Plant.notify_reservation (x : Ctx) (c o : Chamber) (n : ChamberNotice) (d : Nat) (p : Plant) :
    (p.notify x c n d).reservation o = p.reservation o := rfl
@[simp] theorem Plant.notify_allowance (x : Ctx) (c o : Chamber) (n : ChamberNotice) (d : Nat) (p : Plant) :
    (p.notify x c n d).allowance o = p.allowance o := rfl

/-! ### State updates -/

@[simp] theorem State.engine_eq (s : State) (c : Chamber) : s.plant.engine c = s.engine c := rfl

@[simp] theorem State.onPlant_plant (s : State) (f : Ctx → Plant → Plant) : (s.onPlant f).plant = f s.ctx s.plant := rfl
@[simp] theorem State.onPlant_engine (s : State) (f : Ctx → Plant → Plant) (c : Chamber) :
    (s.onPlant f).engine c = (f s.ctx s.plant).engine c := rfl
@[simp] theorem State.onPlant_now (s : State) (f : Ctx → Plant → Plant) : (s.onPlant f).now = s.now := rfl
@[simp] theorem State.onPlant_inReset (s : State) (f : Ctx → Plant → Plant) : (s.onPlant f).inReset = s.inReset := rfl
@[simp] theorem State.onPlant_slotMap (s : State) (f : Ctx → Plant → Plant) : (s.onPlant f).slotMap = s.slotMap := rfl
@[simp] theorem State.onPlant_channels (s : State) (f : Ctx → Plant → Plant) : (s.onPlant f).channels = s.channels := rfl
@[simp] theorem State.onPlant_levels (s : State) (f : Ctx → Plant → Plant) : (s.onPlant f).levels = s.levels := rfl
@[simp] theorem State.onPlant_pool (s : State) (f : Ctx → Plant → Plant) : (s.onPlant f).pool = s.pool := rfl
@[simp] theorem State.onPlant_guards (s : State) (f : Ctx → Plant → Plant) : (s.onPlant f).guards = s.guards := rfl
@[simp] theorem State.onPlant_inputs (s : State) (f : Ctx → Plant → Plant) : (s.onPlant f).inputs = s.inputs := rfl
@[simp] theorem State.onPlant_ring (s : State) (f : Ctx → Plant → Plant) : (s.onPlant f).ring = s.ring := rfl
@[simp] theorem State.onPlant_address (s : State) (f : Ctx → Plant → Plant) : (s.onPlant f).address = s.address := rfl
@[simp] theorem State.onPlant_lock (s : State) (f : Ctx → Plant → Plant) : (s.onPlant f).lock = s.lock := rfl
@[simp] theorem State.onPlant_responses (s : State) (f : Ctx → Plant → Plant) : (s.onPlant f).responses = s.responses := rfl
@[simp] theorem State.onPlant_threshold (s : State) (f : Ctx → Plant → Plant) : (s.onPlant f).threshold = s.threshold := rfl
@[simp] theorem State.onPlant_txDown (s : State) (f : Ctx → Plant → Plant) : (s.onPlant f).txDown = s.txDown := rfl
@[simp] theorem State.onPlant_txUp (s : State) (f : Ctx → Plant → Plant) : (s.onPlant f).txUp = s.txUp := rfl
@[simp] theorem State.onPlant_pending (s : State) (f : Ctx → Plant → Plant) : (s.onPlant f).pending = s.pending := rfl
@[simp] theorem State.onPlant_ctx (s : State) (f : Ctx → Plant → Plant) : (s.onPlant f).ctx = s.ctx := rfl

@[simp] theorem State.advanceTo_now (s : State) (t : Nat) : (s.advanceTo t).now = max s.now t := rfl
@[simp] theorem State.advanceTo_inReset (s : State) (t : Nat) : (s.advanceTo t).inReset = s.inReset := rfl
@[simp] theorem State.advanceTo_slotMap (s : State) (t : Nat) : (s.advanceTo t).slotMap = s.slotMap := rfl
@[simp] theorem State.advanceTo_channels (s : State) (t : Nat) : (s.advanceTo t).channels = s.channels := rfl
@[simp] theorem State.advanceTo_levels (s : State) (t : Nat) : (s.advanceTo t).levels = s.levels := rfl
@[simp] theorem State.advanceTo_pool (s : State) (t : Nat) : (s.advanceTo t).pool = s.pool := rfl
@[simp] theorem State.advanceTo_plant (s : State) (t : Nat) : (s.advanceTo t).plant = s.plant := rfl
@[simp] theorem State.advanceTo_engine (s : State) (t : Nat) (c : Chamber) : (s.advanceTo t).engine c = s.engine c := rfl
@[simp] theorem State.advanceTo_guards (s : State) (t : Nat) : (s.advanceTo t).guards = s.guards := rfl
@[simp] theorem State.advanceTo_inputs (s : State) (t : Nat) : (s.advanceTo t).inputs = s.inputs := rfl
@[simp] theorem State.advanceTo_ring (s : State) (t : Nat) : (s.advanceTo t).ring = s.ring := rfl
@[simp] theorem State.advanceTo_address (s : State) (t : Nat) : (s.advanceTo t).address = s.address := rfl
@[simp] theorem State.advanceTo_lock (s : State) (t : Nat) : (s.advanceTo t).lock = s.lock := rfl
@[simp] theorem State.advanceTo_responses (s : State) (t : Nat) : (s.advanceTo t).responses = s.responses := rfl
@[simp] theorem State.advanceTo_threshold (s : State) (t : Nat) : (s.advanceTo t).threshold = s.threshold := rfl
@[simp] theorem State.advanceTo_txDown (s : State) (t : Nat) : (s.advanceTo t).txDown = s.txDown := rfl
@[simp] theorem State.advanceTo_txUp (s : State) (t : Nat) : (s.advanceTo t).txUp = s.txUp := rfl
@[simp] theorem State.advanceTo_pending (s : State) (t : Nat) : (s.advanceTo t).pending = s.pending := rfl

@[simp] theorem State.channel_setChannel (s : State) (c d : Chamber) (h k : Chan) (ch : Channel) :
    (s.setChannel c h ch).channel d k = if c = d ∧ h = k then ch else s.channel d k := by
  by_cases hc : c = d
  · subst hc
    by_cases hk : h = k
    · subst hk; simp [State.channel, State.setChannel]
    · have h' : h.val ≠ k.val := fun hv => hk (Fin.ext hv)
      simp [State.channel, State.setChannel, hk, h']
  · have h' : c.val ≠ d.val := fun hv => hc (Fin.ext hv)
    simp [State.channel, State.setChannel, hc, h']

@[simp] theorem State.guardEntry_setGuard (s : State) (c d : Chamber) (g k : GuardIndex) (e : GuardEntry) :
    (s.setGuard c g e).guardEntry d k = if c = d ∧ g = k then e else s.guardEntry d k := by
  by_cases hc : c = d
  · subst hc
    by_cases hk : g = k
    · subst hk; simp [State.guardEntry, State.setGuard]
    · have h' : g.val ≠ k.val := fun hv => hk (Fin.ext hv)
      simp [State.guardEntry, State.setGuard, hk, h']
  · have h' : c.val ≠ d.val := fun hv => hc (Fin.ext hv)
    simp [State.guardEntry, State.setGuard, hc, h']

@[simp] theorem State.input_setInput (s : State) (l m : Line) (i : InputLine) :
    (s.setInput l i).input m = if l = m then i else s.input m := by
  by_cases h : l = m
  · subst h; simp [State.input, State.setInput]
  · have h' : l.val ≠ m.val := fun hv => h (Fin.ext hv)
    simp [State.input, State.setInput, h, h']

@[simp] theorem State.pool_setStep (s : State) (i j : Fin 512) (r : StepRecord) :
    (s.setStep i r).pool[j] = if i = j then r else s.pool[j] := by
  by_cases h : i = j
  · subst h; simp [State.setStep]
  · have h' : i.val ≠ j.val := fun hv => h (Fin.ext hv)
    simp [State.setStep, h, h']

@[simp] theorem State.levels_setLevel (s : State) (c d : Chamber) (t : LevelTable) :
    (s.setLevel c t).levels[d] = if c = d then t else s.levels[d] := by
  by_cases h : c = d
  · subst h; simp [State.setLevel]
  · have h' : c.val ≠ d.val := fun hv => h (Fin.ext hv)
    simp [State.setLevel, h, h']

@[simp] theorem State.slotMap_setSlot (s : State) (i j : Fin 128) (u : SlotUse) :
    (s.setSlot i u).slotMap[j] = if i = j then u else s.slotMap[j] := by
  by_cases h : i = j
  · subst h; simp [State.setSlot]
  · have h' : i.val ≠ j.val := fun hv => h (Fin.ext hv)
    simp [State.setSlot, h, h']

end Sys2Proof.Machine
end

