-- ==== Sys2Proof/Laws/Spares.lean ====
section
/-! SUPPORT. What the events of the OTHER chambers leave of a chamber that stands in neither arbiter queue: its engine, its
reservation, its permit, and whether it holds the line. Said once for each operation of the engines and the arbiter. -/

namespace Sys2Proof.Machine

theorem Plant.Spares.refl {c : Chamber} {p : Plant} (h : p.Out c) : Plant.Spares c p p :=
  ⟨h, rfl, rfl, rfl, Iff.rfl, rfl, rfl, rfl, rfl⟩

theorem Plant.Spares.trans {c : Chamber} {p q r : Plant} (h : Plant.Spares c p q) (k : Plant.Spares c q r) :
    Plant.Spares c p r :=
  ⟨k.out, k.engine.trans h.engine, k.reservation.trans h.reservation, k.permit.trans h.permit, k.line.trans h.line,
    k.allowances.trans h.allowances, k.budget.trans h.budget, k.settleTime.trans h.settleTime, k.priority.trans h.priority⟩

theorem Plant.holds_iff (p : Plant) (c : Chamber) : p.holds c = true ↔ p.arbiter.line = .granted c := by
  cases h : p.arbiter.line <;> simp [Plant.holds, Plant.holder, h]

/-- A selection chooses a chamber of the queue. -/
theorem chooseChamber_mem {pr : Vector Nat 4} {q : List Chamber} {c : Chamber} (h : chooseChamber pr q = some c) :
    c ∈ q := by
  induction q generalizing c with
  | nil => simp [chooseChamber] at h
  | cons a rest ih =>
    unfold chooseChamber at h
    cases hr : chooseChamber pr rest with
    | none => rw [hr] at h; simp at h; simp [h]
    | some d =>
      rw [hr] at h
      simp only at h
      split at h
      · cases h; exact List.mem_cons_of_mem _ (ih hr)
      · cases h; exact List.mem_cons_self

theorem Plant.chosen_mem {p : Plant} {c : Chamber} (h : p.chosen = some c) : c ∈ p.arbiter.queue := chooseChamber_mem h

/-- After the withdrawal of a chamber's own entries it stands in neither queue. -/
theorem out_withdrawBoth (c : Chamber) (p : Plant) : (withdrawBoth c p).Out c := by
  refine ⟨by simp [withdrawBoth, withdrawGrowth, withdrawLine], fun g hg => ?_⟩
  simp [withdrawBoth, withdrawGrowth, withdrawLine] at hg
  exact hg.2

namespace Plant.Spares

variable {c d : Chamber} {x : Ctx} {expire : Expire} {p q : Plant}

theorem allowance (h : Spares c p q) (o : Chamber) : q.allowance o = p.allowance o := by
  simp [Plant.allowance, h.allowances]

theorem holds (h : Spares c p q) : q.holds c = p.holds c := by
  rw [Bool.eq_iff_iff, Plant.holds_iff, Plant.holds_iff, h.line]

/-! ### The updates -/

theorem setEngine (h : Spares c p q) (ne : d ≠ c) (e : Engine) : Spares c p (q.setEngine d e) :=
  ⟨h.out, by simp [ne, h.engine], h.reservation, h.permit, h.line, h.allowances, h.budget, h.settleTime, h.priority⟩

theorem setReservation (h : Spares c p q) (ne : d ≠ c) (v : Nat) : Spares c p (q.setReservation d v) :=
  ⟨h.out, h.engine, by simp [ne, h.reservation], h.permit, h.line, h.allowances, h.budget, h.settleTime, h.priority⟩

theorem setPermit (h : Spares c p q) (ne : d ≠ c) (l : Bool) : Spares c p (q.setPermit d l) :=
  ⟨h.out, h.engine, h.reservation, by rw [Plant.permit_setPermit]; simp [ne, h.permit], h.line, h.allowances, h.budget,
    h.settleTime, h.priority⟩

theorem notify (h : Spares c p q) (o : Chamber) (n : ChamberNotice) (k : Nat) : Spares c p (q.notify x o n k) :=
  ⟨h.out, h.engine, h.reservation, h.permit, h.line, h.allowances, h.budget, h.settleTime, h.priority⟩

theorem setLine (h : Spares c p q) {l : LineState} {w : List Chamber} (hl : l = .granted c ↔ q.arbiter.line = .granted c)
    (hw : c ∉ w) : Spares c p (q.setLine l w) :=
  ⟨⟨hw, h.out.2⟩, h.engine, h.reservation, h.permit, hl.trans h.line, h.allowances, h.budget, h.settleTime, h.priority⟩

theorem setGrowth (h : Spares c p q) {w : List GrowthRequest} (hw : ∀ g ∈ w, g.chamber ≠ c) : Spares c p (q.setGrowth w) :=
  ⟨⟨h.out.1, hw⟩, h.engine, h.reservation, h.permit, h.line, h.allowances, h.budget, h.settleTime, h.priority⟩

/-! ### The arbiter -/

theorem claimLine (h : Spares c p q) (ne : d ≠ c) : Spares c p (claimLine d q) := by
  unfold Machine.claimLine
  split
  · next hl => exact h.setLine (by simp [hl, ne]) h.out.1
  · next o hl => split
                 · exact h
                 · exact h.setLine (by rw [hl]) (by simp [h.out.1, Ne.symm ne])
  · next t hl => split
                 · exact h
                 · exact h.setLine (by rw [hl]) (by simp [h.out.1, Ne.symm ne])

theorem withdrawLine (h : Spares c p q) (d : Chamber) : Spares c p (withdrawLine d q) :=
  h.setLine Iff.rfl (by simp [h.out.1])

theorem withdrawBoth (h : Spares c p q) (d : Chamber) : Spares c p (withdrawBoth d q) :=
  (h.withdrawLine d).setGrowth fun g hg => h.out.2 g (List.mem_of_mem_filter hg)

theorem returnReservation (h : Spares c p q) (ne : d ≠ c) : Spares c p (returnReservation d q) := h.setReservation ne _

/-! ### The engines -/

theorem waitFor (h : Spares c p q) (ne : d ≠ c) (a : Awaited) : Spares c p (waitFor x d a q) := h.setEngine ne _

theorem finishSequence (h : Spares c p q) (ne : d ≠ c) : Spares c p (finishSequence x d q) :=
  (h.setEngine ne _).notify _ _ _

variable (hE : ∀ d q, d ≠ c → Plant.Spares c p q → Plant.Spares c p (expire d q))
include hE

theorem runStep (h : Spares c p q) (ne : d ≠ c) : Spares c p (runStep x expire d q) := by
  unfold Machine.runStep
  dsimp only
  split
  · exact h.setEngine ne _
  · split
    · exact h.setEngine ne _
    · split
      · exact hE _ _ ne (h.setEngine ne _)
      · exact h.setEngine ne _

theorem grantLine (h : Spares c p q) (ne : d ≠ c) (hl : q.arbiter.line ≠ .granted c) :
    Spares c p (grantLine x expire d q) := by
  have h1 := h.setLine (l := .granted d) (w := q.arbiter.queue.filter (· ≠ d)) (by simp [ne, hl]) (by simp [h.out.1])
  unfold Machine.grantLine handLine
  split
  · exact h1.runStep hE ne
  · exact h1

theorem selectLine (h : Spares c p q) (hl : q.arbiter.line ≠ .granted c) : Spares c p (selectLine x expire q) := by
  unfold Machine.selectLine
  split
  · exact h.setLine (by simp [hl]) h.out.1
  · next d hd => exact h.grantLine hE (fun hc => h.out.1 (hc ▸ Plant.chosen_mem hd)) hl

theorem releaseLine (h : Spares c p q) (ne : d ≠ c) : Spares c p (releaseLine x expire d q) := by
  unfold Machine.releaseLine
  split
  · next hd =>
    have hl : q.arbiter.line ≠ .granted c := by rw [(Plant.holds_iff q d).1 hd]; simp [ne]
    split
    · exact (h.setLine (l := .free) (by simp [hl]) h.out.1).selectLine hE (by simp)
    · exact h.setLine (by simp [hl]) h.out.1
  · exact h

theorem endIdleClaim (h : Spares c p q) (ne : d ≠ c) : Spares c p (endIdleClaim x expire d q) := by
  unfold Machine.endIdleClaim
  split
  · exact h.releaseLine hE ne
  · exact h.withdrawLine d

theorem considerLine (h : Spares c p q) (ne : d ≠ c) : Spares c p (considerLine x expire d q) := by
  unfold Machine.considerLine
  dsimp only
  split
  · exact (h.releaseLine hE ne).finishSequence ne
  · split
    · split
      · exact (h.claimLine ne).runStep hE ne
      · exact (h.claimLine ne).waitFor ne _
    · exact (h.releaseLine hE ne).runStep hE ne

theorem giveBack {examine : Plant → Plant} (hx : ∀ q, Plant.Spares c p q → Plant.Spares c p (examine q))
    (h : Spares c p q) (ne : d ≠ c) : Spares c p (giveBack x expire examine d q) :=
  hx _ (((h.withdrawBoth d).releaseLine hE ne).returnReservation ne)

theorem enterHold {examine : Plant → Plant} (hx : ∀ q, Plant.Spares c p q → Plant.Spares c p (examine q))
    (h : Spares c p q) (ne : d ≠ c) (src : HoldSource) (dl : Bool) :
    Spares c p (enterHold x expire examine d src dl q) :=
  (((h.setEngine ne _).giveBack hE hx ne).setEngine ne _).notify _ _ _

theorem examineHead {q' : Plant} (h : Spares c p q) (he : examineHead x expire q = some q') : Spares c p q' := by
  unfold Machine.examineHead at he
  split at he
  · cases he
  · next g rest hg =>
    have ne : g.chamber ≠ c := h.out.2 g (by rw [hg]; exact List.mem_cons_self)
    have h2 := (h.setReservation ne g.requested).setGrowth (w := rest)
      fun r hr => h.out.2 r (by rw [hg]; exact List.mem_cons_of_mem _ hr)
    split at he
    · dsimp only at he
      split at he <;> cases he
      · exact h2.considerLine hE ne
      · exact h2
    · split at he
      · cases he
        exact (h.enterHold (x := x) hE (examine := id) (fun _ hp => hp) ne .engine false).notify _ _ _
      · cases he

theorem examineHeads (n : Nat) (h : Spares c p q) : Spares c p (examineHeads x expire n q) := by
  induction n generalizing q with
  | zero => exact h
  | succ n ih =>
    unfold Machine.examineHeads
    split
    · exact h
    · next q' he => exact ih (h.examineHead hE he)

theorem examineGrowth (h : Spares c p q) : Spares c p (examineGrowth x expire q) := h.examineHeads hE _

theorem addSource (h : Spares c p q) (ne : d ≠ c) (src : HoldSource) (dl : Bool) :
    Spares c p (addSource x expire d src dl q) := by
  unfold Machine.addSource
  dsimp only
  split
  · exact h.enterHold hE (fun _ hp => hp.examineGrowth hE) ne src dl
  · exact h.enterHold hE (fun _ hp => hp.examineGrowth hE) ne src dl
  · exact h.setEngine ne _
  all_goals exact h

theorem stepBoundary (h : Spares c p q) (ne : d ≠ c) : Spares c p (stepBoundary x expire d q) := by
  unfold Machine.stepBoundary
  dsimp only
  split
  · exact ((h.setEngine ne _).enterHold (x := x) hE (fun _ hp => hp.examineGrowth hE) ne .engine false).notify _ _ _
  · split
    · have h1 := h.setReservation ne (requestedReservation x d q)
      split
      · exact (h1.examineGrowth hE).considerLine hE ne
      · exact h1.considerLine hE ne
    · have h1 := (h.releaseLine (x := x) hE ne).waitFor (x := x) ne .growth
      refine (h1.setGrowth fun r hr => ?_).examineGrowth hE
      rcases List.mem_append.1 hr with hr | hr
      · exact h1.out.2 r hr
      · rw [List.mem_singleton.1 hr]; exact ne

theorem endStep (h : Spares c p q) (ne : d ≠ c) : Spares c p (endStep x expire d q) :=
  (h.setEngine ne _).stepBoundary hE ne

theorem enterSafe (h : Spares c p q) (ne : d ≠ c) : Spares c p (enterSafe x expire d q) := by
  have h1 := h.setEngine ne { q.engine d with timer := none, counter := 0, awaited := .nothing }
  have h2 := h1.giveBack (x := x) hE (fun _ hp => hp.examineGrowth (x := x) hE) ne
  exact ((h2.setEngine ne _).setPermit ne false).notify _ _ _

theorem dwellEnds (h : Spares c p q) (ne : d ≠ c) : Spares c p (dwellEnds x expire d q) := by
  unfold Machine.dwellEnds
  dsimp only
  split
  · split
    · have h1 := h.notify (x := x) d .stepTimeout (q.engine d).step
      split
      · exact h1.endStep hE ne
      · exact h1.addSource hE ne _ _
      · exact h1.enterSafe hE ne
      · exact h1.setEngine ne _
    · exact h.endStep hE ne
  · exact h

theorem leaveHold (h : Spares c p q) (ne : d ≠ c) : Spares c p (leaveHold x expire d q) := by
  unfold Machine.leaveHold
  dsimp only
  split
  · exact h.stepBoundary hE ne
  · exact (h.setEngine ne _).stepBoundary hE ne

end Plant.Spares

/-- The dwell expiries of one event spare every chamber but the one they begin with. -/
theorem spares_expireWithin {c : Chamber} {x : Ctx} {p : Plant} (n : Nat) (d : Chamber) (q : Plant) (ne : d ≠ c)
    (h : Plant.Spares c p q) : Plant.Spares c p (expireWithin x n d q) := by
  induction n generalizing d q with
  | zero => exact h
  | succ n ih => exact h.dwellEnds (fun d q ne h => ih d q ne h) ne

theorem spares_expireNow {c : Chamber} {x : Ctx} {p : Plant} (d : Chamber) (q : Plant) (ne : d ≠ c)
    (h : Plant.Spares c p q) : Plant.Spares c p (expireNow x d q) := spares_expireWithin 4 d q ne h

end Sys2Proof.Machine
end

