-- ==== Sys2Proof/Laws/Sound.lean ====
section
/-! SUPPORT. Every operation of the engines and the arbiter keeps the promises of `Plant.Sound`. While an event is under way the
chamber it is about stands in neither queue and its own engine, line and permit are in the making: `SoundBut F` is the promise
for all chambers but those of F. -/

namespace Sys2Proof.Machine

/-- The promises for all chambers but those of F, which stand in neither queue; the chambers of I are IDLE. -/
structure Plant.SoundBut (F I : Chamber → Prop) (up : Bool) (p : Plant) : Prop where
  out : ∀ c, F c → p.Out c
  budget : p.WithinBudget
  growth : p.GrowthWaits
  queue : p.QueueWaits
  holder : ∀ c, ¬F c → p.arbiter.line = .granted c → (p.engine c).state = .running ∨ (p.engine c).state = .idle
  cells : ∀ c, ¬F c → (p.engine c).Consistent
  permits : ∀ c : Chamber, ¬F c → p.permits[c] = permitLevel up (p.engine c).state
  notices : p.NoticesCounted
  idle : ∀ c, I c → ¬F c ∧ (p.engine c).state = .idle
  settled : ∀ c, ¬F c → (p.engine c).state = .idle ∨ (p.engine c).state = .held ∨ (p.engine c).state = .safe →
    p.reservation c = p.allowance c

/-- The set with a chamber added. -/
def withChamber (d : Chamber) (F : Chamber → Prop) : Chamber → Prop := fun c => c = d ∨ F c

/-- No chamber. -/
def noChamber : Chamber → Prop := fun _ => False

theorem Plant.soundBut_none {up : Bool} {p : Plant} : p.SoundBut noChamber noChamber up ↔ p.Sound up :=
  ⟨fun h => ⟨h.budget, h.growth, h.queue, fun c => h.holder c id, fun c => h.cells c id, fun c => h.permits c id,
      h.notices, fun c => h.settled c id⟩, fun h => ⟨fun _ hc => hc.elim, h.budget, h.growth, h.queue, fun c _ => h.holder c, fun c _ => h.cells c,
      fun c _ => h.permits c, h.notices, fun _ hc => hc.elim,
      fun c _ => h.settled c⟩⟩

/-- A chamber whose step boundary can be performed: it holds no source, its timer is stopped, its range is recorded, and its
permit is that of a chamber that is not SAFE. -/
structure Plant.Ready (up : Bool) (d : Chamber) (p : Plant) : Prop where
  sources : (p.engine d).sources.isEmpty = true
  timer : (p.engine d).timer = none
  range : (p.engine d).range.isSome = true
  permit : p.permits[d] = up

theorem Plant.Spares.ready {up : Bool} {d : Chamber} {p q : Plant} (h : Plant.Spares d p q) (k : p.Ready up d) :
    q.Ready up d :=
  ⟨by rw [h.engine]; exact k.sources, by rw [h.engine]; exact k.timer, by rw [h.engine]; exact k.range,
    by rw [h.permit]; exact k.permit⟩

theorem HoldSources.insert_ne_empty (h : HoldSources) (s : HoldSource) : (h.insert s).isEmpty = false := by
  cases s <;> simp [HoldSources.insert, HoldSources.isEmpty]

theorem permitLevel_of_ne_safe (up : Bool) {e : EngineState} (h : e ≠ .safe) : permitLevel up e = up := by
  simp [permitLevel, h]

@[simp] theorem permitLevel_idle (up : Bool) : permitLevel up .idle = up := permitLevel_of_ne_safe up (by simp)
@[simp] theorem permitLevel_waiting (up : Bool) : permitLevel up .waiting = up := permitLevel_of_ne_safe up (by simp)
@[simp] theorem permitLevel_running (up : Bool) : permitLevel up .running = up := permitLevel_of_ne_safe up (by simp)
@[simp] theorem permitLevel_held (up : Bool) : permitLevel up .held = up := permitLevel_of_ne_safe up (by simp)
@[simp] theorem permitLevel_done (up : Bool) : permitLevel up .done = up := permitLevel_of_ne_safe up (by simp)
@[simp] theorem permitLevel_safe (up : Bool) : permitLevel up .safe = false := by simp [permitLevel]

theorem Plant.NoticesCounted.raiseAt {p : Plant} (h : p.NoticesCounted) (i : NoticeIndex) (detail cycle : Nat) :
    (p.raiseAt i detail cycle).NoticesCounted := by
  intro j
  have hj := h j
  rw [Plant.raiseAt_notices]
  split
  · next hij =>
    subst hij
    unfold NoticeSlot.occur
    split
    · exact hj
    · split
      · next hp =>
        rw [if_pos hp] at hj
        exact ⟨hj.1, by dsimp only; omega⟩
      · simp only [if_true]; omega
  · exact hj

/-! ### The sum of the reservations -/

theorem Plant.reserved_eq (p : Plant) (d : Chamber) : p.reserved = p.reservation d + otherReservations p d := by
  fin_cases d <;> simp [Plant.reserved, otherReservations, others, chambers] <;> omega

theorem otherReservations_setReservation (p : Plant) (d : Chamber) (v : Nat) :
    otherReservations (p.setReservation d v) d = otherReservations p d := by
  fin_cases d <;> simp [otherReservations, others, chambers]

theorem Plant.reserved_setReservation (p : Plant) (d : Chamber) (v : Nat) :
    (p.setReservation d v).reserved = v + otherReservations p d := by
  rw [Plant.reserved_eq _ d, otherReservations_setReservation]; simp

theorem Plant.WithinBudget.setReservation {p : Plant} (h : p.WithinBudget) {d : Chamber} {v : Nat}
    (ha : p.allowance d ≤ v) (hb : v + otherReservations p d ≤ p.arbiter.budget) :
    (p.setReservation d v).WithinBudget := by
  refine ⟨fun c => ?_, by rw [Plant.reserved_setReservation]; exact hb⟩
  rw [Plant.reservation_setReservation, Plant.setReservation_allowance]
  split
  · next hc => exact hc ▸ ha
  · exact h.1 c

theorem Plant.WithinBudget.lower {p : Plant} (h : p.WithinBudget) {d : Chamber} {v : Nat}
    (ha : p.allowance d ≤ v) (hv : v ≤ p.reservation d) : (p.setReservation d v).WithinBudget := by
  have h2 := h.2
  rw [Plant.reserved_eq p d] at h2
  exact h.setReservation ha (by omega)

/-! ### A selection on an empty queue -/

theorem chooseChamber_none {pr : Vector Nat 4} {q : List Chamber} (h : chooseChamber pr q = none) : q = [] := by
  cases q with
  | nil => rfl
  | cons a rest =>
    unfold chooseChamber at h
    split at h
    · cases h
    · split at h <;> cases h

/-- The release of chamber d's own line leaves chamber d as the release of the line alone would. -/
theorem releaseLine_self {x : Ctx} {expire : Expire} {d : Chamber} {p : Plant} (ho : p.Out d)
    (hS : ∀ {r : Plant} e q, e ≠ d → Plant.Spares d r q → Plant.Spares d r (expire e q)) :
    ∃ l, l ≠ .granted d ∧ Plant.Spares d (p.setLine l p.arbiter.queue) (releaseLine x expire d p) := by
  unfold releaseLine
  split
  · split
    · exact ⟨.free, by simp, (Plant.Spares.refl (p := p.setLine .free p.arbiter.queue) ho).selectLine hS (by simp)⟩
    · exact ⟨_, by simp, .refl (p := p.setLine _ p.arbiter.queue) ho⟩
  · next h =>
    exact ⟨p.arbiter.line, fun hl => h ((Plant.holds_iff p d).2 hl), .refl (p := p) ho⟩

/-- What chamber d is left with when it has given back what it held. -/
structure Plant.GaveBack (d : Chamber) (p q : Plant) : Prop where
  out : q.Out d
  engine : q.engine d = p.engine d
  reservation : q.reservation d = p.allowance d
  permit : q.permits[d] = p.permits[d]
  line : q.arbiter.line ≠ .granted d
  allowances : q.arbiter.allowance = p.arbiter.allowance

theorem Plant.GaveBack.settled {d : Chamber} {p q : Plant} (h : Plant.GaveBack d p q) : q.reservation d = q.allowance d := by
  rw [h.reservation, Plant.allowance, Plant.allowance, h.allowances]

theorem gaveBack {x : Ctx} {expire : Expire} {examine : Plant → Plant} {d : Chamber} (p : Plant)
    (hS : ∀ {r : Plant} e q, e ≠ d → Plant.Spares d r q → Plant.Spares d r (expire e q))
    (hx : ∀ {r q : Plant}, Plant.Spares d r q → Plant.Spares d r (examine q)) :
    Plant.GaveBack d p (giveBack x expire examine d p) := by
  obtain ⟨l, hl, hs⟩ := releaseLine_self (x := x) (out_withdrawBoth d p) hS
  have h2 := hx (Plant.Spares.refl (p := returnReservation d (releaseLine x expire d (withdrawBoth d p))) hs.out)
  refine ⟨h2.out, h2.engine.trans hs.engine, h2.reservation.trans ?_, h2.permit.trans hs.permit,
    fun k => hl (hs.line.1 (h2.line.1 k)), h2.allowances.trans hs.allowances⟩
  rw [returnReservation, Plant.reservation_setReservation, if_pos rfl]
  exact hs.allowance d

namespace Plant.SoundBut

variable {G I : Chamber → Prop} {up : Bool} {p : Plant} {x : Ctx} {expire : Expire} {d : Chamber}

/-! ### The updates -/

theorem notify (h : p.SoundBut G I up) (o : Chamber) (n : ChamberNotice) (k : Nat) : (p.notify x o n k).SoundBut G I up :=
  ⟨h.out, h.budget, h.growth, h.queue, h.holder, h.cells, h.permits, h.notices.raiseAt _ _ _, h.idle,
    h.settled⟩

theorem setLine (h : p.SoundBut G I up) {l : LineState} {w : List Chamber} (hout : ∀ c, G c → c ∉ w)
    (hn : w.Nodup) (hw : ∀ c ∈ w, ((p.engine c).state = .waiting ∧ (p.engine c).awaited = .line) ∨ (p.engine c).state = .idle)
    (hf : l = .free → w = [])
    (hl : ∀ c, ¬G c → l = .granted c → (p.engine c).state = .running ∨ (p.engine c).state = .idle)
    (hh : ∀ c, l = .granted c → c ∉ w) :
    (p.setLine l w).SoundBut G I up :=
  ⟨fun c hc => ⟨hout c hc, (h.out c hc).2⟩, h.budget, h.growth, ⟨hn, hw, hf, hh⟩, hl, h.cells, h.permits,
    h.notices, h.idle, h.settled⟩

theorem setGrowth (h : p.SoundBut G I up) {w : List GrowthRequest} (hw : w.Sublist p.arbiter.growth) :
    (p.setGrowth w).SoundBut G I up :=
  ⟨fun c hc => ⟨(h.out c hc).1, fun g hg => (h.out c hc).2 g (hw.subset hg)⟩, h.budget,
    ⟨h.growth.1.sublist (hw.map _), fun g hg => h.growth.2 g (hw.subset hg)⟩, h.queue, h.holder, h.cells, h.permits,
    h.notices, h.idle, h.settled⟩

/-- The engine of a chamber in the making replaced. -/
theorem setEngine (h : p.SoundBut (withChamber d G) I up) (e : Engine) : (p.setEngine d e).SoundBut (withChamber d G) I up := by
  have ho := h.out d (.inl rfl)
  refine ⟨h.out, h.budget, ⟨h.growth.1, fun g hg => ?_⟩, ⟨h.queue.1, fun c hc => ?_, h.queue.2.2⟩, fun c hc hl => ?_,
    fun c hc => ?_, fun c hc => ?_, h.notices, fun c hc => ⟨(h.idle c hc).1, ?_⟩, fun c hc => ?_⟩
  · have : d ≠ g.chamber := Ne.symm (ho.2 g hg)
    simpa [this] using h.growth.2 g hg
  · have : d ≠ c := fun hd => ho.1 (hd ▸ hc)
    simpa [this] using h.queue.2.1 c hc
  · have : d ≠ c := fun hd => hc (.inl hd.symm)
    simpa [this] using h.holder c hc hl
  · have : d ≠ c := fun hd => hc (.inl hd.symm)
    simpa [this] using h.cells c hc
  · have : d ≠ c := fun hd => hc (.inl hd.symm)
    simpa [this] using h.permits c hc
  · have : d ≠ c := fun hd => (h.idle c hc).1 (.inl hd.symm)
    simpa [this] using (h.idle c hc).2
  · have : d ≠ c := fun hd => hc (.inl hd.symm)
    simpa [this] using h.settled c hc

theorem setPermit (h : p.SoundBut (withChamber d G) I up) (l : Bool) : (p.setPermit d l).SoundBut (withChamber d G) I up := by
  refine ⟨h.out, h.budget, h.growth, h.queue, h.holder, h.cells, fun c hc => ?_, h.notices, h.idle, h.settled⟩
  have : d ≠ c := fun hd => hc (.inl hd.symm)
  rw [Plant.permit_setPermit]
  simpa [this] using h.permits c hc

theorem lower (h : p.SoundBut G I up) {v : Nat} (hin : G d) (hd : ∀ g ∈ p.arbiter.growth, g.chamber ≠ d) (ha : p.allowance d ≤ v)
    (hv : v ≤ p.reservation d) : (p.setReservation d v).SoundBut G I up := by
  refine ⟨h.out, h.budget.lower ha hv, ⟨h.growth.1, fun g hg => ?_⟩, h.queue, h.holder, h.cells, h.permits,
    h.notices, h.idle, fun c hc => ?_⟩
  · have : d ≠ g.chamber := Ne.symm (hd g hg)
    simpa [this] using h.growth.2 g hg
  · have : d ≠ c := fun hdc => hc (hdc ▸ hin)
    simpa [this] using h.settled c hc

theorem returnReservation (h : p.SoundBut G I up) (hin : G d) (hd : ∀ g ∈ p.arbiter.growth, g.chamber ≠ d) :
    (returnReservation d p).SoundBut G I up := h.lower hin hd le_rfl (h.budget.1 d)

/-- A chamber in the making takes its place again with an engine whose state, permit and hold on the line agree. -/
theorem land (h : p.SoundBut (withChamber d G) I up) {e : Engine} (he : e.Consistent)
    (hp : p.permits[d] = permitLevel up e.state)
    (hl : p.arbiter.line = .granted d → e.state = .running ∨ e.state = .idle)
    (hv : e.state = .idle ∨ e.state = .held ∨ e.state = .safe → p.reservation d = p.allowance d) :
    (p.setEngine d e).SoundBut G I up := by
  have k := h.setEngine e
  refine ⟨fun c hc => h.out c (.inr hc), k.budget, k.growth, k.queue, fun c hc hc' => ?_, fun c hc => ?_, fun c hc => ?_,
    k.notices, fun c hc => ⟨fun hg => (k.idle c hc).1 (.inr hg), (k.idle c hc).2⟩, fun c hc hc' => ?_⟩
  all_goals by_cases hd : c = d
  · subst hd; simpa using hl hc'
  · exact k.holder c (fun hf => hf.elim hd hc) hc'
  · subst hd; simpa using he
  · exact k.cells c (fun hf => hf.elim hd hc)
  · subst hd; simpa using hp
  · exact k.permits c (fun hf => hf.elim hd hc)
  · subst hd; exact hv (by simpa using hc')
  · exact k.settled c (fun hf => hf.elim hd hc) hc'

/-- A chamber in neither queue is taken into the making. -/
theorem lift (h : p.SoundBut G I up) (ho : p.Out d) (hi : ¬I d) : p.SoundBut (withChamber d G) I up :=
  ⟨fun c hc => hc.elim (fun hd => hd ▸ ho) (h.out c), h.budget, h.growth, h.queue,
    fun c hc => h.holder c fun hg => hc (.inr hg), fun c hc => h.cells c fun hg => hc (.inr hg),
    fun c hc => h.permits c fun hg => hc (.inr hg), h.notices,
    fun c hc => ⟨fun hg => hg.elim (fun hd => hi (hd ▸ hc)) (h.idle c hc).1, (h.idle c hc).2⟩,
    fun c hc => h.settled c fun hg => hc (.inr hg)⟩

/-- A chamber whose engine is not IDLE is none of those that stay so. -/
theorem not_idle (h : p.SoundBut G I up) (hs : (p.engine d).state ≠ .idle) : ¬I d := fun hd => hs (h.idle d hd).2

/-- A chamber that is not in the making and neither WAITING nor IDLE stands in neither queue. -/
theorem out_of_state (h : p.SoundBut G I up) (hs : (p.engine d).state ≠ .waiting) (hi : (p.engine d).state ≠ .idle) :
    p.Out d := by
  refine ⟨fun hq => ?_, fun g hg hd => ?_⟩
  · rcases h.queue.2.1 d hq with hw | hw
    · exact hs hw.1
    · exact hi hw
  · exact hs (hd ▸ (h.growth.2 g hg).1)

/-- A chamber taken into the making with its queue entries withdrawn. -/
theorem withdraw (h : p.SoundBut G I up) (hi : ¬I d) (e : Engine) :
    (withdrawBoth d (p.setEngine d e)).SoundBut (withChamber d G) I up := by
  have ho := out_withdrawBoth d (p.setEngine d e)
  have hqs : ∀ c ∈ (withdrawBoth d (p.setEngine d e)).arbiter.queue, c ∈ p.arbiter.queue ∧ c ≠ d := by
    intro c hc; simpa [withdrawBoth, withdrawGrowth, withdrawLine] using hc
  have hgs : ∀ g ∈ (withdrawBoth d (p.setEngine d e)).arbiter.growth, g ∈ p.arbiter.growth ∧ g.chamber ≠ d := by
    intro g hg; simpa [withdrawBoth, withdrawGrowth, withdrawLine] using hg
  refine ⟨fun c hc => ?_, h.budget, ⟨?_, fun g hg => ?_⟩, ⟨?_, fun c hc => ?_, fun hf => ?_, fun c hc hq => ?_⟩,
    fun c hc hl => ?_, fun c hc => ?_, fun c hc => ?_, h.notices, fun c hc => ?_, fun c hc => ?_⟩
  · rcases hc with hd | hc
    · exact hd ▸ ho
    · exact ⟨fun hq => (h.out c hc).1 (hqs c hq).1, fun g hg => (h.out c hc).2 g (hgs g hg).1⟩
  · exact h.growth.1.sublist (List.filter_sublist.map _)
  · have hd : d ≠ g.chamber := Ne.symm (hgs g hg).2
    simpa [withdrawBoth, withdrawGrowth, withdrawLine, hd] using h.growth.2 g (hgs g hg).1
  · exact h.queue.1.sublist List.filter_sublist
  · have hd : d ≠ c := Ne.symm (hqs c hc).2
    simpa [withdrawBoth, withdrawGrowth, withdrawLine, hd] using h.queue.2.1 c (hqs c hc).1
  · have hq := h.queue.2.2.1 hf
    simp [withdrawBoth, withdrawGrowth, withdrawLine, hq]
  · exact h.queue.2.2.2 c hc (hqs c hq).1
  · have hd : d ≠ c := fun hd => hc (.inl hd.symm)
    simpa [withdrawBoth, withdrawGrowth, withdrawLine, hd] using h.holder c (fun hg => hc (.inr hg)) hl
  · have hd : d ≠ c := fun hd => hc (.inl hd.symm)
    simpa [withdrawBoth, withdrawGrowth, withdrawLine, hd] using h.cells c (fun hg => hc (.inr hg))
  · have hd : d ≠ c := fun hd => hc (.inl hd.symm)
    simpa [withdrawBoth, withdrawGrowth, withdrawLine, hd] using h.permits c (fun hg => hc (.inr hg))
  · have hd : d ≠ c := fun hd => hi (hd ▸ hc)
    refine ⟨fun hg => hg.elim (fun k => hd k.symm) (h.idle c hc).1, ?_⟩
    simpa [withdrawBoth, withdrawGrowth, withdrawLine, hd] using (h.idle c hc).2
  · have hd : d ≠ c := fun hd => hc (.inl hd.symm)
    simpa [withdrawBoth, withdrawGrowth, withdrawLine, hd] using h.settled c (fun hg => hc (.inr hg))

theorem collapse (h : p.SoundBut (withChamber d (withChamber d G)) I up) : p.SoundBut (withChamber d G) I up := by
  have : withChamber d (withChamber d G) = withChamber d G := by
    funext c; simp only [withChamber, eq_iff_iff]; tauto
  rwa [this] at h

theorem withdrawLine (h : p.SoundBut G I up) (d : Chamber) : (withdrawLine d p).SoundBut G I up :=
  h.setLine (fun c hc hq => (h.out c hc).1 (List.mem_of_mem_filter hq)) (h.queue.1.sublist List.filter_sublist)
    (fun c hc => h.queue.2.1 c (List.mem_of_mem_filter hc)) (fun hf => by simp [h.queue.2.2.1 hf]) h.holder
    fun c hc hq => h.queue.2.2.2 c hc (List.mem_of_mem_filter hq)

end Plant.SoundBut

/-! ### The engines -/

/-- What the operations need of the treatment of an expiry. -/
structure Expire.Keeps (up : Bool) (expire : Expire) : Prop where
  spares : ∀ {c p} d q, d ≠ c → Plant.Spares c p q → Plant.Spares c p (expire d q)
  sound : ∀ {G I : Chamber → Prop} d p, ¬G d → p.SoundBut G I up → (expire d p).SoundBut G I up

namespace Plant.SoundBut

variable {G I : Chamber → Prop} {up : Bool} {p : Plant} {x : Ctx} {expire : Expire} {d : Chamber}

theorem finishSequence (h : p.SoundBut (withChamber d G) I up) (hr : p.Ready up d) (hl : p.arbiter.line ≠ .granted d) :
    (finishSequence x d p).SoundBut G I up := by
  refine (h.land ⟨?_, ?_, ?_, ?_, ?_, ?_⟩ ?_ (fun k => absurd k hl) fun k => by simp at k).notify _ _ _
  all_goals simp [hr.sources, hr.permit]

variable (hE : expire.Keeps up)
include hE

theorem runStep (h : p.SoundBut (withChamber d G) I up) (hg : ¬G d) (hr : p.Ready up d) :
    (runStep x expire d p).SoundBut G I up := by
  have key : ∀ e : Engine, e.state = .running → e.awaited = .nothing → e.hold = none →
      e.sources = (p.engine d).sources → e.range = (p.engine d).range → (p.setEngine d e).SoundBut G I up := by
    intro e h1 h2 h3 h4 h5
    refine h.land ⟨?_, ?_, ?_, ?_, ?_, ?_⟩ ?_ (fun _ => .inl h1) fun k => by simp [h1] at k
    all_goals simp [h1, h2, h3, h4, h5, hr.sources, hr.range, hr.permit]
  unfold Machine.runStep
  dsimp only
  split
  · exact key _ rfl rfl rfl rfl rfl
  · split
    · exact key _ rfl rfl rfl rfl rfl
    · have k := fun t => key ((p.engine d).runResumed x.now (x.stepRecord (p.engine d).step) t (resumeValues x t)) rfl rfl
        rfl rfl rfl
      split
      · exact hE.sound _ _ hg (k _)
      · exact k _

theorem grantLine (h : p.SoundBut G I up) (hq : d ∈ p.arbiter.queue) : (grantLine x expire d p).SoundBut G I up := by
  have hg : ¬G d := fun hg => (h.out d hg).1 hq
  have hd := h.queue.2.1 d hq
  have hsub : (p.arbiter.queue.filter (· ≠ d)).Sublist p.arbiter.queue := List.filter_sublist
  unfold Machine.grantLine handLine
  split
  · next hw =>
    have hw : (p.engine d).state = .waiting ∧ (p.engine d).awaited = .line := hw
    have hc := h.cells d hg
    have hi : ¬I d := h.not_idle (by simp [hw.1])
    have ho : (Plant.setLine p (.granted d) (p.arbiter.queue.filter (· ≠ d))).Out d := by
      refine ⟨by simp, fun g hg' hd' => ?_⟩
      have := (h.growth.2 g hg').2.1
      rw [hd', hw.2] at this; cases this
    have hs : (p.setLine (.granted d) (p.arbiter.queue.filter (· ≠ d))).SoundBut (withChamber d G) I up := by
      refine ⟨fun c hc => hc.elim (fun hd => hd ▸ ho) fun hc => ⟨fun hq => (h.out c hc).1 (hsub.subset hq), (h.out c hc).2⟩,
        h.budget, h.growth, ⟨h.queue.1.sublist hsub, fun c hc => h.queue.2.1 c (hsub.subset hc), (fun hf => by cases hf),
          (fun c hl hq => by cases hl; simp at hq)⟩,
        fun c hc hl => ?_, fun c hc => h.cells c fun hg => hc (.inr hg), fun c hc => h.permits c fun hg => hc (.inr hg),
        h.notices, fun c hc => ⟨fun hg => hg.elim (fun hd => hi (hd ▸ hc)) (h.idle c hc).1, (h.idle c hc).2⟩,
        fun c hc => h.settled c fun hg => hc (.inr hg)⟩
      simp at hl
      exact absurd (.inl hl.symm) hc
    refine hs.runStep hE hg ⟨hc.sources.2 (by simp [hw.1]), ?_, hc.range.2 (.inl hw.1), ?_⟩
    · cases ht : (p.engine d).timer with
      | none => exact ht
      | some t => have := hc.timer (by simp [ht]); rw [hw.1] at this; cases this
    · have := h.permits d hg
      rw [hw.1, permitLevel_waiting] at this
      exact this
  · next hw =>
    have hi : (p.engine d).state = .idle := hd.resolve_left hw
    refine h.setLine (fun c hc hq => (h.out c hc).1 (hsub.subset hq)) (h.queue.1.sublist hsub)
      (fun c hc => h.queue.2.1 c (hsub.subset hc)) (fun hf => by cases hf) (fun c _ hl => by cases hl; exact .inr hi)
      fun c hl hq => by cases hl; simp at hq

/-- A selection made on a line given up. -/
theorem selectFreed (h : p.SoundBut G I up) : (selectLine x expire (p.setLine .free p.arbiter.queue)).SoundBut G I up := by
  unfold Machine.selectLine
  split
  · next hn =>
    have hq : p.arbiter.queue = [] := chooseChamber_none hn
    exact h.setLine (fun c hc => (h.out c hc).1) h.queue.1 h.queue.2.1 (fun _ => hq) (fun _ _ hl => by cases hl)
      (fun _ hl => by cases hl)
  · next c hc =>
    have : Machine.grantLine x expire c (p.setLine .free p.arbiter.queue) = Machine.grantLine x expire c p := rfl
    rw [this]
    exact h.grantLine hE (Plant.chosen_mem (p := p) hc)

/-- A selection, whatever state the line was in. -/
theorem selectLine (h : p.SoundBut G I up) : (selectLine x expire p).SoundBut G I up := h.selectFreed hE

theorem releaseLine (h : p.SoundBut G I up) : (releaseLine x expire d p).SoundBut G I up := by
  unfold Machine.releaseLine
  split
  · split
    · exact h.selectFreed hE
    · exact h.setLine (fun c hc => (h.out c hc).1) h.queue.1 h.queue.2.1 (fun hf => by cases hf) (fun _ _ hl => by cases hl)
        (fun _ hl => by cases hl)
  · exact h

theorem endIdleClaim (h : p.SoundBut G I up) : (endIdleClaim x expire d p).SoundBut G I up := by
  unfold Machine.endIdleClaim
  split
  · exact h.releaseLine hE
  · exact h.withdrawLine d

omit hE in
/-- A claim for a chamber that may hold the line or wait for it. -/
theorem claimLine_idle (h : p.SoundBut G I up) (hg : ¬G d) (hi : (p.engine d).state = .idle) :
    (claimLine d p).SoundBut G I up := by
  have join : d ∉ p.arbiter.queue → p.arbiter.line ≠ .free → p.arbiter.line ≠ .granted d →
      (p.setLine p.arbiter.line (p.arbiter.queue ++ [d])).SoundBut G I up := by
    intro hd hl hnl
    refine h.setLine (fun c hc hq => ?_) ?_ (fun c hc => ?_) (fun hf => absurd hf hl) h.holder fun c hc hq => ?_
    · rcases List.mem_append.1 hq with hq | hq
      · exact (h.out c hc).1 hq
      · rw [List.mem_singleton.1 hq] at hc; exact hg hc
    · exact List.nodup_append.2 ⟨h.queue.1, by simp, by simpa using fun a ha (hd' : a = d) => hd (hd' ▸ ha)⟩
    · rcases List.mem_append.1 hc with hc | hc
      · exact h.queue.2.1 c hc
      · rw [List.mem_singleton.1 hc]; exact .inr hi
    · rcases List.mem_append.1 hq with hq | hq
      · exact h.queue.2.2.2 c hc hq
      · exact hnl (List.mem_singleton.1 hq ▸ hc)
  unfold Machine.claimLine
  split
  · next hfree =>
    exact h.setLine (fun c hc => (h.out c hc).1) h.queue.1 h.queue.2.1 (fun hf => by cases hf)
      (fun c _ hl => by cases hl; exact .inr hi) (fun c _ hq => by rw [h.queue.2.2.1 hfree] at hq; cases hq)
  · next o hl =>
    split
    · exact h
    · next hn => exact join (fun hq => hn (.inr hq)) (by simp [hl]) (by rw [hl]; intro k; cases k; exact hn (.inl rfl))
  · next t hl =>
    split
    · exact h
    · next hn => exact join hn (by simp [hl]) (by simp [hl])

theorem considerLine (h : p.SoundBut (withChamber d G) I up) (hg : ¬G d) (hr : p.Ready up d) :
    (considerLine x expire d p).SoundBut G I up := by
  have ho := h.out d (.inl rfl)
  obtain ⟨l, hl, hs⟩ := releaseLine_self (x := x) (expire := expire) ho hE.spares
  have hrel := h.releaseLine (x := x) (d := d) hE
  have hready : (Machine.releaseLine x expire d p).Ready up d := hs.ready ⟨hr.sources, hr.timer, hr.range, hr.permit⟩
  unfold Machine.considerLine
  dsimp only
  split
  · exact hrel.finishSequence hready fun k => hl ((hs.line.1 k))
  · split
    · -- the claim
      unfold Machine.claimLine
      split
      · next hf =>
        have hs : (p.setLine (.granted d) p.arbiter.queue).SoundBut (withChamber d G) I up :=
          h.setLine (fun c hc => (h.out c hc).1) h.queue.1 h.queue.2.1 (fun hf => by cases hf)
            (fun c hc hl => by cases hl; exact absurd (.inl rfl) hc)
            (fun c _ hq => by rw [h.queue.2.2.1 hf] at hq; cases hq)
        rw [if_pos ((Plant.holds_iff _ d).2 rfl)]
        exact hs.runStep hE hg ⟨hr.sources, hr.timer, hr.range, hr.permit⟩
      all_goals
        next hline =>
        split
        · next hin =>
          split
          · exact h.runStep hE hg hr
          · next hh =>
            exfalso
            first
              | (rcases hin with ho' | hq
                 · exact hh ((Plant.holds_iff p d).2 (by rw [hline, ho']))
                 · exact ho.1 hq)
              | exact ho.1 hin
        · next hin =>
          have hnl : p.arbiter.line ≠ .granted d := by
            rw [hline]
            first
              | (intro hc; cases hc; exact hin (.inl rfl))
              | (intro hc; cases hc)
          have hnf : p.arbiter.line ≠ .free := by rw [hline]; simp
          split
          · next hh => exact absurd ((Plant.holds_iff _ d).1 hh) hnl
          · have hw : (p.setEngine d
                { p.engine d with
                  state := .waiting, awaited := .line
                  outputTable := match (p.engine d).hold with
                    | none => (p.engine d).outputTable
                    | some t => holdOutputs x d (resumeValues x t) }).SoundBut G I up := by
              refine h.land ⟨?_, ?_, ?_, ?_, ?_, ?_⟩ ?_ (fun k => absurd k hnl) fun k => by simp at k
              all_goals simp [hr.sources, hr.range, hr.timer, hr.permit]
            refine hw.setLine (fun c hc hq => ?_) ?_ (fun c hc => ?_) (fun hf => absurd hf hnf) hw.holder fun c hc hq => ?_
            · rcases List.mem_append.1 hq with hq | hq
              · exact (hw.out c hc).1 hq
              · rw [List.mem_singleton.1 hq] at hc; exact hg hc
            · exact List.nodup_append.2 ⟨h.queue.1, by simp, by simpa using fun a ha (hd' : a = d) => ho.1 (hd' ▸ ha)⟩
            · rcases List.mem_append.1 hc with hc | hc
              · exact hw.queue.2.1 c hc
              · rw [List.mem_singleton.1 hc]; simp
            · rcases List.mem_append.1 hq with hq | hq
              · exact hw.queue.2.2.2 c hc hq
              · exact hnl (List.mem_singleton.1 hq ▸ hc)
    · exact hrel.runStep hE hg hready

theorem giveBack {examine : Plant → Plant} (hx : ∀ {q : Plant}, q.SoundBut (withChamber d G) I up →
      (examine q).SoundBut (withChamber d G) I up) (h : (withdrawBoth d p).SoundBut (withChamber d G) I up) :
    (giveBack x expire examine d p).SoundBut (withChamber d G) I up := by
  obtain ⟨l, _, hs⟩ := releaseLine_self (x := x) (h.out d (.inl rfl)) hE.spares
  exact hx ((h.releaseLine hE).returnReservation (.inl rfl) hs.out.2)

/-- Hold entry: it ends with the chamber HELD and every promise kept. -/
theorem enterHold {examine : Plant → Plant} (hx : ∀ {q : Plant}, q.SoundBut (withChamber d G) I up →
      (examine q).SoundBut (withChamber d G) I up)
    (hxs : ∀ {r q : Plant}, Plant.Spares d r q → Plant.Spares d r (examine q))
    (h : ∀ e, (withdrawBoth d (p.setEngine d e)).SoundBut (withChamber d G) I up)
    (hrange : (p.engine d).range.isSome = true) (hp : p.permits[d] = up) (src : HoldSource) (dl : Bool) :
    (enterHold x expire examine d src dl p).SoundBut G I up := by
  have key : ∀ e : Engine, e.timer = none → e.awaited = .nothing → e.hold.isSome = true → e.range.isSome = true → ∀ t,
      ((Machine.giveBack x expire examine d (p.setEngine d e)).setEngine d
        { (Machine.giveBack x expire examine d (p.setEngine d e)).engine d with
          state := .held, sources := HoldSources.insert {} src, outputTable := t }).SoundBut G I up := by
    intro e h1 h2 h3 h4 t
    have hb := gaveBack (x := x) (p.setEngine d e) hE.spares hxs
    have he := hb.engine
    rw [Plant.engine_setEngine_self] at he
    refine ((h e).giveBack (x := x) hE hx).land ⟨?_, ?_, ?_, ?_, ?_, ?_⟩ ?_ (fun k => absurd k hb.line)
      fun _ => hb.settled
    · simp [HoldSources.insert_ne_empty]
    · simp [he, h4]
    · simp [he, h1]
    · simp [he, h2]
    · simp [he, h3]
    · simp
    · rw [hb.permit]; simpa using hp
  exact (key { p.engine d with
    hold := some ((p.engine d).writeHold x.now (x.stepRecord (p.engine d).step) dl)
    timer := none, counter := 0, awaited := .nothing } rfl rfl rfl hrange _).notify _ _ _

theorem examineHead {q : Plant} (h : p.SoundBut G I up) (he : examineHead x expire p = some q) : q.SoundBut G I up := by
  unfold Machine.examineHead at he
  split at he
  · cases he
  · next g rest hgr =>
    have hmem : g ∈ p.arbiter.growth := by rw [hgr]; exact List.mem_cons_self
    have hg : ¬G g.chamber := fun hg => (h.out _ hg).2 g hmem rfl
    obtain ⟨hw, ha, hlt⟩ := h.growth.2 g hmem
    have hi : ¬I g.chamber := h.not_idle (by simp [hw])
    have hc := h.cells g.chamber hg
    have hn := h.growth.1
    rw [hgr, List.map_cons, List.nodup_cons] at hn
    have hperm : p.permits[g.chamber] = up := by rw [h.permits _ hg, hw]; simp
    have htimer : (p.engine g.chamber).timer = none := by
      cases ht : (p.engine g.chamber).timer with
      | none => rfl
      | some t => have := hc.timer (by simp [ht]); rw [hw] at this; cases this
    split at he
    · next hf =>
      have hrest : ∀ r ∈ rest, r.chamber ≠ g.chamber := fun r hr hd =>
        hn.1 (List.mem_map.2 ⟨r, hr, hd⟩)
      have h2 : ((p.setReservation g.chamber g.requested).setGrowth rest).SoundBut (withChamber g.chamber G) I up := by
        have hsub : rest.Sublist p.arbiter.growth := by rw [hgr]; exact List.sublist_cons_self _ _
        refine ⟨fun c hc => ?_, ?_, ⟨hn.2, fun r hr => ?_⟩, h.queue, fun c hc => h.holder c fun hg => hc (.inr hg),
          fun c hc => h.cells c fun hg => hc (.inr hg), fun c hc => h.permits c fun hg => hc (.inr hg), h.notices,
          fun c hc => ⟨fun hg => hg.elim (fun hd => hi (hd ▸ hc)) (h.idle c hc).1, (h.idle c hc).2⟩, fun c hc => ?_⟩
        · rcases hc with hd | hc
          · subst hd
            refine ⟨fun hq => ?_, hrest⟩
            rcases h.queue.2.1 _ hq with hk | hk
            · rw [ha] at hk; cases hk.2
            · have hk : (p.engine g.chamber).state = .idle := hk
              rw [hw] at hk; cases hk
          · exact ⟨(h.out c hc).1, fun r hr => (h.out c hc).2 r (hsub.subset hr)⟩
        · refine Plant.WithinBudget.setReservation h.budget ?_ ?_
          · exact (h.budget.1 _).trans hlt.le
          · simpa [headFits] using hf
        · have hne : g.chamber ≠ r.chamber := Ne.symm (hrest r hr)
          simpa [hne] using h.growth.2 r (hsub.subset hr)
        · have hne : g.chamber ≠ c := fun hd => hc (.inl hd.symm)
          simpa [hne] using h.settled c (fun hg => hc (.inr hg))
      dsimp only at he
      split at he <;> cases he
      · exact h2.considerLine hE hg ⟨hc.sources.2 (by simp [hw]), htimer, hc.range.2 (.inl hw), hperm⟩
      · next hno => exact absurd ⟨hw, ha⟩ hno
    · split at he
      · cases he
        refine (SoundBut.enterHold (x := x) hE (examine := id) (fun k => k) (fun k => k) (fun e => h.withdraw hi e)
          (hc.range.2 (.inl hw)) hperm .engine false).notify _ _ _
      · cases he

theorem examineHeads (n : Nat) (h : p.SoundBut G I up) : (examineHeads x expire n p).SoundBut G I up := by
  induction n generalizing p with
  | zero => exact h
  | succ n ih =>
    unfold Machine.examineHeads
    split
    · exact h
    · next q he => exact ih (h.examineHead hE he)

theorem examineGrowth (h : p.SoundBut G I up) : (examineGrowth x expire p).SoundBut G I up := h.examineHeads hE _

theorem addSource (h : p.SoundBut G I up) (hg : ¬G d) (src : HoldSource) (dl : Bool) :
    (addSource x expire d src dl p).SoundBut G I up := by
  have hc := h.cells d hg
  have hold : (p.engine d).state = .running ∨ (p.engine d).state = .waiting →
      (Machine.enterHold x expire (Machine.examineGrowth x expire) d src dl p).SoundBut G I up := by
    intro hs
    refine SoundBut.enterHold hE (fun k => k.examineGrowth hE) (fun k => k.examineGrowth hE.spares)
      (fun e => h.withdraw (h.not_idle (by rcases hs with hs | hs <;> simp [hs])) e) (hc.range.2 (by tauto)) ?_ src dl
    rw [h.permits d hg]
    rcases hs with hs | hs <;> simp [hs]
  unfold Machine.addSource
  dsimp only
  split
  · next hs => exact hold (.inl hs)
  · next hs => exact hold (.inr hs)
  · next hs =>
    have ho := h.out_of_state (d := d) (by simp [hs]) (by simp [hs])
    refine (h.lift ho (h.not_idle (by simp [hs]))).land ⟨?_, ?_, ?_, ?_, ?_, ?_⟩ ?_ (fun k => ?_)
      (h.settled d hg)
    · simp [HoldSources.insert_ne_empty, hs]
    · exact hc.range
    · exact hc.timer
    · exact hc.awaited
    · exact hc.held
    · exact hc.hold
    · exact h.permits d hg
    · exact h.holder d hg k
  all_goals exact h

/-- The hold entry of a step whose load can never fit. -/
theorem refused (h : p.SoundBut (withChamber d G) I up) (hr : p.Ready up d) (e : Engine) (he : e.range = (p.engine d).range) :
    (Machine.enterHold x expire (Machine.examineGrowth x expire) d .engine false (p.setEngine d e)).SoundBut G I up := by
  have h1 := h.setEngine e
  have hrange : ((p.setEngine d e).engine d).range.isSome = true := by
    rw [Plant.engine_setEngine_self, he]; exact hr.range
  have hperm : (p.setEngine d e).permits[d] = up := hr.permit
  exact SoundBut.enterHold (p := p.setEngine d e) hE (fun k => k.examineGrowth hE) (fun k => k.examineGrowth hE.spares)
    (fun e' => (h1.withdraw (fun k => (h.idle d k).1 (.inl rfl)) e').collapse) hrange hperm .engine false

theorem stepBoundary (h : p.SoundBut (withChamber d G) I up) (hg : ¬G d) (hr : p.Ready up d) :
    (stepBoundary x expire d p).SoundBut G I up := by
  have ho := h.out d (.inl rfl)
  unfold Machine.stepBoundary
  dsimp only
  split
  · exact (h.refused (x := x) hE hr { p.engine d with state := .waiting, awaited := .nothing } rfl).notify _ _ _
  · split
    · next hle =>
      have h1 := h.lower (d := d) (v := requestedReservation x d p) (.inl rfl) ho.2 (le_max_left _ _) hle
      have hr1 : (p.setReservation d (requestedReservation x d p)).Ready up d := ⟨hr.sources, hr.timer, hr.range, hr.permit⟩
      split
      · have hs : Plant.Spares d (p.setReservation d (requestedReservation x d p))
            (Machine.examineGrowth x expire (p.setReservation d (requestedReservation x d p))) :=
          (Plant.Spares.refl (p := p.setReservation d (requestedReservation x d p)) ho).examineGrowth hE.spares
        exact (h1.examineGrowth hE).considerLine hE hg (hs.ready hr1)
      · exact h1.considerLine hE hg hr1
    · next hlt =>
      obtain ⟨l, hl, hs⟩ := releaseLine_self (x := x) (expire := expire) ho hE.spares
      have h1 := h.releaseLine (x := x) (d := d) hE
      have hr1 : (Machine.releaseLine x expire d p).Ready up d := hs.ready ⟨hr.sources, hr.timer, hr.range, hr.permit⟩
      have h2 : (Machine.waitFor x d .growth (Machine.releaseLine x expire d p)).SoundBut G I up := by
        refine h1.land ⟨?_, ?_, ?_, ?_, ?_, ?_⟩ ?_ (fun k => absurd (hs.line.1 k) hl) fun k => by simp at k
        all_goals simp [hr1.sources, hr1.range, hr1.timer, hr1.permit]
      refine SoundBut.examineGrowth hE ⟨fun c hc => ⟨(h2.out c hc).1, fun g hgm => ?_⟩, h2.budget, ⟨?_, fun g hgm => ?_⟩,
        h2.queue, h2.holder, h2.cells, h2.permits, h2.notices, h2.idle, h2.settled⟩
      · rcases List.mem_append.1 hgm with hgm | hgm
        · exact (h2.out c hc).2 g hgm
        · rw [List.mem_singleton.1 hgm]; exact fun k => hg ((show d = c from k) ▸ hc)
      · have hnd := h2.growth.1
        simp only [Plant.setGrowth_growth, List.map_append, List.map_cons, List.map_nil]
        refine List.nodup_append.2 ⟨hnd, by simp, fun a ha b hb hab => ?_⟩
        obtain ⟨g, hgm, rfl⟩ := List.mem_map.1 ha
        rw [List.mem_singleton.1 hb] at hab
        exact hs.out.2 g hgm hab
      · rcases List.mem_append.1 hgm with hgm | hgm
        · exact h2.growth.2 g hgm
        · rw [List.mem_singleton.1 hgm]
          refine ⟨by simp [Machine.waitFor], by simp [Machine.waitFor], ?_⟩
          have : (Machine.releaseLine x expire d p).reservation d = p.reservation d := hs.reservation
          simp only [Plant.setGrowth_reservation, Machine.waitFor, Plant.setEngine_reservation]
          omega

theorem endStep (h : p.SoundBut G I up) (hg : ¬G d) (hs : (p.engine d).state = .running) :
    (endStep x expire d p).SoundBut G I up := by
  have ho := h.out_of_state (d := d) (by simp [hs]) (by simp [hs])
  have hc := h.cells d hg
  have hp := h.permits d hg
  refine ((h.lift ho (h.not_idle (by simp [hs]))).setEngine _).stepBoundary hE hg ⟨?_, ?_, ?_, ?_⟩
  · simpa using hc.sources.2 (by simp [hs])
  · simp
  · simpa using hc.range.2 (.inr (.inl hs))
  · simpa [hs] using hp

theorem enterSafe (h : p.SoundBut G I up) (hi : ¬I d) : (enterSafe x expire d p).SoundBut G I up := by
  have key : ∀ e : Engine, e.timer = none → e.awaited = .nothing → ∀ t,
      (((Machine.giveBack x expire (Machine.examineGrowth x expire) d (p.setEngine d e)).setPermit d false).setEngine d
        { (Machine.giveBack x expire (Machine.examineGrowth x expire) d (p.setEngine d e)).engine d with
          state := .safe, hold := none, sources := {}, loops := [], range := none, outputTable := t }).SoundBut G I up := by
    intro e h1 h2 t
    have hb := gaveBack (x := x) (examine := Machine.examineGrowth x expire) (d := d) (p.setEngine d e) hE.spares
      fun k => k.examineGrowth (x := x) hE.spares
    have he := hb.engine
    rw [Plant.engine_setEngine_self] at he
    refine (((h.withdraw hi e).giveBack (x := x) hE (fun k => k.examineGrowth hE)).setPermit false).land
      ⟨?_, ?_, ?_, ?_, ?_, ?_⟩ ?_ (fun k => absurd k hb.line) fun _ => hb.settled
    · simp [HoldSources.isEmpty]
    · simp
    · simp [he, h1]
    · simp [he, h2]
    · simp
    · simp
    · rw [Plant.permit_setPermit]; simp
  exact (key { p.engine d with timer := none, counter := 0, awaited := .nothing } rfl rfl _).notify _ _ _

theorem dwellEnds (h : p.SoundBut G I up) (hg : ¬G d) : (dwellEnds x expire d p).SoundBut G I up := by
  unfold Machine.dwellEnds
  dsimp only
  split
  · next hs =>
    split
    · have h1 := h.notify (x := x) d .stepTimeout (p.engine d).step
      split
      · exact h1.endStep hE hg hs.1
      · exact h1.addSource hE hg _ _
      · exact h1.enterSafe hE (h1.not_idle (by simp [hs.1]))
      · have hc := h.cells d hg
        refine (h1.lift (h1.out_of_state (by simp [hs.1]) (by simp [hs.1])) (h1.not_idle (by simp [hs.1]))).land
          ⟨hc.sources, hc.range, ?_, hc.awaited, hc.held, hc.hold⟩ (h.permits d hg) (h.holder d hg) (h.settled d hg)
        simp
    · exact h.endStep hE hg hs.1
  · exact h

theorem leaveHold (h : p.SoundBut (withChamber d G) I up) (hg : ¬G d) (hr : p.Ready up d) :
    (leaveHold x expire d p).SoundBut G I up := by
  unfold Machine.leaveHold
  dsimp only
  split
  · exact h.stepBoundary hE hg hr
  · refine (h.setEngine _).stepBoundary hE hg ⟨?_, ?_, ?_, hr.permit⟩
    · simpa using hr.sources
    · simpa using hr.timer
    · simpa using hr.range

/-- A removal of sources from a HELD engine. -/
theorem removeSources (h : p.SoundBut G I up) (hg : ¬G d) (hs : (p.engine d).state = .held) (left : HoldSources) :
    (removeSources x expire d left p).SoundBut G I up := by
  have ho := h.out_of_state (d := d) (by simp [hs]) (by simp [hs])
  have hc := h.cells d hg
  have hp := h.permits d hg
  have htimer : (p.engine d).timer = none := by
    cases ht : (p.engine d).timer with
    | none => rfl
    | some t => have := hc.timer (by simp [ht]); rw [hs] at this; cases this
  unfold Machine.removeSources
  dsimp only
  split
  · next hl =>
    refine ((h.lift ho (h.not_idle (by simp [hs]))).setEngine _).leaveHold hE hg ⟨by simpa using hl, by simpa using htimer, ?_, ?_⟩
    · simpa using hc.range.2 (.inr (.inr hs))
    · simpa [hs] using hp
  · next hl =>
    refine (h.lift ho (h.not_idle (by simp [hs]))).land ⟨by simp [hl, hs], hc.range, hc.timer, hc.awaited, hc.held, hc.hold⟩ hp (h.holder d hg)
      (h.settled d hg)

theorem abortEngine (h : p.SoundBut G I up) (hn : (p.engine d).state ≠ .safe) (hg : ¬G d) (hi : ¬I d) :
    (abortEngine x expire d p).SoundBut G I up := by
  have hp := h.permits d hg
  rw [permitLevel_of_ne_safe up hn] at hp
  have key : ∀ e : Engine, e.timer = none → e.awaited = .nothing →
      ((Machine.giveBack x expire (Machine.examineGrowth x expire) d (p.setEngine d e)).setEngine d
        { (Machine.giveBack x expire (Machine.examineGrowth x expire) d (p.setEngine d e)).engine d with
          state := .idle, hold := none, sources := {}, loops := [], range := none }).SoundBut G I up := by
    intro e h1 h2
    have hb := gaveBack (x := x) (examine := Machine.examineGrowth x expire) (d := d) (p.setEngine d e) hE.spares
      fun k => k.examineGrowth (x := x) hE.spares
    have he := hb.engine
    rw [Plant.engine_setEngine_self] at he
    refine ((h.withdraw hi e).giveBack (x := x) hE (fun k => k.examineGrowth hE)).land
      ⟨?_, ?_, ?_, ?_, ?_, ?_⟩ ?_ (fun k => absurd k hb.line) fun _ => hb.settled
    · simp [HoldSources.isEmpty]
    · simp
    · simp [he, h1]
    · simp [he, h2]
    · simp
    · simp
    · rw [hb.permit]; simpa using hp
  exact key { p.engine d with timer := none, counter := 0, awaited := .nothing } rfl rfl

theorem releaseEngine (h : p.SoundBut G I up) (hs : (p.engine d).state = .done) (hg : ¬G d) :
    (releaseEngine x expire d p).SoundBut G I up := by
  have ho := h.out_of_state (d := d) (by simp [hs]) (by simp [hs])
  have hc := h.cells d hg
  have hp := h.permits d hg
  rw [hs] at hp
  have hline : p.arbiter.line ≠ .granted d := fun hl => by have := h.holder d hg hl; simp [hs] at this
  have key : ∀ z : Engine, z = { p.engine d with counter := 0 } →
      ((Machine.examineGrowth x expire (Machine.returnReservation d (p.setEngine d z))).setEngine d
        { (Machine.examineGrowth x expire (Machine.returnReservation d (p.setEngine d z))).engine d with
          state := .idle, loops := [] }).SoundBut G I up := by
    intro z hz
    have h1 := ((h.lift ho (h.not_idle (by simp [hs]))).setEngine z).returnReservation (d := d) (.inl rfl) ho.2
    have hsp := (Plant.Spares.refl (p := Machine.returnReservation d (p.setEngine d z)) (c := d) ho).examineGrowth (x := x) hE.spares
    have he : (Machine.examineGrowth x expire (Machine.returnReservation d (p.setEngine d z))).engine d = z :=
      hsp.engine.trans (Plant.engine_setEngine_self p d z)
    have hres := hsp.reservation
    have hall := hsp.allowance d
    have hl : (Machine.examineGrowth x expire (Machine.returnReservation d (p.setEngine d z))).arbiter.line ≠ .granted d :=
      fun k => hline (hsp.line.1 k)
    have hpm := hsp.permit
    rw [he]
    refine (h1.examineGrowth (x := x) hE).land ⟨?_, ?_, ?_, ?_, ?_, ?_⟩ ?_ (fun k => absurd k hl) fun _ => ?_
    · rw [hz]; simpa using hc.sources.2 (by simp [hs])
    · rw [hz]; have := hc.range; rw [hs] at this; simpa using this
    · rw [hz]; intro ht; have := hc.timer ht; rw [hs] at this; cases this
    · rw [hz]; have := hc.awaited; rw [hs] at this; simpa using this
    · simp
    · rw [hz]; intro ht; have := hc.hold ht; rw [hs] at this; simp at this
    · rw [hpm]; exact hp
    · rw [hres, hall]
      simp [Machine.returnReservation]
  exact key _ rfl

theorem startEngine (h : p.SoundBut G I up) (hs : (p.engine d).state = .idle) (hg : ¬G d) (hi : ¬I d) (first last : Nat) :
    (startEngine x expire d first last p).SoundBut G I up := by
  have hc := h.cells d hg
  have hp := h.permits d hg
  have h1 := h.withdraw (d := d) hi
    { p.engine d with range := some (first, last), step := first, loops := [], sources := {}, counter := 0
                      outputTable := carriedOutputs x d }
  have hgrow : (Machine.withdrawLine d (p.setEngine d
      { p.engine d with range := some (first, last), step := first, loops := [], sources := {}, counter := 0
                        outputTable := carriedOutputs x d })).SoundBut (withChamber d G) I up := by
    have hno : ∀ g ∈ p.arbiter.growth, g.chamber ≠ d := fun g hgm hd => by
      have := (h.growth.2 g hgm).1; rw [hd, hs] at this; cases this
    have hfilter : p.arbiter.growth.filter (fun g => g.chamber ≠ d) = p.arbiter.growth :=
      List.filter_eq_self.2 fun g hgm => by simpa using hno g hgm
    have heq : Machine.withdrawBoth d (p.setEngine d
        { p.engine d with range := some (first, last), step := first, loops := [], sources := {}, counter := 0
                          outputTable := carriedOutputs x d }) = Machine.withdrawLine d (p.setEngine d
        { p.engine d with range := some (first, last), step := first, loops := [], sources := {}, counter := 0
                          outputTable := carriedOutputs x d }) := by
      unfold Machine.withdrawBoth Machine.withdrawGrowth
      have : (Machine.withdrawLine d (p.setEngine d
        { p.engine d with range := some (first, last), step := first, loops := [], sources := {}, counter := 0
                          outputTable := carriedOutputs x d })).arbiter.growth = p.arbiter.growth := rfl
      rw [this, hfilter]
      rfl
    rw [← heq]; exact h1
  refine hgrow.stepBoundary hE hg ⟨?_, ?_, ?_, ?_⟩
  · simp [Machine.withdrawLine, HoldSources.isEmpty]
  · cases ht : (p.engine d).timer with
    | none => simp [Machine.withdrawLine]
    | some t => have := hc.timer (by simp [ht]); rw [hs] at this; cases this
  · simp [Machine.withdrawLine]
  · rw [hs] at hp; simpa [Machine.withdrawLine] using hp

end Plant.SoundBut

/-- The dwell expiries of one event keep the promises. -/
theorem expireWithin_keeps (x : Ctx) (up : Bool) (n : Nat) : Expire.Keeps up (expireWithin x n) := by
  induction n with
  | zero => exact ⟨fun _ _ _ h => h, fun _ _ _ h => h⟩
  | succ n ih => exact ⟨fun d q ne h => spares_expireWithin (n + 1) d q ne h, fun d p hg h => h.dwellEnds ih hg⟩

theorem expireNow_keeps (x : Ctx) (up : Bool) : Expire.Keeps up (expireNow x) := expireWithin_keeps x up 4

end Sys2Proof.Machine
end

