-- ==== Sys2Proof/Laws/Effects.lean ====
section
/-! SUPPORT. What the operations of an engine leave of its OWN chamber, said once for each: its engine context, its reservation,
its permit, its place in the queues and at the line. What they leave of the others is in Laws/Spares.lean. -/

namespace Sys2Proof.Machine

/-- Chamber c stands in neither queue, holds no line, has engine e and reservation v, and its permit is as it was. -/
structure Plant.Rests (c : Chamber) (p q : Plant) (e : Engine) (v : Nat) : Prop where
  out : q.Out c
  line : q.arbiter.line ≠ .granted c
  engine : q.engine c = e
  reservation : q.reservation c = v
  permit : q.permits[c] = p.permits[c]
  allowance : q.allowance c = p.allowance c

variable {x : Ctx} {expire : Expire} {c d : Chamber} {p q r : Plant} {e : Engine} {v : Nat}

namespace Plant.Rests

/-- The events of other chambers leave it so. -/
theorem spares (h : Plant.Rests c p q e v) (k : Plant.Spares c q r) : Plant.Rests c p r e v :=
  ⟨k.out, fun hl => h.line (k.line.1 hl), k.engine.trans h.engine, k.reservation.trans h.reservation, k.permit.trans h.permit,
    (k.allowance c).trans h.allowance⟩

theorem setEngine (h : Plant.Rests c p q e v) (f : Engine) : Plant.Rests c p (q.setEngine c f) f v :=
  ⟨h.out, h.line, by simp, h.reservation, h.permit, h.allowance⟩

theorem setReservation (h : Plant.Rests c p q e v) (w : Nat) : Plant.Rests c p (q.setReservation c w) e w :=
  ⟨h.out, h.line, h.engine, by simp, h.permit, h.allowance⟩

theorem notify (h : Plant.Rests c p q e v) (d : Chamber) (n : ChamberNotice) (k : Nat) :
    Plant.Rests c p (q.notify x d n k) e v :=
  ⟨h.out, h.line, h.engine, h.reservation, h.permit, h.allowance⟩

end Plant.Rests

section
variable (hE : ∀ (q r : Plant) d, d ≠ c → Plant.Spares c q r → Plant.Spares c q (expire d r))
include hE

/-- The release of a line by a chamber in neither queue (R122, R123). -/
theorem releaseLine_rests (h : p.Out c) :
    Plant.Rests c p (releaseLine x expire c p) (p.engine c) (p.reservation c) := by
  unfold releaseLine
  split
  · split
    · refine Plant.Rests.spares (q := p.setLine .free p.arbiter.queue) ⟨h, by simp, rfl, rfl, rfl, rfl⟩ ?_
      exact (Plant.Spares.refl (p := p.setLine .free p.arbiter.queue) h).selectLine (fun d q => hE _ q d) (by simp)
    · exact ⟨h, by simp, rfl, rfl, rfl, rfl⟩
  · next hl =>
    refine ⟨h, fun k => hl ((Plant.holds_iff p c).2 k), rfl, rfl, rfl, rfl⟩

/-- What a chamber gives up (R61, R63, R70). -/
theorem giveBack_rests {examine : Plant → Plant} (hx : ∀ q, q.Out c → Plant.Spares c q (examine q)) (p : Plant) :
    Plant.Rests c p (giveBack x expire examine c p) (p.engine c) (p.allowance c) := by
  have h1 := releaseLine_rests (x := x) hE (out_withdrawBoth c p)
  have h2 : Plant.Rests c p (returnReservation c (releaseLine x expire c (withdrawBoth c p))) (p.engine c) (p.allowance c) := by
    have := h1.setReservation ((releaseLine x expire c (withdrawBoth c p)).allowance c)
    refine ⟨this.out, this.line, this.engine, ?_, this.permit, this.allowance⟩
    rw [returnReservation, this.reservation, h1.allowance]; rfl
  exact h2.spares (hx _ h2.out)

theorem examineGrowth_spares (h : q.Out c) : Plant.Spares c q (examineGrowth x expire q) :=
  (Plant.Spares.refl h).examineGrowth fun d r => hE _ r d

/-- Hold entry (R70). -/
theorem enterHold_rests {examine : Plant → Plant} (hx : ∀ q, q.Out c → Plant.Spares c q (examine q)) (src : HoldSource)
    (dl : Bool) (p : Plant) :
    Plant.Rests c p (enterHold x expire examine c src dl p)
      { p.engine c with
        state := .held, awaited := .nothing, timer := none, counter := 0, sources := HoldSources.insert {} src
        hold := some ((p.engine c).writeHold x.now (x.stepRecord (p.engine c).step) dl)
        outputTable := holdOutputs x c (p.engine c).outputTable } (p.allowance c) := by
  unfold enterHold
  dsimp only
  have h := giveBack_rests (x := x) hE hx
    (p.setEngine c { p.engine c with hold := some ((p.engine c).writeHold x.now (x.stepRecord (p.engine c).step) dl)
                                     timer := none, counter := 0, awaited := .nothing })
  have he := h.engine
  simp only [Plant.engine_setEngine_self] at he
  rw [he]
  exact ⟨h.out, h.line, by simp, h.reservation, h.permit, h.allowance⟩

/-- ABORT (R63). -/
theorem abortEngine_rests (p : Plant) :
    Plant.Rests c p (abortEngine x expire c p)
      { p.engine c with
        state := .idle, timer := none, counter := 0, awaited := .nothing, hold := none, sources := {}, loops := []
        range := none } (p.allowance c) := by
  unfold abortEngine
  dsimp only
  have h := giveBack_rests (x := x) hE (examine := examineGrowth x expire) (fun q => examineGrowth_spares hE)
    (p.setEngine c { p.engine c with timer := none, counter := 0, awaited := .nothing })
  have he := h.engine
  simp only [Plant.engine_setEngine_self] at he
  rw [he]
  exact ⟨h.out, h.line, by simp, h.reservation, h.permit, h.allowance⟩

/-- SAFE entry, but for the permit line, which drops (R61, R117). -/
theorem enterSafe_rests (p : Plant) :
    (enterSafe x expire c p).Out c ∧ (enterSafe x expire c p).arbiter.line ≠ .granted c ∧
      (enterSafe x expire c p).engine c =
        { p.engine c with
          state := .safe, timer := none, counter := 0, awaited := .nothing, hold := none, sources := {}, loops := []
          range := none, outputTable := safeOutputs x c } ∧
      (enterSafe x expire c p).reservation c = p.allowance c ∧ (enterSafe x expire c p).permits[c] = false := by
  unfold enterSafe
  dsimp only
  have h := giveBack_rests (x := x) hE (examine := examineGrowth x expire) (fun q => examineGrowth_spares hE)
    (p.setEngine c { p.engine c with timer := none, counter := 0, awaited := .nothing })
  have he := h.engine
  simp only [Plant.engine_setEngine_self] at he
  refine ⟨h.out, h.line, ?_, h.reservation, (Plant.permit_setPermit _ _ _ _).trans (by simp)⟩
  rw [he, Plant.notify_engine, Plant.setPermit_engine, Plant.engine_setEngine_self]

/-- RUNNING entry of a step with no hold record, in place of a claim (R49). -/
theorem considerLine_runs (h : p.Out c) (hh : (p.engine c).hold = none)
    (hend : (x.stepRecord (p.engine c).step).isEnd = false)
    (hcl : (x.stepRecord (p.engine c).step).claimsRoughing = false) :
    Plant.Rests c p (considerLine x expire c p)
      ((p.engine c).runFresh x.now (x.stepRecord (p.engine c).step) (p.engine c).outputTable) (p.reservation c) := by
  unfold considerLine
  simp only [hend, hcl, Bool.false_eq_true, if_false]
  have k := releaseLine_rests (x := x) hE h
  unfold runStep
  simp only [k.engine, hh]
  exact k.setEngine _

/-- END settled (R50). -/
theorem considerLine_finishes (h : p.Out c) (hh : (p.engine c).hold = none)
    (hend : (x.stepRecord (p.engine c).step).isEnd = true) :
    Plant.Rests c p (considerLine x expire c p)
      { p.engine c with
        state := .done, awaited := .nothing, timer := none, range := none, hold := none
        outputTable := setTargets (x.stepRecord (p.engine c).step).setpoints (p.engine c).outputTable } (p.reservation c) := by
  unfold considerLine
  simp only [hend, if_true]
  have k := releaseLine_rests (x := x) hE h
  unfold finishSequence
  simp only [k.engine, hh]
  exact (k.setEngine _).notify _ _ _

/-- The reservation settled without growth (R46): what is considered next stands as before, but for the reservation. -/
theorem settled_spares (h : p.Out c) (w : Nat) :
    Plant.Spares c (p.setReservation c w)
      (if w < p.reservation c then examineGrowth x expire (p.setReservation c w) else p.setReservation c w) := by
  split
  · exact examineGrowth_spares hE h
  · exact .refl h

/-- A boundary whose reservation need not grow, for a step that neither ends the sequence nor claims the line (R46 to R49). -/
theorem stepBoundary_runs (h : p.Out c) (hh : (p.engine c).hold = none)
    (hfit : neverFits p c (requestedReservation x c p) = false) (hw : requestedReservation x c p ≤ p.reservation c)
    (hend : (x.stepRecord (p.engine c).step).isEnd = false)
    (hcl : (x.stepRecord (p.engine c).step).claimsRoughing = false) :
    Plant.Rests c p (stepBoundary x expire c p)
      ((p.engine c).runFresh x.now (x.stepRecord (p.engine c).step) (p.engine c).outputTable)
      (requestedReservation x c p) := by
  unfold stepBoundary
  simp only [hfit, hw, if_true, Bool.false_eq_true, if_false]
  have k := settled_spares (x := x) hE h (requestedReservation x c p)
  have he : (p.setReservation c (requestedReservation x c p)).engine c = p.engine c := rfl
  have m := considerLine_runs (x := x) hE k.out (by rw [k.engine, he, hh]) (by rw [k.engine, he, hend])
    (by rw [k.engine, he, hcl])
  rw [k.engine, he, k.reservation] at m
  exact ⟨m.out, m.line, m.engine, by rw [m.reservation]; simp, m.permit.trans k.permit,
    m.allowance.trans (k.allowance c)⟩

/-- The same for END (R50). -/
theorem stepBoundary_finishes (h : p.Out c) (hh : (p.engine c).hold = none)
    (hfit : neverFits p c (requestedReservation x c p) = false) (hw : requestedReservation x c p ≤ p.reservation c)
    (hend : (x.stepRecord (p.engine c).step).isEnd = true) :
    Plant.Rests c p (stepBoundary x expire c p)
      { p.engine c with
        state := .done, awaited := .nothing, timer := none, range := none, hold := none
        outputTable := setTargets (x.stepRecord (p.engine c).step).setpoints (p.engine c).outputTable }
      (requestedReservation x c p) := by
  unfold stepBoundary
  simp only [hfit, hw, if_true, Bool.false_eq_true, if_false]
  have k := settled_spares (x := x) hE h (requestedReservation x c p)
  have he : (p.setReservation c (requestedReservation x c p)).engine c = p.engine c := rfl
  have m := considerLine_finishes (x := x) hE k.out (by rw [k.engine, he, hh]) (by rw [k.engine, he, hend])
  rw [k.engine, he, k.reservation] at m
  exact ⟨m.out, m.line, m.engine, by rw [m.reservation]; simp, m.permit.trans k.permit,
    m.allowance.trans (k.allowance c)⟩

end

/-- The expiries of one event spare the chambers they do not begin with. -/
theorem expireNow_spares (x : Ctx) (c : Chamber) (q r : Plant) (d : Chamber) (ne : d ≠ c) (h : Plant.Spares c q r) :
    Plant.Spares c q (expireNow x d r) := spares_expireNow d r ne h

end Sys2Proof.Machine
end

