-- ==== Sys2Proof/Laws/Awake.lean ====
section
/-! SUPPORT. An engine that is not IDLE does not become IDLE by the operations of other events than ABORT, RELEASE, CLEAR and a reset
(section 3.7): said once for each operation of the engines and the arbiter, down to ring loss. -/

namespace Sys2Proof.Machine

/-- The engine of chamber c is not IDLE. -/
def Plant.Awake (c : Chamber) (p : Plant) : Prop := (p.engine c).state ≠ .idle

namespace Plant.Awake

variable {c : Chamber} {p : Plant} {x : Ctx} {expire : Expire}

theorem setEngine (h : p.Awake c) (d : Chamber) (e : Engine) (he : e.state = .idle → (p.engine d).state = .idle) :
    (p.setEngine d e).Awake c := by
  unfold Plant.Awake
  rw [Plant.engine_setEngine]
  split
  · next hd => exact fun k => h (hd ▸ he k)
  · exact h

theorem claimLine (h : p.Awake c) (d : Chamber) : (claimLine d p).Awake c := by
  unfold Machine.claimLine
  split
  · exact h
  all_goals split <;> exact h

theorem waitFor (h : p.Awake c) (d : Chamber) (a : Awaited) : (waitFor x d a p).Awake c := h.setEngine d _ (by simp)

theorem finishSequence (h : p.Awake c) (d : Chamber) : (finishSequence x d p).Awake c := h.setEngine d _ (by simp)

variable (hE : ∀ d (q : Plant), q.Awake c → (expire d q).Awake c)
include hE

theorem runStep (h : p.Awake c) (d : Chamber) : (runStep x expire d p).Awake c := by
  unfold Machine.runStep
  dsimp only
  split
  · exact h.setEngine d _ (by simp [Engine.runFresh])
  · split
    · exact h.setEngine d _ (by simp [Engine.runFresh])
    · split
      · exact hE _ _ (h.setEngine d _ (by simp [Engine.runResumed]))
      · exact h.setEngine d _ (by simp [Engine.runResumed])

theorem selectLine (h : p.Awake c) : (selectLine x expire p).Awake c := by
  unfold Machine.selectLine
  split
  · exact h
  · next d _ =>
    unfold grantLine handLine
    split
    · exact runStep (p := p.setLine (.granted d) (p.arbiter.queue.filter (· ≠ d))) hE h d
    · exact h

theorem releaseLine (h : p.Awake c) (d : Chamber) : (releaseLine x expire d p).Awake c := by
  unfold Machine.releaseLine
  split
  · split
    · exact selectLine (p := p.setLine _ _) hE h
    · exact h
  · exact h

theorem considerLine (h : p.Awake c) (d : Chamber) : (considerLine x expire d p).Awake c := by
  unfold Machine.considerLine
  dsimp only
  split
  · exact (h.releaseLine hE d).finishSequence d
  · split
    · split
      · exact (h.claimLine d).runStep hE d
      · exact (h.claimLine d).waitFor d _
    · exact (h.releaseLine hE d).runStep hE d

theorem giveBack {examine : Plant → Plant} (hx : ∀ q : Plant, q.Awake c → (examine q).Awake c) (h : p.Awake c) (d : Chamber) :
    (giveBack x expire examine d p).Awake c :=
  hx _ (releaseLine (p := Machine.withdrawBoth d p) hE h d)

theorem enterHold {examine : Plant → Plant} (hx : ∀ q : Plant, q.Awake c → (examine q).Awake c) (h : p.Awake c) (d : Chamber)
    (src : HoldSource) (dl : Bool) : (enterHold x expire examine d src dl p).Awake c :=
  ((h.setEngine d { p.engine d with
      hold := some ((p.engine d).writeHold x.now (x.stepRecord (p.engine d).step) dl)
      timer := none, counter := 0, awaited := .nothing } fun k => k).giveBack (x := x) hE hx d).setEngine d _ (by simp)

theorem examineHead {q : Plant} (h : p.Awake c) (he : examineHead x expire p = some q) : q.Awake c := by
  unfold Machine.examineHead at he
  split at he
  · cases he
  · next g rest _ =>
    split at he
    · dsimp only at he
      split at he <;> cases he
      · exact considerLine (p := (p.setReservation g.chamber g.requested).setGrowth rest) hE h _
      · exact h
    · split at he
      · cases he
        exact h.enterHold (x := x) hE (examine := id) (fun _ k => k) g.chamber .engine false
      · cases he

theorem examineHeads (n : Nat) (h : p.Awake c) : (examineHeads x expire n p).Awake c := by
  induction n generalizing p with
  | zero => exact h
  | succ n ih =>
    unfold Machine.examineHeads
    split
    · exact h
    · next q' he => exact ih (h.examineHead hE he)

theorem examineGrowth (h : p.Awake c) : (examineGrowth x expire p).Awake c := h.examineHeads hE _

theorem addSource (h : p.Awake c) (d : Chamber) (src : HoldSource) (dl : Bool) : (addSource x expire d src dl p).Awake c := by
  unfold Machine.addSource
  dsimp only
  split
  · exact h.enterHold hE (fun _ k => k.examineGrowth hE) d src dl
  · exact h.enterHold hE (fun _ k => k.examineGrowth hE) d src dl
  · exact h.setEngine d _ fun k => k
  all_goals exact h

theorem stepBoundary (h : p.Awake c) (d : Chamber) : (stepBoundary x expire d p).Awake c := by
  unfold Machine.stepBoundary
  dsimp only
  split
  · exact (h.setEngine d _ (by simp)).enterHold (x := x) hE (fun _ k => k.examineGrowth hE) d .engine false
  · split
    · split
      · exact (examineGrowth (p := p.setReservation d _) hE h).considerLine hE d
      · exact considerLine (p := p.setReservation d _) hE h d
    · exact examineGrowth (p := Plant.setGrowth _ _) hE ((h.releaseLine (x := x) hE d).waitFor (x := x) d .growth)

theorem endStep (h : p.Awake c) (d : Chamber) : (endStep x expire d p).Awake c := by
  unfold Machine.endStep
  exact stepBoundary hE (h.setEngine d _ (by simp)) d

theorem enterSafe (h : p.Awake c) (d : Chamber) : (enterSafe x expire d p).Awake c :=
  ((h.setEngine d { p.engine d with timer := none, counter := 0, awaited := .nothing } fun k => k).giveBack (x := x) hE
    (fun _ k => k.examineGrowth (x := x) hE) d).setEngine d _ (by simp)

theorem dwellEnds (h : p.Awake c) (d : Chamber) : (dwellEnds x expire d p).Awake c := by
  have hn : (p.notify x d .stepTimeout (p.engine d).step).Awake c := h
  unfold Machine.dwellEnds
  dsimp only
  split
  · split
    · split
      · exact hn.endStep hE d
      · exact hn.addSource hE d _ _
      · exact hn.enterSafe hE d
      · exact hn.setEngine d _ fun k => k
    · exact h.endStep hE d
  · exact h

theorem loseRing (h : p.Awake c) (d : Chamber) : (loseRing x expire d p).Awake c := by
  unfold Machine.loseRing
  split
  · exact h.addSource hE d _ _
  · exact h.addSource hE d _ _
  · exact h.addSource hE d _ _
  · unfold endIdleClaim
    split
    · exact h.releaseLine hE d
    · exact h
  · exact h
  · exact h

end Plant.Awake

theorem awake_expireWithin {c : Chamber} (x : Ctx) (n : Nat) (d : Chamber) (q : Plant) (h : q.Awake c) :
    (expireWithin x n d q).Awake c := by
  induction n generalizing d q with
  | zero => exact h
  | succ n ih => exact h.dwellEnds ih d

end Sys2Proof.Machine
end

