-- ==== Sys2Proof/Laws/Leaves.lean ====
section
/-! SUPPORT. What no operation of the engines and the arbiter changes: the arbiter's configuration, the configuration of the
notice slots, and every sequence range, which is kept or given up. Only START records a range, and it has no lemma here. -/

namespace Sys2Proof.Machine

/-- What no event of the engines and the arbiter other than START changes. -/
structure Plant.Leaves (p q : Plant) : Prop where
  budget : q.arbiter.budget = p.arbiter.budget
  allowances : q.arbiter.allowance = p.arbiter.allowance
  settleTime : q.arbiter.settleTime = p.arbiter.settleTime
  priority : q.arbiter.priority = p.arbiter.priority
  range : ∀ c, (q.engine c).range = (p.engine c).range ∨ (q.engine c).range = none
  cls : ∀ i : NoticeIndex, q.notices[i].cls = p.notices[i].cls
  enabled : ∀ i : NoticeIndex, q.notices[i].enabled = p.notices[i].enabled
  pending : ∀ i : NoticeIndex, p.notices[i].pending = true → q.notices[i].pending = true

namespace Plant.Leaves

variable {p q r : Plant} {x : Ctx} {expire : Expire} {d : Chamber}

theorem refl (p : Plant) : Leaves p p := ⟨rfl, rfl, rfl, rfl, fun _ => .inl rfl, fun _ => rfl, fun _ => rfl, fun _ h => h⟩

theorem trans (h : Leaves p q) (k : Leaves q r) : Leaves p r :=
  ⟨k.budget.trans h.budget, k.allowances.trans h.allowances, k.settleTime.trans h.settleTime, k.priority.trans h.priority,
    fun c => (k.range c).elim (fun e => (h.range c).imp e.trans e.trans) .inr, fun i => (k.cls i).trans (h.cls i),
    fun i => (k.enabled i).trans (h.enabled i), fun i hp => k.pending i (h.pending i hp)⟩

/-! ### The updates -/

theorem setEngine (h : Leaves p q) (d : Chamber) (e : Engine) (he : e.range = (q.engine d).range ∨ e.range = none) :
    Leaves p (q.setEngine d e) := by
  refine h.trans ⟨rfl, rfl, rfl, rfl, fun c => ?_, fun _ => rfl, fun _ => rfl, fun _ h => h⟩
  rw [Plant.engine_setEngine]
  split
  · next hd => exact hd ▸ he
  · exact .inl rfl

theorem setLine (h : Leaves p q) (l : LineState) (w : List Chamber) : Leaves p (q.setLine l w) :=
  ⟨h.budget, h.allowances, h.settleTime, h.priority, h.range, h.cls, h.enabled, h.pending⟩

theorem setGrowth (h : Leaves p q) (w : List GrowthRequest) : Leaves p (q.setGrowth w) :=
  ⟨h.budget, h.allowances, h.settleTime, h.priority, h.range, h.cls, h.enabled, h.pending⟩

theorem setReservation (h : Leaves p q) (d : Chamber) (v : Nat) : Leaves p (q.setReservation d v) :=
  ⟨h.budget, h.allowances, h.settleTime, h.priority, h.range, h.cls, h.enabled, h.pending⟩

theorem setPermit (h : Leaves p q) (d : Chamber) (l : Bool) : Leaves p (q.setPermit d l) :=
  ⟨h.budget, h.allowances, h.settleTime, h.priority, h.range, h.cls, h.enabled, h.pending⟩

theorem raiseAt (h : Leaves p q) (i : NoticeIndex) (n k : Nat) : Leaves p (q.raiseAt i n k) := by
  refine h.trans ⟨rfl, rfl, rfl, rfl, fun _ => .inl rfl, fun j => ?_, fun j => ?_, fun j hp => ?_⟩ <;>
    rw [Plant.raiseAt_notices] <;> split
  · next hij => subst hij; unfold NoticeSlot.occur; split <;> [rfl; split <;> rfl]
  · rfl
  · next hij => subst hij; unfold NoticeSlot.occur; split <;> [rfl; split <;> rfl]
  · rfl
  · next hij => subst hij; simp only [NoticeSlot.occur, hp]; split <;> [exact hp; rfl]
  · exact hp

theorem notify (h : Leaves p q) (c : Chamber) (n : ChamberNotice) (k : Nat) : Leaves p (q.notify x c n k) :=
  h.raiseAt _ _ _

/-! ### The arbiter and the engines -/

theorem claimLine (h : Leaves p q) (d : Chamber) : Leaves p (claimLine d q) := by
  unfold Machine.claimLine
  split
  · exact h.setLine _ _
  · split
    · exact h
    · exact h.setLine _ _
  · split
    · exact h
    · exact h.setLine _ _

theorem withdrawLine (h : Leaves p q) (d : Chamber) : Leaves p (withdrawLine d q) := h.setLine _ _

theorem withdrawBoth (h : Leaves p q) (d : Chamber) : Leaves p (withdrawBoth d q) := (h.withdrawLine d).setGrowth _

theorem waitFor (h : Leaves p q) (d : Chamber) (a : Awaited) : Leaves p (waitFor x d a q) := h.setEngine d _ (.inl (by rfl))

theorem finishSequence (h : Leaves p q) (d : Chamber) : Leaves p (finishSequence x d q) :=
  (h.setEngine d _ (.inr (by rfl))).notify _ _ _

variable (hE : ∀ d (q : Plant), Plant.Leaves q (expire d q))
include hE

theorem runStep (h : Leaves p q) (d : Chamber) : Leaves p (runStep x expire d q) := by
  unfold Machine.runStep
  dsimp only
  split
  · exact h.setEngine d _ (.inl (by rfl))
  · split
    · exact h.setEngine d _ (.inl (by rfl))
    · split
      · exact (h.setEngine d _ (.inl (by rfl))).trans (hE _ _)
      · exact h.setEngine d _ (.inl (by rfl))

theorem grantLine (h : Leaves p q) (d : Chamber) : Leaves p (grantLine x expire d q) := by
  unfold Machine.grantLine handLine
  split
  · exact (h.setLine _ _).runStep hE d
  · exact h.setLine _ _

theorem selectLine (h : Leaves p q) : Leaves p (selectLine x expire q) := by
  unfold Machine.selectLine
  split
  · exact h.setLine _ _
  · exact h.grantLine hE _

theorem releaseLine (h : Leaves p q) (d : Chamber) : Leaves p (releaseLine x expire d q) := by
  unfold Machine.releaseLine
  split
  · split
    · exact (h.setLine _ _).selectLine hE
    · exact h.setLine _ _
  · exact h

theorem endIdleClaim (h : Leaves p q) (d : Chamber) : Leaves p (endIdleClaim x expire d q) := by
  unfold Machine.endIdleClaim
  split
  · exact h.releaseLine hE d
  · exact h.withdrawLine d

theorem considerLine (h : Leaves p q) (d : Chamber) : Leaves p (considerLine x expire d q) := by
  unfold Machine.considerLine
  dsimp only
  split
  · exact (h.releaseLine hE d).finishSequence d
  · split
    · split
      · exact (h.claimLine d).runStep hE d
      · exact (h.claimLine d).waitFor d _
    · exact (h.releaseLine hE d).runStep hE d

theorem giveBack {examine : Plant → Plant} (hx : ∀ {q}, Plant.Leaves p q → Plant.Leaves p (examine q)) (h : Leaves p q)
    (d : Chamber) : Leaves p (giveBack x expire examine d q) := hx (((h.withdrawBoth d).releaseLine hE d).setReservation d _)

theorem enterHold {examine : Plant → Plant} (hx : ∀ {q}, Plant.Leaves p q → Plant.Leaves p (examine q)) (h : Leaves p q)
    (d : Chamber) (src : HoldSource) (dl : Bool) : Leaves p (enterHold x expire examine d src dl q) :=
  (((h.setEngine d _ (.inl (by rfl))).giveBack hE hx d).setEngine d _ (.inl (by rfl))).notify _ _ _

theorem examineHead {q' : Plant} (h : Leaves p q) (he : examineHead x expire q = some q') : Leaves p q' := by
  unfold Machine.examineHead at he
  split at he
  · cases he
  · next g rest _ =>
    split at he
    · dsimp only at he
      split at he <;> cases he
      · exact ((h.setReservation _ _).setGrowth _).considerLine hE _
      · exact (h.setReservation _ _).setGrowth _
    · split at he
      · cases he
        exact (h.enterHold (x := x) hE (examine := id) (fun k => k) g.chamber .engine false).notify _ _ _
      · cases he

theorem examineHeads (n : Nat) (h : Leaves p q) : Leaves p (examineHeads x expire n q) := by
  induction n generalizing q with
  | zero => exact h
  | succ n ih =>
    unfold Machine.examineHeads
    split
    · exact h
    · next q' he => exact ih (h.examineHead hE he)

theorem examineGrowth (h : Leaves p q) : Leaves p (examineGrowth x expire q) := h.examineHeads hE _

theorem addSource (h : Leaves p q) (d : Chamber) (src : HoldSource) (dl : Bool) :
    Leaves p (addSource x expire d src dl q) := by
  unfold Machine.addSource
  dsimp only
  split
  · exact h.enterHold hE (fun k => k.examineGrowth hE) d src dl
  · exact h.enterHold hE (fun k => k.examineGrowth hE) d src dl
  · exact h.setEngine d _ (.inl (by rfl))
  all_goals exact h

theorem stepBoundary (h : Leaves p q) (d : Chamber) : Leaves p (stepBoundary x expire d q) := by
  unfold Machine.stepBoundary
  dsimp only
  split
  · exact ((h.setEngine d _ (.inl (by rfl))).enterHold (x := x) hE (fun k => k.examineGrowth hE) d .engine false).notify _ _ _
  · split
    · have h1 := h.setReservation d (requestedReservation x d q)
      split
      · exact (h1.examineGrowth hE).considerLine hE d
      · exact h1.considerLine hE d
    · exact (((h.releaseLine hE d).waitFor d .growth).setGrowth _).examineGrowth hE

theorem endStep (h : Leaves p q) (d : Chamber) : Leaves p (endStep x expire d q) :=
  (h.setEngine d _ (.inl (by rfl))).stepBoundary hE d

theorem enterSafe (h : Leaves p q) (d : Chamber) : Leaves p (enterSafe x expire d q) := by
  have h1 := h.setEngine d { q.engine d with timer := none, counter := 0, awaited := .nothing } (.inl rfl)
  have h2 := h1.giveBack (x := x) hE (fun k => k.examineGrowth (x := x) hE) d
  exact ((h2.setEngine d _ (.inr (by rfl))).setPermit d false).notify _ _ _

theorem dwellEnds (h : Leaves p q) (d : Chamber) : Leaves p (dwellEnds x expire d q) := by
  unfold Machine.dwellEnds
  dsimp only
  split
  · split
    · have h1 := h.notify (x := x) d .stepTimeout (q.engine d).step
      split
      · exact h1.endStep hE d
      · exact h1.addSource hE d _ _
      · exact h1.enterSafe hE d
      · exact h1.setEngine d _ (.inl (by rfl))
    · exact h.endStep hE d
  · exact h

theorem leaveHold (h : Leaves p q) (d : Chamber) : Leaves p (leaveHold x expire d q) := by
  unfold Machine.leaveHold
  dsimp only
  split
  · exact h.stepBoundary hE d
  · exact (h.setEngine d _ (.inl (by rfl))).stepBoundary hE d

theorem removeSources (h : Leaves p q) (d : Chamber) (left : HoldSources) :
    Leaves p (removeSources x expire d left q) := by
  unfold Machine.removeSources
  dsimp only
  split
  · exact (h.setEngine d _ (.inl (by rfl))).leaveHold hE d
  · exact h.setEngine d _ (.inl (by rfl))

theorem evaluateCondition (h : Leaves p q) (d : Chamber) : Leaves p (evaluateCondition x expire d q) := by
  unfold Machine.evaluateCondition
  dsimp only
  split
  · split
    · split
      · exact (h.setEngine d _ (.inl (by rfl))).endStep hE d
      · exact h.setEngine d _ (.inl (by rfl))
    · exact h.setEngine d _ (.inl (by rfl))
  · exact h

theorem abortEngine (h : Leaves p q) (d : Chamber) : Leaves p (abortEngine x expire d q) := by
  have h1 := h.setEngine d { q.engine d with timer := none, counter := 0, awaited := .nothing } (.inl rfl)
  exact (h1.giveBack (x := x) hE (fun k => k.examineGrowth (x := x) hE) d).setEngine d _ (.inr (by rfl))

theorem releaseEngine (h : Leaves p q) (d : Chamber) : Leaves p (releaseEngine x expire d q) :=
  (((h.setEngine d { q.engine d with counter := 0 } (.inl rfl)).setReservation d _).examineGrowth hE).setEngine d _ (.inl (by rfl))

theorem loseRing (h : Leaves p q) (d : Chamber) : Leaves p (loseRing x expire d q) := by
  unfold Machine.loseRing
  split
  · exact h.addSource hE d _ _
  · exact h.addSource hE d _ _
  · exact h.addSource hE d _ _
  · exact h.endIdleClaim hE d
  · exact h
  · exact h

/-- START records the range of its chamber and leaves the rest. -/
theorem startEngine (d : Chamber) (first last : Nat) (p : Plant) : Plant.Leaves
    (p.setEngine d { p.engine d with range := some (first, last) }) (startEngine x expire d first last p) := by
  refine Plant.Leaves.stepBoundary hE (Leaves.setLine ?_ _ _) d
  refine ⟨rfl, rfl, rfl, rfl, fun c => ?_, fun _ => rfl, fun _ => rfl, fun _ h => h⟩
  by_cases hc : d = c
  · subst hc; simp
  · simp [hc]

end Plant.Leaves

theorem leaves_expireWithin (x : Ctx) (n : Nat) (d : Chamber) (q : Plant) : Plant.Leaves q (expireWithin x n d q) := by
  induction n generalizing d q with
  | zero => exact .refl q
  | succ n ih => exact (Plant.Leaves.refl q).dwellEnds (fun d q => ih d q) d

theorem leaves_expireNow (x : Ctx) (d : Chamber) (q : Plant) : Plant.Leaves q (expireNow x d q) := leaves_expireWithin x 4 d q

end Sys2Proof.Machine
end

