-- ==== Sys2Proof/Laws/Settling.lean ====
section
/-! SUPPORT. A line that is SETTLING stays so, with its expiry, through every operation of the engines and the arbiter: no chamber
holds it, so none gives it up, and a claim only joins the queue (R119, R121). With it, what a chamber hands back to the arbiter at
a hold or SAFE entry or an ABORT (R122, R130, R131). -/

namespace Sys2Proof.Machine

/-- The line is SETTLING with expiry t. -/
def Plant.Settles (t : Nat) (p : Plant) : Prop := p.arbiter.line = .settling t

namespace Plant.Settles

variable {t : Nat} {p : Plant} {x : Ctx} {expire : Expire}

theorem not_holds (h : p.Settles t) (d : Chamber) : ¬p.holds d = true := by
  rw [Plant.holds_iff, show p.arbiter.line = _ from h]
  simp

theorem claimLine (h : p.Settles t) (d : Chamber) : (claimLine d p).Settles t := by
  have hl : p.arbiter.line = .settling t := h
  unfold Machine.claimLine
  simp only [hl]
  split
  · exact h
  · rfl

theorem releaseLine (h : p.Settles t) (d : Chamber) : releaseLine x expire d p = p := by
  unfold Machine.releaseLine
  rw [if_neg (h.not_holds d)]

variable (hE : ∀ d (q : Plant), q.Settles t → (expire d q).Settles t)
include hE

theorem runStep (h : p.Settles t) (d : Chamber) : (runStep x expire d p).Settles t := by
  unfold Machine.runStep
  dsimp only
  split
  · exact h
  · split
    · exact h
    · split
      · exact hE _ _ h
      · exact h

theorem considerLine (h : p.Settles t) (d : Chamber) : (considerLine x expire d p).Settles t := by
  unfold Machine.considerLine
  dsimp only
  rw [h.releaseLine]
  split
  · exact h
  · split
    · split
      · exact (h.claimLine d).runStep hE d
      · exact h.claimLine d
    · exact h.runStep hE d

omit hE in
theorem giveBack {examine : Plant → Plant} (hx : ∀ q : Plant, q.Settles t → (examine q).Settles t) (h : p.Settles t)
    (d : Chamber) : (giveBack x expire examine d p).Settles t := by
  unfold Machine.giveBack
  rw [releaseLine (t := t) (p := Machine.withdrawBoth d p) h]
  exact hx _ h

omit hE in
theorem enterHold {examine : Plant → Plant} (hx : ∀ q : Plant, q.Settles t → (examine q).Settles t) (h : p.Settles t)
    (d : Chamber) (src : HoldSource) (dl : Bool) : (enterHold x expire examine d src dl p).Settles t :=
  giveBack (x := x) (expire := expire) hx (p := p.setEngine d _) h d

theorem examineHead {q : Plant} (h : p.Settles t) (he : examineHead x expire p = some q) : q.Settles t := by
  unfold Machine.examineHead at he
  split at he
  · cases he
  · next g rest _ =>
    split at he
    · dsimp only at he
      split at he <;> cases he
      · exact considerLine (p := (p.setReservation g.chamber g.requested).setGrowth rest) hE h _
      · exact h
    · split at he
      · cases he
        exact h.enterHold (x := x) (examine := id) (fun _ k => k) g.chamber .engine false
      · cases he

theorem examineHeads (n : Nat) (h : p.Settles t) : (examineHeads x expire n p).Settles t := by
  induction n generalizing p with
  | zero => exact h
  | succ n ih =>
    unfold Machine.examineHeads
    split
    · exact h
    · next q' he => exact ih (h.examineHead hE he)

theorem examineGrowth (h : p.Settles t) : (examineGrowth x expire p).Settles t := h.examineHeads hE _

theorem addSource (h : p.Settles t) (d : Chamber) (src : HoldSource) (dl : Bool) :
    (addSource x expire d src dl p).Settles t := by
  unfold Machine.addSource
  dsimp only
  split
  · exact h.enterHold (fun _ k => k.examineGrowth hE) d src dl
  · exact h.enterHold (fun _ k => k.examineGrowth hE) d src dl
  all_goals exact h

theorem stepBoundary (h : p.Settles t) (d : Chamber) : (stepBoundary x expire d p).Settles t := by
  unfold Machine.stepBoundary
  dsimp only
  split
  · exact enterHold (p := p.setEngine d _) (x := x) (fun _ k => k.examineGrowth hE) h d .engine false
  · split
    · split
      · exact (examineGrowth (p := p.setReservation d _) hE h).considerLine hE d
      · exact considerLine (p := p.setReservation d _) hE h d
    · rw [h.releaseLine]
      exact examineGrowth hE h

omit hE in
theorem setEngine (h : p.Settles t) (d : Chamber) (e : Engine) : (p.setEngine d e).Settles t := h

theorem endStep (h : p.Settles t) (d : Chamber) : (endStep x expire d p).Settles t := (h.setEngine d _).stepBoundary hE d

theorem enterSafe (h : p.Settles t) (d : Chamber) : (enterSafe x expire d p).Settles t :=
  giveBack (x := x) (expire := expire) (fun _ k => k.examineGrowth (x := x) hE) (p := p.setEngine d _) h d

theorem dwellEnds (h : p.Settles t) (d : Chamber) : (dwellEnds x expire d p).Settles t := by
  have hn : (p.notify x d .stepTimeout (p.engine d).step).Settles t := h
  unfold Machine.dwellEnds
  dsimp only
  split
  · split
    · split
      · exact hn.endStep hE d
      · exact hn.addSource hE d _ _
      · exact hn.enterSafe hE d
      · exact hn.setEngine d _
    · exact h.endStep hE d
  · exact h

theorem loseRing (h : p.Settles t) (d : Chamber) : (loseRing x expire d p).Settles t := by
  unfold Machine.loseRing
  split
  · exact h.addSource hE d _ _
  · exact h.addSource hE d _ _
  · exact h.addSource hE d _ _
  · unfold endIdleClaim
    split
    · rw [h.releaseLine]; exact h
    · exact h
  · exact h
  · exact h

end Plant.Settles

theorem settles_expireWithin {t : Nat} (x : Ctx) (n : Nat) (d : Chamber) (q : Plant) (h : q.Settles t) :
    (expireWithin x n d q).Settles t := by
  induction n generalizing d q with
  | zero => exact h
  | succ n ih => exact h.dwellEnds ih d

/-! ### What a chamber hands back -/

section
variable {x : Ctx} {expire : Expire} {c : Chamber} {p q : Plant} {e : Engine}

/-- The release of the line (R122, R123). -/
theorem releaseLine_eq (x : Ctx) (expire : Expire) (c : Chamber) (p : Plant) :
    releaseLine x expire c p = p.lineLeft x expire c := by
  unfold releaseLine Plant.lineLeft Plant.freedLine
  split
  · next h =>
    rw [Plant.holds_iff] at h
    simp only [h, true_and, if_true]
    rfl
  · next h =>
    rw [Plant.holds_iff] at h
    simp only [h, false_and, if_false]

/-- A line that the chamber held, left with a settle time. -/
theorem Plant.lineLeft_settles (hl : p.arbiter.line = .granted c) (hs : p.arbiter.settleTime ≠ 0) :
    (p.lineLeft x expire c).Settles (x.now + p.arbiter.settleTime * 1000) := by
  unfold Plant.lineLeft
  rw [if_neg (by simp [hs])]
  unfold Plant.freedLine
  rw [if_pos hl]
  rfl

variable (hE : ∀ (q r : Plant) d, d ≠ c → Plant.Spares c q r → Plant.Spares c q (expire d r))
  (hS : ∀ t d (q : Plant), q.Settles t → (expire d q).Settles t)

include hE in
theorem giveBack_eq (e : Engine) (p : Plant) :
    giveBack x expire (examineGrowth x expire) c (p.setEngine c e) = p.handedBack x expire c e := by
  have ha := (releaseLine_rests (x := x) hE (out_withdrawBoth c (p.setEngine c e))).allowance
  unfold giveBack returnReservation Plant.handedBack
  rw [ha, releaseLine_eq]
  rfl

include hE hS in
/-- An event that hands back what the chamber has and then changes its own engine, permit and notices alone. -/
theorem Plant.HandsBack.of (ha : q.arbiter = (giveBack x expire (examineGrowth x expire) c (p.setEngine c e)).arbiter)
    (he : ∀ d, d ≠ c → q.engine d = (giveBack x expire (examineGrowth x expire) c (p.setEngine c e)).engine d) :
    p.HandsBack x expire c e q := by
  rw [giveBack_eq hE] at ha
  refine ⟨fun hl hs => ?_, ha, fun d ne => by rw [he d ne, giveBack_eq hE]⟩
  rw [ha]
  refine Plant.Settles.examineGrowth (fun d q => hS _ d q) ?_
  exact Plant.lineLeft_settles (x := x) (expire := expire) (c := c) hl hs

/-- The engine a chamber hands back with replaces the one it had. -/
theorem Plant.HandsBack.setEngine_self {f : Engine} (h : (p.setEngine c f).HandsBack x expire c e q) :
    p.HandsBack x expire c e q := by
  have hq : (p.setEngine c f).handedBack x expire c e = p.handedBack x expire c e := by
    unfold Plant.handedBack
    rw [Plant.setEngine_setEngine]
    rfl
  exact ⟨h.settles, by rw [h.arbiter, hq], fun d ne => by rw [h.engines d ne, hq]⟩

theorem Plant.HandsBack.notify {n : ChamberNotice} {k : Nat} (h : p.HandsBack x expire c e q) :
    p.HandsBack x expire c e (q.notify x c n k) := ⟨h.settles, h.arbiter, h.engines⟩

include hE hS in
/-- Hold entry (R70). -/
theorem enterHold_handsBack (src : HoldSource) (dl : Bool) (p : Plant) : p.HandsBack x expire c
    { p.engine c with hold := some ((p.engine c).writeHold x.now (x.stepRecord (p.engine c).step) dl)
                      timer := none, counter := 0, awaited := .nothing }
    (enterHold x expire (examineGrowth x expire) c src dl p) :=
  .of hE hS rfl fun _ ne => Plant.engine_setEngine_ne _ _ ne.symm

include hE hS in
/-- SAFE entry (R61). -/
theorem enterSafe_handsBack (p : Plant) : p.HandsBack x expire c
    { p.engine c with timer := none, counter := 0, awaited := .nothing } (enterSafe x expire c p) :=
  .of hE hS rfl fun _ ne => Plant.engine_setEngine_ne _ _ ne.symm

include hE hS in
/-- ABORT (R63). -/
theorem abortEngine_handsBack (p : Plant) : p.HandsBack x expire c
    { p.engine c with timer := none, counter := 0, awaited := .nothing } (abortEngine x expire c p) :=
  .of hE hS rfl fun _ ne => Plant.engine_setEngine_ne _ _ ne.symm

end

end Sys2Proof.Machine
end

