-- ==== Sys2Proof/Laws/Boundary.lean ====
section
/-! SUPPORT. The step boundary of a chamber that comes to its step with no hold pending, said once whole (R45 to R50), and the step
ends that come to it. -/

namespace Sys2Proof.Machine

variable {x : Ctx} {expire : Expire} {c d : Chamber} {p q r : Plant}

/-! ### Notices raised -/

theorem Plant.Raised.leaves {n : ChamberNotice} (h : p.Raised c n) (k : Plant.Leaves p q) : q.Raised c n := by
  intro he
  rw [k.enabled] at he
  exact k.pending _ (h he)

theorem Plant.raised_notify (x : Ctx) (c : Chamber) (n : ChamberNotice) (k : Nat) (p : Plant) :
    (p.notify x c n k).Raised c n := by
  intro he
  unfold Plant.notify at he ⊢
  rw [Plant.raiseAt_notices] at he ⊢
  simp only [if_true] at he ⊢
  have hk : (p.notices[noticeSlot c n]).enabled = true := by
    unfold NoticeSlot.occur at he
    split at he
    · exact he
    · split at he <;> exact he
  unfold NoticeSlot.occur
  rw [if_neg (by simp only [hk]; decide)]
  split
  · assumption
  · rfl

theorem Plant.Raised.notify {n : ChamberNotice} (h : p.Raised c n) (m : ChamberNotice) (k : Nat) :
    (p.notify x c m k).Raised c n :=
  h.leaves ((Plant.Leaves.refl p).notify c m k)

/-! ### The line considered -/

/-- A claim of the line with no hold pending (R48, R121). -/
theorem considerLine_claims (h : p.Out c) (hh : (p.engine c).hold = none)
    (hend : (x.stepRecord (p.engine c).step).isEnd = false)
    (hcl : (x.stepRecord (p.engine c).step).claimsRoughing = true) :
    (p.arbiter.line = .granted c ∨ p.arbiter.line = .free →
      considerLine x expire c p = (p.setLine (.granted c) p.arbiter.queue).setEngine c
        ((p.engine c).runFresh x.now (x.stepRecord (p.engine c).step) (p.engine c).outputTable)) ∧
    (p.arbiter.line ≠ .granted c → p.arbiter.line ≠ .free →
      considerLine x expire c p = (p.setLine p.arbiter.line (p.arbiter.queue ++ [c])).setEngine c
        { p.engine c with state := .waiting, awaited := .line }) := by
  have hq := h.1
  constructor
  · intro hl
    unfold considerLine
    simp only [hend, hcl, Bool.false_eq_true, if_false, if_true]
    have hc : claimLine c p = p.setLine (.granted c) p.arbiter.queue := by
      unfold claimLine
      rcases hl with hl | hl
      · rw [hl]; simp only [true_or, if_true]; rw [← hl]; rfl
      · rw [hl]
    rw [hc, if_pos (by rw [Plant.holds_iff]; rfl)]
    unfold runStep
    have : (p.setLine (.granted c) p.arbiter.queue).engine c = p.engine c := rfl
    simp only [this, hh]
  · intro h1 h2
    unfold considerLine
    simp only [hend, hcl, Bool.false_eq_true, if_false, if_true]
    have hc : claimLine c p = p.setLine p.arbiter.line (p.arbiter.queue ++ [c]) := by
      unfold claimLine
      split
      · next k => exact absurd k h2
      · next o k =>
        have : o ≠ c := fun ho => h1 (ho ▸ k)
        simp [this, hq]
      · simp [hq]
    have hn : ¬(p.setLine p.arbiter.line (p.arbiter.queue ++ [c])).holds c = true := by
      rw [Plant.holds_iff]; exact h1
    rw [hc, if_neg hn]
    unfold waitFor
    have : (p.setLine p.arbiter.line (p.arbiter.queue ++ [c])).engine c = p.engine c := rfl
    simp only [this, hh]

/-- The release of the line by a chamber with a settle time, or that does not hold it (R122). -/
theorem releaseLine_settles (hs : p.arbiter.line = .granted c → p.arbiter.settleTime ≠ 0) :
    releaseLine x expire c p = p.setLine (p.freedLine x c) p.arbiter.queue := by
  unfold releaseLine Plant.freedLine
  split
  · next k =>
    rw [Plant.holds_iff] at k
    rw [if_neg (hs k), if_pos k]
  · next k =>
    rw [Plant.holds_iff] at k
    rw [if_neg k]; rfl

/-- END raises SEQUENCE_DONE (R50). -/
theorem considerLine_raises (hend : (x.stepRecord (p.engine c).step).isEnd = true) :
    (considerLine x expire c p).Raised c .sequenceDone := by
  unfold considerLine
  simp only [hend, if_true]
  exact Plant.raised_notify _ _ _ _ _

/-- An examination of an empty queue, or of one whose head neither fits nor is stuck, ends at once (R129). -/
theorem examineGrowth_ends (h : ∀ g rest, p.arbiter.growth = g :: rest → headFits p g = false ∧ headStuck p g = false) :
    examineGrowth x expire p = p := by
  have he : examineHead x expire p = none := by
    unfold examineHead
    split
    · rfl
    · next g rest hg =>
      obtain ⟨h1, h2⟩ := h g rest hg
      rw [if_neg (by simp [h1]), if_neg (by simp [h2])]
  unfold examineGrowth examineHeads
  rw [he]

/-- A chamber that neither holds nor claims the line leaves the arbiter as it was (R48, R50). -/
theorem considerLine_arbiter (hh : (p.engine c).hold = none) (hl : p.arbiter.line ≠ .granted c)
    (hs : (x.stepRecord (p.engine c).step).isEnd = true ∨ (x.stepRecord (p.engine c).step).claimsRoughing = false) :
    (considerLine x expire c p).arbiter = p.arbiter := by
  have hr : releaseLine x expire c p = p := by
    unfold releaseLine
    rw [if_neg (by rw [Plant.holds_iff]; exact hl)]
  unfold considerLine
  dsimp only
  rw [hr]
  split
  · rfl
  · next he =>
    rw [if_neg (by simp [hs.resolve_left he])]
    unfold runStep
    simp only [hh]
    rfl

/-- The step as it is entered does not depend on what the boundary did before it, if the engine and the step stand as before. -/
theorem Plant.StepRuns.congr {p' : Plant} (h : p'.StepRuns x c q) (he : p'.engine c = p.engine c) : p.StepRuns x c q :=
  ⟨h.out, by have := h.engine; dsimp only at this ⊢; rw [he] at this; exact this⟩

theorem Plant.StepFinishes.congr {p' : Plant} (h : p'.StepFinishes x c q) (he : p'.engine c = p.engine c) :
    p.StepFinishes x c q :=
  ⟨h.out, h.line, h.notice, by have := h.engine; dsimp only at this ⊢; rw [he] at this; exact this⟩

/-- The plant that the line considered leaves of a step that does not claim it: the line left, the engine, and at END its notice
(R48 to R50, R122). -/
theorem considerLine_leaves (hE : ∀ (q r : Plant) d, d ≠ c → Plant.Spares c q r → Plant.Spares c q (expire d r))
    (h : p.Out c) (hh : (p.engine c).hold = none) :
    let step := x.stepRecord (p.engine c).step
    let q := considerLine x expire c p
    (step.isEnd = true → q = ((p.lineLeft x expire c).setEngine c (q.engine c)).raiseAt (noticeSlot c .sequenceDone)
      (p.engine c).step x.cycle) ∧
    (step.isEnd = false → step.claimsRoughing = false → q = (p.lineLeft x expire c).setEngine c (q.engine c)) := by
  intro step q
  have k := (releaseLine_rests (x := x) hE h).engine
  refine ⟨fun hend => ?_, fun hend hcl => ?_⟩
  · have hq : q = considerLine x expire c p := rfl
    unfold considerLine finishSequence at hq
    simp only [show (x.stepRecord (p.engine c).step).isEnd = true from hend, if_true, k] at hq
    rw [hq, releaseLine_eq]
    simp only [Plant.notify_engine, Plant.engine_setEngine_self]
    rfl
  · have hq : q = considerLine x expire c p := rfl
    unfold considerLine runStep at hq
    simp only [show (x.stepRecord (p.engine c).step).isEnd = false from hend,
      show (x.stepRecord (p.engine c).step).claimsRoughing = false from hcl, Bool.false_eq_true, if_false, k, hh] at hq
    rw [hq, releaseLine_eq, Plant.engine_setEngine_self]

/-- What is considered of the line, by the step (R48 to R50). -/
theorem considerLine_takes (hE : ∀ (q r : Plant) d, d ≠ c → Plant.Spares c q r → Plant.Spares c q (expire d r)) (h : p.Out c) (hh : (p.engine c).hold = none) :
    let step := x.stepRecord (p.engine c).step
    let q := considerLine x expire c p
    (q.permits[c] = p.permits[c] ∧ q.reservation c = p.reservation c) ∧
    (step.isEnd = true → p.StepFinishes x c q) ∧
    (step.isEnd = false → step.claimsRoughing = false → p.StepRuns x c q ∧ q.arbiter.line ≠ .granted c) ∧
    (step.isEnd = false → step.claimsRoughing = true →
      (p.arbiter.line = .granted c ∨ p.arbiter.line = .free → p.StepRuns x c q ∧ q.arbiter.line = .granted c) ∧
      (p.arbiter.line ≠ .granted c → p.arbiter.line ≠ .free →
        p.StepWaits c .line q ∧ q.arbiter.line = p.arbiter.line ∧ q.arbiter.queue = p.arbiter.queue ++ [c])) := by
  intro step q
  have hfin : step.isEnd = true → p.StepFinishes x c q ∧ q.permits[c] = p.permits[c] ∧ q.reservation c = p.reservation c := by
    intro hend
    have k := considerLine_finishes (x := x) hE h hh hend
    refine ⟨⟨k.out, k.line, considerLine_raises hend, ?_⟩, k.permit, k.reservation⟩
    dsimp only
    rw [show q.engine c = _ from k.engine, hh]
  have hrun : step.isEnd = false → step.claimsRoughing = false →
      (p.StepRuns x c q ∧ q.arbiter.line ≠ .granted c) ∧ q.permits[c] = p.permits[c] ∧ q.reservation c = p.reservation c := by
    intro hend hcl
    have k := considerLine_runs (x := x) hE h hh hend hcl
    refine ⟨⟨⟨k.out, ?_⟩, k.line⟩, k.permit, k.reservation⟩
    dsimp only
    rw [show q.engine c = _ from k.engine]
    unfold Engine.runFresh
    rw [hh]
  have hclaim : step.isEnd = false → step.claimsRoughing = true →
      ((p.arbiter.line = .granted c ∨ p.arbiter.line = .free → p.StepRuns x c q ∧ q.arbiter.line = .granted c) ∧
      (p.arbiter.line ≠ .granted c → p.arbiter.line ≠ .free →
        p.StepWaits c .line q ∧ q.arbiter.line = p.arbiter.line ∧ q.arbiter.queue = p.arbiter.queue ++ [c])) ∧
      q.permits[c] = p.permits[c] ∧ q.reservation c = p.reservation c := by
    intro hend hcl
    have k := considerLine_claims (x := x) (expire := expire) h hh hend hcl
    by_cases h1 : p.arbiter.line = .granted c ∨ p.arbiter.line = .free
    · have hq : q = _ := k.1 h1
      rw [hq]
      refine ⟨⟨fun _ => ⟨⟨h, ?_⟩, rfl⟩, fun h2 h3 => absurd h1 (by simp [h2, h3])⟩, rfl, rfl⟩
      dsimp only
      rw [Plant.engine_setEngine_self]
      unfold Engine.runFresh
      rw [hh]
    · simp only [not_or] at h1
      have hq : q = _ := k.2 h1.1 h1.2
      rw [hq]
      refine ⟨⟨fun h2 => absurd h2 (by simp [h1]), fun _ _ => ⟨?_, rfl, rfl⟩⟩, rfl, rfl⟩
      unfold Plant.StepWaits
      rw [Plant.engine_setEngine_self]
  refine ⟨?_, fun a => (hfin a).1, fun a b => (hrun a b).1, fun a b => (hclaim a b).1⟩
  cases he : step.isEnd
  · cases hc : step.claimsRoughing
    · exact (hrun he hc).2
    · exact (hclaim he hc).2
  · exact (hfin he).2

/-- The step boundary with no hold pending (R45 to R50). -/
theorem stepBoundary_takes (hEd : ∀ (d : Chamber) (q r : Plant) e, e ≠ d → Plant.Spares d q r → Plant.Spares d q (expire e r))
    (hS : ∀ t d (q : Plant), q.Settles t → (expire d q).Settles t)
    (h : p.Out c) (hh : (p.engine c).hold = none) : p.TakesBoundary x expire c (stepBoundary x expire c p) := by
  have hE := fun (q r : Plant) (d : Chamber) => hEd c q r d
  have hnf : ∀ b : Bool, neverFits p c (requestedReservation x c p) = b ↔ (b = true ↔ ¬p.MayFit x c) := by
    intro b
    unfold neverFits Plant.MayFit
    cases b <;> simp
  have hrefuse : ¬p.MayFit x c → p.StepRefused x expire c (stepBoundary x expire c p) ∧
      (stepBoundary x expire c p).permits[c] = p.permits[c] := by
    intro hm
    have hb := (hnf true).2 (by simp [hm])
    unfold stepBoundary
    simp only [hb, if_true]
    have k := enterHold_rests (x := x) hE (examine := examineGrowth x expire) (fun q => examineGrowth_spares hE) .engine false
      (p.setEngine c { p.engine c with state := .waiting, awaited := .nothing })
    have k2 := k.notify (x := x) c .loadRefused (p.engine c).step
    refine ⟨⟨k2.out, k2.line, k2.reservation, ⟨Plant.raised_notify _ _ _ _ _, ?_⟩, ?_, ?_⟩, k2.permit⟩
    · refine Plant.Raised.notify ?_ _ _
      unfold enterHold
      exact Plant.raised_notify _ _ _ _ _
    · have m := enterHold_handsBack (x := x) hE hS .engine false
        (p.setEngine c { p.engine c with state := .waiting, awaited := .nothing })
      have m2 := m.setEngine_self.notify (n := .loadRefused) (k := (p.engine c).step)
      simpa [Plant.engine_setEngine_self, Engine.writeHold, hh] using m2
    · dsimp only
      rw [k2.engine, Plant.engine_setEngine_self]
      simp only [Engine.writeHold, hh, HoldSources.insert, holdOutputs]
      rfl
  have hsettle : p.MayFit x c → requestedReservation x c p ≤ p.reservation c →
      stepBoundary x expire c p = considerLine x expire c (p.shrunk x expire c) := by
    intro hm hw
    have hb := (hnf false).2 (by simp [hm])
    unfold stepBoundary Plant.shrunk
    simp only [hb, hw, if_true, Bool.false_eq_true, if_false]
  have hs : Plant.Spares c (p.setReservation c (requestedReservation x c p)) (p.shrunk x expire c) :=
    settled_spares (x := x) hE h (requestedReservation x c p)
  have halone : requestedReservation x c p = p.reservation c ∨
      requestedReservation x c p < p.reservation c ∧ p.arbiter.growth = [] →
      p.shrunk x expire c = p.setReservation c (requestedReservation x c p) := by
    unfold Plant.shrunk
    rintro (hk | ⟨hk, hg⟩)
    · rw [if_neg (by omega)]
    · rw [if_pos hk]
      exact examineGrowth_ends (fun g rest hgr => by
        rw [show p.arbiter.growth = g :: rest from hgr] at hg; cases hg)
  have heng : (p.shrunk x expire c).engine c = p.engine c := hs.engine
  have hline : (p.shrunk x expire c).arbiter.line = .granted c ↔ p.arbiter.line = .granted c := hs.line
  have ht := considerLine_takes (x := x) hE (p := p.shrunk x expire c) hs.out (by rw [heng, hh])
  have hv := considerLine_leaves (x := x) hE (p := p.shrunk x expire c) hs.out (by rw [heng, hh])
  rw [heng] at ht hv
  have hgrow : p.MayFit x c → p.reservation c < requestedReservation x c p →
      stepBoundary x expire c p = examineGrowth x expire
        ((waitFor x c .growth (releaseLine x expire c p)).setGrowth
          ((waitFor x c .growth (releaseLine x expire c p)).arbiter.growth ++ [⟨c, requestedReservation x c p⟩])) := by
    intro hm hw
    have hb := (hnf false).2 (by simp [hm])
    unfold stepBoundary
    simp only [hb, show ¬requestedReservation x c p ≤ p.reservation c by omega, Bool.false_eq_true, if_false]
  have hask : (p.arbiter.line = .granted c → p.arbiter.settleTime ≠ 0) →
      (waitFor x c .growth (releaseLine x expire c p)).setGrowth
          ((waitFor x c .growth (releaseLine x expire c p)).arbiter.growth ++ [⟨c, requestedReservation x c p⟩])
        = p.asking x c := by
    intro hs
    rw [releaseLine_settles hs]
    unfold waitFor Plant.asking
    have : (p.setLine (p.freedLine x c) p.arbiter.queue).engine c = p.engine c := rfl
    simp only [this, hh]
    rfl
  have hsp : p.arbiter.line = .granted c → p.arbiter.settleTime ≠ 0 →
      ((p.shrunk x expire c).lineLeft x expire c).Settles (x.now + p.arbiter.settleTime * 1000) := by
    intro hl hn
    have k := hs.settleTime
    rw [show p.arbiter.settleTime = (p.shrunk x expire c).arbiter.settleTime from k.symm]
    exact Plant.lineLeft_settles (hline.2 hl) (by rw [k]; exact hn)
  refine ⟨fun d ne hd => (Plant.Spares.refl hd).stepBoundary (fun e q => hEd d p q e) (Ne.symm ne), hrefuse, ?_, ?_, ?_, ?_, ?_, ?_, ?_, ?_,
    ?_, ?_⟩
  · intro hm hw
    rw [hsettle hm hw]
    exact ⟨ht.1.2.trans (hs.reservation.trans (by simp)), ht.1.1.trans hs.permit⟩
  · intro hm hw hend
    rw [hsettle hm hw]
    exact ⟨(ht.2.1 hend).congr heng, hv.1 hend⟩
  · intro hm hw hend hcl
    rw [hsettle hm hw]
    have k := ht.2.2.1 hend hcl
    exact ⟨k.1.congr heng, k.2, hv.2 hend hcl⟩
  · intro hm hw hor hl hn
    rw [hsettle hm hw]
    have k := hsp hl hn
    cases hend : (x.stepRecord (p.engine c).step).isEnd with
    | true => rw [hv.1 hend]; exact k
    | false => rw [hv.2 hend (hor.resolve_left (by simp [hend]))]; exact k
  · intro hm hw hend hcl hl
    rw [hsettle hm hw]
    have k := (ht.2.2.2 hend hcl).1 (.inl (hline.2 hl))
    have m := (considerLine_claims (x := x) (expire := expire) hs.out (by rw [heng, hh]) (by rw [heng]; exact hend)
      (by rw [heng]; exact hcl)).1 (.inl (hline.2 hl))
    refine ⟨k.1.congr heng, k.2, ?_⟩
    rw [m, Plant.engine_setEngine_self, ← hline.2 hl]
    rfl
  · intro hm hw hend hcl hl
    rw [hsettle hm hw]
    have m := considerLine_claims (x := x) (expire := expire) hs.out (by rw [heng, hh]) (by rw [heng]; exact hend)
      (by rw [heng]; exact hcl)
    refine ⟨fun hf => ?_, fun hf => ?_⟩
    · have k := (ht.2.2.2 hend hcl).1 (.inr hf)
      refine ⟨k.1.congr heng, k.2, ?_⟩
      rw [m.1 (.inr hf), Plant.engine_setEngine_self]
      rfl
    · obtain ⟨k1, -, k3⟩ := (ht.2.2.2 hend hcl).2 (fun k => hl (hline.1 k)) hf
      refine ⟨?_, by rw [k3]; simp, ?_⟩
      · unfold Plant.StepWaits at k1 ⊢
        rw [k1, heng]
      · rw [m.2 (fun k => hl (hline.1 k)) hf, Plant.engine_setEngine_self]
        rfl
  · intro hm hend hcl hw
    rw [hsettle hm (hw.elim (fun k => by omega) fun k => by omega)]
    have hm' := halone hw
    have hl : (p.shrunk x expire c).arbiter.line = p.arbiter.line := by rw [hm']; rfl
    have hqu : (p.shrunk x expire c).arbiter.queue = p.arbiter.queue := by rw [hm']; rfl
    refine ⟨fun hf => ((ht.2.2.2 hend hcl).1 (.inr (hl.trans hf))).imp (fun k => k.congr heng) id, fun h1 h2 => ?_⟩
    obtain ⟨k1, k2, k3⟩ := (ht.2.2.2 hend hcl).2 (by rw [hl]; exact h2) (by rw [hl]; exact h1)
    refine ⟨?_, k2.trans hl, k3.trans (by rw [hqu])⟩
    unfold Plant.StepWaits at k1 ⊢
    rw [k1, heng]
  · intro hm hw
    have hg := hgrow hm hw
    have k := (releaseLine_rests (x := x) hE h).engine
    unfold waitFor at hg
    simp only [k, hh] at hg
    rw [releaseLine_eq] at hg
    refine ⟨by rw [hg]; simp only [hh]; rfl, fun hl hn => ?_⟩
    rw [hg]
    exact Plant.Settles.examineGrowth (fun d q => hS _ d q) (Plant.lineLeft_settles (x := x) (expire := expire) hl hn)
  · intro hm hw hs head rest hg h1 h2
    rw [hgrow hm hw, hask hs]
    refine examineGrowth_ends fun g r hgr => ?_
    rw [hg] at hgr
    cases hgr
    exact ⟨h1, h2⟩
  · intro hm hw hs hg hfit
    let m := ((p.asking x c).setReservation c (requestedReservation x c p)).setGrowth []
    have hme : m.engine c = { p.engine c with state := .waiting, awaited := .growth } := by
      show (p.setEngine c _).engine c = _
      rw [Plant.engine_setEngine_self]
    have hml : m.arbiter.line = p.freedLine x c := rfl
    have hmn : m.arbiter.line ≠ .granted c := by
      rw [hml]; unfold Plant.freedLine; split
      · intro k; cases k
      · assumption
    have ht := considerLine_takes (x := x) hE (p := m) ⟨h.1, fun g hg => by cases hg⟩ (by rw [hme]; exact hh)
    have hgn : (considerLine x expire c m).arbiter.growth = [] := by
      by_cases hend : (x.stepRecord (m.engine c).step).isEnd = true ∨ (x.stepRecord (m.engine c).step).claimsRoughing = false
      · rw [considerLine_arbiter (by rw [hme]; exact hh) hmn hend]; rfl
      · simp only [not_or, Bool.not_eq_true, Bool.not_eq_false] at hend
        have hc := considerLine_claims (x := x) (expire := expire) (p := m) ⟨h.1, fun g hg => by cases hg⟩
          (by rw [hme]; exact hh) hend.1 hend.2
        by_cases hf : m.arbiter.line = .free
        · rw [hc.1 (.inr hf)]; rfl
        · rw [hc.2 hmn hf]; rfl
    have hq : stepBoundary x expire c p = considerLine x expire c m := by
      rw [hgrow hm hw, hask hs]
      have hga : (p.asking x c).arbiter.growth = [⟨c, requestedReservation x c p⟩] := by
        unfold Plant.asking; simp [hg]
      have hh1 : examineHead x expire (p.asking x c) = some (considerLine x expire c m) := by
        unfold examineHead
        rw [hga]
        dsimp only
        rw [if_pos (by unfold headFits; exact decide_eq_true hfit), if_pos]
        show (m.engine c).state = .waiting ∧ (m.engine c).awaited = .growth
        rw [hme]
        exact ⟨rfl, rfl⟩
      unfold examineGrowth
      rw [hga]
      show examineHeads x expire (5 + 1) _ = _
      unfold examineHeads
      rw [hh1]
      dsimp only
      unfold examineHeads examineHead
      rw [hgn]
    have hst : (m.engine c).step = (p.engine c).step := by rw [hme]
    rw [hst] at ht
    have hrun : m.StepRuns x c (considerLine x expire c m) → p.StepRuns x c (considerLine x expire c m) := fun k =>
      ⟨k.out, by have := k.engine; dsimp only at this ⊢; rw [this, hme]⟩
    have hfin : m.StepFinishes x c (considerLine x expire c m) → p.StepFinishes x c (considerLine x expire c m) := fun k =>
      ⟨k.out, k.line, k.notice, by have := k.engine; dsimp only at this ⊢; rw [this, hme]⟩
    have hfree : m.arbiter.line = .free ↔ p.arbiter.line = .free := by
      rw [hml]; unfold Plant.freedLine; split
      · next k => rw [k]; simp
      · rfl
    rw [hq]
    refine ⟨ht.1.2.trans (by simp [m]), hgn, ht.1.1, fun he => hfin (ht.2.1 he), fun he => ⟨fun hc => ?_, fun hc => ⟨fun hf => ?_, fun hf => ?_⟩⟩⟩
    · refine ⟨hrun (ht.2.2.1 he hc).1, ?_⟩
      rw [considerLine_arbiter (by rw [hme]; exact hh) hmn (.inr (by rw [hst]; exact hc))]
      exact hml
    · exact ((ht.2.2.2 he hc).1 (.inr (hfree.2 hf))).imp hrun id
    · obtain ⟨k1, k2, k3⟩ := (ht.2.2.2 he hc).2 hmn (fun k => hf (hfree.1 k))
      refine ⟨?_, k2, k3⟩
      unfold Plant.StepWaits at k1 ⊢
      rw [k1, hme]

/-- The end of a step of a chamber with no hold pending (R58). -/
theorem endStep_takes (h : p.Out c) (hh : (p.engine c).hold = none) :
    (p.setEngine c ((p.engine c).afterStep (x.stepRecord (p.engine c).step))).TakesBoundary x (expireNow x) c
      (endStep x (expireNow x) c p) :=
  stepBoundary_takes (fun d q r e => expireNow_spares x d q r e) (fun t d q => settles_expireWithin x 4 d q) h (by simp [Engine.afterStep, hh])

end Sys2Proof.Machine
end

