-- ==== Sys2Proof/Laws/Bytes.lean ====
section
/-! SUPPORT. The two checks, bit by bit: a register that is shifted left by one for every bit, most significant first, and takes the
polynomial where the bit that leaves it differs from the bit fed in (R140, R153). -/

namespace Sys2Proof.Machine

/-- One bit fed into a register of the CRC-16. -/
theorem crc16Bit_xor (u w : Half) :
    crc16Bit (u ^^^ w) = ((u <<< 1) ^^^ (if u.getLsbD 15 != w.getLsbD 15 then 0x1021#16 else 0#16)) ^^^ (w <<< 1) := by
  unfold crc16Bit
  rw [BitVec.msb_eq_getLsbD_last, BitVec.getLsbD_xor, BitVec.shiftLeft_xor_distrib]
  cases u.getLsbD 15 <;> cases w.getLsbD 15 <;> simp [BitVec.xor_assoc, BitVec.xor_comm (w <<< 1)]

/-- A byte fed into the CRC-16 register (R140). -/
theorem crc16_feed (bytes : List Byte) (byte : Byte) :
    crc16 (bytes ++ [byte]) = [7, 6, 5, 4, 3, 2, 1, 0].foldl (fun (register : Half) k => (register <<< 1) ^^^
      (if register.getLsbD 15 != byte.getLsbD k then BitVec.ofNat 16 (2 ^ 12 + 2 ^ 5 + 1) else 0#16)) (crc16 bytes) := by
  have hm : ∀ k, k < 8 → ((byte.zeroExtend 16 <<< 8) <<< k).getLsbD 15 = byte.getLsbD (7 - k) := by
    intro k hk
    interval_cases k <;> simp
  have hz : byte.zeroExtend 16 <<< 8 <<< 8 = 0#16 := by ext i hi; simp
  have h : crc16 (bytes ++ [byte]) = crc16Byte (crc16 bytes) byte := by simp [crc16, List.foldl_append]
  rw [h]
  unfold crc16Byte
  generalize byte.zeroExtend 16 <<< 8 = w at hm hz ⊢
  have m0 := hm 0 (by omega)
  rw [BitVec.shiftLeft_zero] at m0
  simp only [crc16Bit_xor, ← BitVec.shiftLeft_add, Nat.reduceAdd]
  rw [m0, hm 1 (by omega), hm 2 (by omega), hm 3 (by omega), hm 4 (by omega), hm 5 (by omega), hm 6 (by omega), hm 7 (by omega), hz,
    BitVec.xor_zero]
  rfl

/-- One bit fed into a register of the CRC-8. -/
theorem crc8Bit_xor (u w : Byte) :
    crc8Bit (u ^^^ w) = ((u <<< 1) ^^^ (if u.getLsbD 7 != w.getLsbD 7 then 0x9B#8 else 0#8)) ^^^ (w <<< 1) := by
  unfold crc8Bit
  rw [BitVec.msb_eq_getLsbD_last, BitVec.getLsbD_xor, BitVec.shiftLeft_xor_distrib]
  cases u.getLsbD 7 <;> cases w.getLsbD 7 <;> simp [BitVec.xor_assoc, BitVec.xor_comm (w <<< 1)]

/-- A byte fed into the CRC-8 register (R153). -/
theorem crc8_feed (bytes : List Byte) (byte : Byte) :
    crc8 (bytes ++ [byte]) = [7, 6, 5, 4, 3, 2, 1, 0].foldl (fun (register : Byte) k => (register <<< 1) ^^^
      (if register.getLsbD 7 != byte.getLsbD k then BitVec.ofNat 8 (2 ^ 7 + 2 ^ 4 + 2 ^ 3 + 2 + 1) else 0#8)) (crc8 bytes) := by
  have hm : ∀ k, k < 8 → (byte <<< k).getLsbD 7 = byte.getLsbD (7 - k) := by
    intro k hk
    interval_cases k <;> simp
  have hz : byte <<< 8 = 0#8 := by ext i hi; simp
  have h : crc8 (bytes ++ [byte]) = crc8Byte (crc8 bytes) byte := by simp [crc8, List.foldl_append]
  rw [h]
  unfold crc8Byte
  simp only [crc8Bit_xor, ← BitVec.shiftLeft_add, Nat.reduceAdd]
  rw [hm 1 (by omega), hm 2 (by omega), hm 3 (by omega), hm 4 (by omega), hm 5 (by omega), hm 6 (by omega), hm 7 (by omega), hz,
    BitVec.xor_zero]
  rfl

end Sys2Proof.Machine
end

