-- ==== Sys2Proof/Laws/Rules.lean ====
section
/-! SUPPORT. The examinations that name the first broken rule of a table (R6, R7, R99) find what the tables of Safety.lean state. -/

namespace Sys2Proof.Machine

/-- The rules of a table as an operation tests them, broken or not, beside the rules as the spec states them. -/
def RulesMatch {α : Type} : List (Bool × α) → List (Prop × α) → Prop
  | [], [] => True
  | (b, n) :: bs, (r, m) :: rs => (b = true ↔ ¬r) ∧ n = m ∧ RulesMatch bs rs
  | _, _ => False

/-- The first broken rule of one is that of the other. -/
theorem firstBroken_iff {α : Type} : ∀ (bs : List (Bool × α)) (rs : List (Prop × α)), RulesMatch bs rs → ∀ f,
    firstBroken bs = some f ↔ FirstBroken rs f
  | [], [], _, f => by
    constructor
    · intro h; cases h
    · rintro ⟨b, a, r, h, -⟩; simp at h
  | (b, n) :: bs, (r, m) :: rs, h, f => by
    obtain ⟨h1, h2, h3⟩ := h
    subst h2
    have ih := firstBroken_iff bs rs h3 f
    unfold firstBroken
    by_cases hb : b = true
    · rw [if_pos hb]
      have hr := h1.1 hb
      constructor
      · intro h; cases h; exact ⟨[], rs, r, rfl, by simp, hr⟩
      · rintro ⟨be, a, r', he, hall, hn⟩
        cases be with
        | nil => simp at he; rw [he.1.2]
        | cons x xs =>
          simp at he
          exact absurd (hall x (by simp)) (by rw [← he.1]; exact hr)
    · rw [if_neg hb]
      have hr : r := by by_contra k; exact hb (h1.2 k)
      rw [ih]
      constructor
      · rintro ⟨be, a, r', he, hall, hn⟩
        exact ⟨(r, n) :: be, a, r', by rw [he]; rfl, by intro x hx; rcases List.mem_cons.1 hx with k | k; (rw [k]; exact hr); exact hall x k, hn⟩
      · rintro ⟨be, a, r', he, hall, hn⟩
        cases be with
        | nil => simp at he; rw [← he.1.1] at hn; exact absurd hr hn
        | cons x xs =>
          simp at he
          exact ⟨xs, a, r', he.2, fun y hy => hall y (by simp [hy]), hn⟩

/-- A table of rules that do not all hold has a first broken one. -/
theorem exists_firstBroken {α : Type} : ∀ (rs : List (Prop × α)), (∃ r ∈ rs, ¬r.1) → ∃ f, FirstBroken rs f ∧ ∃ r ∈ rs, r.2 = f
  | [], h => by obtain ⟨r, h, _⟩ := h; cases h
  | (r, n) :: rs, h => by
    by_cases hr : r
    · obtain ⟨x, hx, hn⟩ := h
      have : x ∈ rs := by
        rcases List.mem_cons.1 hx with k | k
        · rw [k] at hn; exact absurd hr hn
        · exact k
      obtain ⟨f, ⟨be, a, r', he, hall, hn'⟩, y, hy, hf⟩ := exists_firstBroken rs ⟨x, this, hn⟩
      exact ⟨f, ⟨(r, n) :: be, a, r', by rw [he]; rfl, by intro x hx; rcases List.mem_cons.1 hx with k | k; (rw [k]; exact hr); exact hall x k, hn'⟩, y, by simp [hy], hf⟩
    · exact ⟨n, ⟨[], rs, r, rfl, by simp, hr⟩, (r, n), by simp, rfl⟩

theorem mem_sixteen (j : Fin 16) : j ∈ sixteen := by fin_cases j <;> simp [sixteen]

/-- A selection counted with and without one index. -/
theorem filter_split (P : Fin 16 → Prop) [DecidablePred P] (h : Fin 16) (l : List (Fin 16)) :
    (l.filter fun j => P j).length = (l.filter fun j => j ≠ h ∧ P j).length + (l.filter fun j => j = h ∧ P j).length := by
  induction l with
  | nil => rfl
  | cons a l ih =>
    by_cases ha : P a
    · by_cases hh : a = h
      · subst hh; simp [ha, ih]; omega
      · simp [ha, hh, ih]; omega
    · simp [ha, ih]

/-- What a channel record is refused for (R6, R7). -/
theorem channelFault_iff (after : Chan → ChannelRecord) (h : Chan) (f : Nat) :
    channelFault after h = some f ↔ FirstBroken (channelRules after h) f := by
  unfold channelFault
  dsimp only
  refine firstBroken_iff _ _ ?_ f
  simp only [channelRules, List.cons_append, List.nil_append, RulesMatch]
  refine ⟨by simp, trivial, by simp; omega, trivial, by simp, trivial, by simp; omega, trivial, by simp, trivial, by simp, trivial,
    by simp [and_assoc], trivial, ?_, trivial, ?_, trivial, by simp, trivial, ?_, trivial, ?_, trivial, ?_, trivial, trivial⟩
  · cases (after h).pair <;> simp
  · cases hp : (after h).pair <;> simp
  · simp only [Bool.and_eq_true, Bool.not_eq_true']
    constructor
    · rintro ⟨a, b⟩ k
      cases hl : List.filter (fun j => decide (j ≠ h ∧ (after j).kind = (after h).kind)) sixteen with
      | nil => rw [hl] at b; simp at b
      | cons x xs =>
        have := List.mem_filter.1 (hl ▸ List.mem_cons_self : x ∈ _)
        simp at this
        exact this.2.1 (k a x this.2.2)
    · intro k
      simp only [not_forall] at k
      obtain ⟨a, x, hk, hne⟩ := k
      refine ⟨a, ?_⟩
      have : x ∈ List.filter (fun j => decide (j ≠ h ∧ (after j).kind = (after h).kind)) sixteen := List.mem_filter.2 ⟨mem_sixteen x, by simp [hne, hk]⟩
      cases hl : List.filter (fun j => decide (j ≠ h ∧ (after j).kind = (after h).kind)) sixteen with
      | nil => rw [hl] at this; simp at this
      | cons x xs => rfl
  · simp only [Bool.and_eq_true, beq_iff_eq, decide_eq_true_eq]
    have key : (after h).kind = .gasFlow →
        (sixteen.filter fun j => (after j).kind = .gasFlow).length =
          (sixteen.filter fun j => j ≠ h ∧ (after j).kind = (after h).kind).length + 1 := by
      intro hk
      rw [hk, filter_split _ h]
      congr 1
      rw [List.filter_congr (q := fun j => decide (j = h))]
      · fin_cases h <;> decide
      · intro j _
        by_cases hj : j = h
        · subst hj; simp [hk]
        · simp [hj]
    constructor
    · rintro ⟨a, b⟩ k
      have := k a
      rw [key a] at this
      omega
    · intro k
      simp only [not_forall] at k
      obtain ⟨a, b⟩ := k
      rw [key a] at b
      exact ⟨a, by omega⟩
  · simp only [Bool.and_eq_true, List.any_eq_true, bne_iff_ne, beq_iff_eq]
    constructor
    · rintro ⟨a, x, _, b⟩ k; exact k a x b.1 b.2
    · intro k
      simp only [not_forall] at k
      obtain ⟨a, x, b, e⟩ := k
      exact ⟨a, x, mem_sixteen x, b, by simpa using e⟩

/-- What a guard entry is refused for (R99). -/
theorem guardFault_iff (record : Chan → ChannelRecord) (k : GuardConfig) (f : Nat) :
    guardFault record k = some f ↔ FirstBroken (guardRules record k) f := by
  unfold guardFault
  refine firstBroken_iff _ _ ?_ f
  simp only [guardRules, RulesMatch]
  cases hk : k.kind <;> simp [GuardKind.isInput, GuardKind.isFramePaced] <;> first | omega | (refine ⟨?_, ?_⟩ <;> first | omega | tauto)

/-! ### Stored ranges -/

theorem Request.byte_le (r : Request) (i : Nat) : r.byte i ≤ 255 := Nat.le_of_lt_succ (r.data.toList.getD i 0#8).isLt

theorem Request.number_two_le (r : Request) (offset : Nat) : r.number offset 2 ≤ 65535 := by
  have : ∀ l : List Byte, fromBytes (l.take 2) ≤ 65535
    | [] => by decide
    | [a] => by have := a.isLt; simp [fromBytes]; omega
    | a :: b :: _ => by have := a.isLt; have := b.isLt; simp [fromBytes]; omega
  exact this _

/-- The fields a WRITE on CHANNEL stores are within their ranges, where the others are (Table 1-2). -/
theorem Request.channelRecord_inRange (q : Request) {word : Nat} {old given : ChannelRecord} (h : old.InRange)
    (hg : q.channelRecord word old = .ok given) : given.InRange := by
  unfold Request.channelRecord at hg
  have hb := q.byte_le
  have hn := q.number_two_le
  split at hg
  · split at hg
    · cases hg
    · split at hg
      · cases hg
      · split at hg
        · cases hg
        · dsimp only at hg
          split at hg
          · cases hg; exact { h with weight := hb 3 }
          · split at hg
            · cases hg; exact { h with weight := hb 3 }
            · cases hg
  · split at hg
    · cases hg
    · next h0 => split at hg
                 · cases hg
                 · next h2 =>
                   cases hg
                   exact { h with fullScale := ⟨Nat.one_le_iff_ne_zero.2 h0, hn 0⟩
                                  wordFullScale := ⟨Nat.one_le_iff_ne_zero.2 h2, hn 2⟩, lo := hn 4, hi := hn 6 }
  · split at hg
    · cases hg
    · next h0 =>
      cases hg
      exact { h with safeValue := hn 0, staleLimit := ⟨Nat.one_le_iff_ne_zero.2 h0, hb 2⟩, failValue := hn 3 }

end Sys2Proof.Machine
end

