-- ==== Sys2Proof/Laws/Walk.lean ====
section
/-! SUPPORT. The START walk stops where the tests of Table 2-5, as Safety.lean states them rule by rule, say that it does (R31 to
R37). -/

namespace Sys2Proof.Machine

/-- A list of rules tested one after another with another after it. -/
theorem firstBroken_append {α : Type} (a b : List (Bool × α)) :
    firstBroken (a ++ b) = match firstBroken a with | some f => some f | none => firstBroken b := by
  induction a with
  | nil => rfl
  | cons r a ih =>
    obtain ⟨broken, label⟩ := r
    cases broken
    · simpa [firstBroken] using ih
    · simp [firstBroken]

theorem RulesMatch.append {α : Type} : ∀ {a b : List (Bool × α)} {r t : List (Prop × α)}, RulesMatch a r → RulesMatch b t →
    RulesMatch (a ++ b) (r ++ t)
  | [], _, [], _, _, k => k
  | [], _, _ :: _, _, h, _ => h.elim
  | _ :: _, _, [], _, h, _ => h.elim
  | _ :: _, _, _ :: _, _, h, k => ⟨h.1, h.2.1, h.2.2.append k⟩

/-- Rules given by an index are tested in the order of the indices. -/
theorem firstBroken_map {α β : Type} (bad : β → Bool) (label : β → α) (l : List β) :
    firstBroken (l.map fun n => (bad n, label n)) = (l.find? bad).map label := by
  induction l with
  | nil => rfl
  | cons n l ih =>
    simp only [List.map_cons, firstBroken, List.find?_cons]
    cases bad n
    · simpa using ih
    · simp

theorem RulesMatch.map {α β : Type} (bad : β → Bool) (rule : β → Prop) (label : β → α) (h : ∀ n, bad n = true ↔ ¬rule n) :
    ∀ l : List β, RulesMatch (l.map fun n => (bad n, label n)) (l.map fun n => (rule n, label n))
  | [] => trivial
  | n :: l => ⟨h n, rfl, RulesMatch.map bad rule label h l⟩

/-- A fold by maximum reaches a positive bound when its start or a member does. -/
theorem le_foldl_max (n : Nat) : ∀ (l : List Nat) (b : Nat), n ≤ l.foldl max b ↔ n ≤ b ∨ ∃ a ∈ l, n ≤ a
  | [], b => by simp
  | a :: l, b => by
    rw [List.foldl_cons, le_foldl_max n l (max b a)]
    simp only [List.mem_cons, exists_eq_or_imp, le_max_iff, or_assoc]

theorem channelOfKind_isNone (x : Ctx) (c : Chamber) (k : ChannelKind) :
    (x.channelOfKind c k).isNone = true ↔ ¬∃ h : Chan, (x.record c h).kind = k := by
  unfold Ctx.channelOfKind
  rw [Option.isNone_iff_eq_none, List.find?_eq_none]
  constructor
  · rintro h ⟨j, hj⟩; exact h j (mem_sixteen j) (by simp [hj])
  · intro h j _ hj; exact h ⟨j, by simpa using hj⟩

/-- The records' loop parts, as R34 speaks of them. -/
def Ctx.LoopsTo (x : Ctx) (j T : Nat) : Prop := (x.stepRecord j).loopTarget = T ∧ T ≠ 0xFFFF

/-- What the intervals kept by a walk from s say of the records before i (R34). -/
structure WalkIntervals (x : Ctx) (s i : Nat) (earlier : List LoopInterval) : Prop where
  sound : ∀ l ∈ earlier, s ≤ l.last ∧ l.last < i ∧ x.LoopsTo l.last l.first
  whole : ∀ L T, s ≤ L → L < i → x.LoopsTo L T → ∃ l ∈ earlier, l.last = L ∧ l.first = T
  depth : ∀ l ∈ earlier, 1 ≤ l.depth ∧ (2 ≤ l.depth ↔ ∃ j V, s ≤ j ∧ j < l.last ∧ x.LoopsTo j V ∧ l.first ≤ V)

theorem loopDepth_le (n t : Nat) (hn : 0 < n) (earlier : List LoopInterval) :
    n + 1 ≤ loopDepth t earlier ↔ ∃ l ∈ earlier, t ≤ l.first ∧ n ≤ l.depth := by
  unfold loopDepth
  rw [show n + 1 ≤ 1 + (List.map LoopInterval.depth (List.filter (fun l => decide (t ≤ l.first)) earlier)).foldl max 0 ↔
    n ≤ (List.map LoopInterval.depth (List.filter (fun l => decide (t ≤ l.first)) earlier)).foldl max 0 by omega, le_foldl_max]
  constructor
  · rintro (h | ⟨a, ha, h⟩)
    · omega
    · obtain ⟨l, hl, rfl⟩ := List.mem_map.1 ha
      have := List.mem_filter.1 hl
      exact ⟨l, this.1, by simpa using this.2, h⟩
  · rintro ⟨l, hl, ht, h⟩
    exact .inr ⟨_, List.mem_map.2 ⟨l, List.mem_filter.2 ⟨hl, by simpa using ht⟩, rfl⟩, h⟩

theorem loopPart_cases (r : StepRecord) :
    (r.loopPart = none ∧ r.loopTarget = 0xFFFF) ∨ (r.loopPart = some (r.loopTarget, r.loopCount) ∧ r.loopTarget ≠ 0xFFFF) := by
  unfold StepRecord.loopPart
  by_cases h : r.loopTarget = 0xFFFF
  · exact .inl ⟨if_pos h, h⟩
  · exact .inr ⟨if_neg h, h⟩

theorem walkIntervals_after {x : Ctx} {s i : Nat} {earlier : List LoopInterval} (h : WalkIntervals x s i earlier)
    (hi : s ≤ i) : WalkIntervals x s (i + 1) (intervalsAfter (x.stepRecord i) i earlier) := by
  unfold intervalsAfter
  rcases loopPart_cases (x.stepRecord i) with ⟨hp, ht⟩ | ⟨hp, ht⟩
  · rw [hp]
    refine ⟨fun l hl => ?_, fun L T h1 h2 h3 => ?_, h.depth⟩
    · obtain ⟨a, b, d⟩ := h.sound l hl; exact ⟨a, by omega, d⟩
    · by_cases hL : L = i
      · subst hL; exact absurd (h3.1.symm.trans ht) h3.2
      · exact h.whole L T h1 (by omega) h3
  · rw [hp]
    dsimp only
    refine ⟨fun l hl => ?_, fun L T h1 h2 h3 => ?_, fun l hl => ?_⟩
    · rcases List.mem_append.1 hl with k | k
      · obtain ⟨a, b, d⟩ := h.sound l k; exact ⟨a, by omega, d⟩
      · rw [List.mem_singleton.1 k]; exact ⟨hi, by simp, rfl, ht⟩
    · by_cases hL : L = i
      · subst hL; exact ⟨_, List.mem_append_right _ (List.mem_singleton_self _), rfl, h3.1⟩
      · obtain ⟨l, hl, k⟩ := h.whole L T h1 (by omega) h3; exact ⟨l, by simp [hl], k⟩
    · rcases List.mem_append.1 hl with k | k
      · exact h.depth l k
      · rw [List.mem_singleton.1 k]
        refine ⟨by unfold loopDepth; simp, ?_⟩
        rw [show (2 : Nat) = 1 + 1 from rfl]
        show 1 + 1 ≤ loopDepth _ _ ↔ _
        rw [loopDepth_le 1 _ (by omega)]
        constructor
        · rintro ⟨l, hl, h1, -⟩
          obtain ⟨a, b, d⟩ := h.sound l hl
          exact ⟨l.last, l.first, a, b, d, h1⟩
        · rintro ⟨j, V, h1, h2, h3, h4⟩
          obtain ⟨l, hl, rfl, rfl⟩ := h.whole j V h1 h2 h3
          exact ⟨l, hl, h4, (h.depth l hl).1⟩

/-- The three kinds of R34 and R36 by their codes. -/
theorem kindOf_iff (r : StepRecord) :
    ((r.kindOf == some .pumpTo) = true ↔ r.kind.toNat = 1) ∧ ((r.kindOf == some .ventTo) = true ↔ r.kind.toNat = 2) ∧
    ((r.kindOf == some .strike) = true ↔ r.kind.toNat = 3) ∧ (r.isEnd = true ↔ r.kind.toNat = 4) := by
  unfold StepRecord.isEnd StepRecord.kindOf
  split <;> simp_all

/-- What a walk refuses a record for (R31 to R37). -/
theorem walkFault_iff {x : Ctx} {s i : Nat} {earlier : List LoopInterval} (hE : WalkIntervals x s i earlier)
    (slotMap : Vector SlotUse 128) (c : Chamber) (f : ChamberRefusal) :
    walkFault x slotMap c s i earlier = some f ↔ FirstBroken (walkRules x slotMap c s i) f := by
  have hz : (x.stepRecord i).entries.toList.zipIdx = (List.finRange 8).map fun n => ((x.stepRecord i).entries[n], n.val) := by
    apply List.ext_getElem
    · simp
    · intro n h1 h2; simp
  let bad (n : Fin 8) : Bool := (x.stepRecord i).entries[n].channel != 0xFF#8 && !entryUsable x slotMap c (x.stepRecord i).entries[n]
  have hu : ∀ n, bad n = true ↔ ¬((x.stepRecord i).entries[n].channel = 0xFF#8 ∨ ∃ h : Chan, (x.stepRecord i).entries[n].channel.toNat = h.val ∧
      (∃ k : Fin 128, slotMap[k] = .channel c h) ∧ (x.record c h).kind.isSetpoint = true ∧ (x.record c h).owner = .sequence) := by
    intro n
    have hm : ∀ h : Chan, mapped slotMap c h = true ↔ ∃ k : Fin 128, slotMap[k] = .channel c h := by
      intro h
      unfold mapped
      rw [List.contains_iff_mem, List.mem_iff_getElem]
      constructor
      · rintro ⟨k, hk, e⟩; exact ⟨⟨k, by simpa using hk⟩, by simpa using e⟩
      · rintro ⟨k, e⟩; exact ⟨k.val, by simp, by simpa using e⟩
    have he : entryUsable x slotMap c (x.stepRecord i).entries[n] = true ↔ ∃ h : Chan, (x.stepRecord i).entries[n].channel.toNat = h.val ∧
      (∃ k : Fin 128, slotMap[k] = .channel c h) ∧ (x.record c h).kind.isSetpoint = true ∧ (x.record c h).owner = .sequence := by
      unfold entryUsable
      split
      · next h =>
        simp only [Bool.and_eq_true, beq_iff_eq, hm]
        constructor
        · rintro ⟨⟨a, b⟩, d⟩; exact ⟨_, rfl, a, b, d⟩
        · rintro ⟨j, e, a, b, d⟩
          have : (⟨(x.stepRecord i).entries[n].channel.toNat, h⟩ : Chan) = j := Fin.ext e
          rw [this]; exact ⟨⟨a, b⟩, d⟩
      · next h =>
        simp only [Bool.false_eq_true, false_iff]
        rintro ⟨j, e, -⟩; exact h (e ▸ j.isLt)
    simp only [bad, Bool.and_eq_true, bne_iff_ne, Bool.not_eq_true', not_or]
    rw [← he]; simp
  have hfirst : firstUnusable x slotMap c (x.stepRecord i) = ((List.finRange 8).find? bad).map fun n => n.val + 1 := by
    unfold firstUnusable
    rw [hz, List.find?_map, Option.map_map]
    rfl
  have hk := kindOf_iff (x.stepRecord i)
  have hloop := loopPart_cases (x.stepRecord i)
  let A : List (Bool × ChamberRefusal) :=
    [ ((x.stepRecord i).check != .checked, { result := .notChecked, index := i }),
      (match (x.stepRecord i).loopPart.map Prod.fst with | some t => t < s | none => false, { result := .badSequence, index := i, field := 9 }),
      (match (x.stepRecord i).loopPart.map Prod.fst with
        | some t => loopOverlaps t earlier || 3 ≤ loopDepth t earlier | none => false,
        { result := .badSequence, index := i, field := 9 }) ]
  let B : List (Bool × ChamberRefusal) := (List.finRange 8).map fun n =>
    (bad n, { result := .badValue, index := i, field := 11, position := n.val + 1 })
  let C : List (Bool × ChamberRefusal) :=
    [ (((x.stepRecord i).kindOf == some .pumpTo || (x.stepRecord i).kindOf == some .ventTo) &&
        ((x.channelOfKind c .pressure).isNone || !x.levels[c].checked), { result := .badSequence, index := i, field := 1 }),
      ((x.stepRecord i).kindOf == some .strike &&
        ((x.channelOfKind c .rfForward).isNone || (x.channelOfKind c .rfReflected).isNone),
        { result := .badSequence, index := i, field := 1 }),
      ((x.stepRecord i).isEnd && (x.stepRecord i).claimsRoughing, { result := .badSequence, index := i, field := 12 }) ]
  have hwalk : walkFault x slotMap c s i earlier = firstBroken (A ++ (B ++ C)) := by
    rw [firstBroken_append, firstBroken_append, firstBroken_map]
    unfold walkFault
    dsimp only
    rw [hfirst]
    change (match firstBroken A with
      | some f => some f
      | none => match ((List.finRange 8).find? bad).map (fun n : Fin 8 => n.val + 1) with
        | some position => some { result := .badValue, index := i, field := 11, position := position }
        | none => firstBroken C) = _
    cases firstBroken A <;> cases (List.finRange 8).find? bad <;> rfl
  rw [hwalk]
  refine firstBroken_iff _ _ ?_ f
  unfold walkRules
  rw [List.append_assoc]
  refine RulesMatch.append ?_ (RulesMatch.append (RulesMatch.map bad _ _ hu _) ?_)
  · refine ⟨by simp, rfl, ?_, rfl, ?_, rfl, trivial⟩
    · rcases hloop with ⟨hp, ht⟩ | ⟨hp, ht⟩
      · rw [hp]; simp [ht]
      · rw [hp]; simp [ht]
    · rcases hloop with ⟨hp, ht⟩ | ⟨hp, ht⟩
      · rw [hp]; simp [ht]
      · rw [hp]
        simp only [Option.map_some, Bool.or_eq_true, decide_eq_true_eq]
        rw [show 3 ≤ loopDepth (x.stepRecord i).loopTarget earlier ↔ 2 + 1 ≤ loopDepth (x.stepRecord i).loopTarget earlier from Iff.rfl,
          loopDepth_le 2 _ (by omega)]
        unfold loopOverlaps
        simp only [List.any_eq_true, Bool.and_eq_true, decide_eq_true_eq]
        constructor
        · rintro (⟨l, hl, h1, h2⟩ | ⟨l, hl, h1, h2⟩) k
          · obtain ⟨a, b, d⟩ := hE.sound l hl
            rcases (k _ ⟨rfl, ht⟩).1 l.last l.first a b d with e | e <;> omega
          · obtain ⟨a, b, d⟩ := hE.sound l hl
            obtain ⟨j, V, a', b', d', e'⟩ := ((hE.depth l hl).2).1 h2
            exact (k _ ⟨rfl, ht⟩).2 ⟨l.last, j, l.first, V, a', b', b, d, d', h1, e'⟩
        · intro k
          simp only [not_forall] at k
          obtain ⟨T, ⟨rfl, -⟩, k⟩ := k
          rw [not_and_or] at k
          rcases k with k | k
          · simp only [not_forall, not_or, not_lt, not_le] at k
            obtain ⟨L, T', a, b, d, e1, e2⟩ := k
            obtain ⟨l, hl, rfl, rfl⟩ := hE.whole L T' a b d
            exact .inl ⟨l, hl, e2, e1⟩
          · rw [not_not] at k
            obtain ⟨K, j, U, V, a, b, d, e1, e2, e3, e4⟩ := k
            obtain ⟨l, hl, rfl, rfl⟩ := hE.whole K U (by omega) d e1
            exact .inr ⟨l, hl, e3, ((hE.depth l hl).2).2 ⟨j, V, a, b, e2, e4⟩⟩
  · refine ⟨?_, rfl, ?_, rfl, ?_, rfl, trivial⟩
    · rw [Bool.and_eq_true, Bool.or_eq_true, Bool.or_eq_true, channelOfKind_isNone, hk.1, hk.2.1]
      simp only [Classical.not_imp, not_and_or, Bool.not_eq_true', Bool.not_eq_true]
    · rw [Bool.and_eq_true, Bool.or_eq_true, channelOfKind_isNone, channelOfKind_isNone, hk.2.2.1]
      simp only [Classical.not_imp, not_and_or]
    · rw [Bool.and_eq_true, hk.2.2.2]; simp

/-- The walk from s, by the first record that breaks a rule or is END (R31). -/
theorem startWalk_ends (x : Ctx) (slotMap : Vector SlotUse 128) (c : Chamber) (s : Nat) (i : Nat) (hs : s ≤ i) (hi : i < 512)
    (hb : ∀ j, s ≤ j → j < i → (∀ r ∈ walkRules x slotMap c s j, r.1) ∧ (x.stepRecord j).kind.toNat ≠ 4) :
    (∀ f, FirstBroken (walkRules x slotMap c s i) f → startWalk x slotMap c s = .error f) ∧
    ((∀ r ∈ walkRules x slotMap c s i, r.1) →
      ((x.stepRecord i).kind.toNat = 4 → startWalk x slotMap c s = .ok i) ∧
      ((x.stepRecord i).kind.toNat ≠ 4 → i = 511 → startWalk x slotMap c s = .error { result := .badSequence, index := 511 })) := by
  have hnone : ∀ j E, WalkIntervals x s j E → (∀ r ∈ walkRules x slotMap c s j, r.1) → walkFault x slotMap c s j E = none := by
    intro j E hE h
    cases hw : walkFault x slotMap c s j E with
    | none => rfl
    | some f =>
      obtain ⟨b, a, r, e, -, hr⟩ := (walkFault_iff hE slotMap c f).1 hw
      exact absurd (h (r, f) (by rw [e]; simp)) hr
  have key : ∀ n, s + n ≤ i → ∃ E, WalkIntervals x s (s + n) E ∧
      startWalk x slotMap c s = walkFrom x slotMap c s (512 - (s + n)) (s + n) E := by
    intro n
    induction n with
    | zero =>
      intro _
      refine ⟨[], ⟨by simp, fun L T h1 h2 => by omega, by simp⟩, ?_⟩
      unfold startWalk
      rw [if_neg (by omega)]; rfl
    | succ n ih =>
      intro h
      obtain ⟨E, hE, hw⟩ := ih (by omega)
      obtain ⟨hp, hk⟩ := hb (s + n) (by omega) (by omega)
      refine ⟨_, walkIntervals_after hE (Nat.le_add_right s n), ?_⟩
      rw [hw, show 512 - (s + n) = 512 - (s + (n + 1)) + 1 by omega]
      conv_lhs => unfold walkFrom
      rw [hnone _ _ hE hp]
      dsimp only
      rw [if_neg (by rw [(kindOf_iff _).2.2.2]; exact hk)]
      rfl
  obtain ⟨E, hE, hw⟩ := key (i - s) (by omega)
  rw [show s + (i - s) = i by omega] at hE hw
  rw [show 512 - i = (511 - i) + 1 by omega] at hw
  refine ⟨fun f hf => ?_, fun hp => ⟨fun hk => ?_, fun hk h5 => ?_⟩⟩
  · rw [hw]; unfold walkFrom; rw [(walkFault_iff hE slotMap c f).2 hf]
  · rw [hw]; unfold walkFrom; rw [hnone _ _ hE hp]; dsimp only; rw [if_pos ((kindOf_iff _).2.2.2.2 hk)]
  · rw [hw]; unfold walkFrom; rw [hnone _ _ hE hp]; dsimp only
    rw [if_neg (by rw [(kindOf_iff _).2.2.2]; exact hk)]
    subst h5; rfl

end Sys2Proof.Machine
end

