-- ==== Sys2Proof/Laws/Check.lean ====
section
/-! SUPPORT. CHECK on a step record names the first broken rule of Table 2-3, as Safety.lean lists them (R30). -/

namespace Sys2Proof.Machine

/-- The lowest position that breaks rule 11 is that of the first entry of the list that does, beside those before it. -/
theorem firstBrokenEntry_eq (k : Nat) (l earlier : List SetpointEntry) :
    firstBrokenEntry k earlier l =
      ((List.finRange l.length).find? fun n => entryBroken (earlier ++ l.take n.val) l[n]).map fun n => k + n.val := by
  induction l generalizing k earlier with
  | nil => rfl
  | cons e l ih =>
    unfold firstBrokenEntry
    show _ = ((List.finRange (l.length + 1)).find? fun n => entryBroken (earlier ++ (e :: l).take n.val) ((e :: l)[n.val]'n.isLt)).map
      fun n => k + n.val
    rw [List.finRange_succ, List.find?_cons]
    simp only [Fin.val_zero, List.take_zero, List.append_nil, List.getElem_cons_zero]
    cases entryBroken earlier e with
    | true => simp
    | false =>
      rw [ih, List.find?_map, Option.map_map]
      simp only [Bool.false_eq_true, if_false]
      congr 1
      · funext n; show k + 1 + n.val = k + (n.val + 1); omega
      · congr 1; funext n; simp

theorem firstBrokenEntry_first (l : List SetpointEntry) (n : Nat) (h : l.length = n) :
    firstBrokenEntry 1 [] l =
      ((List.finRange n).find? fun m => entryBroken (l.take m.val) (l[m.val]'(h ▸ m.isLt))).map fun m => m.val + 1 := by
  subst h
  rw [firstBrokenEntry_eq]
  congr 1
  funext m
  exact Nat.add_comm 1 m.val

/-- A list of rules tested one after another, under other labels. -/
theorem firstBroken_relabel {α β : Type} (g : α → β) (l : List (Bool × α)) :
    firstBroken (l.map fun r => (r.1, g r.2)) = (firstBroken l).map g := by
  induction l with
  | nil => rfl
  | cons r l ih =>
    obtain ⟨b, a⟩ := r
    cases b
    · exact ih
    · rfl

/-- An entry breaks rule 11 beside the earlier positions where its channel is above 15 or stands in one of them. -/
theorem entryBroken_iff (r : StepRecord) (n : Fin 8) :
    entryBroken (r.entries.toList.take n.val) r.entries[n] = true ↔
      ¬(r.entries[n].channel ≠ 0xFF#8 → r.entries[n].channel.toNat ≤ 15 ∧
        ∀ m : Fin 8, m < n → r.entries[m].channel ≠ r.entries[n].channel) := by
  unfold entryBroken
  simp only [Bool.and_eq_true, bne_iff_ne, Bool.or_eq_true, decide_eq_true_eq, List.any_eq_true, beq_iff_eq, Classical.not_imp,
    not_and_or, not_le, not_forall, not_not]
  refine and_congr_right fun _ => or_congr_right ?_
  constructor
  · rintro ⟨d, hd, e⟩
    obtain ⟨m, hm, rfl⟩ := List.mem_iff_getElem.1 hd
    have hmn : m < n.val := by simp at hm; omega
    exact ⟨⟨m, by omega⟩, hmn, by simpa using e⟩
  · rintro ⟨m, hm, e⟩
    refine ⟨r.entries[m], ?_, e⟩
    rw [List.mem_iff_getElem]
    exact ⟨m.val, by simp; omega, by simp⟩

/-- What CHECK refuses a record for (Table 2-3). -/
theorem checkFault_iff (i : Nat) (r : StepRecord) (f : Nat × Nat) :
    checkFault i r = some f ↔ FirstBroken (checkRules i r) f := by
  have hk := kindOf_iff r
  have hc : r.isConditioned = true ↔ 1 ≤ r.kind.toNat ∧ r.kind.toNat ≤ 3 := by
    unfold StepRecord.isConditioned
    rw [Bool.or_eq_true, Bool.or_eq_true, hk.1, hk.2.1, hk.2.2.1]; omega
  have hl : (r.kindOf == some .pumpTo || r.kindOf == some .ventTo) = true ↔ r.kind.toNat = 1 ∨ r.kind.toNat = 2 := by
    rw [Bool.or_eq_true, hk.1, hk.2.1]
  have hn : (r.kindOf == none) = true ↔ ¬r.kind.toNat ≤ 4 := by
    unfold StepRecord.kindOf
    split <;> simp_all
    omega
  have ht : (r.timeoutAction == none) = true ↔ ¬(1 ≤ r.timeout.toNat ∧ r.timeout.toNat ≤ 3) := by
    unfold StepRecord.timeoutAction
    split <;> simp_all
    omega
  have hz : r.timeout = 0#8 ↔ r.timeout.toNat = 0 := by rw [← BitVec.toNat_inj]; rfl
  let A : List (Bool × Nat) :=
    [ (r.kindOf == none, 1),
      (if r.isEnd then r.duration != 0 else r.duration == 0 || 6000000 < r.duration, 2),
      (if r.isEnd then r.ramp != 0 else r.duration < r.ramp, 3),
      (if !r.isConditioned then r.timeout != 0#8 else r.timeoutAction == none, 4),
      (if r.kindOf == some .pumpTo || r.kindOf == some .ventTo then 15 < r.level else r.level != 0, 5),
      (if !r.isConditioned then r.count != 0 else r.count == 0 || 15 < r.count, 6),
      (if r.kindOf == some .strike then 1000 < r.ratio else r.ratio != 0, 7),
      (!(r.kindOf == some .strike) && r.minForward != 0, 8),
      (match r.loopPart with | none => false | some (t, _) => r.isEnd || i < t, 9),
      (match r.loopPart with | none => false | some (_, k) => k == 0, 10) ]
  let bad (n : Fin 8) : Bool := entryBroken (r.entries.toList.take n.val) r.entries[n]
  have hfault : checkFault i r = firstBroken ((A.map fun rule => (rule.1, rule.2, 0)) ++ (List.finRange 8).map fun n => (bad n, 11, n.val + 1)) := by
    rw [firstBroken_append, firstBroken_relabel (fun field => (field, 0)) A, firstBroken_map bad]
    have he : firstBrokenEntry 1 [] r.entries.toList = ((List.finRange 8).find? bad).map fun n => n.val + 1 := by
      rw [firstBrokenEntry_first _ 8 (by simp)]
      rfl
    unfold checkFault
    dsimp only
    rw [he]
    change (match firstBroken A with
      | some field => some (field, 0)
      | none => (((List.finRange 8).find? bad).map fun n : Fin 8 => n.val + 1).map fun position => (11, position)) = _
    cases firstBroken A <;> cases (List.finRange 8).find? bad <;> rfl
  rw [hfault]
  refine firstBroken_iff _ _ ?_ f
  unfold checkRules
  refine RulesMatch.append ?_ (RulesMatch.map bad _ _ (fun n => entryBroken_iff r n) _)
  have hloop := loopPart_cases r
  have hend := hk.2.2.2
  have hs := hk.2.2.1
  refine ⟨hn, rfl, ?_, rfl, ?_, rfl, ?_, rfl, ?_, rfl, ?_, rfl, ?_, rfl, ?_, rfl, ?_, rfl, ?_, rfl, trivial⟩
  · cases he : r.isEnd <;> simp [← hend, he]; omega
  · cases he : r.isEnd <;> simp [← hend, he]
  · cases he : r.isConditioned <;> simp [← hc, he, hz]
    simpa using ht
  · cases he : (r.kindOf == some .pumpTo || r.kindOf == some .ventTo) <;> simp [← hl, he]
  · cases he : r.isConditioned <;> simp [← hc, he]; omega
  · cases he : (r.kindOf == some .strike) <;> simp [← hs, he]
  · cases he : (r.kindOf == some .strike) <;> simp [← hs, he]
  · rcases hloop with ⟨hp, ht⟩ | ⟨hp, ht⟩ <;> cases he : r.isEnd <;> simp [hp, ht, ← hend, he]
  · rcases hloop with ⟨hp, ht⟩ | ⟨hp, ht⟩ <;> simp [hp, ht]

end Sys2Proof.Machine
end

