-- ==== Sys2Proof/Laws/Keeps.lean ====
section
/-! SUPPORT. Every operation on the state keeps `State.Safe`: the guard unit, the cycle close, ring loss, the substitution of a
passage, the table writes and the chamber commands. -/

namespace Sys2Proof.Machine

/-- No chamber stands in the making. -/
theorem not_noChamber (c : Chamber) : ¬noChamber c := id

namespace Plant.SoundBut

variable {I : Chamber → Prop} {up : Bool} {p : Plant} {x : Ctx} {c : Chamber}

/-- An engine changed in nothing that the promises speak of. -/
theorem retouch {G : Chamber → Prop} {d : Chamber} (h : p.SoundBut G I up) (e : Engine) (h1 : e.state = (p.engine d).state)
    (h2 : e.sources = (p.engine d).sources) (h3 : e.range = (p.engine d).range) (h4 : e.timer = (p.engine d).timer)
    (h5 : e.awaited = (p.engine d).awaited) (h6 : e.hold = (p.engine d).hold) : (p.setEngine d e).SoundBut G I up := by
  have hs : ∀ c, ((p.setEngine d e).engine c).state = (p.engine c).state := by
    intro c; rw [Plant.engine_setEngine]; split
    · next hd => rw [← hd]; exact h1
    · rfl
  have ha : ∀ c, ((p.setEngine d e).engine c).awaited = (p.engine c).awaited := by
    intro c; rw [Plant.engine_setEngine]; split
    · next hd => rw [← hd]; exact h5
    · rfl
  refine ⟨h.out, h.budget, ⟨h.growth.1, fun g hg => ?_⟩, ⟨h.queue.1, fun c hc => ?_, h.queue.2.2⟩, fun c hc hl => ?_,
    fun c hc => ?_, fun c hc => ?_, h.notices, fun c hc => ?_, fun c hc => ?_⟩
  · rw [hs, ha]; exact h.growth.2 g hg
  · rw [hs, ha]; exact h.queue.2.1 c hc
  · rw [hs]; exact h.holder c hc hl
  · have k := h.cells c hc
    rw [Plant.engine_setEngine]; split
    · next hd =>
      subst hd
      exact ⟨by rw [h1, h2]; exact k.sources, by rw [h1, h3]; exact k.range, by rw [h1, h4]; exact k.timer,
        by rw [h1, h5]; exact k.awaited, by rw [h1, h6]; exact k.held, by rw [h1, h6]; exact k.hold⟩
    · exact k
  · rw [hs]; exact h.permits c hc
  · rw [hs]; exact h.idle c hc
  · rw [hs]; exact h.settled c hc

/-! ### The guard unit -/

theorem applyTrip (h : p.SoundBut noChamber noChamber up) (g : GuardIndex) (a : GuardAction) :
    (applyTrip x c g a p).SoundBut noChamber noChamber up := by
  have h1 := h.notify (x := x) c .guardTrip g.val
  unfold Machine.applyTrip
  dsimp only
  split
  · exact h1.enterSafe (expireNow_keeps x up) id
  · exact h1

theorem applyTrips (h : p.SoundBut noChamber noChamber up) (trips : List (Chamber × GuardIndex × GuardAction)) :
    (applyTrips x trips p).SoundBut noChamber noChamber up := by
  unfold Machine.applyTrips
  induction trips generalizing p with
  | nil => exact h
  | cons t rest ih => exact ih (h.applyTrip _ _)

theorem examineDemand (h : p.SoundBut noChamber noChamber up) (guards : Vector (Vector GuardEntry 16) 4) (c : Chamber) :
    (examineDemand x guards c p).SoundBut noChamber noChamber up := by
  unfold Machine.examineDemand
  dsimp only
  split
  · split
    · exact h
    · exact h.addSource (expireNow_keeps x up) id _ _
  · split
    · next hs => exact h.removeSources (expireNow_keeps x up) id hs.1 _
    · exact h

theorem examineDemands (h : p.SoundBut noChamber noChamber up) (guards : Vector (Vector GuardEntry 16) 4)
    (cs : List Chamber) : (examineDemands x guards cs p).SoundBut noChamber noChamber up := by
  unfold Machine.examineDemands
  induction cs generalizing p with
  | nil => exact h
  | cons c rest ih => exact ih (h.examineDemand _ _)

theorem evaluateCondition (h : p.SoundBut noChamber noChamber up) :
    (evaluateCondition x (expireNow x) c p).SoundBut noChamber noChamber up := by
  unfold Machine.evaluateCondition
  dsimp only
  split
  · next hs =>
    split
    · have hq := h.retouch (d := c) { p.engine c with counter := (p.engine c).counter + 1 } rfl rfl rfl rfl rfl rfl
      split
      · exact hq.endStep (expireNow_keeps x up) id (by simp [hs.1])
      · exact hq
    · exact h.retouch _ rfl rfl rfl rfl rfl rfl
  · exact h

theorem loseRing (h : p.SoundBut noChamber noChamber up) :
    (loseRing x (expireNow x) c p).SoundBut noChamber noChamber up := by
  unfold Machine.loseRing
  split
  · exact h.addSource (expireNow_keeps x up) id _ _
  · exact h.addSource (expireNow_keeps x up) id _ _
  · exact h.addSource (expireNow_keeps x up) id _ _
  · exact h.endIdleClaim (expireNow_keeps x up)
  · exact h
  · exact h

/-- An operation done for one chamber after another. -/
theorem forEach {f : Plant → Chamber → Plant}
    (hf : ∀ {p : Plant} c, p.SoundBut noChamber noChamber up → (f p c).SoundBut noChamber noChamber up)
    (h : p.SoundBut noChamber noChamber up) (cs : List Chamber) : (cs.foldl f p).SoundBut noChamber noChamber up := by
  induction cs generalizing p with
  | nil => exact h
  | cons c rest ih => exact ih (hf c h)

theorem handRamp (h : p.SoundBut noChamber I up) (k : Chan) (v : Nat) : (handRamp c k v p).SoundBut noChamber I up :=
  h.retouch _ rfl rfl rfl rfl rfl rfl

end Plant.SoundBut

/-! ### The state -/

theorem State.safe_iff {s : State} : s.Safe ↔ s.plant.SoundBut noChamber noChamber s.ring.up := Plant.soundBut_none.symm

namespace State.Safe

variable {s : State}

/-- Safety rests on the plant and on whether the ring is up. -/
theorem congr {t : State} (h : s.Safe) (hp : t.plant = s.plant) (hr : t.ring.up = s.ring.up) : t.Safe := by
  unfold State.Safe; rw [hp, hr]; exact h

theorem onPlant {f : Ctx → Plant → Plant} (h : s.Safe)
    (hf : s.plant.SoundBut noChamber noChamber s.ring.up → (f s.ctx s.plant).SoundBut noChamber noChamber s.ring.up) :
    (s.onPlant f).Safe := State.safe_iff.2 (hf (State.safe_iff.1 h))

theorem notifyRing (h : s.Safe) (i : NoticeIndex) (detail : Nat) : (s.notifyRing i detail).Safe :=
  ⟨h.budget, h.growth, h.queue, h.holder, h.cells, h.permits, h.notices.raiseAt _ _ _, h.settled⟩

/-- The RF-permit lines driven for a new ring state. -/
theorem drivePermits (h : s.Safe) (r : Ring) : ({ s with ring := r }.drivePermits).Safe :=
  ⟨h.budget, h.growth, h.queue, h.holder, h.cells, fun c => by simp [State.drivePermits, Plant.engine, State.engine],
    h.notices, h.settled⟩

theorem guardPass (h : s.Safe) (which : Chamber → GuardIndex → Bool) (ds : List Chamber) : (s.guardPass which ds).Safe :=
  State.safe_iff.2 (((State.safe_iff.1 h).applyTrips _).examineDemands _ _)

theorem acceptLevel (h : s.Safe) (l : Line) : (s.acceptLevel l).Safe := by
  have h1 : (s.setInput l { s.input l with accepted := (s.input l).raw, timer := none }).Safe := h
  exact h1.guardPass _ _

theorem changeLevel (h : s.Safe) (l : Line) (high : Bool) : (s.changeLevel l high).Safe := by
  unfold State.changeLevel
  dsimp only
  split
  · exact h
  · split
    · exact h
    · split
      · exact h
      · split
        · have h1 : (s.setInput l { s.input l with raw := high }).Safe := h
          exact h1.acceptLevel l
        · exact h

theorem evaluateConditions (h : s.Safe) (running : Chamber → Bool) : (s.evaluateConditions running).Safe := by
  refine h.onPlant fun k => k.forEach (fun c hc => ?_) _
  split
  · exact hc.evaluateCondition
  · exact hc

theorem closeCycle (h : s.Safe) (slots : List Slot) : (s.closeCycle slots).Safe :=
  ((show (s.takeReadings slots).Safe from h).guardPass _ _).evaluateConditions _

theorem overrun (h : s.Safe) : s.overrun.Safe := by
  unfold State.overrun
  split
  · exact h.closeCycle _
  · exact h

theorem loseRing (h : s.Safe) : s.loseRing.Safe :=
  ((h.notifyRing ringLostSlot 0).drivePermits _).onPlant fun k => k.forEach (fun _ hc => hc.loseRing) _

theorem arrival (h : s.Safe) : s.arrival.Safe := by
  unfold State.arrival
  dsimp only
  have h1 := h.drivePermits (s.ring.arrive s.now).1
  split <;> split <;> first
    | exact h1
    | exact h1.notifyRing _ _
    | exact (h1.notifyRing _ _).notifyRing _ _

/-! ### The substitution -/

/-- The chambers a passage found IDLE. -/
def foundIdle (engines : Vector Engine 4) (c : Chamber) : Prop := engines[c].state = .idle

theorem roughingRule {I : Chamber → Prop} {up : Bool} {p : Plant} {x : Ctx} {c : Chamber} {v : Nat} {idle : Bool}
    (h : p.SoundBut noChamber I up) (hi : idle = true → I c) :
    (Machine.roughingRule x c idle v p).1.SoundBut noChamber I up := by
  unfold Machine.roughingRule
  split
  · cases idle
    · exact h
    · exact h.endIdleClaim (expireNow_keeps x up)
  · have hq : (if idle = true then claimLine c p else p).SoundBut noChamber I up := by
      split
      · next hid => exact h.claimLine_idle id (h.idle c (hi hid)).2
      · exact h
    dsimp only
    generalize (if idle = true then claimLine c p else p) = q at hq ⊢
    split
    · exact hq
    · exact hq

theorem carry_plant (s : State) (c : Chamber) (h : Chan) (v : Nat) : (s.carry c h v).plant = s.plant := by
  unfold State.carry; dsimp only; split <;> rfl

theorem carry_ring (s : State) (c : Chamber) (h : Chan) (v : Nat) : (s.carry c h v).ring = s.ring := by
  unfold State.carry; dsimp only; split <;> rfl

theorem substituteSlots (engines : Vector Engine 4) (k : Nat) (slots : List Slot) (a : Passage)
    (h : a.state.plant.SoundBut noChamber (foundIdle engines) a.state.ring.up) :
    (Machine.substituteSlots engines k slots a).2.state.plant.SoundBut noChamber (foundIdle engines)
      (Machine.substituteSlots engines k slots a).2.state.ring.up := by
  induction slots generalizing k a with
  | nil => exact h
  | cons slot rest ih =>
    unfold Machine.substituteSlots
    dsimp only
    refine ih _ _ ?_
    unfold substituteSlot
    split
    · next c ch _ =>
      split
      · unfold computeSlot
        dsimp only
        rw [carry_plant, carry_ring]
        dsimp only
        have hq : ∀ v, (if (a.state.ctx.record c ch).kind = .roughValve then
            Machine.roughingRule a.state.ctx c (engines[c].state == .idle) v a.state.plant
            else (a.state.plant, v, false)).1.SoundBut noChamber (foundIdle engines) a.state.ring.up := by
          intro v
          split
          · exact roughingRule h fun hi => by simpa [foundIdle] using hi
          · exact h
        split
        · exact (hq _).handRamp _ _
        · exact hq _
      · exact h
    · exact h
    · exact h

theorem substitute (h : s.Safe) (slots : List Slot) : (s.substitute slots).2.Safe := by
  have hs : s.plant.SoundBut noChamber (foundIdle s.plant.engines) s.ring.up := by
    have k := State.safe_iff.1 h
    exact ⟨k.out, k.budget, k.growth, k.queue, k.holder, k.cells, k.permits, k.notices, fun c hc => ⟨id, hc⟩,
      k.settled⟩
  have k := substituteSlots s.plant.engines 0 slots { state := s, remaining := s.plant.arbiter.allowance } hs
  exact State.safe_iff.2
    ⟨k.out, k.budget, k.growth, k.queue, k.holder, k.cells, k.permits, k.notices, fun c hc => hc.elim,
      k.settled⟩

end State.Safe

end Sys2Proof.Machine
end

