-- ==== Sys2Proof/Laws/Commands.lean ====
section
/-! SUPPORT. Every management command and every posting keeps `State.Safe`. -/

namespace Sys2Proof.Machine

namespace State.Safe

variable {s : State} {r : Request}

/-! ### Table writes -/

theorem accept (h : s.Safe) (table : Nat) (r : Request) : (s.acceptWrite table r).1.Safe := h

theorem writeSlotMap (h : s.Safe) : (Machine.writeSlotMap r s).1.Safe := by
  unfold Machine.writeSlotMap
  split
  · exact h
  · split
    · split
      · exact h
      · split
        · exact h
        · split
          · exact h
          · exact h
    · exact h

theorem storeChannel (h : s.Safe) (c : Chamber) (k : Chan) (rec : ChannelRecord) : (s.storeChannel c k rec).Safe := by
  unfold State.storeChannel
  dsimp only
  split
  · have h1 : (s.setChannel c k { record := rec, status := freshStatus rec s.now }).Safe := h
    exact h1.onPlant (f := fun x p => endIdleClaim x (expireNow x) c p) fun q => q.endIdleClaim (expireNow_keeps _ _)
  · exact h

theorem writeChannel (h : s.Safe) : (Machine.writeChannel r s).1.Safe := by
  unfold Machine.writeChannel
  split
  · exact h
  · split
    · split
      · exact h
      · split
        · exact h
        · dsimp only
          split
          · exact h
          · split
            · exact h
            · split
              · exact h
              · exact h.storeChannel _ _ _
    · exact h

theorem writeStep (h : s.Safe) : (Machine.writeStep r s).1.Safe := by
  unfold Machine.writeStep
  split
  · split
    · exact h
    · exact h
  · exact h

theorem storeGuard (h : s.Safe) (c : Chamber) (g : GuardIndex) (k : GuardConfig) : (s.storeGuard c g k).Safe := by
  have h1 : (s.setGuard c g { config := k, lapse := deriveGrace s.ctx c { config := k } }).Safe := h
  exact h1.guardPass _ _

theorem writeGuard (h : s.Safe) : (Machine.writeGuard r s).1.Safe := by
  unfold Machine.writeGuard
  split
  · exact h
  · split
    · split
      · exact h
      · split
        · exact h
        · dsimp only
          split
          · exact h
          · split
            · exact h
            · exact h.storeGuard _ _ _
    · exact h

theorem writeLevel (h : s.Safe) : (Machine.writeLevel r s).1.Safe := by
  unfold Machine.writeLevel
  split
  · exact h
  · split
    · dsimp only
      split
      · exact h
      · split
        · exact h
        · split
          · exact h
          · exact h
    · exact h

theorem writeInput (h : s.Safe) : (Machine.writeInput r s).1.Safe := by
  unfold Machine.writeInput
  split
  · exact h
  · split
    · split
      · exact h
      · split
        · exact h
        · exact h
    · exact h

theorem examineGrowth (h : s.Safe) : s.examineGrowth.Safe := h.onPlant fun q => q.examineGrowth (expireNow_keeps _ _)

/-- An allowance and its reservation written together. -/
theorem setAllowance (h : s.Safe) {c : Chamber} (hi : (s.engine c).state = .idle) {v : Nat}
    (hb : v + otherReservations s.plant c ≤ s.plant.arbiter.budget) :
    (s.setArbiter { s.plant.arbiter with
      allowance := s.plant.arbiter.allowance.set c.val v c.isLt
      reservation := s.plant.arbiter.reservation.set c.val v c.isLt }).Safe := by
  refine ⟨⟨fun d => ?_, ?_⟩, ⟨h.growth.1, fun g hg => ?_⟩, h.queue, h.holder, h.cells, h.permits, h.notices, fun d hd' => ?_⟩
  · have k := h.budget.1 d
    by_cases hd : c.val = d.val
    · simp [State.setArbiter, Plant.allowance, Plant.reservation, hd]
    · simpa [State.setArbiter, Plant.allowance, Plant.reservation, hd] using k
  · have k := Plant.reserved_setReservation s.plant c v
    exact k.le.trans hb
  · obtain ⟨h1, h2, h3⟩ := h.growth.2 g hg
    refine ⟨h1, h2, ?_⟩
    have hd : c.val ≠ g.chamber.val := fun hd => by
      have : c = g.chamber := Fin.ext hd
      subst this
      exact absurd hi (by simp only [State.engine] at *; rw [h1]; simp)
    simpa [State.setArbiter, Plant.reservation, hd] using h3
  · have k := h.settled d hd'
    by_cases hd : c.val = d.val
    · simp [State.setArbiter, Plant.allowance, Plant.reservation, hd]
    · simpa [State.setArbiter, Plant.allowance, Plant.reservation, hd] using k

theorem writeArbiter (h : s.Safe) : (Machine.writeArbiter r s).1.Safe := by
  unfold Machine.writeArbiter
  dsimp only
  split
  · exact h
  · split
    · exact h
    · split
      · split
        · split
          · exact h
          · exact ⟨h.budget, h.growth, h.queue, h.holder, h.cells, h.permits, h.notices, h.settled⟩
        · split
          · exact h
          · next hi =>
            split
            · exact h
            · next hb =>
              refine (setAllowance h (not_not.1 hi) ?_).examineGrowth
              omega
      · split
        · exact ⟨h.budget, h.growth, h.queue, h.holder, h.cells, h.permits, h.notices, h.settled⟩
        · split
          · exact h
          · next hb =>
            have h1 : (s.setArbiter { s.plant.arbiter with budget := r.number 0 2 }).Safe :=
              ⟨⟨h.budget.1, not_lt.1 hb⟩, h.growth, h.queue, h.holder, h.cells, h.permits, h.notices, h.settled⟩
            exact h1.examineGrowth

theorem writeNominal_up (r : Ring) (n : Nat) : (r.writeNominal n).up = r.up := by
  unfold Ring.writeNominal Ring.up
  dsimp only
  cases r.state <;> rfl

theorem writeRing (h : s.Safe) : (Machine.writeRing r s).1.Safe := by
  unfold Machine.writeRing
  split
  · exact h
  · split
    · exact h
    · split
      · exact h
      · split
        · dsimp only
          split
          · exact h
          · exact h.congr rfl (writeNominal_up _ _)
        · split
          · exact h
          · exact h

theorem writeNotice (h : s.Safe) : (Machine.writeNotice r s).1.Safe := by
  unfold Machine.writeNotice
  split
  · split
    · exact h
    · split
      · exact h
      · split
        · exact h
        · next hc =>
          split
          · exact h
          · refine ⟨h.budget, h.growth, h.queue, h.holder, h.cells, h.permits, fun i => ?_, h.settled⟩
            have k := h.notices i
            by_cases hi : r.index.toNat = i.val
            · have hc' := not_lt.1 hc
              simp only [State.acceptWrite, Fin.getElem_fin, hi, Vector.getElem_set_self] at k ⊢
              exact ⟨hc', k.2⟩
            · simpa [State.acceptWrite, hi] using k
  · split
    · split
      · exact h
      · exact h
    · exact h

theorem writeTable (h : s.Safe) (table : Nat) : (Machine.writeTable table r s).1.Safe := by
  unfold Machine.writeTable
  split
  · exact h.writeSlotMap
  · exact h.writeChannel
  · exact h.writeStep
  · exact h.writeGuard
  · exact h.writeLevel
  · exact h.writeInput
  · exact h.writeArbiter
  · exact h.writeRing
  · exact h.writeNotice
  · exact h

/-! ### Checks -/

theorem checkRecords (h : s.Safe) (n i passed : Nat) : (Machine.checkRecords n i passed s).1.Safe := by
  induction n generalizing i passed s with
  | zero => exact h
  | succ n ih =>
    unfold Machine.checkRecords
    split
    · dsimp only
      split
      · exact h
      · split
        · exact h
        · exact ih (s := s.setStep _ _) h _ _
    · exact h

theorem checkLevelTables (h : s.Safe) (n i passed : Nat) : (Machine.checkLevelTables n i passed s).1.Safe := by
  induction n generalizing i passed s with
  | zero => exact h
  | succ n ih =>
    unfold Machine.checkLevelTables
    split
    · dsimp only
      split
      · exact h
      · exact ih (s := s.setLevel _ _) h _ _
    · exact h

theorem checkSteps (h : s.Safe) : (Machine.checkSteps r s).1.Safe := by
  unfold Machine.checkSteps
  dsimp only
  split
  · exact h
  · exact h.checkRecords _ _ _

theorem checkLevels (h : s.Safe) : (Machine.checkLevels r s).1.Safe := by
  unfold Machine.checkLevels
  dsimp only
  split
  · exact h
  · exact h.checkLevelTables _ _ _

theorem checkTable (h : s.Safe) (table : Nat) : (Machine.checkTable table r s).1.Safe := by
  unfold Machine.checkTable
  split
  · exact h.checkSteps
  · exact h.checkLevels
  · exact h

/-! ### Chamber commands -/

theorem startChamber (h : s.Safe) (first : Nat) (c : Chamber) : (Machine.startChamber first c s).1.Safe := by
  unfold Machine.startChamber
  split
  · exact h
  · next hi =>
    split
    · exact h
    · exact h.onPlant fun q => q.startEngine (expireNow_keeps _ _) (not_not.1 hi) id id _ _

theorem holdChamber (h : s.Safe) (c : Chamber) : (Machine.holdChamber c s).1.Safe := by
  unfold Machine.holdChamber
  split
  all_goals first
    | exact h.onPlant fun q => q.addSource (expireNow_keeps _ _) id _ _
    | exact h

theorem resumeChamber (h : s.Safe) (mode : Nat) (c : Chamber) : (Machine.resumeChamber mode c s).1.Safe := by
  unfold Machine.resumeChamber
  split
  · exact h
  · next hs =>
    have hs : (s.plant.engine c).state = .held := not_not.1 hs
    split
    · exact h
    · next m _ =>
      refine h.onPlant fun q => ?_
      have ho := q.out_of_state (d := c) (by rw [hs]; simp) (by rw [hs]; simp)
      have k := q.cells c id
      have q1 : (storeMode c m s.plant).SoundBut noChamber noChamber s.ring.up :=
        (q.lift ho id).land ⟨k.sources, k.range, k.timer, k.awaited, by simpa using k.held, by simpa using k.hold⟩
          (q.permits c id) (q.holder c id) (q.settled c id)
      exact q1.removeSources (expireNow_keeps _ _) id (by rw [storeMode, Plant.engine_setEngine_self]; exact hs) _

theorem abortChamber (h : s.Safe) (c : Chamber) : (Machine.abortChamber c s).1.Safe := by
  unfold Machine.abortChamber
  split
  all_goals first
    | exact h
    | next hs =>
      have hs : (s.plant.engine c).state = _ := hs
      exact h.onPlant fun q => q.abortEngine (expireNow_keeps _ _) (by rw [hs]; simp) id id

theorem releaseChamber (h : s.Safe) (c : Chamber) : (Machine.releaseChamber c s).1.Safe := by
  unfold Machine.releaseChamber
  split
  · next hs => exact h.onPlant fun q => q.releaseEngine (expireNow_keeps _ _) hs id
  · exact h

theorem clearChamber (h : s.Safe) (c : Chamber) : (Machine.clearChamber c s).1.Safe := by
  unfold Machine.clearChamber
  split
  · exact h
  · next hs =>
    have hs : (s.plant.engine c).state = .safe := not_not.1 hs
    split
    · exact h
    · have q := State.safe_iff.1 h
      have ho := q.out_of_state (d := c) (by rw [hs]; simp) (by rw [hs]; simp)
      have k := q.cells c id
      have hl : s.plant.arbiter.line ≠ .granted c := fun hl => by
        have := q.holder c id hl; rw [hs] at this; simp at this
      have q1 := ((q.lift ho id).setPermit s.ring.up).land (e := { s.engine c with state := .idle })
        ⟨⟨fun _ => by simp, fun _ => k.sources.2 (by rw [hs]; simp)⟩,
          (by have := k.range; rw [hs] at this; simpa using this),
          (fun ht => by have := k.timer ht; rw [hs] at this; cases this),
          (by have := k.awaited; rw [hs] at this; simpa using this), (by simp),
          (fun ht => by have := k.hold ht; rw [hs] at this; simp at this)⟩
        (by rw [Plant.permit_setPermit]; simp) (fun k => absurd k hl) (fun _ => q.settled c id (.inr (.inr hs)))
      exact State.safe_iff.2 q1

theorem overMask (h : s.Safe) {step : ChamberStep} (hstep : ∀ {s : State} c, s.Safe → (step c s).1.Safe) (cs : List Chamber)
    (t : MaskTally) : (Machine.overMask r step cs s t).1.Safe := by
  induction cs generalizing s t with
  | nil => exact h
  | cons c rest ih =>
    unfold Machine.overMask
    split
    · dsimp only
      split
      · exact ih (hstep c h) _
      · exact ih (hstep c h) _
    · exact ih h _

theorem chamberCommand (h : s.Safe) {step : ChamberStep} (hstep : ∀ {s : State} c, s.Safe → (step c s).1.Safe) :
    (Machine.chamberCommand step r s).1.Safe := by
  unfold Machine.chamberCommand
  split
  · exact h
  · exact h.overMask hstep _ _

theorem commandStart (h : s.Safe) : (Machine.commandStart r s).1.Safe := h.chamberCommand fun c k => k.startChamber _ c
theorem commandHold (h : s.Safe) : (Machine.commandHold r s).1.Safe := h.chamberCommand fun c k => k.holdChamber c
theorem commandResume (h : s.Safe) : (Machine.commandResume r s).1.Safe := h.chamberCommand fun c k => k.resumeChamber _ c
theorem commandAbort (h : s.Safe) : (Machine.commandAbort r s).1.Safe := h.chamberCommand fun c k => k.abortChamber c
theorem commandRelease (h : s.Safe) : (Machine.commandRelease r s).1.Safe := h.chamberCommand fun c k => k.releaseChamber c
theorem commandClear (h : s.Safe) : (Machine.commandClear r s).1.Safe := h.chamberCommand fun c k => k.clearChamber c

/-! ### Part commands and the mailbox -/

theorem commandAssign (h : s.Safe) : (Machine.commandAssign r s).1.Safe := by
  unfold Machine.commandAssign
  dsimp only
  split
  · exact h
  · exact h

theorem softReset (h : s.Safe) : s.softReset.Safe := by
  unfold State.softReset
  dsimp only
  refine State.Safe.guardPass ?_ _ _
  refine ⟨⟨fun _ => le_rfl, ?_⟩, ⟨List.nodup_nil, fun g hg => absurd hg List.not_mem_nil⟩,
    ⟨List.nodup_nil, fun c hc => absurd hc List.not_mem_nil, fun _ => rfl, fun c hl => by cases hl⟩,
    (fun c hl => by cases hl), (fun c => ?_), (fun c => ?_), (fun i => ?_), fun _ _ => rfl⟩
  · refine le_trans ?_ h.budget.2
    have k := h.budget.1
    have h0 := k 0; have h1 := k 1; have h2 := k 2; have h3 := k 3
    simp only [Plant.reserved, Plant.reservation, Plant.allowance, chambers, Arbiter.softReset, List.map_cons, List.map_nil,
      List.sum_cons, List.sum_nil] at *
    omega
  · simp only [Plant.engine, Fin.getElem_fin, Vector.getElem_replicate]
    exact ⟨by simp [HoldSources.isEmpty], by simp, by simp, by simp, by simp, by simp⟩
  · simp [Ring.softReset, Ring.up, permitLevel]
  · simp only [Fin.getElem_fin, Vector.getElem_map, NoticeSlot.softReset]
    exact ⟨(h.notices i).1, by simp⟩

theorem takeWith (code : Nat) {command : State → State × Answer} (hc : (command s).1.Safe) :
    (s.takeWith code r command).Safe := hc

theorem takeRecord (h : s.Safe) (code : Nat) {command : State → State × Answer} (hc : (command s).1.Safe) :
    (s.takeRecord code r command).Safe := by
  unfold State.takeRecord
  split
  · exact hc
  · exact h

theorem commandOf (h : s.Safe) (code table : Nat) : (Machine.commandOf code table r s).1.Safe := by
  unfold Machine.commandOf
  split
  · exact h
  · exact h.writeTable _
  · exact h.checkTable _
  · exact h.commandStart
  · exact h.commandHold
  · exact h.commandResume
  · exact h.commandAbort
  · exact h.commandRelease
  · exact h.commandClear
  · exact h
  · exact h.commandAssign

theorem broadcast (h : s.Safe) (code : Nat) : (s.broadcast code r).Safe := by
  unfold State.broadcast
  split
  · exact h
  · split
    · exact h.commandHold
    · split
      · exact h.commandResume
      · split
        · exact h.commandAbort
        · exact h

theorem takeEntry (h : s.Safe) (entry : List Byte) : (Machine.takeEntry entry s).1.Safe := by
  unfold Machine.takeEntry
  dsimp only
  split
  · exact h
  · split
    · exact h.broadcast _
    · split
      · exact h
      · split
        · exact h.softReset
        · split
          · exact takeWith _ (h.commandOf _ _)
          · exact h

theorem takeMailbox (h : s.Safe) (entries : List (List Byte)) : (Machine.takeMailbox entries s).2.Safe := by
  induction entries generalizing s with
  | nil => exact h
  | cons e rest ih => exact ih (h.takeEntry e)

/-! ### Posting -/

theorem nextPosted {p : Plant} (h : p.NoticesCounted) (address : Byte) (threshold : Nat) (entries : List (List Byte)) :
    ({ p with notices := (Machine.postNotices address threshold entries p.notices).2 } : Plant).NoticesCounted := by
  have key : ∀ (entries : List (List Byte)) (notices : Vector NoticeSlot 27),
      ({ p with notices := notices } : Plant).NoticesCounted →
      ({ p with notices := (Machine.postNotices address threshold entries notices).2 } : Plant).NoticesCounted := by
    intro entries
    induction entries with
    | nil => exact fun _ h => h
    | cons e rest ih =>
      intro notices hn
      unfold Machine.postNotices
      split
      · split
        · exact hn
        · next i _ =>
          refine ih _ fun j => ?_
          have k := hn j
          by_cases hj : i.val = j.val
          · have hj' : j = i := Fin.ext hj.symm
            subst hj'
            simpa [NoticeSlot.posted] using k.1
          · simpa [hj] using k
      · exact ih _ hn
  exact key _ _ h

theorem postNotices (h : s.Safe) (mailbox : List (List Byte)) : (s.postNotices mailbox).2.Safe :=
  ⟨h.budget, h.growth, h.queue, h.holder, h.cells, h.permits, nextPosted h.notices _ _ _, h.settled⟩

/-! ### Frames -/

theorem takeOutbound (h : s.Safe) (f : Frame) : (s.takeOutbound f).1.Safe := by
  have h1 : (s.arrival.overrun.openCycleWith f.cycle.toNat).Safe := h.arrival.overrun
  exact (h1.substitute f.slots).takeMailbox f.mailbox

theorem matchReturn (h : s.Safe) (f : Frame) : (s.matchReturn f).Safe := by
  unfold State.matchReturn
  split
  · have h1 := h.closeCycle f.slots
    dsimp only
    generalize s.closeCycle f.slots = t at h1 ⊢
    exact h1
  · exact h

theorem takeReturn (h : s.Safe) (f : Frame) : (s.takeReturn f).1.Safe := by
  have h1 : ((s.matchReturn f).postResponses f.mailbox).2.Safe := h.matchReturn f
  exact h1.postNotices _

end State.Safe

end Sys2Proof.Machine
end

