-- ==== Sys2Proof/Laws/InUse.lean ====
section
/-! SUPPORT. What a record that is taken leaves of what a chamber's sequence stands on: the step records in its range, its channel
records, its level table and the slot map (R39, R40), said once for each operation of the management agent. -/

namespace Sys2Proof.Machine

/-- The tables that sequences stand on are the same. -/
structure State.SameFacts (s t : State) : Prop where
  pool : t.pool = s.pool
  records : ∀ (c : Chamber) (h : Chan), (t.channel c h).record = (s.channel c h).record
  levels : t.levels = s.levels
  slotMap : t.slotMap = s.slotMap

/-- What chamber c's sequence stands on is kept. -/
structure State.KeepsInUse (c : Chamber) (s t : State) : Prop where
  steps : ∀ k : Fin 512, s.InUse c k.val → t.pool[k] = s.pool[k]
  facts : (s.engine c).state ≠ .idle → s.KeepsFacts c t

namespace State.SameFacts

variable {s t u : State}

theorem refl (s : State) : s.SameFacts s := ⟨rfl, fun _ _ => rfl, rfl, rfl⟩

theorem trans (h : s.SameFacts t) (k : t.SameFacts u) : s.SameFacts u :=
  ⟨k.pool.trans h.pool, fun c g => (k.records c g).trans (h.records c g), k.levels.trans h.levels, k.slotMap.trans h.slotMap⟩

theorem facts (h : s.SameFacts t) (c : Chamber) : s.KeepsFacts c t :=
  ⟨fun k => h.records c k, by rw [h.levels], fun k => by rw [h.levels]; exact k, h.slotMap⟩

theorem keeps (h : s.SameFacts t) (c : Chamber) : s.KeepsInUse c t := ⟨fun k _ => by rw [h.pool], fun _ => h.facts c⟩

/-! ### Chamber commands -/

theorem chamberStep {act : ChamberStep} {n m : Nat}
    (h : act = startChamber n ∨ act = holdChamber ∨ act = resumeChamber m ∨ act = abortChamber ∨ act = releaseChamber ∨
      act = clearChamber) (c : Chamber) (s : State) : s.SameFacts (act c s).1 := by
  rcases h with rfl | rfl | rfl | rfl | rfl | rfl
  · unfold startChamber; split
    · exact .refl s
    · split <;> exact ⟨rfl, fun _ _ => rfl, rfl, rfl⟩
  · unfold holdChamber; split <;> exact ⟨rfl, fun _ _ => rfl, rfl, rfl⟩
  · unfold resumeChamber; split
    · exact .refl s
    · split <;> exact ⟨rfl, fun _ _ => rfl, rfl, rfl⟩
  · unfold abortChamber; split <;> exact ⟨rfl, fun _ _ => rfl, rfl, rfl⟩
  · unfold releaseChamber; split <;> exact ⟨rfl, fun _ _ => rfl, rfl, rfl⟩
  · unfold clearChamber; split
    · exact .refl s
    · split <;> exact ⟨rfl, fun _ _ => rfl, rfl, rfl⟩

theorem overMask {act : ChamberStep} (h : ∀ (c : Chamber) (s : State), s.SameFacts (act c s).1) (r : Request) (cs : List Chamber) (s : State)
    (t : MaskTally) : s.SameFacts (overMask r act cs s t).1 := by
  induction cs generalizing s t with
  | nil => exact .refl s
  | cons c rest ih =>
    unfold Machine.overMask
    split
    · have k := h c s
      dsimp only
      split
      · exact k.trans (ih _ _)
      · exact k.trans (ih _ _)
    · exact ih _ _

theorem chamberCommand {act : ChamberStep} (h : ∀ (c : Chamber) (s : State), s.SameFacts (act c s).1) (r : Request) (s : State) :
    s.SameFacts (chamberCommand act r s).1 := by
  unfold Machine.chamberCommand
  split
  · exact .refl s
  · exact overMask h r _ s _

theorem broadcast (code : Nat) (r : Request) (s : State) : s.SameFacts (s.broadcast code r) := by
  unfold State.broadcast
  split
  · exact .refl s
  · split
    · exact chamberCommand (fun c s => chamberStep (n := 0) (m := 0) (by simp) c s) r s
    · split
      · exact chamberCommand (fun c s => chamberStep (n := 0) (m := r.byte 0) (by simp) c s) r s
      · split
        · exact chamberCommand (fun c s => chamberStep (n := 0) (m := 0) (by simp) c s) r s
        · exact .refl s

theorem guardPass (which : Chamber → GuardIndex → Bool) (demands : List Chamber) (s : State) :
    s.SameFacts (s.guardPass which demands) := ⟨rfl, fun _ _ => rfl, rfl, rfl⟩

theorem softReset (s : State) : s.SameFacts s.softReset := by
  unfold State.softReset
  dsimp only
  refine State.SameFacts.trans ?_ (guardPass _ _ _)
  constructor
  · rfl
  · intros; rfl
  · rfl
  · rfl

end State.SameFacts

/-! ### Writes -/

namespace State.KeepsInUse

variable {s t : State} {r : Request}

theorem refl (c : Chamber) (s : State) : s.KeepsInUse c s := (State.SameFacts.refl s).keeps c

theorem accept (h : s.KeepsInUse c t) (table : Nat) (r : Request) : s.KeepsInUse c (t.acceptWrite table r).1 := h

theorem writeSlotMap (c : Chamber) : s.KeepsInUse c (Machine.writeSlotMap r s).1 := by
  unfold Machine.writeSlotMap
  split
  · exact .refl c s
  · split
    · split
      · exact .refl c s
      · next hi =>
        split
        · exact .refl c s
        · split
          · exact .refl c s
          · refine ⟨fun _ _ => rfl, fun hc => absurd ?_ hc⟩
            have k : s.allIdle = true := by simpa using hi
            unfold State.allIdle at k
            have := List.all_eq_true.1 k c (by fin_cases c <;> simp [chambers])
            simpa using this
    · exact .refl c s

theorem reviewGuards (h : s.SameFacts t) (d : Chamber) : s.SameFacts (t.reviewGuards d) := h.trans ⟨rfl, fun _ _ => rfl, rfl, rfl⟩

theorem storeChannel {c d : Chamber} (hd : (s.engine d).state = .idle) (k : Chan) (record : ChannelRecord) :
    s.KeepsInUse c (s.storeChannel d k record) := by
  have h0 : s.KeepsInUse c (s.setChannel d k { record := record, status := freshStatus record s.now }) := by
    refine ⟨fun _ _ => rfl, fun hc => ⟨fun h => ?_, rfl, id, rfl⟩⟩
    have ne : d.val ≠ c.val := fun e => hc (by rw [show c = d from (Fin.ext e).symm]; exact hd)
    simp [State.channel, State.setChannel, ne]
  unfold State.storeChannel
  dsimp only
  split
  · exact ⟨h0.steps, fun hc => ⟨(h0.facts hc).channels, rfl, id, rfl⟩⟩
  · exact ⟨h0.steps, fun hc => ⟨(h0.facts hc).channels, rfl, id, rfl⟩⟩

theorem writeChannel (c : Chamber) : s.KeepsInUse c (Machine.writeChannel r s).1 := by
  unfold Machine.writeChannel
  split
  · exact .refl c s
  · split
    · split
      · exact .refl c s
      · split
        · exact .refl c s
        · dsimp only
          split
          · exact .refl c s
          · next hi =>
            split
            · exact .refl c s
            · split
              · exact .refl c s
              · exact storeChannel (by simpa using hi) _ _
    · exact .refl c s

theorem inUse_stepInUse {c : Chamber} {i : Nat} (h : s.InUse c i) : s.stepInUse i = true := by
  obtain ⟨hs, first, last, hr, h1, h2⟩ := h
  unfold State.stepInUse
  refine List.any_eq_true.2 ⟨c, by fin_cases c <;> simp [chambers], ?_⟩
  rcases hs with hs | hs | hs <;> simp [hs, hr, h1, h2]

theorem writeStep (c : Chamber) : s.KeepsInUse c (Machine.writeStep r s).1 := by
  unfold Machine.writeStep
  split
  · next hr =>
    split
    · exact .refl c s
    · next hu =>
      refine ⟨fun k hk => ?_, fun _ => ⟨fun _ => rfl, rfl, id, rfl⟩⟩
      have ne : r.index.toNat ≠ k.val := fun e => hu (by rw [e]; exact inUse_stepInUse hk)
      simp [State.acceptWrite, State.setStep, ne]
  · exact .refl c s

theorem writeGuard (s : State) : s.SameFacts (Machine.writeGuard r s).1 := by
  unfold Machine.writeGuard
  split
  · exact .refl s
  · split
    · split
      · exact .refl s
      · split
        · exact .refl s
        · dsimp only
          split
          · exact .refl s
          · split
            · exact .refl s
            · exact ⟨rfl, fun _ _ => rfl, rfl, rfl⟩
    · exact .refl s

theorem writeLevel (c : Chamber) : s.KeepsInUse c (Machine.writeLevel r s).1 := by
  unfold Machine.writeLevel
  split
  · exact .refl c s
  · split
    · next hr =>
      dsimp only
      split
      · exact .refl c s
      · split
        · exact .refl c s
        · split
          · exact .refl c s
          · next hi =>
            refine ⟨fun _ _ => rfl, fun hc => ?_⟩
            have ne : r.index.toNat ≠ c.val := fun e => hc (by
              have : c = ⟨r.index.toNat, hr⟩ := Fin.ext e.symm
              rw [this]; simpa using hi)
            refine ⟨fun _ => rfl, ?_, ?_, rfl⟩ <;> simp [State.acceptWrite, State.setLevel, ne]
    · exact .refl c s

theorem writeInput (s : State) : s.SameFacts (Machine.writeInput r s).1 := by
  unfold Machine.writeInput
  repeat' split
  all_goals exact ⟨rfl, fun _ _ => rfl, rfl, rfl⟩

theorem writeArbiter (s : State) : s.SameFacts (Machine.writeArbiter r s).1 := by
  unfold Machine.writeArbiter
  dsimp only
  repeat' split
  all_goals exact ⟨rfl, fun _ _ => rfl, rfl, rfl⟩

theorem writeRing (s : State) : s.SameFacts (Machine.writeRing r s).1 := by
  unfold Machine.writeRing
  dsimp only
  repeat' split
  all_goals exact ⟨rfl, fun _ _ => rfl, rfl, rfl⟩

theorem writeNotice (s : State) : s.SameFacts (Machine.writeNotice r s).1 := by
  unfold Machine.writeNotice
  dsimp only
  repeat' split
  all_goals exact ⟨rfl, fun _ _ => rfl, rfl, rfl⟩

/-- A WRITE on any table (R2, R8, R18, R26). -/
theorem writeTable (table : Nat) (c : Chamber) : s.KeepsInUse c (Machine.writeTable table r s).1 := by
  unfold Machine.writeTable
  split
  · exact writeSlotMap c
  · exact writeChannel c
  · exact writeStep c
  · exact (writeGuard s).keeps c
  · exact writeLevel c
  · exact (writeInput s).keeps c
  · exact (writeArbiter s).keeps c
  · exact (writeRing s).keeps c
  · exact (writeNotice s).keeps c
  · exact .refl c s

/-! ### CHECK -/

/-- The CHECK of a record that is CHECKED changes nothing; of another it changes the check state alone (R29). -/
theorem checkRecords (n i passed : Nat) (s : State) :
    (∀ k : Fin 512, s.pool[k].check = .checked → (Machine.checkRecords n i passed s).1.pool[k] = s.pool[k]) ∧
      (Machine.checkRecords n i passed s).1 = { s with pool := (Machine.checkRecords n i passed s).1.pool } := by
  induction n generalizing i passed s with
  | zero => exact ⟨fun _ _ => rfl, rfl⟩
  | succ n ih =>
    unfold Machine.checkRecords
    split
    · next hi =>
      dsimp only
      split
      · exact ⟨fun _ _ => rfl, rfl⟩
      · split
        · exact ⟨fun _ _ => rfl, rfl⟩
        · obtain ⟨h1, h2⟩ := ih (i + 1) (passed + 1) (s.setStep ⟨i, hi⟩ { s.pool[i] with check := .checked })
          refine ⟨fun k hk => ?_, h2⟩
          have e : (s.setStep ⟨i, hi⟩ { s.pool[i] with check := .checked }).pool[k] = s.pool[k] := by
            by_cases hik : i = k.val
            · subst hik
              simp only [State.setStep, Fin.getElem_fin, Vector.getElem_set_self]
              rw [← show s.pool[k].check = CheckState.checked from hk]
              rfl
            · simp [State.setStep, hik]
          rw [h1 k (by rw [e]; exact hk), e]
    · exact ⟨fun _ _ => rfl, rfl⟩

/-- CHECK leaves thresholds and CHECKED tables as they are (R19). -/
theorem checkLevelTables (n i passed : Nat) (s : State) :
    (∀ c : Chamber, (Machine.checkLevelTables n i passed s).1.levels[c].thresholds = s.levels[c].thresholds ∧
      (s.levels[c].checked = true → (Machine.checkLevelTables n i passed s).1.levels[c].checked = true)) ∧
      (Machine.checkLevelTables n i passed s).1 = { s with levels := (Machine.checkLevelTables n i passed s).1.levels } := by
  induction n generalizing i passed s with
  | zero => exact ⟨fun _ => ⟨rfl, id⟩, rfl⟩
  | succ n ih =>
    unfold Machine.checkLevelTables
    split
    · next hi =>
      dsimp only
      split
      · exact ⟨fun _ => ⟨rfl, id⟩, rfl⟩
      · obtain ⟨h1, h2⟩ := ih (i + 1) (passed + 1) (s.setLevel ⟨i, hi⟩ { s.levels[i] with checked := true })
        refine ⟨fun c => ?_, h2⟩
        have e : (s.setLevel ⟨i, hi⟩ { s.levels[i] with checked := true }).levels[c].thresholds = s.levels[c].thresholds ∧
            (s.levels[c].checked = true → (s.setLevel ⟨i, hi⟩ { s.levels[i] with checked := true }).levels[c].checked = true) := by
          by_cases hic : i = c.val
          · subst hic
            simp [State.setLevel]
          · simp [State.setLevel, hic]
        exact ⟨(h1 c).1.trans e.1, fun k => (h1 c).2 (e.2 k)⟩
    · exact ⟨fun _ => ⟨rfl, id⟩, rfl⟩

/-- A CHECK on any table (R29, R19), of a part whose held ranges are CHECKED (R39). -/
theorem checkTable (hr : s.RangesChecked) (table : Nat) (c : Chamber) : s.KeepsInUse c (Machine.checkTable table r s).1 := by
  unfold Machine.checkTable
  split
  · unfold checkSteps
    dsimp only
    split
    · exact .refl c s
    · obtain ⟨h1, h2⟩ := checkRecords (r.byte 0) r.index.toNat 0 s
      refine ⟨fun k hk => ?_, fun _ => by rw [h2]; exact ⟨fun _ => rfl, rfl, id, rfl⟩⟩
      obtain ⟨-, first, last, hf, k1, k2⟩ := hk
      have := hr c first last hf k.val k1 k2
      unfold State.stepRecord Ctx.stepRecord at this
      rw [dif_pos k.isLt] at this
      exact h1 k this
  · unfold checkLevels
    dsimp only
    split
    · exact .refl c s
    · obtain ⟨h1, h2⟩ := checkLevelTables (r.byte 0) r.index.toNat 0 s
      exact ⟨fun _ _ => by rw [h2], fun _ => ⟨fun _ => by rw [h2]; rfl, (h1 c).1, (h1 c).2, by rw [h2]⟩⟩
  · exact .refl c s

/-! ### Records taken -/

theorem commandOf (hr : s.RangesChecked) (code table : Nat) (c : Chamber) : s.KeepsInUse c (commandOf code table r s).1 := by
  have chamber : ∀ {act : ChamberStep} (n m : Nat), (act = startChamber n ∨ act = holdChamber ∨ act = resumeChamber m ∨
      act = abortChamber ∨ act = releaseChamber ∨ act = clearChamber) → s.KeepsInUse c (chamberCommand act r s).1 :=
    fun n m h => (State.SameFacts.chamberCommand (fun c s => State.SameFacts.chamberStep (n := n) (m := m) h c s) r s).keeps c
  unfold Machine.commandOf
  split
  · exact .refl c s
  · exact writeTable table c
  · exact checkTable hr table c
  · exact chamber (r.number 0 2) 0 (by simp)
  · exact chamber 0 0 (by simp)
  · exact chamber 0 (r.byte 0) (by simp)
  · exact chamber 0 0 (by simp)
  · exact chamber 0 0 (by simp)
  · exact chamber 0 0 (by simp)
  · exact (State.SameFacts.mk (s := s) (t := (commandLock s).1) rfl (fun _ _ => rfl) rfl rfl).keeps c
  · unfold commandAssign
    dsimp only
    split
    · exact .refl c s
    · refine State.SameFacts.keeps ?_ c
      exact ⟨rfl, fun _ _ => rfl, rfl, rfl⟩

/-- One entry of a mailbox (R155, R156). -/
theorem takeEntry (hr : s.RangesChecked) (entry : List Byte) (c : Chamber) : s.KeepsInUse c (takeEntry entry s).1 := by
  unfold Machine.takeEntry
  dsimp only
  split
  · exact .refl c s
  · split
    · exact (State.SameFacts.broadcast _ _ s).keeps c
    · split
      · exact .refl c s
      · split
        · exact (State.SameFacts.softReset s).keeps c
        · split
          · have k := commandOf (r := requestOf entry) hr (byteAt entry 1) (byteAt entry 3) c
            exact ⟨k.steps, fun hc => ⟨(k.facts hc).channels, (k.facts hc).thresholds, (k.facts hc).checked,
              (k.facts hc).slotMap⟩⟩
          · exact .refl c s

end State.KeepsInUse

end Sys2Proof.Machine
end

