-- ==== Sys2Proof/Laws/Management.lean ====
section
/-! SUPPORT. The taking of a record, said once: a record that is taken executes its command and queues the answer, one that is
not leaves the part as it was; and what a chamber command does with the mask of one chamber. -/

namespace Sys2Proof.Machine

variable {s : State} {r : Request}

theorem State.Takes.addressed (h : s.Takes r) (code : Nat) : s.addressed code r = true := by
  simp [State.addressed, h.2.2.1, h.2.1]

/-- A record that is taken (R155). -/
theorem State.Takes.takeRecord (h : s.Takes r) (code : Nat) (command : State → State × Answer) :
    s.takeRecord code r command = (command s).1.answered code r (command s).2.result (command s).2.data := by
  have h4 : s.responses.length < Config.responseRoom := h.2.2.2
  simp [State.takeRecord, h.1, h.addressed, State.hasRoom, h4, State.takeWith, State.answered, responseTo]

/-- A record that is not taken, for every code but that of ASSIGN. -/
theorem State.takeRecord_left (h : ¬s.Takes r) {code : Nat} (hc : code ≠ codeAssign) (command : State → State × Answer) :
    s.takeRecord code r command = s := by
  unfold State.takeRecord
  split
  · next hk =>
    simp only [State.addressed, State.hasRoom, Bool.and_eq_true, Bool.or_eq_true, decide_eq_true_eq, beq_iff_eq,
      bne_iff_ne, ne_eq, Bool.not_eq_true'] at hk
    obtain ⟨⟨h1, h2, h3⟩, h4⟩ := hk
    exact absurd ⟨h1, h3.resolve_right hc, h2, h4⟩ h
  · rfl

theorem Request.Only.names {c d : Chamber} (h : r.Only c) : r.names d = decide (d = c) := by
  have : r.index = BitVec.ofNat 16 (2 ^ c.val) := by
    apply BitVec.eq_of_toNat_eq
    rw [show r.index.toNat = 2 ^ c.val from h]
    fin_cases c <;> rfl
  unfold Request.names
  rw [this]
  fin_cases c <;> fin_cases d <;> rfl

theorem Request.Only.badMask {c : Chamber} (h : r.Only c) : r.badMask = false := by
  unfold Request.badMask
  rw [show r.index.toNat = 2 ^ c.val from h]
  fin_cases c <;> rfl

/-- A chamber command whose mask names one chamber (R162). -/
theorem Request.Only.chamberCommand {c : Chamber} (h : r.Only c) (step : ChamberStep) (s : State) :
    Machine.chamberCommand step r s = ((step c s).1,
      match (step c s).2 with
      | none => { result := .accepted, data := packData (be1 (2 ^ c.val) ++ be1 0xFF) }
      | some f =>
        { result := f.result
          data := packData (be1 0 ++ be1 c.val ++ be1 f.result.code ++ be2 f.index ++ be1 f.field ++ be1 f.position) }) := by
  unfold Machine.chamberCommand
  rw [if_neg (by simp [h.badMask])]
  obtain rfl | rfl | rfl | rfl : c = 0 ∨ c = 1 ∨ c = 2 ∨ c = 3 := by fin_cases c <;> simp
  all_goals
    cases hs : (step _ s).2 <;> simp [chambers, overMask, h.names, hs, MaskTally.answer]

end Sys2Proof.Machine
end

