-- ==== Sys2Proof/Laws/Orderly.lean ====
section
/-! SUPPORT. What the operations leave of the part beside its plant: the timebase, the response queue, the port records and the
queue of waiting commands; and that each keeps `State.Orderly`. -/

namespace Sys2Proof.Machine

/-- An operation that leaves the timebase, the response queue, the port records and the waiting commands, and keeps the
promises of `State.Orderly`. -/
structure State.Serves (s t : State) : Prop where
  now : t.now = s.now
  inReset : t.inReset = s.inReset
  responses : t.responses = s.responses
  txDown : t.txDown = s.txDown
  txUp : t.txUp = s.txUp
  pending : t.pending = s.pending
  orderly : s.Orderly → t.Orderly

/-- The tracker's own promises. -/
structure Ring.Orderly (r : Ring) : Prop where
  range : r.InRange
  watch : r.WatchFollows

namespace State.Serves

variable {s t u : State} {r : Request}

theorem refl (s : State) : s.Serves s := ⟨rfl, rfl, rfl, rfl, rfl, rfl, id⟩

theorem trans (h : s.Serves t) (k : t.Serves u) : s.Serves u :=
  ⟨k.now.trans h.now, k.inReset.trans h.inReset, k.responses.trans h.responses, k.txDown.trans h.txDown,
    k.txUp.trans h.txUp, k.pending.trans h.pending, fun o => k.orderly (h.orderly o)⟩

/-- An operation on nothing that `State.Orderly` speaks of. -/
theorem of_same (h1 : t.now = s.now) (h2 : t.inReset = s.inReset) (h3 : t.responses = s.responses) (h4 : t.txDown = s.txDown)
    (h5 : t.txUp = s.txUp) (h6 : t.pending = s.pending) (h7 : t.slotMap = s.slotMap) (h8 : t.address = s.address)
    (h9 : t.ring = s.ring) (h10 : t.threshold = s.threshold) : s.Serves t :=
  ⟨h1, h2, h3, h4, h5, h6, fun o =>
    ⟨by have := o.slots; unfold State.SlotsDistinct at *; rw [h7]; exact this,
      by have := o.responses; unfold State.ResponsesFit at *; rw [h3]; exact this,
      by have := o.address; unfold State.AddressLegal at *; rw [h8]; exact this,
      by rw [h9]; exact o.ring, by rw [h9]; exact o.watch, by rw [h10]; exact o.threshold⟩⟩

theorem onPlant (s : State) (f : Ctx → Plant → Plant) : s.Serves (s.onPlant f) :=
  of_same rfl rfl rfl rfl rfl rfl rfl rfl rfl rfl

theorem guardPass (s : State) (which : Chamber → GuardIndex → Bool) (ds : List Chamber) : s.Serves (s.guardPass which ds) :=
  of_same rfl rfl rfl rfl rfl rfl rfl rfl rfl rfl

/-- The tracker replaced by one that keeps its own promises. -/
theorem setRing (s : State) (r : Ring) (h : s.ring.Orderly → r.Orderly) : s.Serves { s with ring := r } :=
  ⟨rfl, rfl, rfl, rfl, rfl, rfl, fun o =>
    have k := h ⟨o.ring, o.watch⟩
    ⟨o.slots, o.responses, o.address, k.range, k.watch, o.threshold⟩⟩

theorem drivePermits (s : State) : s.Serves s.drivePermits := of_same rfl rfl rfl rfl rfl rfl rfl rfl rfl rfl

end State.Serves

/-! ### The tracker -/

namespace Ring.Orderly

variable {r : Ring}

theorem emptyWindow (h : r.Orderly) : r.emptyWindow.Orderly := ⟨h.range, h.watch⟩

theorem comeUp (h : r.Orderly) : r.comeUp.InRange ∧ r.comeUp.up = true := by
  obtain ⟨⟨h1, h2, h3, h4, h5⟩, _⟩ := h
  unfold Ring.comeUp
  cases hs : r.state
  · exact ⟨⟨h1, h2, h3, h4, by simp [Ring.emptyWindow]⟩, by simp [Ring.up]⟩
  · exact ⟨⟨h1, h2, h3, h4, h5⟩, by simp [Ring.up, hs]⟩
  · exact ⟨⟨h1, h2, h3, h4, h5⟩, by simp [Ring.up, hs]⟩
  · exact ⟨⟨h1, h2, h3, h4, h5⟩, by simp [Ring.up]⟩

theorem judge (h : r.InRange) (hu : r.up = true) : r.judge.1.InRange ∧ r.judge.1.up = true := by
  obtain ⟨h1, h2, h3, h4, h5⟩ := h
  unfold Ring.judge
  dsimp only
  split
  · split
    · next hm =>
      simp only [Ring.meanWithinNominal, decide_eq_true_eq] at hm
      refine ⟨⟨h1, h2, h3, h4, ?_⟩, hu⟩
      dsimp only
      split
      · exact hm
      · exact h5
    · exact ⟨⟨h1, h2, h3, h4, h5⟩, hu⟩
  · split
    · next hm =>
      simp only [Ring.meanWithinNominal, decide_eq_true_eq] at hm
      exact ⟨⟨h1, h2, h3, h4, hm⟩, by simp [Ring.up]⟩
    · exact ⟨⟨h1, h2, h3, h4, h5⟩, hu⟩

theorem arrive (h : r.Orderly) (now : Nat) : (r.arrive now).1.Orderly ∧ (r.arrive now).1.up = true := by
  have h1 := h.comeUp
  have h2 : (r.comeUp.countInterval now).InRange ∧ (r.comeUp.countInterval now).up = true := by
    unfold Ring.countInterval
    split
    · exact h1
    · exact h1
  have h3 : ((if 64 ≤ (r.comeUp.countInterval now).count then (r.comeUp.countInterval now).judge
      else (r.comeUp.countInterval now, none)).1).InRange ∧
      ((if 64 ≤ (r.comeUp.countInterval now).count then (r.comeUp.countInterval now).judge
      else (r.comeUp.countInterval now, none)).1).up = true := by
    split
    · exact judge h2.1 h2.2
    · exact h2
  unfold Ring.arrive
  dsimp only
  have hup : ∀ (q : Ring) (w : Option Nat), ({ q with watch := w } : Ring).up = q.up := fun _ _ => rfl
  refine ⟨⟨h3.1, ?_, fun _ => ?_⟩, ?_⟩
  · rw [hup]; exact h3.2.symm
  · rw [hup]; exact h3.2
  · rw [hup]; exact h3.2

theorem writeNominal (h : r.Orderly) {n : Nat} (h1 : 250 ≤ n) (h2 : n ≤ 8000) : (r.writeNominal n).Orderly := by
  have hu := State.Safe.writeNominal_up r n
  exact ⟨⟨h1, h2, h.range.2.2.1, h.range.2.2.2.1, by simp [Ring.writeNominal]⟩, by rw [hu]; exact h.watch.1,
    by rw [hu]; exact h.watch.2⟩

theorem softReset (h : r.Orderly) : r.softReset.Orderly :=
  ⟨⟨h.range.1, h.range.2.1, h.range.2.2.1, h.range.2.2.2.1, by simp [Ring.softReset, Ring.emptyWindow]⟩,
    by simp [Ring.softReset, Ring.up], by simp [Ring.softReset]⟩

theorem lost (h : r.Orderly) :
    ({ r.emptyWindow with state := .lost, watch := none, openCycle := none } : Ring).Orderly :=
  ⟨h.range, by simp [Ring.up], by simp⟩

end Ring.Orderly

/-! ### Commands -/

namespace State.Serves

variable {s t u : State} {r : Request}

theorem setSlot (s : State) (k : Fin 128) (v : SlotUse) (h : duplicateSlot s.slotMap k v = none) :
    s.Serves (s.setSlot k v) := by
  refine ⟨rfl, rfl, rfl, rfl, rfl, rfl, fun o => ⟨fun i j hij hi => ?_, o.responses, o.address, o.ring, o.watch, o.threshold⟩⟩
  have key : v ≠ .unmapped → ∀ m : Fin 128, m ≠ k → s.slotMap[m] ≠ v := by
    intro hv m hm hmv
    unfold duplicateSlot at h
    rw [if_neg hv, Option.map_eq_none_iff, List.find?_eq_none] at h
    refine h (s.slotMap[m], m.val) ?_ (by simpa [hmv] using fun hk => hm (Fin.ext hk))
    rw [List.mem_zipIdx_iff_getElem?]
    simp
  rw [slotMap_setSlot, slotMap_setSlot] at hij
  rw [slotMap_setSlot] at hi
  split at hij <;> split at hij
  · next h1 h2 => rw [← h1, ← h2]
  · next h1 h2 => rw [if_pos h1] at hi; exact absurd hij.symm (key hi j (Ne.symm h2))
  · next h1 h2 => rw [if_neg h1, hij] at hi; exact absurd hij (key hi i (Ne.symm h1))
  · next h1 h2 => rw [if_neg h1] at hi; exact o.slots i j hij hi

theorem writeSlotMap (s : State) : s.Serves (Machine.writeSlotMap r s).1 := by
  unfold Machine.writeSlotMap
  split
  · exact refl s
  · split
    · next hk =>
      split
      · exact refl s
      · split
        · exact refl s
        · split
          · exact refl s
          · next hd => exact setSlot s ⟨r.index.toNat, hk.1⟩ _ hd
    · exact refl s

theorem writeChannel (s : State) : s.Serves (Machine.writeChannel r s).1 := by
  unfold Machine.writeChannel
  split
  · exact refl s
  · split
    · split
      · exact refl s
      · split
        · exact refl s
        · dsimp only
          split
          · exact refl s
          · split
            · exact refl s
            · split
              · exact refl s
              · unfold State.acceptWrite State.storeChannel
                dsimp only
                split <;> exact of_same rfl rfl rfl rfl rfl rfl rfl rfl rfl rfl
    · exact refl s

theorem writeStep (s : State) : s.Serves (Machine.writeStep r s).1 := by
  unfold Machine.writeStep
  split
  · split
    · exact refl s
    · exact of_same rfl rfl rfl rfl rfl rfl rfl rfl rfl rfl
  · exact refl s

theorem writeGuard (s : State) : s.Serves (Machine.writeGuard r s).1 := by
  unfold Machine.writeGuard
  split
  · exact refl s
  · split
    · split
      · exact refl s
      · split
        · exact refl s
        · dsimp only
          split
          · exact refl s
          · split
            · exact refl s
            · exact of_same rfl rfl rfl rfl rfl rfl rfl rfl rfl rfl
    · exact refl s

theorem writeLevel (s : State) : s.Serves (Machine.writeLevel r s).1 := by
  unfold Machine.writeLevel
  split
  · exact refl s
  · split
    · dsimp only
      split
      · exact refl s
      · split
        · exact refl s
        · split
          · exact refl s
          · exact of_same rfl rfl rfl rfl rfl rfl rfl rfl rfl rfl
    · exact refl s

theorem writeInput (s : State) : s.Serves (Machine.writeInput r s).1 := by
  unfold Machine.writeInput
  split
  · exact refl s
  · split
    · split
      · exact refl s
      · split
        · exact refl s
        · exact of_same rfl rfl rfl rfl rfl rfl rfl rfl rfl rfl
    · exact refl s

theorem writeArbiter (s : State) : s.Serves (Machine.writeArbiter r s).1 := by
  unfold Machine.writeArbiter
  dsimp only
  split
  · exact refl s
  · split
    · exact refl s
    · split
      · split
        · split
          · exact refl s
          · exact of_same rfl rfl rfl rfl rfl rfl rfl rfl rfl rfl
        · split
          · exact refl s
          · split
            · exact refl s
            · exact of_same rfl rfl rfl rfl rfl rfl rfl rfl rfl rfl
      · split
        · exact of_same rfl rfl rfl rfl rfl rfl rfl rfl rfl rfl
        · split
          · exact refl s
          · exact of_same rfl rfl rfl rfl rfl rfl rfl rfl rfl rfl

theorem writeRing (s : State) : s.Serves (Machine.writeRing r s).1 := by
  unfold Machine.writeRing
  split
  · exact refl s
  · split
    · exact refl s
    · split
      · exact refl s
      · split
        · dsimp only
          split
          · exact refl s
          · next hn =>
            refine setRing s _ fun h => h.writeNominal ?_ ?_ <;> omega
        · split
          · exact refl s
          · next hn =>
            refine setRing s _ fun h => ⟨⟨h.range.1, h.range.2.1, ?_, ?_, h.range.2.2.2.2⟩, h.watch⟩ <;> dsimp only <;> omega

theorem writeNotice (s : State) : s.Serves (Machine.writeNotice r s).1 := by
  unfold Machine.writeNotice
  split
  · split
    · exact refl s
    · split
      · exact refl s
      · split
        · exact refl s
        · split
          · exact refl s
          · exact of_same rfl rfl rfl rfl rfl rfl rfl rfl rfl rfl
  · split
    · split
      · exact refl s
      · next ht => exact ⟨rfl, rfl, rfl, rfl, rfl, rfl, fun o => ⟨o.slots, o.responses, o.address, o.ring, o.watch, not_lt.1 ht⟩⟩
    · exact refl s

theorem writeTable (s : State) (table : Nat) : s.Serves (Machine.writeTable table r s).1 := by
  unfold Machine.writeTable
  split
  · exact writeSlotMap s
  · exact writeChannel s
  · exact writeStep s
  · exact writeGuard s
  · exact writeLevel s
  · exact writeInput s
  · exact writeArbiter s
  · exact writeRing s
  · exact writeNotice s
  · exact refl s

theorem checkRecords (s : State) (n i passed : Nat) : s.Serves (Machine.checkRecords n i passed s).1 := by
  induction n generalizing i passed s with
  | zero => exact refl s
  | succ n ih =>
    unfold Machine.checkRecords
    split
    · dsimp only
      split
      · exact refl s
      · split
        · exact refl s
        · exact (of_same rfl rfl rfl rfl rfl rfl rfl rfl rfl rfl : s.Serves (s.setStep _ _)).trans (ih _ _ _)
    · exact refl s

theorem checkLevelTables (s : State) (n i passed : Nat) : s.Serves (Machine.checkLevelTables n i passed s).1 := by
  induction n generalizing i passed s with
  | zero => exact refl s
  | succ n ih =>
    unfold Machine.checkLevelTables
    split
    · dsimp only
      split
      · exact refl s
      · exact (of_same rfl rfl rfl rfl rfl rfl rfl rfl rfl rfl : s.Serves (s.setLevel _ _)).trans (ih _ _ _)
    · exact refl s

theorem checkSteps (s : State) : s.Serves (Machine.checkSteps r s).1 := by
  unfold Machine.checkSteps
  dsimp only
  split
  · exact refl s
  · exact checkRecords s _ _ _

theorem checkLevels (s : State) : s.Serves (Machine.checkLevels r s).1 := by
  unfold Machine.checkLevels
  dsimp only
  split
  · exact refl s
  · exact checkLevelTables s _ _ _

theorem checkTable (s : State) (table : Nat) : s.Serves (Machine.checkTable table r s).1 := by
  unfold Machine.checkTable
  split
  · exact checkSteps s
  · exact checkLevels s
  · exact refl s

theorem startChamber (s : State) (first : Nat) (c : Chamber) : s.Serves (Machine.startChamber first c s).1 := by
  unfold Machine.startChamber
  split
  · exact refl s
  · split
    · exact refl s
    · exact of_same rfl rfl rfl rfl rfl rfl rfl rfl rfl rfl

theorem holdChamber (s : State) (c : Chamber) : s.Serves (Machine.holdChamber c s).1 := by
  unfold Machine.holdChamber
  split <;> first | exact refl s | exact of_same rfl rfl rfl rfl rfl rfl rfl rfl rfl rfl

theorem resumeChamber (s : State) (mode : Nat) (c : Chamber) : s.Serves (Machine.resumeChamber mode c s).1 := by
  unfold Machine.resumeChamber
  split
  · exact refl s
  · split
    · exact refl s
    · exact of_same rfl rfl rfl rfl rfl rfl rfl rfl rfl rfl

theorem abortChamber (s : State) (c : Chamber) : s.Serves (Machine.abortChamber c s).1 := by
  unfold Machine.abortChamber
  split <;> first | exact refl s | exact of_same rfl rfl rfl rfl rfl rfl rfl rfl rfl rfl

theorem releaseChamber (s : State) (c : Chamber) : s.Serves (Machine.releaseChamber c s).1 := by
  unfold Machine.releaseChamber
  split
  · exact of_same rfl rfl rfl rfl rfl rfl rfl rfl rfl rfl
  · exact refl s

theorem clearChamber (s : State) (c : Chamber) : s.Serves (Machine.clearChamber c s).1 := by
  unfold Machine.clearChamber
  split
  · exact refl s
  · split
    · exact refl s
    · exact of_same rfl rfl rfl rfl rfl rfl rfl rfl rfl rfl

theorem overMask {step : ChamberStep} (hstep : ∀ (s : State) c, s.Serves (step c s).1) (s : State) (cs : List Chamber)
    (t : MaskTally) : s.Serves (Machine.overMask r step cs s t).1 := by
  induction cs generalizing s t with
  | nil => exact refl s
  | cons c rest ih =>
    unfold Machine.overMask
    split
    · dsimp only
      split
      · exact (hstep s c).trans (ih _ _)
      · exact (hstep s c).trans (ih _ _)
    · exact ih s _

theorem chamberCommand {step : ChamberStep} (hstep : ∀ (s : State) c, s.Serves (step c s).1) (s : State) :
    s.Serves (Machine.chamberCommand step r s).1 := by
  unfold Machine.chamberCommand
  split
  · exact refl s
  · exact overMask hstep s _ _

theorem commandStart (s : State) : s.Serves (Machine.commandStart r s).1 := chamberCommand (fun s c => startChamber s _ c) s
theorem commandHold (s : State) : s.Serves (Machine.commandHold r s).1 := chamberCommand (fun s c => holdChamber s c) s
theorem commandResume (s : State) : s.Serves (Machine.commandResume r s).1 := chamberCommand (fun s c => resumeChamber s _ c) s
theorem commandAbort (s : State) : s.Serves (Machine.commandAbort r s).1 := chamberCommand (fun s c => abortChamber s c) s
theorem commandRelease (s : State) : s.Serves (Machine.commandRelease r s).1 := chamberCommand (fun s c => releaseChamber s c) s
theorem commandClear (s : State) : s.Serves (Machine.commandClear r s).1 := chamberCommand (fun s c => clearChamber s c) s

theorem commandLock (s : State) : s.Serves (Machine.commandLock s).1 :=
  of_same rfl rfl rfl rfl rfl rfl rfl rfl rfl rfl

theorem commandAssign (s : State) : s.Serves (Machine.commandAssign r s).1 := by
  unfold Machine.commandAssign
  dsimp only
  split
  · exact refl s
  · next ha =>
    refine ⟨rfl, rfl, rfl, rfl, rfl, rfl, fun o => ⟨o.slots, o.responses, fun hb => ha (.inr ?_), o.ring, o.watch, o.threshold⟩⟩
    have hlt : r.byte 0 < 256 := by unfold Request.byte byteAt; exact BitVec.isLt _
    have hb : (BitVec.ofNat 8 (r.byte 0)).toNat = (0xFF#8).toNat := congrArg _ hb
    rw [BitVec.toNat_ofNat, Nat.mod_eq_of_lt hlt] at hb
    exact hb

theorem commandOf (s : State) (code table : Nat) : s.Serves (Machine.commandOf code table r s).1 := by
  unfold Machine.commandOf
  split
  · exact refl s
  · exact writeTable s _
  · exact checkTable s _
  · exact commandStart s
  · exact commandHold s
  · exact commandResume s
  · exact commandAbort s
  · exact commandRelease s
  · exact commandClear s
  · exact commandLock s
  · exact commandAssign s

theorem broadcast (s : State) (code : Nat) : s.Serves (s.broadcast code r) := by
  unfold State.broadcast
  split
  · exact refl s
  · split
    · exact commandHold s
    · split
      · exact commandResume s
      · split
        · exact commandAbort s
        · exact refl s

/-! ### Passages -/

theorem closeCycle (s : State) (slots : List Slot) : s.Serves (s.closeCycle slots) :=
  of_same rfl rfl rfl rfl rfl rfl rfl rfl rfl rfl

theorem overrun (s : State) : s.Serves s.overrun := by
  unfold State.overrun
  split
  · exact closeCycle s _
  · exact refl s

theorem notifyRing (s : State) (i : NoticeIndex) (detail : Nat) : s.Serves (s.notifyRing i detail) :=
  of_same rfl rfl rfl rfl rfl rfl rfl rfl rfl rfl

/-- The tracker after the arrival of a good outbound frame. -/
theorem arrival_ring (s : State) : s.arrival.ring = (s.ring.arrive s.now).1 := by
  unfold State.arrival
  dsimp only
  split <;> split <;> rfl

theorem arrival (s : State) : s.Serves s.arrival := by
  have h1 : s.Serves ({ s with ring := (s.ring.arrive s.now).1 }.drivePermits) :=
    (setRing s _ fun h => (h.arrive s.now).1).trans (drivePermits _)
  unfold State.arrival
  dsimp only
  split <;> split <;> first
    | exact h1
    | exact h1.trans (notifyRing _ _ _)
    | exact (h1.trans (notifyRing _ _ _)).trans (notifyRing _ _ _)

theorem carry (s : State) (c : Chamber) (h : Chan) (v : Nat) : s.Serves (s.carry c h v) := by
  unfold State.carry
  dsimp only
  split
  · exact refl s
  · exact of_same rfl rfl rfl rfl rfl rfl rfl rfl rfl rfl

theorem substituteSlots (engines : Vector Engine 4) (k : Nat) (slots : List Slot) (a : Passage) :
    a.state.Serves (Machine.substituteSlots engines k slots a).2.state := by
  induction slots generalizing k a with
  | nil => exact refl _
  | cons slot rest ih =>
    unfold Machine.substituteSlots
    dsimp only
    refine trans ?_ (ih _ _)
    unfold substituteSlot
    split
    · split
      · unfold computeSlot
        dsimp only
        refine trans ?_ (carry _ _ _ _)
        exact of_same rfl rfl rfl rfl rfl rfl rfl rfl rfl rfl
      · exact refl _
    · exact refl _
    · exact refl _

theorem substitute (s : State) (slots : List Slot) : s.Serves (s.substitute slots).2 :=
  substituteSlots _ _ _ { state := s, remaining := s.plant.arbiter.allowance }

end State.Serves

namespace State.Orderly

variable {s : State} {r : Request}

theorem openCycleWith (h : s.Orderly) (hu : s.ring.up = true) (cycle : Nat) : (s.openCycleWith cycle).Orderly :=
  ⟨h.slots, h.responses, h.address, h.ring, ⟨h.watch.1, fun _ => hu⟩, h.threshold⟩

theorem softReset (h : s.Orderly) : s.softReset.Orderly := by
  have k := Ring.Orderly.softReset ⟨h.ring, h.watch⟩
  unfold State.softReset
  dsimp only
  refine (State.Serves.guardPass _ _ _).orderly ?_
  exact ⟨h.slots, by simp [State.ResponsesFit], h.address, k.range, k.watch, h.threshold⟩

/-- A response appended to a queue with room. -/
theorem append (h : s.Orderly) (hr : s.responses.length < Config.responseRoom) (p : Response) :
    ({ s with responses := s.responses ++ [p] } : State).Orderly :=
  ⟨h.slots, by simp [State.ResponsesFit]; omega, h.address, h.ring, h.watch, h.threshold⟩

theorem takeWith (h : s.Orderly) (hr : s.hasRoom = true) (code : Nat) {command : State → State × Answer}
    (hc : s.Serves (command s).1) : (s.takeWith code r command).Orderly := by
  unfold State.takeWith
  refine (hc.orderly h).append ?_ _
  rw [hc.responses]
  simpa [State.hasRoom] using hr

theorem takeRecord (h : s.Orderly) (code : Nat) {command : State → State × Answer} (hc : s.Serves (command s).1) :
    (s.takeRecord code r command).Orderly := by
  unfold State.takeRecord
  split
  · next hk =>
    simp only [Bool.and_eq_true] at hk
    exact h.takeWith hk.2 code hc
  · exact h

theorem takeEntry (h : s.Orderly) (entry : List Byte) : (Machine.takeEntry entry s).1.Orderly := by
  unfold Machine.takeEntry
  dsimp only
  split
  · exact h
  · split
    · exact (State.Serves.broadcast _ _).orderly h
    · split
      · exact h
      · split
        · exact h.softReset
        · split
          · next hr => exact h.takeWith hr _ (State.Serves.commandOf _ _ _)
          · exact h

theorem takeMailbox (h : s.Orderly) (entries : List (List Byte)) : (Machine.takeMailbox entries s).2.Orderly := by
  induction entries generalizing s with
  | nil => exact h
  | cons e rest ih => exact ih (h.takeEntry e)

theorem takeOutbound (h : s.Orderly) (f : Frame) : (s.takeOutbound f).1.Orderly := by
  have h1 : s.arrival.overrun.Orderly := (State.Serves.overrun _).orderly ((State.Serves.arrival s).orderly h)
  have hu : s.arrival.overrun.ring.up = true := by
    have hr : s.arrival.overrun.ring = s.arrival.ring := by unfold State.overrun; split <;> rfl
    rw [hr, State.Serves.arrival_ring]
    exact (Ring.Orderly.arrive ⟨h.ring, h.watch⟩ s.now).2
  exact ((State.Serves.substitute _ f.slots).orderly (h1.openCycleWith hu f.cycle.toNat)).takeMailbox f.mailbox

theorem matchReturn (h : s.Orderly) (f : Frame) : (s.matchReturn f).Orderly := by
  unfold State.matchReturn
  split
  · have h1 := (State.Serves.closeCycle s f.slots).orderly h
    dsimp only
    generalize s.closeCycle f.slots = t at h1 ⊢
    exact ⟨h1.slots, h1.responses, h1.address, h1.ring, ⟨h1.watch.1, by simp⟩, h1.threshold⟩
  · exact h

theorem takeReturn (h : s.Orderly) (f : Frame) : (s.takeReturn f).1.Orderly := by
  have h1 := h.matchReturn f
  refine ⟨h1.slots, ?_, h1.address, h1.ring, h1.watch, h1.threshold⟩
  have k := h1.responses
  unfold State.ResponsesFit at *
  refine le_trans ?_ k
  simp [State.takeReturn, State.postNotices, State.postResponses]

end State.Orderly

/-! ### The queue of waiting commands -/

theorem State.softReset_pending (s : State) : s.softReset.pending = s.pending := by
  unfold State.softReset
  dsimp only
  exact (State.Serves.guardPass _ _ _).pending

theorem State.takeRecord_pending {s : State} {r : Request} {command : State → State × Answer} (code : Nat)
    (h : s.Serves (command s).1) : (s.takeRecord code r command).pending = s.pending := by
  unfold State.takeRecord
  split
  · exact h.pending
  · rfl

theorem takeEntry_pending (entry : List Byte) (s : State) : (takeEntry entry s).1.pending = s.pending := by
  unfold takeEntry
  dsimp only
  split
  · rfl
  · split
    · exact (State.Serves.broadcast _ _).pending
    · split
      · rfl
      · split
        · exact s.softReset_pending
        · split
          · exact (State.Serves.commandOf _ _ _).pending
          · rfl

theorem takeMailbox_pending (entries : List (List Byte)) (s : State) : (takeMailbox entries s).2.pending = s.pending := by
  induction entries generalizing s with
  | nil => rfl
  | cons e rest ih => exact (ih _).trans (takeEntry_pending e s)

end Sys2Proof.Machine
end

