-- ==== Sys2Proof/Laws/Resume.lean ====
section
/-! SUPPORT. The step that a hold record takes up, said once whole: its boundary, its wait, its grant, its RUNNING entry, and the
expiry it has in the same event when no time is left (R45 to R50, R57, R58, R76 to R78, R129). -/

namespace Sys2Proof.Machine

variable {x : Ctx} {expire : Expire} {c d : Chamber} {h : HoldRecord} {p q r : Plant}

theorem holdOutputs_eq (x : Ctx) (c : Chamber) (t : ValueTable) : holdOutputs x c t = heldValues x c t := rfl

theorem resumeValues_eq (x : Ctx) (h : HoldRecord) : resumeValues x h = h.values x := by
  unfold resumeValues HoldRecord.values
  cases h.heldFrom
  · dsimp only
    congr 1
    funext k
    cases (x.stepRecord h.step).setpointFor k <;> rfl
  · rfl

theorem resumeElapsed_eq (h : HoldRecord) : h.resumeElapsed = h.takenUp := rfl

/-- The expiries of one event, begun with one chamber, spare the others. -/
theorem expireWithin_spares (x : Ctx) (n : Nat) (d : Chamber) (q r : Plant) (e : Chamber) (ne : e ≠ d)
    (h : Plant.Spares d q r) : Plant.Spares d q (expireWithin x n e r) := spares_expireWithin n e r ne h

/-- The expiry of a running dwell timer (R53, R57, R58). -/
theorem dwellEnds_takes (hEd : ∀ (d : Chamber) (q r : Plant) e, e ≠ d → Plant.Spares d q r → Plant.Spares d q (expire e r))
    (hL : ∀ d q, Plant.Leaves q (expire d q)) (hS : ∀ t d (q : Plant), q.Settles t → (expire d q).Settles t)
    (ho : p.Out c) (hs : (p.engine c).state = .running) (ht : (p.engine c).timer.isSome = true)
    (hh : (p.engine c).hold = none) : p.Expires x expire c (dwellEnds x expire c p) := by
  have hE := fun (q r : Plant) (d : Chamber) => hEd c q r d
  unfold dwellEnds
  dsimp only
  rw [if_pos ⟨hs, ht⟩]
  refine ⟨fun hc => ?_, fun hc ha => ?_, fun hc ha => ?_, fun hc ha => ?_⟩
  · rw [if_neg (by simp [hc])]
    exact stepBoundary_takes hEd hS ho (by simp [Engine.afterStep, hh])
  · rw [if_pos hc, ha]
    exact stepBoundary_takes (p := (p.notify x c .stepTimeout (p.engine c).step).setEngine c _) hEd hS ho
      (by simp [Engine.afterStep, hh])
  · rw [if_pos hc, ha]
    dsimp only
    have hq : (p.notify x c .stepTimeout (p.engine c).step).engine c = p.engine c := rfl
    have ha' : addSource x expire c .engine true (p.notify x c .stepTimeout (p.engine c).step) =
        enterHold x expire (examineGrowth x expire) c .engine true (p.notify x c .stepTimeout (p.engine c).step) := by
      unfold addSource
      dsimp only
      rw [hq, hs]
    rw [ha']
    have k := enterHold_rests (x := x) hE (examine := examineGrowth x expire) (fun q => examineGrowth_spares hE) .engine true
      (p.notify x c .stepTimeout (p.engine c).step)
    refine ⟨⟨k.out, k.line, k.reservation, ?_, fun d ne hd => (Plant.Spares.refl hd).enterHold (fun e q => hEd d _ q e)
      (fun q hq => hq.examineGrowth fun e q => hEd d _ q e) (Ne.symm ne) _ _⟩, k.permit, ?_, ?_, ?_⟩
    · have m := enterHold_handsBack (x := x) hE hS .engine true (p.notify x c .stepTimeout (p.engine c).step)
      rw [hq] at m
      simp only [Engine.writeHold, hh, hs, if_true] at m
      simp only [hs]
      exact m
    · refine (Plant.raised_notify x c .stepTimeout (p.engine c).step p).leaves ?_
      exact (Plant.Leaves.refl _).enterHold (fun d q => hL d q) (fun k => k.examineGrowth fun d q => hL d q) _ _ _
    · unfold enterHold; exact Plant.raised_notify _ _ _ _ _
    · rw [k.engine, hq]
      simp only [Engine.writeHold, hh, hs, if_true, HoldSources.insert, holdOutputs_eq]
  · rw [if_pos hc, ha]
    dsimp only
    have k := enterSafe_rests (x := x) hE (p.notify x c .stepTimeout (p.engine c).step)
    refine ⟨⟨k.1, k.2.1, k.2.2.2.1, enterSafe_handsBack hE hS (p.notify x c .stepTimeout (p.engine c).step), fun d ne hd =>
      (Plant.Spares.refl hd).enterSafe (fun e q => hEd d _ q e) (Ne.symm ne)⟩, k.2.2.2.2, ?_, ?_, ?_⟩
    · refine (Plant.raised_notify x c .stepTimeout (p.engine c).step p).leaves ?_
      exact (Plant.Leaves.refl _).enterSafe (fun d q => hL d q) _
    · unfold enterSafe; exact Plant.raised_notify _ _ _ _ _
    · exact k.2.2.1

/-- RUNNING entry of a step that a hold record takes up (R49, R77). -/
theorem runStep_resumes (ho : p.Out c) (hh : (p.engine c).hold = some h) :
    p.ResumesIn x c h (runStep x (expireNow x) c p) := by
  have hfrom : h.heldFrom = .waiting → runStep x (expireNow x) c p = p.setEngine c ((p.engine c).resumed x h) := by
    intro hf
    unfold runStep
    simp only [hh, hf, resumeValues_eq, Engine.runFresh, Engine.resumed]
  have hrun : h.heldFrom = .running → (p.engine c).runResumed x.now (x.stepRecord (p.engine c).step) h (resumeValues x h) =
      (p.engine c).resumed x h := by
    intro hf
    simp only [Engine.runResumed, Engine.resumed, hf, resumeValues_eq, resumeElapsed_eq]
  have hrun2 : h.heldFrom = .running → runStep x (expireNow x) c p =
      if (x.stepRecord (p.engine c).step).dwell - h.resumeElapsed = 0 then
        dwellEnds x (expireWithin x 3) c (p.setEngine c ((p.engine c).resumed x h))
      else p.setEngine c ((p.engine c).resumed x h) := by
    intro hf
    unfold runStep
    simp only [hh, hf, hrun hf]
    rfl
  refine ⟨fun hs => ?_, fun hs => ?_⟩
  · cases hf : h.heldFrom with
    | waiting => exact hfrom hf
    | running =>
      rw [hrun2 hf, if_neg]
      intro hz
      exact hs ⟨hf, by rw [resumeElapsed_eq] at hz; omega⟩
  · rw [hrun2 hs.1, if_pos (by rw [resumeElapsed_eq]; have := hs.2; omega)]
    exact dwellEnds_takes (fun d q r e => expireWithin_spares x 3 d q r e) (fun d q => leaves_expireWithin x 3 d q)
      (fun t d q => settles_expireWithin x 3 d q) ho
      (by simp [Engine.resumed]) (by simp [Engine.resumed]) (by simp [Engine.resumed])

/-- What is considered of the line for a step that a hold record takes up (R48, R50, R77, R78). -/
theorem considerLine_resumes (ho : p.Out c) (hl : p.arbiter.line ≠ .granted c) (hh : (p.engine c).hold = some h) :
    p.ResumeSettles x c h (considerLine x (expireNow x) c p) := by
  have hr : releaseLine x (expireNow x) c p = p := by
    unfold releaseLine
    rw [if_neg (by rw [Plant.holds_iff]; exact hl)]
  refine ⟨fun hend => ?_, fun hend hcl => ?_, fun hend hcl => ⟨fun hf => ?_, fun hf => ?_⟩⟩
  · unfold considerLine
    dsimp only
    rw [if_pos hend, hr]
    unfold finishSequence
    simp only [hh, resumeValues_eq]
    rfl
  · unfold considerLine
    dsimp only
    rw [if_neg (by simp [hend]), if_neg (by simp [hcl]), hr]
    exact runStep_resumes ho hh
  · unfold considerLine
    dsimp only
    have hc : claimLine c p = { p with arbiter := { p.arbiter with line := .granted c } } := by
      unfold claimLine; rw [hf]; rfl
    rw [if_neg (by simp [hend]), if_pos hcl, hc, if_pos (by rw [Plant.holds_iff])]
    exact runStep_resumes ho hh
  · unfold considerLine
    dsimp only
    have hc : claimLine c p = { p with arbiter := { p.arbiter with queue := p.arbiter.queue ++ [c] } } := by
      unfold claimLine
      split
      · next k => exact absurd k hf
      · next o k =>
        rw [if_neg]
        · rfl
        · rintro (rfl | k2)
          · exact hl k
          · exact ho.1 k2
      · next t k => rw [if_neg ho.1]; rfl
    rw [if_neg (by simp [hend]), if_pos hcl, hc, if_neg (by rw [Plant.holds_iff]; exact hl)]
    unfold waitFor
    have he : ({ p with arbiter := { p.arbiter with queue := p.arbiter.queue ++ [c] } } : Plant).engine c = p.engine c := rfl
    simp only [he, hh, resumeValues_eq, holdOutputs_eq, Engine.pending]
    rfl

/-- What is considered for the head of the abatement queue that is served (R77, R129). -/
theorem examineGrowth_resumes {requested : Nat} {rest : List GrowthRequest}
    (hg : p.arbiter.growth = ⟨c, requested⟩ :: rest) (hfit : headFits p ⟨c, requested⟩ = true)
    (hs : (p.engine c).state = .waiting) (ha : (p.engine c).awaited = .growth) (hh : (p.engine c).hold = some h)
    (hq : c ∉ p.arbiter.queue) (hr : ∀ g ∈ rest, g.chamber ≠ c) (hl : p.arbiter.line ≠ .granted c) :
    ∃ m, ((p.setReservation c requested).setGrowth rest).ResumeSettles x c h m ∧
      examineGrowth x (expireNow x) p = examineHeads x (expireNow x) (rest.length + 5) m := by
  refine ⟨_, considerLine_resumes (p := (p.setReservation c requested).setGrowth rest) ⟨hq, hr⟩ hl hh, ?_⟩
  have h1 : examineHead x (expireNow x) p =
      some (considerLine x (expireNow x) c ((p.setReservation c requested).setGrowth rest)) := by
    unfold examineHead
    rw [hg]
    dsimp only
    rw [if_pos hfit, if_pos]
    exact ⟨hs, ha⟩
  unfold examineGrowth
  rw [hg]
  show examineHeads x _ ((rest.length + 5) + 1) p = _
  conv_lhs => unfold examineHeads
  rw [h1]

/-- A settled step with time left leaves the abatement queue as it was. -/
theorem Plant.ResumeSettles.growth (k : p.ResumeSettles x c h q) (hs : ¬(p.engine c).Spent x h) :
    q.arbiter.growth = p.arbiter.growth := by
  cases hend : (x.stepRecord (p.engine c).step).isEnd with
  | true => rw [k.finishes hend]; rfl
  | false =>
    cases hcl : (x.stepRecord (p.engine c).step).claimsRoughing with
    | false => rw [(k.runs hend hcl).runs hs]; rfl
    | true =>
      by_cases hf : p.arbiter.line = .free
      · rw [((k.claims hend hcl).1 hf).runs hs]; rfl
      · rw [(k.claims hend hcl).2 hf]

theorem examineHeads_nil (n : Nat) (hg : p.arbiter.growth = []) : examineHeads x expire n p = p := by
  cases n with
  | zero => rfl
  | succ n => unfold examineHeads examineHead; rw [hg]

/-- What becomes of a resumed step does not depend on the state, awaited resource and outputs it waited with. -/
theorem Plant.ResumesIn.congr {s : EngineState} {a : Awaited} {t : ValueTable}
    (k : (p.setEngine c { p.engine c with state := s, awaited := a, outputTable := t }).ResumesIn x c h q) :
    p.ResumesIn x c h q := by
  obtain ⟨k1, k2⟩ := k
  rw [Plant.engine_setEngine_self, Plant.setEngine_setEngine] at k1 k2
  exact ⟨k1, k2⟩

theorem Plant.ResumeSettles.congr {s : EngineState} {a : Awaited} {t : ValueTable}
    (k : (p.setEngine c { p.engine c with state := s, awaited := a, outputTable := t }).ResumeSettles x c h q) :
    p.ResumeSettles x c h q := by
  obtain ⟨k1, k2, k3⟩ := k
  rw [Plant.engine_setEngine_self] at k1 k2 k3
  simp only [Plant.setEngine_setEngine] at k1 k3
  exact ⟨k1, fun a b => (k2 a b).congr, fun a b => ⟨fun f => Plant.ResumesIn.congr ((k3 a b).1 f), (k3 a b).2⟩⟩

/-- The boundary of a step that a hold record takes up (R45 to R50, R76 to R78). -/
theorem stepBoundary_resumes (ho : p.Out c) (hl : p.arbiter.line ≠ .granted c) (hr : p.reservation c = p.allowance c)
    (hh : (p.engine c).hold = some h) (ht : (p.engine c).outputTable = h.values x) :
    p.ResumesBoundary x c h (stepBoundary x (expireNow x) c p) := by
  have hE := fun (q r : Plant) (d : Chamber) => expireNow_spares x c q r d
  have hnf : ∀ b : Bool, neverFits p c (requestedReservation x c p) = b ↔ (b = true ↔ ¬p.MayFit x c) := by
    intro b
    unfold neverFits Plant.MayFit
    cases b <;> simp
  have hrel : releaseLine x (expireNow x) c p = p := by
    unfold releaseLine
    rw [if_neg (by rw [Plant.holds_iff]; exact hl)]
  have hgrow : p.MayFit x c → p.reservation c < requestedReservation x c p →
      stepBoundary x (expireNow x) c p = examineGrowth x (expireNow x)
        { p.setEngine c ((p.engine c).pending x c h .growth) with
          arbiter := { p.arbiter with growth := p.arbiter.growth ++ [⟨c, requestedReservation x c p⟩] } } := by
    intro hm hw
    have hb := (hnf false).2 (by simp [hm])
    unfold stepBoundary
    simp only [hb, show ¬requestedReservation x c p ≤ p.reservation c by omega, Bool.false_eq_true, if_false, hrel]
    unfold waitFor
    simp only [hh, resumeValues_eq, holdOutputs_eq, Engine.pending]
    rfl
  refine ⟨fun hm => ?_, fun hm hw => ?_, fun hm hw => ?_, fun hm hw hg hfit => ?_⟩
  · have hb := (hnf true).2 (by simp [hm])
    unfold stepBoundary
    simp only [hb, if_true]
    have k := enterHold_rests (x := x) hE (examine := examineGrowth x (expireNow x)) (fun q => examineGrowth_spares hE) .engine false
      (p.setEngine c { p.engine c with state := .waiting, awaited := .nothing })
    have k2 := k.notify (x := x) c .loadRefused (p.engine c).step
    refine ⟨⟨k2.out, k2.line, k2.reservation, ?_, fun d ne hd => ?_⟩, k2.permit, Plant.raised_notify _ _ _ _ _, ?_, ?_⟩
    · have m := enterHold_handsBack (x := x) hE (fun t d q => settles_expireWithin x 4 d q) .engine false
        (p.setEngine c { p.engine c with state := .waiting, awaited := .nothing })
      have m2 := m.setEngine_self.notify (n := .loadRefused) (k := (p.engine c).step)
      simpa [Plant.engine_setEngine_self, Engine.writeHold, hh] using m2
    · exact ((((Plant.Spares.refl hd).setEngine (Ne.symm ne) _).enterHold (x := x) (fun e q => expireNow_spares x d p q e)
        (fun q hq => hq.examineGrowth fun e q => expireNow_spares x d p q e) (Ne.symm ne) .engine false)).notify _ _ _
    · refine Plant.Raised.notify ?_ _ _
      unfold enterHold
      exact Plant.raised_notify _ _ _ _ _
    · rw [k2.engine, Plant.engine_setEngine_self]
      simp only [Engine.writeHold, hh, HoldSources.insert, holdOutputs_eq, ht]
  · have hb := (hnf false).2 (by simp [hm])
    rw [hw] at hb
    unfold stepBoundary
    simp only [hw, hb, le_refl, if_true, Bool.false_eq_true, if_false, lt_self_iff_false]
    have hp : p.setReservation c (p.reservation c) = p := by
      unfold Plant.setReservation Plant.reservation
      have : p.arbiter.reservation.set c.val p.arbiter.reservation[c] c.isLt = p.arbiter.reservation :=
        Vector.set_getElem_self _
      rw [this]
    rw [hp]
    exact considerLine_resumes ho hl hh
  · intro waiting head rest hgr h1 h2
    rw [hgrow hm hw]
    refine examineGrowth_ends fun g r' hg => ?_
    rw [show waiting.arbiter.growth = g :: r' from hg] at hgr
    cases hgr
    exact ⟨h1, h2⟩
  · rw [hgrow hm hw]
    let w : Plant := { p.setEngine c ((p.engine c).pending x c h .growth) with
          arbiter := { p.arbiter with growth := p.arbiter.growth ++ [⟨c, requestedReservation x c p⟩] } }
    have hwe : w.engine c = (p.engine c).pending x c h .growth := Plant.engine_setEngine_self _ _ _
    have hwg : w.arbiter.growth = [⟨c, requestedReservation x c p⟩] := by
      show p.arbiter.growth ++ _ = _
      rw [hg]; rfl
    obtain ⟨m, hm1, hm2⟩ := examineGrowth_resumes (x := x) (p := w) hwg (decide_eq_true hfit)
      (by rw [hwe]; rfl) (by rw [hwe]; rfl) (by rw [hwe]; exact hh) ho.1 (by simp) hl
    have hm3 : (p.setReservation c (requestedReservation x c p)).ResumeSettles x c h m := by
      refine Plant.ResumeSettles.congr (s := .waiting) (a := .growth) (t := heldValues x c (h.values x)) ?_
      rw [show (p.setReservation c (requestedReservation x c p)).setEngine c
          { (p.setReservation c (requestedReservation x c p)).engine c with
            state := .waiting, awaited := .growth, outputTable := heldValues x c (h.values x) } =
          (w.setReservation c (requestedReservation x c p)).setGrowth [] by rw [← hg]; rfl]
      exact hm1
    refine ⟨m, hm3, hm2, fun hs => ?_⟩
    rw [hm2]
    refine examineHeads_nil _ ?_
    rw [hm3.growth hs]
    exact hg

/-- A removal that empties the sources of a HELD engine (R74 to R76). -/
theorem removeSources_leaves {left : HoldSources} (hl : left.isEmpty = true) (ho : p.Out c) (hn : p.arbiter.line ≠ .granted c)
    (hr : p.reservation c = p.allowance c) (hh : (p.engine c).hold = some h) :
    (p.setEngine c ((p.engine c).leaving x h)).ResumesBoundary x c h (removeSources x (expireNow x) c left p) := by
  have hz : left = {} := by
    obtain ⟨a, b, d, e⟩ := left
    simp [HoldSources.isEmpty] at hl
    simp [hl]
  have hq : removeSources x (expireNow x) c left p =
      stepBoundary x (expireNow x) c (p.setEngine c ((p.engine c).leaving x h)) := by
    unfold removeSources leaveHold
    dsimp only
    rw [if_pos hl, Plant.engine_setEngine_self, hz]
    simp only [hh, Plant.setEngine_setEngine, resumeValues_eq, Engine.leaving]
  rw [hq]
  exact stepBoundary_resumes ho hn hr (by simp [Engine.leaving]) (by simp [Engine.leaving])

end Sys2Proof.Machine
end

