-- ==== Sys2Proof/Laws/RingLoss.lean ====
section
/-! SUPPORT. Ring loss, chamber by chamber (step 4 of R150): what one turn does, what it leaves of the chambers that had theirs, and
of those whose turn is still to come. -/

namespace Sys2Proof.Machine

variable {x : Ctx} {c d : Chamber} {p q : Plant} {up : Bool}

/-- A chamber that is not IDLE or WAITING stands in neither queue (R120, R127). -/
theorem Plant.Sound.out (h : p.Sound up) (h1 : (p.engine c).state ≠ .idle) (h2 : (p.engine c).state ≠ .waiting) : p.Out c := by
  refine ⟨fun hc => ?_, fun g hg hc => h2 (hc ▸ (h.growth.2 g hg).1)⟩
  rcases h.queue.2.1 c hc with ⟨k, -⟩ | k
  · exact h2 k
  · exact h1 k

theorem Plant.Spares.loseRing {r : Plant} (h : Spares c r p) (ne : d ≠ c) : Spares c r (loseRing x (expireNow x) d p) := by
  unfold Machine.loseRing
  split
  · exact h.addSource spares_expireNow ne _ _
  · exact h.addSource spares_expireNow ne _ _
  · exact h.addSource spares_expireNow ne _ _
  · exact h.endIdleClaim spares_expireNow ne
  · exact h
  · exact h

/-- The turn of one chamber (R150). -/
theorem loseRing_takes (c : Chamber) (p : Plant) : p.LosesRing x (expireNow x) c (loseRing x (expireNow x) c p) where
  enters hs := by
    have hE := fun (q r : Plant) (d : Chamber) => expireNow_spares x c q r d
    have ha : loseRing x (expireNow x) c p = enterHold x (expireNow x) (examineGrowth x (expireNow x)) c .ring false p := by
      unfold loseRing addSource
      rcases hs with hs | hs <;> simp only [hs]
    rw [ha]
    have k := enterHold_rests (x := x) hE (examine := examineGrowth x (expireNow x)) (fun q => examineGrowth_spares hE) .ring
      false p
    have m := enterHold_handsBack (x := x) hE (fun t d q => settles_expireWithin x 4 d q) .ring false p
    refine ⟨⟨k.out, k.line, k.reservation, m, fun d ne hd => (Plant.Spares.refl hd).enterHold spares_expireNow
      (fun q hq => hq.examineGrowth spares_expireNow) (Ne.symm ne) _ _⟩, k.permit, ?_, k.engine⟩
    unfold enterHold
    exact Plant.raised_notify _ _ _ _ _
  joins hs := by
    unfold loseRing addSource
    simp only [hs, HoldSources.insert]
  claimEnds hs := by
    have ha : loseRing x (expireNow x) c p = endIdleClaim x (expireNow x) c p := by unfold loseRing; simp only [hs]
    rw [ha]
    unfold endIdleClaim
    refine ⟨fun hl => ?_, fun hl => ?_⟩
    · rw [if_pos ((Plant.holds_iff p c).2 hl), releaseLine_eq]
    · rw [if_neg (fun k => hl ((Plant.holds_iff p c).1 k))]
      rfl
  stands hs := by
    unfold loseRing
    rcases hs with hs | hs <;> simp only [hs]

/-- After its turn a chamber stands in neither queue and does not hold the line (R150). -/
theorem loseRing_rests (h : p.Sound up) (c : Chamber) :
    (loseRing x (expireNow x) c p).Out c ∧ (loseRing x (expireNow x) c p).arbiter.line ≠ .granted c := by
  have k := loseRing_takes (x := x) c p
  cases hs : (p.engine c).state
  case running => exact ⟨(k.enters (.inl hs)).1.out, (k.enters (.inl hs)).1.line⟩
  case waiting => exact ⟨(k.enters (.inr hs)).1.out, (k.enters (.inr hs)).1.line⟩
  case held =>
    rw [k.joins hs]
    exact ⟨h.out (by simp [hs]) (by simp [hs]), fun hl => by have := h.holder c hl; simp [hs] at this⟩
  case done =>
    rw [k.stands (.inl hs)]
    exact ⟨h.out (by simp [hs]) (by simp [hs]), fun hl => by have := h.holder c hl; simp [hs] at this⟩
  case safe =>
    rw [k.stands (.inr hs)]
    exact ⟨h.out (by simp [hs]) (by simp [hs]), fun hl => by have := h.holder c hl; simp [hs] at this⟩
  case idle =>
    have hg : ∀ g ∈ p.arbiter.growth, g.chamber ≠ c := fun g hg hc => by
      have := (h.growth.2 g hg).1; rw [hc, hs] at this; cases this
    by_cases hl : p.arbiter.line = .granted c
    · rw [(k.claimEnds hs).1 hl, ← releaseLine_eq]
      have r := releaseLine_rests (x := x) (fun q r d => expireNow_spares x c q r d) (p := p) ⟨h.queue.2.2.2 c hl, hg⟩
      exact ⟨r.out, r.line⟩
    · rw [(k.claimEnds hs).2 hl]
      exact ⟨⟨by simp, hg⟩, hl⟩

/-- No growth is queued and no line can be handed on in the event (R123, R129). -/
def Plant.ServesNone (p : Plant) : Prop :=
  p.arbiter.growth = [] ∧ ((∃ d, p.arbiter.line = .granted d) → p.arbiter.settleTime ≠ 0)

/-- What a chamber then gives up is served to none (R122, R130). -/
theorem Plant.ServesNone.giveBack (h : p.ServesNone) (d : Chamber) :
    (giveBack x (expireNow x) (examineGrowth x (expireNow x)) d p).ServesNone ∧
      ∀ c, (giveBack x (expireNow x) (examineGrowth x (expireNow x)) d p).engine c = p.engine c := by
  have hg : (withdrawBoth d p).arbiter.growth = [] := by
    simp [withdrawBoth, withdrawGrowth, Plant.setGrowth, withdrawLine, Plant.setLine, h.1]
  unfold Machine.giveBack
  rw [releaseLine_settles (p := withdrawBoth d p) fun k => h.2 ⟨d, k⟩, examineGrowth_ends (fun g rest k => by
    have : g :: rest = [] := k.symm.trans hg
    cases this)]
  refine ⟨⟨hg, fun k => h.2 ?_⟩, fun _ => rfl⟩
  obtain ⟨e, he⟩ := k
  have he : (withdrawBoth d p).freedLine x d = .granted e := he
  unfold Plant.freedLine at he
  split at he
  · cases he
  · exact ⟨e, he⟩

/-- A turn then serves no chamber (R150). -/
theorem Plant.ServesNone.loseRing (h : p.ServesNone) (d : Chamber) :
    (loseRing x (expireNow x) d p).ServesNone ∧ ∀ c, c ≠ d → (loseRing x (expireNow x) d p).engine c = p.engine c := by
  have hold : (enterHold x (expireNow x) (examineGrowth x (expireNow x)) d .ring false p).ServesNone ∧
      ∀ c, c ≠ d → (enterHold x (expireNow x) (examineGrowth x (expireNow x)) d .ring false p).engine c = p.engine c := by
    unfold enterHold
    dsimp only
    have k := Plant.ServesNone.giveBack (x := x) (p := p.setEngine d
      { p.engine d with hold := some ((p.engine d).writeHold x.now (x.stepRecord (p.engine d).step) false)
                        timer := none, counter := 0, awaited := .nothing }) h d
    refine ⟨k.1, fun c ne => ?_⟩
    rw [Plant.notify_engine, Plant.engine_setEngine_ne _ _ ne.symm, k.2]
    exact Plant.engine_setEngine_ne _ _ ne.symm
  unfold Machine.loseRing
  split
  · next hs => unfold addSource; simp only [hs]; exact hold
  · next hs => unfold addSource; simp only [hs]; exact hold
  · next hs =>
    unfold addSource
    simp only [hs]
    exact ⟨h, fun c ne => Plant.engine_setEngine_ne _ _ ne.symm⟩
  · unfold endIdleClaim
    split
    · rw [releaseLine_settles fun k => h.2 ⟨d, k⟩]
      refine ⟨⟨h.1, fun ⟨e, he⟩ => h.2 ?_⟩, fun _ _ => rfl⟩
      have he : p.freedLine x d = .granted e := he
      unfold Plant.freedLine at he
      split at he
      · cases he
      · exact ⟨e, he⟩
    · exact ⟨h, fun _ _ => rfl⟩
  · exact ⟨h, fun _ _ => rfl⟩
  · exact ⟨h, fun _ _ => rfl⟩

end Sys2Proof.Machine
end

