-- ==== Sys2Proof/Tests/Slice0.lean ====
section
/-! SUPPORT. Tests of the model against figures of spec/ (worked cases and tables, named in each comment), the refusals of
WellFormed, and a witness for the hypotheses of each statement in Certificates/Slice0/Obligations.lean. -/

namespace Sys2Proof.Tests

open Sys2Proof.Machine

set_option Elab.async false

/-! ### Builders -/

/-- Bytes from numbers. -/
def bytes (ns : List Nat) : List Byte := ns.map fun n => BitVec.ofNat 8 n

/-- A request at address 1 with tag 7. -/
def req (index word : Nat) (data : List Nat) : Request where
  address := 1#8
  tag := 7#8
  index := BitVec.ofNat 16 index
  word := BitVec.ofNat 8 word
  data := packData (bytes data)

/-- A part of address 1, just reset. -/
def part : State := { State.reset with address := 1#8 }

/-- The part with another response queue. -/
def queued (n : Nat) (s : State) : State :=
  let waiting : Response := { code := 0x81#8, tag := 0#8, index := 0#16, word := 0#8, result := .accepted, data := zeroData }
  { s with responses := List.replicate n waiting }

/-- The part with the engine of chamber c replaced. -/
def engineAt (c : Chamber) (e : Engine) (s : State) : State := { s with plant := s.plant.setEngine c e }

/-- The part with the arbiter replaced. -/
def arbiterAt (a : Arbiter) (s : State) : State := { s with plant := { s.plant with arbiter := a } }

/-- The part with channel records of chamber c, as pairs of a channel and its record. -/
def channelsAt (c : Chamber) (rs : List (Chan × ChannelRecord)) (s : State) : State :=
  rs.foldl (fun s r => s.setChannel c r.1 { s.channel c r.1 with record := r.2 }) s

/-- The part with slots mapped. -/
def slotsAt (us : List (Fin 128 × SlotUse)) (s : State) : State := us.foldl (fun s u => s.setSlot u.1 u.2) s

/-- The part with step records. -/
def stepsAt (rs : List (Fin 512 × StepRecord)) (s : State) : State := rs.foldl (fun s r => s.setStep r.1 r.2) s

/-- The state a command leaves. -/
def after (i : Instr) (s : State) : State :=
  match exec i s with
  | .next t => t
  | .fault _ | .refused _ => s

/-- The result and the data of the response queued last. -/
def answerOf (s : State) : Option (Result × List Nat) :=
  s.responses.getLast?.map fun r => (r.result, r.data.toList.map BitVec.toNat)

/-- The answer to a command. -/
def answer (i : Instr) (s : State) : Option (Result × List Nat) := answerOf (after i s)

/-- A slot with nothing but a setpoint word. -/
def sent (word : Nat) : Slot := { setpoint := BitVec.ofNat 16 word, readback := 0#16, nodeFlags := 0#8, gateFlags := 0#8 }

/-- A slot with nothing but a readback word and node flags. -/
def read (word flags : Nat) : Slot :=
  { setpoint := 0#16, readback := BitVec.ofNat 16 word, nodeFlags := BitVec.ofNat 8 flags, gateFlags := 0#8 }

/-! ### WellFormed -/

theorem test_wf_write_own_table : (Instr.write 1#8 (req 0 0 [])).wellFormed = false := by decide
theorem test_wf_write_state : (Instr.write 10#8 (req 0 0 [])).wellFormed = true := by decide
theorem test_wf_check_step : (Instr.checkNoObject 3#8 (req 0 0 [])).wellFormed = false := by decide
theorem test_wf_check_level : (Instr.checkNoObject 5#8 (req 0 0 [])).wellFormed = false := by decide
theorem test_wf_broadcast_single : (Instr.broadcast 5#8 (req 1 0 [])).wellFormed = false := by decide
theorem test_wf_row_at_255 : (Instr.hold { req 1 0 [] with address := 0xFF#8 }).wellFormed = false := by decide
theorem test_no_row_gives_bits : decodeTableWord 8 0 = none := by decide

/-! ### Words, values and levels -/

def gasFlow : ChannelRecord := { kind := .gasFlow, fullScale := 5000, wordFullScale := 24576, hi := 4500 }

/-- Table 1-4. -/
theorem test_conversions :
    valueToWord gasFlow 1875 = 9216 ∧ wordToValue gasFlow 9216 = 1875 ∧ wordToValue gasFlow 30000 = 5000 ∧
    wordToValue { gasFlow with fullScale := 1, wordFullScale := 65535 } 32767 = 0 ∧
    wordToValue { gasFlow with fullScale := 1, wordFullScale := 65535 } 32768 = 1 ∧
    wordToValue { gasFlow with fullScale := 1000, wordFullScale := 4000 } 322 = 81 ∧
    wordToValue { gasFlow with fullScale := 1000, wordFullScale := 250 } 1 = 4 := by decide

/-- The table of Table 1-6. -/
def levelTable : LevelTable where
  thresholds := #v[5, 10, 20, 40, 75, 100, 200, 400, 750, 1000, 2000, 4000, 7500, 10000, 20000]
  checked := true

/-- The readings below Table 1-6. -/
theorem test_levels : [80, 75, 74, 3, 20000, 60000].map levelTable.levelOf = [5, 5, 4, 0, 15, 15] := by decide

/-- The gauge of Table 1-5 (F = 1000, Wf = 4000, stale limit 3, fail value 1000). -/
def gauge : Channel where
  record := { kind := .pressure, fullScale := 1000, wordFullScale := 4000, staleLimit := 3, failValue := 1000 }
  status := { value := 81, missing := 0, stale := false }

/-- Table 1-5, closes 1 to 6: value, missing count and stale flag. -/
theorem test_gauge_drops_out :
    let closes := [some 322, none, none, none, none, some 312]
    ((List.range 6).map fun n =>
      let ch := (closes.take (n + 1)).foldl Channel.close gauge
      (ch.status.value, ch.status.missing, ch.status.stale)) =
    [(81, 0, false), (81, 1, false), (81, 2, false), (1000, 3, true), (1000, 4, true), (78, 0, false)] := by decide

/-! ### Steps, CHECK and the START walk -/

def timed (d : Nat) : StepRecord := { check := .unchecked, duration := d }
def endRecord : StepRecord := { check := .unchecked, kind := 4#8 }
def entry (channel target ramp : Nat) : SetpointEntry :=
  { channel := BitVec.ofNat 8 channel, target := target, ramp := BitVec.ofNat 8 ramp }

/-- The records 200 to 204 of section 2.4. -/
def faultyBlock : State :=
  stepsAt
    [(200, { check := .unchecked, kind := 1#8, timeout := 1#8, duration := 300000, level := 3, count := 3 }),
     (201, { timed 20000 with ramp := 25000 }),
     (202, { timed 5000 with entries := ((Vector.replicate 8 {}).set 0 (entry 6 1 0)).set 2 (entry 6 1 0) }),
     (203, timed 1000), (204, endRecord)] part

/-- Table 2-4, first row: index 201, field 3 (ramp time), one record examined before it. -/
theorem test_check_stops_at_ramp :
    answer (.stepCheck (req 200 0 [7])) faultyBlock = some (.badValue, [0, 201, 3, 0, 1, 0, 0, 0]) ∧
    ([200, 201, 202].map fun i => ((after (.stepCheck (req 200 0 [7])) faultyBlock).stepRecord i).check) =
      [.checked, .unchecked, .unchecked] := by decide +kernel

/-- Table 2-4, the entry rule (position 3 of record 202) and the EMPTY record 205. -/
theorem test_check_stops_at_entry_and_empty :
    answer (.stepCheck (req 202 0 [1])) faultyBlock = some (.badValue, [0, 202, 11, 3, 0, 0, 0, 0]) ∧
    answer (.stepCheck (req 203 0 [3])) faultyBlock = some (.badValue, [0, 205, 0xFE, 0, 2, 0, 0, 0]) := by
  decide +kernel

def checked (r : StepRecord) : StepRecord := { r with check := .checked }

/-- The recipe of Table 2-7, without its setpoint lists, for chamber A. -/
def recipe : State :=
  stepsAt
    [(100, { check := .checked, kind := 1#8, claims := 1#8, timeout := 1#8, duration := 600000, level := 3, count := 3 }),
     (101, checked (timed 20000)),
     (102, { check := .checked, kind := 3#8, timeout := 2#8, duration := 5000, count := 2, ratio := 100, minForward := 500 }),
     (103, checked (timed 3000)),
     (104, { checked (timed 4000) with loopTarget := 103, loopCount := 49 }),
     (105, { checked (timed 1000) with loopTarget := 103, loopCount := 5 }),
     (106, checked (timed 50000)), (107, checked endRecord)]
    ((channelsAt 0 [(4, gauge.record), (5, { kind := .rfForward }), (6, { kind := .rfReflected })] part).setLevel 0 levelTable)

/-- Table 2-8: the walk ends at 107. -/
theorem test_walk : (startWalk recipe.ctx recipe.slotMap 0 100).toOption = some 107 := by decide +kernel

/-- Table 2-10, each refusal with its record: start at 104, overlap at 105, depth 3 at 106, END that claims roughing; and chamber
C, which has no PRESSURE channel, at 100. -/
theorem test_walks_refused :
    startWalk recipe.ctx recipe.slotMap 0 104 = .error { result := .badSequence, index := 104, field := 9 } ∧
    (let s := recipe.setStep 105 { checked (timed 1000) with loopTarget := 104, loopCount := 5 }
     startWalk s.ctx s.slotMap 0 100 = .error { result := .badSequence, index := 105, field := 9 }) ∧
    (let s := recipe.setStep 106 { checked (timed 1000) with loopTarget := 103, loopCount := 2 }
     startWalk s.ctx s.slotMap 0 100 = .error { result := .badSequence, index := 106, field := 9 }) ∧
    (let s := recipe.setStep 107 { checked endRecord with claims := 1#8 }
     startWalk s.ctx s.slotMap 0 100 = .error { result := .badSequence, index := 107, field := 12 }) ∧
    startWalk recipe.ctx recipe.slotMap 2 100 = .error { result := .badSequence, index := 100, field := 1 } := by
  decide +kernel

/-- Table 2-9, the stack with its top first. -/
theorem test_loop_stack :
    applyLoop 104 (some (103, 49)) [] = ([⟨104, 49⟩], 103) ∧ applyLoop 104 (some (103, 49)) [⟨104, 49⟩] = ([⟨104, 48⟩], 103) ∧
    applyLoop 104 (some (103, 49)) [⟨104, 1⟩] = ([], 105) ∧
    applyLoop 104 (some (103, 49)) [⟨105, 5⟩] = ([⟨104, 49⟩, ⟨105, 5⟩], 103) ∧
    applyLoop 105 (some (103, 5)) [⟨105, 1⟩] = ([], 106) := by decide

/-! ### Substitution -/

/-- An engine running the step at index 0 since time 0 with a start value of channel 2. -/
def ramping (start : Nat) : Engine :=
  { state := .running, range := some (0, 1), timer := some 5000000
    startTable := (Vector.replicate 16 0).set 2 start
    outputTable := ((Vector.replicate 16 0).set 3 4800).set 9 1 }

/-- A step of 4 s that ramps channel 2 in 2 s, sets channel 3 and opens channel 9. -/
def rampStep (target : Nat) : StepRecord :=
  { check := .checked, duration := 40000, ramp := 20000
    entries := (((Vector.replicate 8 {}).set 0 (entry 2 target 1)).set 1 (entry 3 4800 0)).set 2 (entry 9 1 0) }

/-- Table 5-2, and the reversed ramp below it. -/
theorem test_ramp :
    ([0, 333333, 750000, 2000000, 3000000].map
      (rampValue (ramping 1200) (rampStep 3000) { channel := 2, target := 3000, ramp := true })) =
        [1200, 1499, 1875, 3000, 3000] ∧
    rampValue (ramping 3000) (rampStep 1200) { channel := 2, target := 1200, ramp := true } 333333 = 2701 ∧
    [1200, 1499, 1875, 3000, 2701].map (valueToWord gasFlow) = [5898, 7368, 9216, 14746, 13276] := by decide +kernel

/-- The chamber of Table 5-6 at e = 750,000. -/
def onePassage : State :=
  engineAt 0 (ramping 1200)
    (stepsAt [(0, rampStep 3000)]
      (slotsAt [(0, .channel 0 2), (1, .channel 0 3), (2, .channel 0 6), (3, .channel 0 9)]
        (channelsAt 0
          [(2, gasFlow), (3, gasFlow),
           (6, { kind := .throttle, owner := .controller, fullScale := 1000, wordFullScale := 4000, lo := 100, hi := 900
                 safeValue := 100 }),
           (9, { kind := .roughValve, fullScale := 1, wordFullScale := 65535, hi := 1 })]
          { part with now := 750000 })))

/-- Table 5-6: words, and flags with SUBSTITUTED 1, CLAMPED 2, FORCED 4; the output table takes the ramp value (R85). -/
theorem test_one_passage :
    let out := onePassage.substitute [sent 0, sent 0, sent 3800, sent 0]
    (out.1.map fun t => (t.setpoint.toNat, t.gateFlags.toNat)) = [(9216, 1), (22118, 3), (3600, 3), (0, 4)] ∧
    (out.2.engine 0).outputTable[2] = 1875 := by decide +kernel

/-- Table 5-3: chamber D, IDLE, with an allowance of 50. -/
theorem test_idle_allowance :
    let s := slotsAt [(0, .channel 3 0), (1, .channel 3 1), (2, .channel 3 2)]
      (channelsAt 3 [(0, { gasFlow with weight := 200 }), (1, gasFlow), (2, { gasFlow with weight := 40 })]
        (arbiterAt { budget := 50, allowance := #v[0, 0, 0, 50], reservation := #v[0, 0, 0, 50] } part))
    ((s.substitute [sent 1966, sent 4915, sent 1475]).1.map fun t => (t.setpoint.toNat, t.gateFlags.toNat)) =
      [(1229, 5), (4915, 0), (0, 5)] := by decide +kernel

/-- The examples below Table 5-7. -/
theorem test_report_words :
    (reportWord { state := .running, step := 103 }).toNat = 18032 ∧
    (reportWord { state := .held, step := 40, sources := { controller := true, ring := true } }).toNat = 25221 := by decide

/-! ### Guards -/

/-- Table 6-6, closes 1 to 14: entry 5 of chamber A, count 3, trip limit 80, release limit 50. -/
theorem test_debounce :
    let k : GuardConfig := { kind := .valueAbove, source := 6, count := 3, trip := 80, release := 50 }
    let closes := [60, 85, 90, 70, 85, 95, 100, 75, 45, 40, 60, 30, 20, 10]
    ((List.range 14).map fun n =>
      ((closes.take (n + 1)).zipIdx).foldl (fun g v => moveFramePaced 3 (v.2 < 7) (readAbove k v.1) g) .clear) =
    [.clear, .counting 1, .counting 2, .clear, .counting 1, .counting 2, .tripped, .tripped, .releasing 1, .releasing 2,
     .tripped, .releasing 1, .releasing 2, .clear] := by decide

/-- Line 3 of chamber B as in Table 6-9 at t5 = 1000, with the ring up. -/
def doorPart : State :=
  let s := engineAt 1 { state := .running, range := some (0, 1), timer := some 900000 } part
  { ((s.setGuard 1 0 { config := { kind := .inputLow, source := 3, action := .safe, count := 1 } }).setInput 3
      { raw := true, accepted := true, filter := 20 }) with
    ring := { state := .tracking, watch := some 500000 }
    plant := { s.plant with permits := Vector.replicate 4 true } }

/-- Table 6-9: the glitch is filtered. -/
theorem test_door_glitch :
    ((after (.inputLevelChange 1000 3 false) doorPart).input 3).timer = some 21000 ∧
    (after (.inputLevelChange 9000 3 true) (after (.inputLevelChange 1000 3 false) doorPart)).input 3 =
      { raw := true, accepted := true, filter := 20 } := by decide +kernel

/-- Table 6-9: the expiry trips entry 0, chamber B is SAFE and its permit drops. -/
theorem test_door_opens :
    let t := after (.inputAcceptance 3) (after (.inputLevelChange 31000 3 false) doorPart)
    t.now = 51000 ∧ (t.input 3).accepted = false ∧ (t.guardEntry 1 0).state = .tripped ∧ (t.engine 1).state = .safe ∧
      t.plant.permits[1] = false ∧ t.plant.permits[0] = true ∧ t.plant.notices[8].pending = true ∧
      t.plant.notices[10].pending = true ∧ answer (.clear (req 2 0 [])) t = some (.stillTripped, [0, 1, 9, 0, 0, 0, 0, 0]) := by
  decide +kernel

/-! ### Step conditions -/

/-- Table 3-6, the closes as (forward, reflected). -/
theorem test_strike_ratio :
    ([(0, 0), (480, 20), (600, 45), (620, 70), (610, 50), (605, 40)].map fun v => powerRatio v.1 v.2) =
      [1000, 41, 75, 112, 81, 66] := by decide

/-! ### Holds -/

/-- Chamber A at t2 + 800,000 of section 4.9, with t2 = 1,000,000. -/
def heldStep : State :=
  let run : Engine :=
    { state := .running, range := some (40, 41), step := 40, startTime := 1000000, timer := some 4000000
      startTable := ((Vector.replicate 16 0).set 2 1200).set 5 450
      outputTable := (((Vector.replicate 16 0).set 2 1920).set 5 600).set 7 300 }
  engineAt 0 run
    (stepsAt [(40, { check := .checked, duration := 30000, ramp := 20000
                     entries := (((Vector.replicate 8 {}).set 0 (entry 2 3000 1)).set 1 (entry 5 600 0)).set 2
                       (entry 7 300 0) })]
      (channelsAt 0
        [(2, { gasFlow with weight := 40 }),
         (5, { kind := .throttle, holdBehaviour := .keep, fullScale := 1000, wordFullScale := 1000, hi := 1000 }),
         (7, { kind := .rfPower, fullScale := 1000, wordFullScale := 1000, hi := 1000 })]
        (arbiterAt { budget := 500, allowance := #v[50, 0, 0, 0], reservation := #v[120, 0, 0, 0] }
          { part with now := 1800000, ring := { state := .tracking, watch := some 2300000 }
                      plant := { part.plant with permits := Vector.replicate 4 true } })))

/-- Section 4.9, event 1: the hold record, the reservation and the hold outputs. -/
theorem test_hold_saves :
    let t := after (.hold (req 1 0 [])) heldStep
    let e := t.engine 0
    (e.hold.map fun h => (h.step, h.elapsed, h.startTable[2], h.outputTable[2])) = some (40, 800000, 1200, 1920) ∧
      e.state = .held ∧ t.plant.reservation 0 = 50 ∧ (e.outputTable[2], e.outputTable[5], e.outputTable[7]) = (0, 600, 0) ∧
      (t.plant.notices[3].pending, t.plant.notices[3].detail) = (true, 40) := by decide +kernel

/-- Section 4.9, event 5 with CONTINUE and with RESTART, at t2 + 5,200,000. -/
theorem test_resume_takes_up :
    let held := { after (.hold (req 1 0 [])) heldStep with now := 6200000 }
    let e := (after (.resume (req 1 0 [0])) held).engine 0
    let f := (after (.resume (req 1 0 [1])) held).engine 0
    (e.state, e.startTime, e.timer, e.hold, e.outputTable[2]) = (.running, 5400000, some 8400000, none, 1200) ∧
      (e.outputTable[5], e.outputTable[7]) = (600, 300) ∧ (f.startTime, f.timer) = (6200000, some 9200000) ∧
      (after (.resume (req 1 0 [0])) held).plant.reservation 0 = 120 := by decide +kernel

/-- Section 4.9, event 3: RING joins, the permit drops, RING_LOST is raised (R150). -/
theorem test_ring_loss_joins :
    let t := after .ringWatchExpiry (after (.hold (req 1 0 [])) heldStep)
    (t.now, t.ring.state, t.plant.notices[24].pending) = (2300000, .lost, true) ∧
      (t.engine 0).sources = { controller := true, ring := true } := by decide +kernel

/-- ABORT and RELEASE (R63, R64): IDLE at the allowance; RELEASE outside DONE is WRONG_STATE. -/
theorem test_abort_and_release :
    (let t := after (.abort (req 1 0 [])) heldStep
     (t.engine 0).state = .idle ∧ (t.engine 0).range = none ∧ t.plant.reservation 0 = 50) ∧
    answer (.release (req 1 0 [])) heldStep = some (.wrongState, [0, 0, 6, 0, 0, 0, 0, 0]) ∧
    ((after (.release (req 1 0 [])) (engineAt 0 { state := .done, step := 7 } part)).engine 0) =
      { state := .idle, step := 7 } := by decide +kernel

/-! ### Arbiter -/

/-- The arbiter of section 7.4 before event 5, with t6 = 0: C is IDLE, B and D wait. -/
def fourChambers : State :=
  let waits : Engine := { state := .waiting, range := some (0, 1), awaited := .line }
  engineAt 1 waits (engineAt 3 waits
    (stepsAt [(0, { checked (timed 100) with claims := 1#8 }), (1, checked endRecord)]
      (arbiterAt { line := .settling 1400000, queue := [2, 3, 1], priority := #v[0, 0, 3, 1] } part)))

/-- Table 7-2, event 5: B is chosen and runs. -/
theorem test_selection :
    let t := after .settleExpiry fourChambers
    (t.now, t.plant.arbiter.line, t.plant.arbiter.queue) = (1400000, .granted 1, [2, 3]) ∧
      ((t.engine 1).state, (t.engine 2).state, (t.engine 3).state) = (.running, .idle, .waiting) ∧
      (after (.lineGranted 1) fourChambers).plant.arbiter.line = .granted 1 ∧
      (after (.lineGranted 3) fourChambers).plant.arbiter.line = .settling 1400000 := by decide +kernel

/-- Section 7.5 after event 2. -/
def fullBudget : State :=
  let waits : Engine := { state := .waiting, range := some (0, 1), awaited := .growth }
  let runs : Engine := { state := .running, range := some (0, 1), timer := some 900000 }
  engineAt 0 runs (engineAt 1 waits (engineAt 2 waits (engineAt 3 runs
    (stepsAt [(0, checked (timed 100)), (1, checked endRecord)]
      (arbiterAt { budget := 300, allowance := #v[40, 40, 30, 30], reservation := #v[120, 40, 30, 100]
                   growth := [⟨1, 150⟩, ⟨2, 40⟩] } part)))))

/-- Table 7-4, events 3 and 5: OVER_BUDGET with B and the sum of the reservations (R160), then accepted with B still waiting. -/
theorem test_budget_writes :
    answer (.arbiterWrite (req 4 0 [1, 24])) fullBudget = some (.overBudget, [1, 44, 1, 34, 0, 0, 0, 0]) ∧
    answer (.arbiterWrite (req 4 0 [1, 94])) fullBudget = some (.accepted, [1, 94, 0, 0, 0, 0, 0, 0]) ∧
    (after (.arbiterWrite (req 4 0 [1, 94])) fullBudget).plant.arbiter.growth = [⟨1, 150⟩, ⟨2, 40⟩] := by decide +kernel

/-- Table 7-4, event 6: with r[D] = 35 and B = 350 both requests are served and both engines run. -/
theorem test_growth_served :
    let t := after (.growthServed 1) (arbiterAt
      { fullBudget.plant.arbiter with budget := 350, reservation := #v[120, 40, 30, 35] } fullBudget)
    t.plant.arbiter.reservation = #v[120, 150, 40, 35] ∧ t.plant.arbiter.growth = [] ∧
      ((t.engine 1).state, (t.engine 2).state) = (.running, .running) := by decide +kernel

/-- Table 7-6, event 2, with the examination started by a write of the budget as it stands: B is stuck and HELD by ENGINE with
LOAD_REFUSED, A is served. -/
theorem test_stuck_head :
    let s := arbiterAt { budget := 420, allowance := #v[20, 20, 30, 30], reservation := #v[200, 150, 30, 30]
                         growth := [⟨1, 250⟩, ⟨0, 210⟩] }
      (engineAt 0 { state := .waiting, range := some (0, 1), awaited := .growth } fullBudget)
    let t := after (.arbiterWrite (req 4 0 [1, 164])) s
    t.plant.arbiter.reservation = #v[210, 20, 30, 30] ∧ t.plant.arbiter.growth = [] ∧ (t.engine 0).state = .running ∧
      ((t.engine 1).state, (t.engine 1).sources) = (.held, { engine := true }) ∧ t.plant.notices[11].pending = true := by
  decide +kernel

/-- Table 5-4: the passages at t3 and at t3 + 40,000 with t3 = 0. -/
theorem test_implicit_claims :
    let valve : ChannelRecord := { kind := .roughValve, wordFullScale := 65535, hi := 1 }
    let s := slotsAt [(0, .channel 2 9), (1, .channel 3 9)] (channelsAt 2 [(9, valve)] (channelsAt 3 [(9, valve)] part))
    let a := s.substitute [sent 65535, sent 65535]
    let b := ({ a.2 with now := 40000 } : State).substitute [sent 0, sent 65535]
    (a.1.map fun t => (t.setpoint.toNat, t.gateFlags.toNat)) = [(65535, 0), (0, 5)] ∧
    (a.2.plant.arbiter.line, a.2.plant.arbiter.queue) = (.granted 2, [3]) ∧
    (b.1.map fun t => (t.setpoint.toNat, t.gateFlags.toNat)) = [(0, 0), (0, 5)] ∧
    (b.2.plant.arbiter.line, b.2.plant.arbiter.queue) = (.settling 540000, [3]) := by decide +kernel

/-! ### Frames and the ring -/

/-- The lengths given under Table 8-1. -/
theorem test_frame_lengths : (frameLength 1 0, frameLength 128 4, frameLength 40 4) = (14, 840, 312) := by decide

/-- The published check values of the two polynomials on the bytes of 123456789 (the CRC-8 with the register at all ones). -/
theorem test_checks :
    crc16 (bytes [49, 50, 51, 52, 53, 54, 55, 56, 57]) = 0x29B1#16 ∧
    (bytes [49, 50, 51, 52, 53, 54, 55, 56, 57]).foldl crc8Byte 0xFF#8 = 0xDA#8 := by decide +kernel

/-- A frame of one slot. -/
def oneSlot (direction : Byte) (cycle : Nat) (mailbox : List (List Byte)) : Frame :=
  { kind := processKind, direction := direction, cycle := BitVec.ofNat 16 cycle, slots := [sent 0], mailbox := mailbox }

/-- Table 8-2: outbound 101 opens; a bad return closes nothing; outbound 102 overruns it; return 102 closes. -/
theorem test_pairing :
    let open101 := after (.outboundPassage 1000 (oneSlot directionOut 101 []).bytes) part
    let open102 := after (.outboundPassage 2000 (oneSlot directionOut 102 []).bytes) open101
    open101.ring.openCycle = some 101 ∧ open101.ring.state = .training ∧
    (after (.returnPassage 1500 (bytes [0xC5, 0xF0])) open101).ring.openCycle = some 101 ∧
    open102.ring.openCycle = some 102 ∧
    (after (.returnPassage 2500 (oneSlot directionReturn 101 []).bytes) open102).ring.openCycle = some 102 ∧
    (after (.returnPassage 2500 (oneSlot directionReturn 102 []).bytes) open102).ring.openCycle = none := by
  decide +kernel

/-- Table 8-3: state, P and rejected mean after each window. -/
theorem test_windows :
    let start : Ring := { state := .training, nominal := 500, learned := 500 }
    let window (r : Ring) (sum : Nat) : Ring × Option Nat := ({ r with count := 64, sum := sum } : Ring).judge
    let w1 := window start 32256
    let w2 := window w1.1 32320
    let w3 := window w2.1 36000
    let w4 := window w3.1 36100
    let w5 := window w4.1 33000
    [w1, w2, w3, w4, w5].map (fun w => (w.1.state, w.1.learned, w.2)) =
      [(.tracking, 504, none), (.tracking, 504, none), (.tracking, 504, some 562), (.tracking, 504, none),
       (.tracking, 515, none)] := by decide +kernel

/-! ### Management and notices -/

/-- A mailbox entry of a request (Table 9-1). -/
def record (address code tag table index word : Nat) (data : List Nat) : List Byte :=
  sealEntry (bytes [address, code, tag, table, index / 256, index, word] ++ (packData (bytes data)).toList)

/-- Table 9-7, the mailbox at X: the first ASSIGN and the READ are taken, the second ASSIGN stays. -/
theorem test_mailbox_at_x :
    let entries := [record 0 12 1 0 0 0 [1], record 0 12 2 0 0 0 [2], record 1 1 3 11 0 0 [], emptyEntry]
    let out := takeMailbox entries State.reset
    out.1 = [emptyEntry, record 0 12 2 0 0 0 [2], emptyEntry, emptyEntry] ∧ out.2.address = 1#8 ∧
      (out.2.responses.map fun r => (r.code.toNat, r.tag.toNat)) = [(0x8C, 1), (0x81, 3)] := by decide +kernel

/-- Below Table 9-7: with 7 responses queued, one of three READs is taken. -/
theorem test_queue_fills :
    let get := record 1 1 9 8 0 0 []
    (takeMailbox [get, get, get, emptyEntry] (queued 7 part)).1 = [emptyEntry, get, get, emptyEntry] := by decide +kernel

/-- A read of IDENT on the part just numbered (R166), and of a STEP record that is EMPTY (R28). -/
theorem test_reads :
    answer (.read 11#8 (req 0 0 [])) part = some (.accepted, [0x0D, 0x7A, 0x04, 0x60, 1, 1, 0, 0]) ∧
    answer (.read 3#8 (req 5 0 [])) part = some (.noObject, [0, 0, 0, 0, 0, 0, 0, 0]) := by decide +kernel

/-- Table 10-2: which entries are filled and with which slots. -/
theorem test_posting :
    let notices := (((noticeDefaults.set 8 { cls := 3, pending := true, merge := 3 }).set 10
      { cls := 3, pending := true, merge := 1 }).set 0 { cls := 1, pending := true, merge := 1 }).set 26
      { cls := 1, pending := true, merge := 1 }
    let s := queued 1 { part with threshold := 1, plant := { part.plant with notices := notices } }
    let r := s.postResponses [record 2 1 0 0 0 0 [], emptyEntry, emptyEntry, emptyEntry]
    let n := r.2.postNotices r.1
    (n.1.map fun e => (byteAt e 1, byteAt e 3, byteAt e 9)) = [(1, 0, 0), (0x81, 0, 0), (0x40, 8, 3), (0x40, 10, 1)] ∧
      (n.2.plant.notices.map NoticeSlot.pending)[0] = true ∧ n.2.plant.notices[8].pending = false := by decide +kernel

/-- Writes that Table 1-1, R163, R146 and R170 answer: DUPLICATE with the slot that holds the assignment, LOCKED, BAD_VALUE with the
field. -/
theorem test_write_answers :
    answer (.slotMapWrite (req 3 0 [1, 0, 4])) (slotsAt [(12, .channel 0 4)] part) =
      some (.duplicate, [0, 12, 0, 0, 0, 0, 0, 0]) ∧
    answer (.guardWrite (req 0 0 [])) (after (.lock (req 0 0 [])) part) = some (.locked, [0, 0, 0, 0, 0, 0, 0, 0]) ∧
    answer (.ringWrite (req 0 0 [0, 249])) part = some (.badValue, [1, 0, 0, 0, 0, 0, 0, 0]) ∧
    answer (.ringWrite (req 0 0 [0, 250])) part = some (.accepted, [0, 250, 0, 0, 0, 0, 0, 0]) ∧
    answer (.noticeWrite (req 27 0 [5])) part = some (.badValue, [3, 0, 0, 0, 0, 0, 0, 0]) ∧
    answer (.write 10#8 (req 0 0 [])) part = some (.readOnly, [0, 0, 0, 0, 0, 0, 0, 0]) ∧
    answer (.checkNoObject 4#8 (req 0 0 [1])) part = some (.noObject, [0, 0, 0, 0, 0, 0, 0, 0]) := by decide +kernel

/-- An unchecked table is level 15 at once, and a CHECK names T15 (the write below Table 1-6, on chamber B). -/
theorem test_level_write :
    let t := after (.levelWrite (req 1 3 [29, 76, 39, 16, 35, 40]))
      ((channelsAt 1 [(4, { kind := .pressure, fullScale := 60000, wordFullScale := 60000 })] part).setLevel 1 levelTable)
    t.levels[1].checked = false ∧ t.ctx.pressureLevel 1 = 15 ∧
      answer (.levelCheck (req 1 0 [1])) t = some (.badValue, [0, 1, 15, 0, 0, 0, 0, 0]) := by decide +kernel

/-- A gas flow record is written word by word, and a low limit above 0 is refused naming lo, row 8 of Table 1-2 (Table 1-3). -/
theorem test_channel_write :
    answer (.channelWrite (req 2 0 [1, 0, 0, 40, 0xFF])) part = some (.accepted, [1, 0, 0, 40, 255, 0, 0, 0]) ∧
    answer (.channelWrite (req 2 1 [19, 136, 96, 0, 0, 5, 17, 148])) (channelsAt 0 [(2, { kind := .gasFlow })] part) =
      some (.badValue, [8, 0, 0, 0, 0, 0, 0, 0]) := by decide +kernel

/-- START of the recipe of Table 2-7 by its line's first step: RUNNING at 100 with the range of Table 2-8 and the line granted. -/
theorem test_start :
    let t := after (.start (req 1 0 [0, 100])) recipe
    ((t.engine 0).state, (t.engine 0).range, (t.engine 0).step, (t.engine 0).timer) =
      (.running, some (100, 107), 100, some 60000000) ∧ t.plant.arbiter.line = .granted 0 ∧
    answer (.start (req 1 0 [0, 104])) recipe = some (.badSequence, [0, 0, 8, 0, 104, 9, 0, 0]) := by decide +kernel

/-- A TIMED step's expiry takes the loop of Table 2-9 back to 103. -/
theorem test_dwell_expiry :
    let run : Engine := { state := .running, range := some (100, 107), step := 104, timer := some 400000 }
    let e := (after (.dwellExpiry 0) (engineAt 0 run recipe)).engine 0
    (e.state, e.step, e.loops, e.startTime, e.timer) = (.running, 103, [⟨104, 49⟩], 400000, some 700000) := by decide +kernel

/-- RESTART_PART is taken with a full response queue and empties it (R155, R164); a broadcast HOLD queues no response (R156). -/
theorem test_restart_and_broadcast :
    (after (.restartPart (req 0 0 [])) (queued 8 part)).responses = [] ∧
    (let t := after (.broadcast 5#8 { req 1 0 [] with address := 0xFF#8 }) heldStep
     (t.engine 0).state = .held ∧ t.responses = []) := by decide +kernel

/-- The reset line (R152): ignored below 10 µs; POWER_ON_RESET unlocks and RESET_END ends it. -/
theorem test_reset_line :
    (after (.powerOnReset (.lineLow 9)) { part with lock := true }).lock = true ∧
    (after (.powerOnReset (.lineLow 10)) { part with lock := true }).lock = false ∧
    (after .resetEnd (after (.powerOnReset .powerUp) (part.setInput 2 { raw := true }))).input 2 =
      { raw := true, accepted := true } := by decide +kernel

/-- Table 6-7: the lapse at t4 + 2,000,000 arms the entry. -/
theorem test_grace_lapse :
    let s := part.setGuard 2 9 { config := { kind := .deviation, source := 11, grace := 2000 }, lapse := some 2000000 }
    let t := after (.graceLapse 2 9) s
    t.now = 2000000 ∧ (t.guardEntry 2 9).lapse = none := by decide +kernel

/-! ### Witnesses: states and operands that meet the hypotheses of the statements -/

/-- The parts of a safe state, each of which a concrete state decides. -/
theorem safe_of {s : State}
    (plant : s.plant.WithinBudget ∧ s.plant.GrowthWaits ∧ s.plant.QueueWaits ∧ s.plant.HolderActive ∧
      s.plant.PermitsFollow s.ring.up ∧ s.plant.NoticesCounted ∧ s.plant.ReservationsSettled)
    (cells : ∀ c : Chamber, let e := s.plant.engine c
      (e.sources.isEmpty = true ↔ e.state ≠ .held) ∧
      (e.range.isSome = true ↔ e.state = .waiting ∨ e.state = .running ∨ e.state = .held) ∧
      (e.timer.isSome = true → e.state = .running) ∧ (e.awaited ≠ .nothing ↔ e.state = .waiting) ∧
      (e.state = .held → e.hold.isSome = true) ∧ (e.hold.isSome = true → e.state = .held ∨ e.state = .waiting)) :
    s.Safe :=
  ⟨plant.1, plant.2.1, plant.2.2.1, plant.2.2.2.1,
    fun c => ⟨(cells c).1, (cells c).2.1, (cells c).2.2.1, (cells c).2.2.2.1, (cells c).2.2.2.2.1, (cells c).2.2.2.2.2⟩,
    plant.2.2.2.2.1, plant.2.2.2.2.2.1, plant.2.2.2.2.2.2⟩

theorem part_safe : part.Safe := safe_of
  (by unfold Plant.WithinBudget Plant.GrowthWaits Plant.QueueWaits Plant.HolderActive Plant.PermitsFollow
        Plant.NoticesCounted Plant.ReservationsSettled
      decide +kernel)
  (by decide +kernel)

theorem recipe_safe : recipe.Safe := safe_of
  (by unfold Plant.WithinBudget Plant.GrowthWaits Plant.QueueWaits Plant.HolderActive Plant.PermitsFollow
        Plant.NoticesCounted Plant.ReservationsSettled
      decide +kernel)
  (by decide +kernel)

/-- A channel record at its power-on values is within its stored ranges. -/
theorem none_inRange : ({} : ChannelRecord).InRange := ⟨by decide, by decide, by decide, by decide, by decide, by decide, by decide, by decide⟩

/-- A channel record of kind NONE breaks no rule. -/
theorem none_rules (h : Chan) : ChannelRules (fun _ => {}) h :=
  { valves := by simp, limits := by simp [ChannelKind.isSetpoint], gasLow := by simp
    safeWithin := by simp [ChannelKind.isSetpoint], safeZero := by simp, safeHold := by simp, weight := by simp
    pairAbsent := by simp, pairGas := by simp, failValue := by simp [ChannelKind.isReadback]
    single := by simp [ChannelKind.single], gasCount := by simp, paired := by simp }

/-- The part, with no records, keeps the promises on tables and guards. -/
theorem part_sound : part.RecordsSound ∧ part.GuardsAct where
  left :=
    { ranges := by intro c a b h; exact absurd h (by revert c; simp [part, State.reset, State.engine, Plant.engine])
      checkedSteps := by intro i h; simp [part, State.reset] at h
      emptySteps := by intro i _; simp [part, State.reset]
      checkedLevels := by decide +kernel
      stored := fun c h => by simpa [part, State.reset, State.channel] using none_inRange
      channels := fun c h => by simpa [part, State.reset, State.channel] using none_rules h }
  right := { safe := by decide +kernel, hold := by decide +kernel }

theorem witness_StepRunsFrontCommand :
    ({ part with pending := [.settleExpiry, .resetEnd] } : State).pending = .settleExpiry :: [.resetEnd] ∧ part.pending = [] :=
  ⟨rfl, rfl⟩

theorem part_orderly : part.Orderly where
  slots := by intro i j _ h; simp [part, State.reset] at h
  responses := by simp [State.ResponsesFit, part, State.reset]
  address := by simp [State.AddressLegal, part]
  ring := by unfold Ring.InRange; decide
  watch := by unfold Ring.WatchFollows; decide
  threshold := by decide

/-- The four invariants over steps: an idle step, and a command that changes the part. -/
theorem witness_StepKeeps :
    part.Safe ∧ part.Orderly ∧ part.RecordsSound ∧ part.GuardsAct ∧ step part = .next part ∧
      step { part with pending := [.lock (req 0 0 [])] } = .next (after (.lock (req 0 0 [])) part) :=
  ⟨part_safe, part_orderly, part_sound.1, part_sound.2, rfl, rfl⟩

theorem witness_LockedPartKeepsItsTables :
    ({ part with lock := true } : State).lock = true ∧
      exec (.stepWrite (req 0 0 [])) { part with lock := true } =
        .next (after (.stepWrite (req 0 0 [])) { part with lock := true }) := ⟨rfl, rfl⟩

theorem witness_UnlockedCommandsIgnoreLock :
    (1#8).toNat ≠ 11 ∧ exec (.read 1#8 (req 127 0 [])) part = .next (after (.read 1#8 (req 127 0 [])) part) ∧
      exec (.hold (req 15 0 [])) heldStep = .next (after (.hold (req 15 0 [])) heldStep) := ⟨by decide, rfl, rfl⟩

/-- The smallest and the largest frame. -/
theorem witness_FrameDecodesItsBytes :
    let small := oneSlot directionOut 0 []
    let large : Frame := { small with slots := List.replicate 128 (sent 65535), mailbox := List.replicate 4 emptyEntry }
    (small.kind = processKind ∧ small.direction = directionOut ∧ 1 ≤ small.slots.length ∧ small.mailbox.length ≤ 4) ∧
      large.slots.length ≤ 128 ∧ large.mailbox.length ≤ 4 ∧ ∀ e ∈ large.mailbox, e.length = 16 := by decide +kernel

theorem witness_UnalteredFrameKeepsItsBytes :
    classify directionOut (oneSlot directionOut 65535 []).bytes = .good (oneSlot directionOut 65535 []) := by decide +kernel

theorem witness_GoodFramesInOrder :
    part.inReset = false ∧ classify directionOut (oneSlot directionOut 9 []).bytes = .good (oneSlot directionOut 9 []) ∧
      classify directionReturn (oneSlot directionReturn 9 []).bytes = .good (oneSlot directionReturn 9 []) := by
  decide +kernel

theorem witness_FramesPassUntouched :
    ({ part with inReset := true } : State).inReset = true ∧ part.inReset = false ∧
    classify directionOut [] = .bad ∧ classify directionReturn (List.replicate 841 0#8) = .bad ∧
    classify directionOut (oneSlot directionReturn 9 []).bytes = .foreign ∧
    classify directionReturn (oneSlot directionOut 9 []).bytes = .foreign := by decide +kernel

theorem witness_RecordNotTakenLeavesPart :
    ¬(queued 8 part).Takes (req 0 0 []) ∧ ¬State.reset.Takes (req 0 0 []) ∧ ¬({ part with inReset := true } : State).Takes (req 0 0 []) ∧
    recordOf (.hold (req 1 0 [])) = some (codeHold, req 1 0 []) ∧ Config.responseRoom ≤ (queued 8 part).responses.length ∧
    State.reset.address = 0#8 := by unfold State.Takes; decide +kernel

theorem witness_TakenRecordAnswered :
    (queued 7 part).Takes (req 1 0 []) ∧ recordOf (.hold (req 1 0 [])) = some (codeHold, req 1 0 []) ∧
      exec (.hold (req 1 0 [])) (queued 7 part) = .next (after (.hold (req 1 0 [])) (queued 7 part)) :=
  ⟨by unfold State.Takes; decide +kernel, rfl, rfl⟩

/-- Entries that are taken, RESTART_PART with a full queue and ASSIGN at address 0 among them, and the entries that stay: EMPTY, of an
unknown code, of a wrong check, of another part, without room. -/
theorem witness_MailboxEntries :
    (∀ q ∈ [(record 1 1 9 11 0 0 [], queued 7 part), (record 1 11 9 0 0 0 [], queued 8 part),
        (record 0 12 9 0 0 0 [5], State.reset)],
      q.2.inReset = false ∧ entryCheckCorrect q.1 = true ∧ (requestOf q.1).address ≠ 0xFF#8 ∧
      (requestOf q.1).address = q.2.address ∧ (q.2.address ≠ 0#8 ∨ q.1.getD 1 0#8 = 12#8) ∧
      (q.1.getD 1 0#8 = 11#8 ∨ q.2.responses.length < 8)) ∧
    rowOf 1#8 11#8 (req 0 0 []) = some (.read 11#8 (req 0 0 [])) ∧ rowOf 11#8 0#8 (req 0 0 []) = some (.restartPart (req 0 0 [])) ∧
    rowOf 0#8 0#8 (req 0 0 []) = none ∧ rowOf 13#8 0#8 (req 0 0 []) = none ∧
    entryCheckCorrect ((record 1 1 9 11 0 0 []).set 15 0#8) = false ∧ (requestOf (record 2 1 9 11 0 0 [])).address ≠ part.address ∧
    (requestOf (record 0 1 9 11 0 0 [])).address = State.reset.address ∧ 8 ≤ (queued 8 part).responses.length := by
  decide +kernel

theorem witness_ReadAnswersWord :
    part.Takes (req 127 0 []) ∧ (1#8).toNat ≠ 3 ∧ part.tableWord 1 127 0 = some (SlotUse.data .unmapped) ∧
      part.tableWord 1 128 0 = none := by unfold State.Takes; decide +kernel

/-- Channels of the three classes, a DEVIATION entry in grace and one armed, and a chamber with and without a hold record. -/
theorem witness_WordContents :
    let held := after (.hold (req 1 0 [])) heldStep
    let s := part.setGuard 2 9 { config := { kind := .deviation, source := 11, grace := 2000 }, lapse := some 2000000 }
    (recipe.channel 0 4).record.kind.isReadback = true ∧ (heldStep.channel 0 2).record.kind.isSetpoint = true ∧
    (part.channel 3 15).record.kind = .none ∧ (part.guardEntry 3 15).config.kind ≠ .deviation ∧
    (s.guardEntry 2 9).config.kind = .deviation ∧ (s.guardEntry 2 9).lapse = some 2000000 ∧
    ((after (.graceLapse 2 9) s).guardEntry 2 9).lapse = none ∧ (heldStep.engine 0).hold = none ∧
    (held.engine 0).hold.isSome = true ∧ (held.engine 0).loops.length ≤ 2 ∧
    ((held.engine 0).hold.map fun h => h.loops.length) = some 0 := by decide +kernel

/-- The three check states, the last index and word, and those beyond them. -/
theorem witness_ReadStepReportsCheck :
    let s := stepsAt [(0, checked (timed 1)), (511, timed 1)] part
    s.Takes (req 511 7 []) ∧ s.pool[0].check = .checked ∧ s.pool[511].check = .unchecked ∧ s.pool[510].check = .empty ∧
      (s.pool[511].wordData 7).isSome = true ∧ (req 511 7 []).index.toNat < 512 ∧ 512 ≤ (req 512 7 []).index.toNat ∧
      8 ≤ (req 511 8 []).word.toNat := by unfold State.Takes; decide +kernel

theorem witness_WriteReadOnlyAndCheckNoObject :
    part.Takes (req 0 0 []) ∧ tableHasOwnWriteRow 10#8 = false ∧ (part.tableWord 10 3 21).isSome = true ∧
      part.tableWord 10 3 22 = none ∧ part.tableWord 0 0 0 = none ∧ tableHasCheck 4#8 = false := by
  unfold State.Takes; decide +kernel

/-- Each outcome of Table 1-1. -/
theorem witness_SlotMapWriteOutcomes :
    let held := slotsAt [(12, .channel 3 15)] part
    held.Takes (req 127 0 [1, 3, 15]) ∧ held.lock = false ∧ 128 ≤ (req 128 0 []).index.toNat ∧
    (∀ c : Chamber, (held.engine c).state = .idle) ∧ (heldStep.engine 0).state ≠ .idle ∧
    (req 127 0 [3]).slotUse = .error 1 ∧ (req 127 0 [1, 4]).slotUse = .error 2 ∧ (req 127 0 [1, 3, 16]).slotUse = .error 3 ∧
    (req 127 0 [1, 3, 15]).slotUse = .ok (.channel 3 15) ∧ (req 127 0 [2, 3]).slotUse = .ok (.report 3) ∧
    held.slotMap[12] = .channel 3 15 ∧ (∀ j : Fin 128, j ≠ 127 → held.slotMap[j] ≠ .channel 3 14) := by
  unfold State.Takes; decide +kernel

theorem witness_SlotsDistinct : (slotsAt [(12, .channel 3 15)] part).SlotsDistinct := by
  unfold State.SlotsDistinct; decide +kernel

/-- A record that meets the rules, a valve opened to a ROUGH_VALVE among them. -/
theorem rough_rules (h : Chan) :
    ChannelRules (fun j => if j = h then { kind := .roughValve, hi := 1 } else {}) h where
  valves := by simp
  limits := by simp
  gasLow := by simp
  safeWithin := by simp
  safeZero := by simp
  safeHold := by simp
  weight := by simp
  pairAbsent := by simp
  pairGas := by simp
  failValue := by simp [ChannelKind.isReadback]
  single := by intro _ j; by_cases k : j = h <;> simp [k]
  gasCount := by simp
  paired := by intro _ j; by_cases k : j = h <;> simp [k]

theorem witness_ChannelWriteAccepted :
    let s := channelsAt 3 [(15, { kind := .roughValve })] part
    let r := req 63 1 [0, 1, 0, 1, 0, 0, 0, 1]
    s.Takes r ∧ s.lock = false ∧ r.index.toNat = 3 * 16 + 15 ∧ r.word.toNat < 3 ∧ (s.engine 3).state = .idle ∧
    r.channelRecord r.word.toNat (s.channel 3 15).record = .ok { kind := .roughValve, hi := 1 } ∧
    ∀ j : Chan, j ≠ 15 → (s.channel 3 j).record = {} := by unfold State.Takes; decide +kernel

/-- A record that meets the rules and is no ROUGH_VALVE. -/
theorem gas_rules (h : Chan) : ChannelRules (fun j => if j = h then { kind := .gasFlow } else {}) h where
  valves := by simp
  limits := by simp
  gasLow := by simp
  safeWithin := by simp
  safeZero := by simp
  safeHold := by simp
  weight := by simp
  pairAbsent := by simp
  pairGas := by simp
  failValue := by simp [ChannelKind.isReadback]
  single := by simp [ChannelKind.single]
  gasCount := by
    intro _
    have k : (sixteen.filter fun j => ((fun j => if j = h then ({ kind := .gasFlow } : ChannelRecord) else {}) j).kind = .gasFlow) =
        sixteen.filter fun j => j = h := by
      apply List.filter_congr; intro j _; by_cases k : j = h <;> simp [k]
    rw [k]
    revert h; decide
  paired := by simp

/-- A write of a gas flow, and of a ROUGH_VALVE of a chamber that waits for, holds, and holds with settle time 0 the line. -/
theorem witness_ChannelWriteForms :
    ((req 63 0 [1, 0, 0, 0, 0xFF]).channelRecord 0 {} = .ok { kind := .gasFlow } ∧
      (arbiterAt { line := .settling 5, queue := [3] } part).plant.arbiter.line ≠ .granted 3 ∧
      (arbiterAt { line := .granted 3 } part).plant.arbiter.settleTime ≠ 0 ∧
      (arbiterAt { line := .granted 3, settleTime := 0 } part).plant.arbiter.line = .granted 3) ∧
    (arbiterAt { line := .granted 3 } part).Safe :=
  ⟨by decide +kernel,
   safe_of
    (by unfold Plant.WithinBudget Plant.GrowthWaits Plant.QueueWaits Plant.HolderActive Plant.PermitsFollow
          Plant.NoticesCounted Plant.ReservationsSettled
        decide +kernel)
    (by decide +kernel)⟩

/-- The refusals: beyond the table, the read-only word, a chamber in use, a field out of its range, a broken rule. -/
theorem witness_ChannelWriteRefused :
    part.Takes (req 63 2 []) ∧ part.lock = false ∧ 64 ≤ (req 64 0 []).index.toNat ∧ 3 < (req 0 4 []).word.toNat ∧
    (req 63 3 []).word.toNat = 3 ∧ (req 63 2 []).index.toNat = 3 * 16 + 15 ∧ (heldStep.engine 0).state ≠ .idle ∧
    (req 63 2 [0, 0, 0]).channelRecord 2 (part.channel 3 15).record = .error 11 ∧
    (req 63 0 [1, 0, 1, 0, 0xFF]).channelRecord 0 (part.channel 3 15).record =
      .ok { kind := .gasFlow, holdBehaviour := .keep } := by unfold State.Takes; decide +kernel

theorem witness_ChannelRule_broken (after : Chan → ChannelRecord) (h : Chan) (k : after h = { kind := .gasFlow, holdBehaviour := .keep }) :
    ¬ChannelRules after h := fun r => by simpa [k] using r.safeHold

/-- The first broken rule of a gas flow with hold behaviour KEEP names field 3, and fields out of their ranges. -/
theorem witness_ChannelFields (h : Chan) :
    FirstBroken (channelRules (fun j => if j = h then { kind := .gasFlow, holdBehaviour := .keep } else {}) h) 3 ∧
    11 < (req 0 0 [12]).byte 0 ∧ 1 < (req 0 0 [11, 2]).byte 1 ∧ 1 < (req 0 0 [11, 1, 2]).byte 2 ∧
    15 < (req 0 0 [11, 1, 1, 0, 16]).byte 4 ∧ (req 0 0 [11, 1, 1, 0, 16]).byte 4 ≠ 0xFF ∧
    (req 0 1 [0, 0]).number 0 2 = 0 ∧ (req 0 1 [0, 1, 0, 0]).number 2 2 = 0 ∧ (req 0 2 [0, 0, 0]).byte 2 = 0 := by
  let after : Chan → ChannelRecord := fun j => if j = h then { kind := .gasFlow, holdBehaviour := .keep } else {}
  refine ⟨⟨(channelRules after h).take 5, (channelRules after h).drop 6, _, rfl, ?_, ?_⟩, by decide⟩
  · simp [channelRules, after]
  · simp

/-- A record outside every range, and one inside a held range. -/
theorem witness_StepWriteMakesUnchecked :
    heldStep.Takes (req 511 7 []) ∧ (req 511 7 []).word.toNat < 8 ∧ (req 511 7 []).index.toNat = 511 ∧
    512 ≤ (req 512 0 []).index.toNat ∧ 7 < (req 0 8 []).word.toNat ∧
    (∀ c : Chamber, ∀ q ∈ (heldStep.engine c).range, ¬(q.1 ≤ 511 ∧ 511 ≤ q.2)) ∧
    (heldStep.engine 0).range = some (40, 41) ∧ (heldStep.engine 0).state = .running := by
  unfold State.Takes; decide +kernel

theorem witness_GuardWriteStored :
    let k : GuardConfig := { kind := .inputLow, source := 15, action := .safe, count := 1 }
    let r := req 63 0 [7, 15, 0, 2, 1]
    part.Takes r ∧ part.lock = false ∧ r.index.toNat = 3 * 16 + 15 ∧ r.word.toNat < 3 ∧
    r.guardConfig r.word.toNat (part.guardEntry 3 15).config = .ok k ∧
    (req 63 0 [7, 15, 0, 2, 2]).guardConfig 0 {} = .ok { k with count := 2 } := by unfold State.Takes; decide +kernel

theorem witness_GuardRules (record : Chan → ChannelRecord) :
    (GuardConfig.Rules { kind := .inputLow, source := 15, action := .safe, count := 1 } record) ∧
    ¬(GuardConfig.Rules { kind := .inputLow, source := 15, action := .safe, count := 2 } record) :=
  ⟨{ count := by simp, inputCount := by simp, levelSource := by simp, valueSource := by simp, deviation := by simp
     input := by simp, above := by simp, below := by simp, belowLevel := by simp, unused := by simp },
   fun r => by simpa [GuardKind.isInput] using r.inputCount⟩

/-- The first broken rule of an INPUT entry of count 2 names field 5, and the fields of word 0 at and beyond their ranges. -/
theorem witness_GuardFields (record : Chan → ChannelRecord) :
    FirstBroken (guardRules record { kind := .inputLow, source := 15, action := .safe, count := 2 }) 5 ∧
    64 ≤ (req 64 0 []).index.toNat ∧ 3 < (req 0 4 []).word.toNat ∧ (req 63 3 []).word.toNat = 3 ∧
    7 < (req 0 0 [8]).byte 0 ∧ 15 < (req 0 0 [7, 16]).byte 1 ∧ 2 < (req 0 0 [7, 15, 3]).byte 2 ∧
    2 < (req 0 0 [7, 15, 2, 3]).byte 3 ∧ 15 < (req 0 0 [7, 15, 2, 2, 16]).byte 4 ∧
    (req 0 0 [7, 15, 2, 2, 15]).byte 0 = GuardKind.inputLow.code ∧ scopes[(req 0 0 [7, 15, 2, 2, 15]).byte 2]? = some .flagged ∧
    guardActions[(req 0 0 [7, 15, 2, 2, 15]).byte 3]? = some .safe ∧ (req 0 0 [7, 15, 2, 2, 15]).byte 4 ≤ 15 := by
  let k : GuardConfig := { kind := .inputLow, source := 15, action := .safe, count := 2 }
  refine ⟨⟨(guardRules record k).take 1, (guardRules record k).drop 2, _, rfl, ?_, ?_⟩, by decide⟩
  · simp [guardRules, k, GuardKind.isFramePaced]
  · simp [GuardKind.isInput]

theorem witness_LevelAndInputWritesStored :
    part.Takes (req 3 3 []) ∧ part.lock = false ∧ 4 ≤ (req 4 0 []).index.toNat ∧ 4 < (req 0 5 []).word.toNat ∧
    (req 3 4 []).word.toNat = 4 ∧ (part.engine 3).state = .idle ∧ (heldStep.engine 0).state ≠ .idle ∧
    16 ≤ (req 16 0 []).index.toNat ∧ 1 < (req 15 2 []).word.toNat ∧ (req 15 1 []).word.toNat = 1 := by
  unfold State.Takes; decide +kernel

theorem witness_ArbiterWritesStored :
    part.Takes (req 3 1 [15]) ∧ part.lock = false ∧ 4 < (req 5 0 []).index.toNat ∧ 1 < (req 4 2 []).word.toNat ∧
    (req 3 1 [15]).byte 0 ≤ 15 ∧ ¬(req 3 1 [16]).byte 0 ≤ 15 ∧ (part.engine 3).state = .idle ∧
    (heldStep.engine 0).state ≠ .idle ∧ fullBudget.plant.arbiter.growth = ⟨1, 150⟩ :: [⟨2, 40⟩] ∧
    headFits fullBudget.plant ⟨1, 150⟩ = false ∧ headStuck fullBudget.plant ⟨1, 150⟩ = false := by
  unfold State.Takes; decide +kernel

theorem witness_RingWritesStored :
    part.Takes (req 0 0 [0, 250]) ∧ part.lock = false ∧ (req 1 0 []).index.toNat ≠ 0 ∧ 2 < (req 0 3 []).word.toNat ∧
    (req 0 2 []).word.toNat = 2 ∧ (req 0 0 [0, 250]).number 0 2 = 250 ∧ (req 0 0 [31, 64]).number 0 2 = 8000 ∧
    (req 0 0 [31, 65]).number 0 2 = 8001 ∧ (req 0 1 [2]).byte 0 = 2 ∧ (req 0 1 [64]).byte 0 = 64 ∧
    64 < (req 0 1 [65]).byte 0 := by unfold State.Takes; decide +kernel

theorem witness_NoticeWritesStored :
    part.Takes (req 27 0 [4]) ∧ 28 ≤ (req 28 0 []).index.toNat ∧ (req 27 1 []).word.toNat ≠ 0 ∧
    (req 27 0 [4]).index.toNat = 27 ∧ (req 26 1 []).word.toNat = 1 ∧ 3 < (req 26 0 [4, 0]).byte 0 ∧
    (req 26 0 [3, 2]).byte 0 ≤ 3 ∧ 1 < (req 26 0 [3, 2]).byte 1 ∧ (req 26 0 [3, 1]).byte 1 ≤ 1 := by
  unfold State.Takes; decide +kernel

theorem witness_LockedWritesRefused :
    ({ part with lock := true } : State).Takes (req 0 0 []) ∧ ({ part with lock := true } : State).lock = true := by
  unfold State.Takes; decide +kernel

/-- Blocks of one and of 64 records, the first index beyond the pool, and a record that passes. -/
theorem witness_StepCheckBlock :
    faultyBlock.Takes (req 203 0 [2]) ∧ 511 < (req 512 0 [1]).index.toNat ∧ 512 < 511 + (req 511 0 [2]).byte 0 ∧
    64 < (req 0 0 [65]).byte 0 ∧ (req 448 0 [64]).index.toNat + (req 448 0 [64]).byte 0 ≤ 512 ∧
    faultyBlock.pool[203].check ≠ .empty ∧ faultyBlock.pool[205].check = .empty := by unfold State.Takes; decide +kernel

theorem witness_MeetsCheck : (timed 1).MeetsCheck 203 ∧ ¬({ timed 20000 with ramp := 25000 } : StepRecord).MeetsCheck 201 :=
  ⟨{ kind := by decide, duration := by decide, ramp := by decide, timeout := by decide, level := by decide
     count := by decide, ratio := by decide, minForward := by decide, loopTarget := by decide, loopCount := by decide
     entries := by decide },
   fun r => absurd r.ramp (by decide)⟩

theorem witness_LevelCheckBlock :
    let s := part.setLevel 3 levelTable
    s.Takes (req 3 0 [1]) ∧ 3 < (req 4 0 [1]).index.toNat ∧ 4 < 3 + (req 3 0 [2]).byte 0 ∧
    (∀ k : Fin 14, s.levels[3].thresholds[k.val] < s.levels[3].thresholds[k.val + 1]) ∧
    ¬s.levels[2].thresholds[0] < s.levels[2].thresholds[1] := by unfold State.Takes; decide +kernel

theorem witness_MaskInIndexOrder :
    chamberRow (.hold (req 15 0 [])) = some (codeHold, req 15 0 [], holdChamber) ∧ heldStep.Takes (req 15 0 []) ∧
    (req 15 0 []).index.toNat < 16 ∧ 16 ≤ (req 16 0 []).index.toNat ∧ (req 0 0 []).index.toNat = 0 ∧
    (req 15 0 []).names 3 = true ∧ (holdChamber 1 heldStep).2 = some wrongState ∧ (holdChamber 0 heldStep).2 = none :=
  ⟨rfl, by unfold State.Takes; decide +kernel⟩

/-- The line FREE for a step that claims it, SETTLING for the same step, and a step that claims none. -/
theorem witness_StartEntersFirstStep :
    let r := req 1 0 [0, 100]
    let busy := { recipe with plant := { recipe.plant with arbiter := { recipe.plant.arbiter with line := .settling 5 } } }
    (recipe.Takes r ∧ r.Only 0 ∧ (recipe.engine 0).state = .idle ∧ r.number 0 2 = 100 ∧
      startWalk recipe.ctx recipe.slotMap 0 100 = .ok 107 ∧ startWalk recipe.ctx recipe.slotMap 0 101 = .ok 107 ∧
      (recipe.stepRecord 100).isEnd = false ∧ (recipe.stepRecord 101).isEnd = false ∧
      stepLoad recipe.ctx 0 (recipe.stepRecord 100) (carriedOutputs recipe.ctx 0) ≤ recipe.plant.allowance 0 ∧
      (recipe.stepRecord 100).claimsRoughing = true ∧ (recipe.stepRecord 101).claimsRoughing = false ∧
      recipe.plant.arbiter.line = .free ∧ busy.plant.arbiter.line ≠ .free ∧ busy.plant.arbiter.line ≠ .granted 0) ∧
    recipe.Safe :=
  ⟨by unfold State.Takes Request.Only; decide +kernel, recipe_safe⟩

theorem heldStep_safe : heldStep.Safe := safe_of
  (by unfold Plant.WithinBudget Plant.GrowthWaits Plant.QueueWaits Plant.HolderActive Plant.PermitsFollow
        Plant.NoticesCounted Plant.ReservationsSettled
      decide +kernel)
  (by decide +kernel)

/-- RUNNING, HELD and IDLE, the mask of chamber D at its one bit. -/
theorem witness_HoldEnters :
    heldStep.Takes (req 1 0 []) ∧ (req 1 0 []).Only 0 ∧ (req 8 0 []).Only 3 ∧ (heldStep.engine 0).state = .running ∧
    ((after (.hold (req 1 0 [])) heldStep).engine 0).state = .held ∧ (heldStep.engine 3).state = .idle ∧
    heldStep.plant.notices[noticeSlot 0 .holdEntered].enabled = true := by
  unfold State.Takes Request.Only; decide +kernel

/-- A chamber held from a state, with the reservation of its step as its allowance. -/
def heldPart (from_ : HeldFrom) (sources : HoldSources) : State :=
  let record : HoldRecord :=
    { heldFrom := from_, step := 40, elapsed := 2999999, loops := [], startTable := Vector.replicate 16 0
      outputTable := Vector.replicate 16 0, mode := .continue }
  engineAt 0 { state := .held, range := some (40, 41), step := 40, sources := sources, hold := some record }
    (arbiterAt { budget := 500, allowance := #v[120, 0, 0, 0], reservation := #v[120, 0, 0, 0] }
      { heldStep with ring := {}, plant := part.plant })

theorem witness_StartAndResumeRefused :
    recipe.Takes (req 1 0 [0, 104]) ∧ (req 1 0 []).Only 0 ∧ (heldStep.engine 0).state ≠ .idle ∧
    startWalk recipe.ctx recipe.slotMap 0 104 = .error { result := .badSequence, index := 104, field := 9 } ∧
    (recipe.engine 0).state ≠ .held ∧ ((heldPart .running { guard := true }).engine 0).state = .held ∧
    1 < (req 1 0 [2]).byte 0 ∧ (req 1 0 [1]).byte 0 ≤ 1 ∧ ((heldPart .running { guard := true }).engine 0).hold.isSome = true ∧
    ((heldPart .running { guard := true }).engine 0).sources.guard = true := by
  unfold State.Takes Request.Only; decide +kernel

/-- A hold from RUNNING one microsecond before the step's end, and one from WAITING. -/
theorem witness_ResumeTakesHeldStepUp :
    (∀ w ∈ [HeldFrom.running, .waiting],
      let s := heldPart w { controller := true }
      s.Takes (req 1 0 [0]) ∧ (req 1 0 [0]).Only 0 ∧ (s.engine 0).state = .held ∧ (req 1 0 [0]).byte 0 ≤ 1 ∧
      (s.engine 0).hold.isSome = true ∧ (s.engine 0).sources.guard = false ∧ (s.stepRecord 40).isEnd = false ∧
      (s.stepRecord 40).claimsRoughing = false ∧
      stepLoad s.ctx 0 (s.stepRecord 40) (Vector.replicate 16 0) ≤ s.plant.allowance 0 ∧
      (s.stepRecord 40).dwell = 2999999 + 1) ∧
    (heldPart .running { controller := true }).Safe ∧ (heldPart .waiting { controller := true }).Safe :=
  ⟨by unfold State.Takes Request.Only; decide +kernel,
   safe_of
    (by unfold Plant.WithinBudget Plant.GrowthWaits Plant.QueueWaits Plant.HolderActive Plant.PermitsFollow
          Plant.NoticesCounted Plant.ReservationsSettled
        decide +kernel)
    (by decide +kernel),
   safe_of
    (by unfold Plant.WithinBudget Plant.GrowthWaits Plant.QueueWaits Plant.HolderActive Plant.PermitsFollow
          Plant.NoticesCounted Plant.ReservationsSettled
        decide +kernel)
    (by decide +kernel)⟩

theorem witness_AbortReturnsToIdle :
    heldStep.Takes (req 1 0 []) ∧ (req 1 0 []).Only 0 ∧ (heldStep.engine 0).state = .running ∧
    (req 8 0 []).Only 3 ∧ (heldStep.engine 3).state = .idle := by unfold State.Takes Request.Only; decide +kernel

theorem witness_ReleaseReturnsToIdle :
    let s := engineAt 3 { state := .done, step := 107 } part
    (s.Takes (req 8 0 []) ∧ (req 8 0 []).Only 3 ∧ (s.engine 3).state = .done ∧ (part.engine 3).state ≠ .done) ∧ s.Safe :=
  ⟨by unfold State.Takes Request.Only; decide +kernel,
   safe_of
    (by unfold Plant.WithinBudget Plant.GrowthWaits Plant.QueueWaits Plant.HolderActive Plant.PermitsFollow
          Plant.NoticesCounted Plant.ReservationsSettled
        decide +kernel)
    (by decide +kernel)⟩

/-- SAFE with and without a standing guard, and a state that is not SAFE. -/
theorem witness_ClearLeavesSafe :
    let s := engineAt 3 { state := .safe, step := 511 } part
    let g := s.setGuard 3 15 { config := { action := .safe }, state := .releasing 1 }
    (s.Takes (req 8 0 []) ∧ (req 8 0 []).Only 3 ∧ (s.engine 3).state = .safe ∧ (g.engine 3).state = .safe ∧
      (g.guardEntry 3 15).config.action = .safe ∧ (g.guardEntry 3 15).state = .releasing 1 ∧
      (∀ e : GuardIndex, (s.guardEntry 3 e).state = .clear) ∧ (part.engine 3).state ≠ .safe) ∧ s.Safe :=
  ⟨by unfold State.Takes Request.Only; decide +kernel,
   safe_of
    (by unfold Plant.WithinBudget Plant.GrowthWaits Plant.QueueWaits Plant.HolderActive Plant.PermitsFollow
          Plant.NoticesCounted Plant.ReservationsSettled
        decide +kernel)
    (by decide +kernel)⟩

/-- A full response queue, and an INPUT entry of scope ALWAYS that reads trip. -/
theorem witness_RestartPartResets :
    let s := (queued 8 part).setGuard 3 15 { config := { kind := .inputLow, source := 15, action := .safe, count := 1 } }
    s.inReset = false ∧ s.address ≠ 0#8 ∧ (req 0 0 []).address = s.address ∧
    (∀ (c : Chamber) (g : GuardIndex), (part.guardEntry c g).config.kind.isInput = false) ∧
    (s.guardEntry 3 15).config.kind.isInput = true ∧ (s.guardEntry 3 15).config.scope = .always ∧
    inputReading (s.input 15).accepted (s.guardEntry 3 15).config = .trip ∧
    s.plant.notices[noticeSlot 3 .guardTrip].enabled = true ∧ (s.guardEntry 3 15).config.action = .safe := by decide +kernel

/-- The unassigned part and the bounds of an address. -/
theorem witness_LockAndAssign :
    part.Takes (req 0 0 []) ∧ State.reset.inReset = false ∧ ({ req 0 0 [254] with address := 0#8 } : Request).address = State.reset.address ∧
    (queued 7 part).responses.length < Config.responseRoom ∧ (req 0 0 [1]).byte 0 = 1 ∧ (req 0 0 [254]).byte 0 = 254 ∧
    (req 0 0 [0]).byte 0 = 0 ∧ (req 0 0 [255]).byte 0 = 255 := by unfold State.Takes; decide +kernel

theorem witness_BroadcastExecuted :
    let r : Request := requestOf (record 255 5 0 0 15 0 [])
    part.inReset = false ∧ part.address ≠ 0#8 ∧ State.reset.address = 0#8 ∧ r.index.toNat = 15 ∧ (5#8).toNat = codeHold ∧
    (6#8).toNat = codeResume ∧ (7#8).toNat = codeAbort ∧ 16 ≤ (requestOf (record 255 5 0 0 16 0 [])).index.toNat ∧
    entryCheckCorrect (record 255 5 0 0 15 0 []) = true ∧ (record 255 5 0 0 15 0 []).getD 0 0#8 = 0xFF#8 ∧
    (record 255 5 0 0 15 0 []).getD 1 0#8 = 5#8 ∧ (5#8 : Byte) ≠ 0#8 := by decide +kernel

theorem witness_ResetLineRestores :
    10 ≤ (10 : Nat) ∧ (9 : Nat) < 10 ∧ ({ part with inReset := true } : State).inReset = true ∧ part.inReset = false := by decide

/-- A head that fits exactly, and one that does not by one unit. -/
theorem witness_GrowthServed :
    let s := arbiterAt { fullBudget.plant.arbiter with budget := 335, reservation := #v[120, 40, 30, 35] } fullBudget
    let t := arbiterAt { fullBudget.plant.arbiter with budget := 334, reservation := #v[120, 40, 30, 35] } fullBudget
    (s.plant.arbiter.growth = ⟨1, 150⟩ :: [⟨2, 40⟩] ∧ 150 + otherReservations s.plant 1 ≤ s.plant.arbiter.budget ∧
      (s.engine 1).hold = none ∧ (s.stepRecord (s.engine 1).step).isEnd = false ∧
      (s.stepRecord (s.engine 1).step).claimsRoughing = false ∧
      t.plant.arbiter.budget < 150 + otherReservations t.plant 1) ∧ s.Safe :=
  ⟨by decide +kernel,
   safe_of
    (by unfold Plant.WithinBudget Plant.GrowthWaits Plant.QueueWaits Plant.HolderActive Plant.PermitsFollow
          Plant.NoticesCounted Plant.ReservationsSettled
        decide +kernel)
    (by decide +kernel)⟩

/-- A head that fits whose step is END, one whose step claims a line that settles, and a stuck head. -/
theorem witness_GrowthForms :
    let base (a : Arbiter) (step : StepRecord) (growth : List GrowthRequest) : State :=
      engineAt 2 {} (stepsAt [(0, step)] (arbiterAt { a with growth := growth } fullBudget))
    let a : Arbiter := { fullBudget.plant.arbiter with budget := 335, reservation := #v[120, 40, 30, 35] }
    let ends := base a (checked endRecord) [⟨1, 150⟩]
    let claims := base { a with line := .settling 5 } { checked (timed 100) with claims := 1#8 } [⟨1, 150⟩]
    let stuck := base { a with budget := 225 } (checked (timed 100)) [⟨1, 150⟩]
    ((∀ s ∈ [ends, claims], s.plant.arbiter.growth = ⟨1, 150⟩ :: [] ∧
        150 + otherReservations s.plant 1 ≤ s.plant.arbiter.budget ∧ (s.engine 1).hold = none) ∧
      (ends.stepRecord (ends.engine 1).step).isEnd = true ∧ (claims.stepRecord (claims.engine 1).step).isEnd = false ∧
      (claims.stepRecord (claims.engine 1).step).claimsRoughing = true ∧ claims.plant.arbiter.line ≠ .free ∧
      stuck.plant.arbiter.growth = ⟨1, 150⟩ :: [] ∧ stuck.plant.arbiter.budget < 150 + otherReservations stuck.plant 1 ∧
      stuck.plant.arbiter.budget < 150 + ((chambers.filter (· ≠ 1)).map fun d =>
        if ∃ g ∈ stuck.plant.arbiter.growth, g.chamber = d then stuck.plant.reservation d
        else stuck.plant.allowance d).sum) ∧ ends.Safe ∧ claims.Safe ∧ stuck.Safe :=
  ⟨by decide +kernel, safe_of
    (by unfold Plant.WithinBudget Plant.GrowthWaits Plant.QueueWaits Plant.HolderActive Plant.PermitsFollow
          Plant.NoticesCounted Plant.ReservationsSettled
        decide +kernel)
    (by decide +kernel), safe_of
    (by unfold Plant.WithinBudget Plant.GrowthWaits Plant.QueueWaits Plant.HolderActive Plant.PermitsFollow
          Plant.NoticesCounted Plant.ReservationsSettled
        decide +kernel)
    (by decide +kernel), safe_of
    (by unfold Plant.WithinBudget Plant.GrowthWaits Plant.QueueWaits Plant.HolderActive Plant.PermitsFollow
          Plant.NoticesCounted Plant.ReservationsSettled
        decide +kernel)
    (by decide +kernel)⟩

/-- B at the queue's end before C and D (a lower value), and C alone, IDLE. -/
theorem witness_SelectionGrantsLine :
    let p := fourChambers.plant.arbiter.priority
    let alone := arbiterAt { fourChambers.plant.arbiter with queue := [2] } fourChambers
    (fourChambers.plant.arbiter.line = .settling 1400000 ∧ fourChambers.plant.arbiter.queue = [2, 3] ++ 1 :: [] ∧
      (∀ d ∈ ([2, 3] : List Chamber), p[(1 : Chamber)] < p[d]) ∧ (fourChambers.engine 1).state = .waiting ∧
      (fourChambers.engine 1).hold = none ∧ alone.plant.arbiter.queue = [] ++ 2 :: [] ∧ (alone.engine 2).state = .idle ∧
      (arbiterAt { line := .settling 0 } part).plant.arbiter.queue = []) ∧ fourChambers.Safe :=
  ⟨by decide +kernel,
   safe_of
    (by unfold Plant.WithinBudget Plant.GrowthWaits Plant.QueueWaits Plant.HolderActive Plant.PermitsFollow
          Plant.NoticesCounted Plant.ReservationsSettled
        decide +kernel)
    (by decide +kernel)⟩

/-- The recipe of Table 2-7 with chamber A running a step of it. -/
def atStep (i : Nat) : State :=
  engineAt 0 { state := .running, range := some (100, 107), step := i, timer := some 400000 } recipe

theorem atStep_safe (i : Nat) (h : i ∈ [100, 102, 104, 106]) : (atStep i).Safe := safe_of
  (by revert i
      unfold Plant.WithinBudget Plant.GrowthWaits Plant.QueueWaits Plant.HolderActive Plant.PermitsFollow
        Plant.NoticesCounted Plant.ReservationsSettled
      decide +kernel)
  (by revert i; decide +kernel)

/-- A step whose successor runs, and the step before END. -/
theorem witness_DwellExpiryEndsStep :
    (∀ i ∈ [104, 106],
      let s := atStep i
      let step := s.stepRecord i
      let ended := applyLoop i step.loopPart []
      let next := s.stepRecord ended.2
      (s.engine 0).timer = some 400000 ∧ step.isConditioned = false ∧
      max (s.plant.allowance 0) (stepLoad s.ctx 0 next (setTargets step.setpoints (s.engine 0).outputTable)) ≤
        s.plant.reservation 0 ∧
      (next.isEnd = true ∨ next.claimsRoughing = false) ∧ next.isEnd = decide (i = 106)) ∧
    (part.engine 0).timer = none := by decide +kernel

/-- Chamber A at the end of a step without targets, before a step that sends a gas of weight 1000; chamber D runs too. -/
def boundaryPart (target : Nat) (next : StepRecord) (a : Arbiter) : State :=
  let running : Engine := { state := .running, range := some (0, 1), timer := some 400000 }
  engineAt 0 running (engineAt 3 running
    (stepsAt [(0, checked (timed 100)), (1, { next with entries := (Vector.replicate 8 {}).set 0 (entry 2 target 0) })]
      (channelsAt 0 [(2, { gasFlow with weight := 1000 })] (arbiterAt a part))))

/-- An arbiter with room for chamber A, and a reservation of D. -/
def roomFor (line : LineState) (others : Nat) : Arbiter :=
  { line := line, budget := 100, allowance := #v[10, 0, 0, 0], reservation := #v[50, 0, 0, others] }

/-- A load that never fits; one that shrinks or keeps the reservation, for END, a step without the line, with the line in hand, with
the line FREE and with the line settling; growth served at once, and growth that waits. -/
theorem witness_BoundaryForms :
    let claiming : StepRecord := { checked (timed 100) with claims := 1#8 }
    let plain := checked (timed 100)
    let atBoundary (s : State) : Plant := s.plant.setEngine 0 ((s.engine 0).afterStep (s.stepRecord 0))
    let wanted (s : State) : Nat := requestedReservation (s.advanceTo 400000).ctx 0 (atBoundary s)
    (wanted (boundaryPart 101 plain (roomFor .free 0)) = 101 ∧ otherAllowances (atBoundary (boundaryPart 101 plain (roomFor .free 0))) 0 = 0) ∧
    (wanted (boundaryPart 40 plain (roomFor .free 0)) = 40 ∧ wanted (boundaryPart 50 claiming (roomFor .free 0)) = 50 ∧
      wanted (boundaryPart 50 claiming (roomFor (.settling 500000) 0)) = 50) ∧
    (boundaryPart 50 (checked endRecord) (roomFor .free 0)).ctx.stepRecord 1 =
      { checked endRecord with entries := (Vector.replicate 8 {}).set 0 (entry 2 50 0) } ∧
    ((boundaryPart 50 claiming (roomFor (.granted 0) 0)).plant.arbiter.line = .granted 0) ∧
    (let s := boundaryPart 80 claiming (roomFor (.granted 0) 20)
     wanted s = 80 ∧ wanted s + otherReservations (atBoundary s) 0 ≤ 100 ∧ s.plant.arbiter.settleTime ≠ 0 ∧
       s.plant.arbiter.growth = []) ∧
    (let s := boundaryPart 80 plain (roomFor .free 21)
     let q := (atBoundary s).asking (s.advanceTo 400000).ctx 0
     wanted s = 80 ∧ q.arbiter.growth = ⟨0, 80⟩ :: [] ∧ headFits q ⟨0, 80⟩ = false ∧ headStuck q ⟨0, 80⟩ = false) := by
  decide +kernel

theorem boundaryPart_safe (q : Nat × LineState × Nat)
    (h : q ∈ [(101, .free, 0), (50, .free, 0), (50, .granted 0, 0), (50, .settling 500000, 0), (80, .granted 0, 20), (80, .free, 21)]) :
    (boundaryPart q.1 { checked (timed 100) with claims := 1#8 } (roomFor q.2.1 q.2.2)).Safe := safe_of
  (by revert q
      unfold Plant.WithinBudget Plant.GrowthWaits Plant.QueueWaits Plant.HolderActive Plant.PermitsFollow
        Plant.NoticesCounted Plant.ReservationsSettled
      decide +kernel)
  (by revert q; decide +kernel)

theorem witness_LoopPartApplied :
    (∀ top tail, ([⟨105, 5⟩] : List LoopEntry) = top :: tail → top.step ≠ 104) ∧ (2 : Nat) ≤ 2 :=
  ⟨by intro top tail h; cases h; decide, le_refl 2⟩

/-- The deadlines of records 100 (TO_SAFE) and 102 (TO_HOLD). -/
theorem witness_DwellExpiryTimesOut :
    ((atStep 100).engine 0).timer = some 400000 ∧ ((atStep 100).stepRecord 100).isConditioned = true ∧
    ((atStep 100).stepRecord 100).timeoutAction = some .toSafe ∧ ((atStep 102).stepRecord 102).isConditioned = true ∧
    ((atStep 102).stepRecord 102).timeoutAction = some .toHold ∧
    recipe.plant.notices[noticeSlot 0 .stepTimeout].enabled = true := by decide +kernel

/-- A deadline that advances; a PUMP_TO whose count goes on and one whose count is reached, a STRIKE without power, and a VENT_TO. -/
theorem witness_StepConditions :
    let advancing := (atStep 100).setStep 100 { recipe.stepRecord 100 with timeout := 3#8 }
    let counted := engineAt 0 { (atStep 100).engine 0 with counter := 2 } recipe
    (advancing.stepRecord 100).timeoutAction = some .toAdvance ∧ (advancing.stepRecord 100).isConditioned = true ∧
    conditionMet recipe.ctx 0 (recipe.stepRecord 100) = true ∧ ((atStep 100).engine 0).counter + 1 < (recipe.stepRecord 100).count ∧
    (recipe.stepRecord 100).count ≤ (counted.engine 0).counter + 1 ∧
    conditionMet recipe.ctx 0 (recipe.stepRecord 102) = false ∧ (recipe.stepRecord 102).isConditioned = true ∧
    (recipe.stepRecord 101).isConditioned = false ∧ (part.engine 0).state ≠ .running ∧
    (recipe.stepRecord 100).kind.toNat = 1 ∧ ({ kind := 2#8 } : StepRecord).kind.toNat = 2 ∧
    (recipe.stepRecord 102).kind.toNat = 3 ∧ (recipe.ctx.record 0 5).kind = .rfForward ∧
    (recipe.ctx.record 0 6).kind = .rfReflected ∧ (∀ h, (recipe.ctx.record 0 h).kind = .rfForward → h = 5) ∧
    (∀ h, (recipe.ctx.record 0 h).kind = .rfReflected → h = 6) := by decide +kernel

/-- The ring up with engines RUNNING, WAITING and IDLE. -/
def ringPart : State :=
  engineAt 1 { state := .waiting, range := some (40, 41), step := 40, awaited := .line }
    (arbiterAt { heldStep.plant.arbiter with line := .granted 0, queue := [1] } heldStep)

theorem witness_RingLossHoldsEngines :
    (ringPart.ring.watch = some 2300000 ∧ ringPart.ring.up = true ∧ part.ring.watch = none ∧
      (ringPart.engine 0).state = .running ∧ (ringPart.engine 1).state = .waiting ∧ (ringPart.engine 2).state = .idle ∧
      ((after (.hold (req 1 0 [])) ringPart).engine 0).state = .held) ∧ ringPart.Safe :=
  ⟨by decide +kernel,
   safe_of
    (by unfold Plant.WithinBudget Plant.GrowthWaits Plant.QueueWaits Plant.HolderActive Plant.PermitsFollow
          Plant.NoticesCounted Plant.ReservationsSettled
        decide +kernel)
    (by decide +kernel)⟩

/-- A line with filter time 1 ms, one with 0, and one whose timer runs. -/
theorem witness_InputChangeFiltered :
    let s := (part.setInput 0 { filter := 1 }).setInput 15 { raw := true, timer := some 5 }
    s.inReset = false ∧ true ≠ (s.input 0).raw ∧ true ≠ (s.input 0).accepted ∧ (s.input 0).timer = none ∧
    (s.input 0).filter ≠ 0 ∧ (s.input 1).filter = 0 ∧ false ≠ (s.input 15).raw ∧ false = (s.input 15).accepted ∧
    (let t := part.setInput 3 { raw := false, accepted := false, timer := some 5 }
     true ≠ (t.input 3).raw ∧ true ≠ (t.input 3).accepted ∧ (t.input 3).timer.isSome = true) := by decide +kernel

theorem witness_InputAcceptanceEvaluates : (((part.setInput 15 { raw := true, timer := some 5 }).input 15).timer) = some 5 := by
  decide +kernel

theorem witness_GraceLapsesAndNothingElse :
    ((part.setGuard 3 15 { lapse := some 0 }).guardEntry 3 15).lapse = some 0 ∧ (part.guardEntry 3 15).lapse = none ∧
    (part.input 15).timer = none ∧ part.inReset = false := by decide +kernel

theorem witness_ConversionsRoundToNearest :
    1 ≤ gasFlow.fullScale ∧ 1 ≤ gasFlow.wordFullScale ∧ 24576 ≤ gasFlow.wordFullScale ∧ gasFlow.wordFullScale < 24577 ∧
    5000 ≤ gasFlow.fullScale ∧ gasFlow.fullScale ≤ gasFlow.wordFullScale := by decide

/-- A valid reading, one with NODE_FAULT, a channel without a slot, and a chamber with and without its pressure table. -/
theorem witness_ReadingsAndPressureLevel :
    let s := slotsAt [(127, .channel 3 15)] (((channelsAt 3 [(15, gauge.record)] part).setLevel 3 levelTable))
    (s.channel 3 15).record.kind.isReadback = true ∧ s.slotMap[127] = .channel 3 15 ∧
    (List.replicate 128 (read 322 1))[127]? = some (read 322 1) ∧ (read 322 1).nodeFlags.getLsbD 0 = true ∧
    (read 322 1).nodeFlags.getLsbD 1 = false ∧ (read 322 3).nodeFlags.getLsbD 1 = true ∧
    (s.channel 3 0).record.kind.isReadback = false ∧ s.levels[3].checked = true ∧ s.levels[2].checked = false ∧
    (∀ j, (s.channel 3 j).record.kind = .pressure → j = 15) := by decide +kernel

theorem witness_FramePacedStatesMove :
    (1 : Nat) ≤ 1 ∧ (0 : Nat) < 1 ∧ (14 : Nat) < 15 ∧ Reading.neither ≠ .trip ∧ Reading.neither ≠ .release ∧
    ((part.setGuard 3 15 { config := { kind := .levelAbove, count := 15 } }).guardEntry 3 15).config.kind.isFramePaced = true := by
  decide +kernel

/-- Sources that are valid and not, for each kind of Table 6-2 that has one. -/
theorem witness_GuardReadings :
    let s := channelsAt 0 [(2, gasFlow), (3, { kind := .flowRead, pair := some 2 })] recipe
    let k : GuardConfig := { kind := .valueAbove, source := 4, trip := 80, release := 80 }
    ((s.ctx.record 0 k.source).kind.isReadback = true ∧ k.release ≤ k.trip ∧ k.trip ≤ k.release) ∧
    (s.ctx.record 0 2).kind.isReadback = false ∧ (s.ctx.record 0 4).kind ≠ .flowRead ∧ (s.ctx.record 0 3).kind = .flowRead ∧
    (s.ctx.record 0 3).pair = some 2 := by decide +kernel

/-- A chamber held from a state with the sources given is safe. -/
theorem heldPart_safe (q : HeldFrom × Bool) (h : q ∈ [(.running, false), (.running, true), (.waiting, false), (.waiting, true)]) :
    (heldPart q.1 { guard := true, controller := q.2 }).Safe := safe_of
  (by revert q
      unfold Plant.WithinBudget Plant.GrowthWaits Plant.QueueWaits Plant.HolderActive Plant.PermitsFollow
        Plant.NoticesCounted Plant.ReservationsSettled
      decide +kernel)
  (by revert q; decide +kernel)

/-- A standing demand on engines in each state, and one that no longer stands with GUARD alone and with another source. -/
theorem witness_HoldDemand :
    let entry (st : GuardState) : GuardEntry := { config := { action := .hold }, state := st }
    ((part.setGuard 3 15 (entry (.releasing 1))).guardEntry 3 15).config.action = .hold ∧
    ((part.setGuard 3 15 (entry .tripped)).guardEntry 3 15).state = .tripped ∧
    (heldStep.engine 0).state = .running ∧ (ringPart.engine 1).state = .waiting ∧ (part.engine 3).state = .idle ∧
    (∀ (c : Chamber) (g : GuardIndex), (part.guardEntry c g).config.action ≠ .hold) ∧
    (∀ w ∈ [HeldFrom.running, .waiting],
      let s := heldPart w { guard := true }
      (s.engine 0).state = .held ∧ (s.engine 0).sources = { guard := true } ∧ (s.engine 0).hold.isSome = true ∧
      ((heldPart w { guard := true, controller := true }).engine 0).sources ≠ { guard := true }) ∧
    (heldStep.engine 0).sources.guard = false := by decide +kernel

/-- A part with a roughing valve of chamber D in slot 127. -/
def valvePart : State :=
  slotsAt [(127, .channel 3 15)] (channelsAt 3 [(15, { kind := .roughValve, wordFullScale := 65535, hi := 1 })] part)

theorem valvePart_sound : valvePart.RecordsSound where
  ranges := by intro c a b h; exact absurd h (by revert c; simp [valvePart, slotsAt, channelsAt, State.setSlot, State.setChannel,
    part, State.reset, State.engine, Plant.engine])
  checkedSteps := by intro i h; simp [valvePart, slotsAt, channelsAt, State.setSlot, State.setChannel, part, State.reset] at h
  emptySteps := by intro i _; simp [valvePart, slotsAt, channelsAt, State.setSlot, State.setChannel, part, State.reset]
  checkedLevels := by decide +kernel
  stored c h :=
    { weight := by revert c h; decide +kernel, fullScale := by revert c h; decide +kernel
      wordFullScale := by revert c h; decide +kernel, lo := by revert c h; decide +kernel
      hi := by revert c h; decide +kernel, safeValue := by revert c h; decide +kernel
      staleLimit := by revert c h; decide +kernel, failValue := by revert c h; decide +kernel }
  channels c h :=
    { valves := by revert c h; decide +kernel, limits := by revert c h; decide +kernel
      gasLow := by revert c h; decide +kernel, safeWithin := by revert c h; decide +kernel
      safeZero := by revert c h; decide +kernel, safeHold := by revert c h; decide +kernel
      weight := by revert c h; decide +kernel, pairAbsent := by revert c h; decide +kernel
      pairGas := by revert c h; decide +kernel, failValue := by revert c h; decide +kernel
      single := by revert c h; decide +kernel, gasCount := by revert c h; decide +kernel
      paired := by revert c h; decide +kernel }

/-- The last slot of a sound part, a slot that is not mapped, and a roughing valve that opens with the grant. -/
theorem witness_PassageKeepsLimits :
    valvePart.RecordsSound ∧
    ((List.replicate 128 (sent 65535))[127]? = some (sent 65535) ∧ valvePart.slotUse 127 = .channel 3 15 ∧
      (valvePart.channel 3 15).record.kind.isSetpoint = true ∧ valvePart.slotUse 0 = .unmapped) ∧
    (let s := arbiterAt { line := .granted 0 } onePassage
     let a : Passage := { state := s, remaining := s.plant.arbiter.allowance }
     (a.state.channel 0 9).record.kind = .roughValve ∧
     ((computeSlot s.plant.engines 0 9 (sent 0) a).2.state.channel 0 9).status.carried ≠ 0) :=
  ⟨valvePart_sound, by decide +kernel, by decide +kernel⟩

/-- Slots of one passage: an IDLE gas flow and ROUGH_VALVE, a ramped channel, and a valve whose chamber closes it without the line,
with it, and with it at settle time 0. -/
theorem witness_SlotForms :
    let at_ (line : LineState) (settleTime : Nat) : Passage :=
      { state := arbiterAt { line := line, settleTime := settleTime } valvePart, remaining := Vector.replicate 4 0 }
    let carried (p : Passage) (word : Nat) : Nat :=
      ((computeSlot p.state.plant.engines 3 15 (sent word) p).2.state.channel 3 15).status.carried
    ((at_ .free 0).state.engine 3).state = .idle ∧ ((at_ .free 0).state.channel 3 15).record.kind = .roughValve ∧
    wordToValue ((at_ .free 0).state.channel 3 15).record 65535 = 1 ∧ wordToValue ((at_ .free 0).state.channel 3 15).record 0 = 0 ∧
    carried (at_ .free 0) 65535 ≠ ((at_ .free 0).state.channel 3 15).status.carried ∧ carried (at_ (.granted 0) 0) 65535 = 0 ∧
    (at_ (.granted 0) 0).state.plant.arbiter.line ≠ .granted 3 ∧ (at_ (.granted 3) 0).state.plant.arbiter.line = .granted 3 ∧
    (at_ (.granted 3) 5).state.plant.arbiter.settleTime ≠ 0 ∧
    ((onePassage.engine 0).state = .running ∧ (onePassage.channel 0 2).record.owner = .sequence ∧
      ((onePassage.stepRecord 0).setpointFor 2).map (fun t => t.ramp) = some true ∧ (onePassage.stepRecord 0).setpointFor 6 = none ∧
      (onePassage.channel 0 6).record.owner = .controller ∧ (onePassage.channel 0 2).record.kind = .gasFlow) := by
  decide +kernel

/-- A rising ramp, a falling one, and the time at which both are done. -/
theorem witness_RampStaysBetween :
    1 ≤ (rampStep 3000).rampTime ∧ (ramping 1200).startTable[2] ≤ 3000 ∧ 1200 ≤ (ramping 3000).startTable[2] ∧
    (ramping 1200).startTime + (rampStep 3000).rampTime ≤ 2000000 := by decide +kernel

theorem witness_ReportSlotsWritten :
    let s := slotsAt [(127, .report 3)] part
    s.slotUse 127 = .report 3 ∧ (s.engine 3).step < 512 ∧ (∀ d, s.slotUse 0 ≠ .report d) ∧ s.slotUse 128 = .unmapped := by
  decide +kernel

theorem witness_NoticesRaisedAndPosted :
    ({ cls := 0, enabled := false } : NoticeSlot).enabled = false ∧ ({ cls := 0 } : NoticeSlot).enabled = true ∧
    ({ cls := 0 } : NoticeSlot).pending = false ∧ ({ cls := 3, pending := true, merge := 255 } : NoticeSlot).pending = true := by
  decide

/-- EMPTY and other entries, a response and a notice that wait, and none. -/
theorem witness_PostingForms :
    let waits := { part with plant :=
      { part.plant with notices := part.plant.notices.set 26 { cls := 1, pending := true, merge := 1 } }, threshold := 1 }
    emptyEntry.getD 1 0#8 = 0#8 ∧ (record 1 1 0 0 0 0 []).getD 1 0#8 ≠ 0#8 ∧ (queued 1 part).responses ≠ [] ∧
    part.responses = [] ∧ nextNotice part.plant.notices 0 = none ∧
    nextNotice waits.plant.notices waits.threshold = some 26 := by decide +kernel

/-- Windows at their first, middle and last interval, and a last one in TRACKING. -/
theorem witness_ArrivalTrains :
    let r : Ring := { state := .training, lastArrival := some 0, count := 63, sum := 62999 }
    ({} : Ring).state = .seeking ∧ ({ state := .lost } : Ring).state = .lost ∧ r.count + 1 = 64 ∧
    (let m := (r.sum + (1000 - 0)) / 64
     m = 999 ∧ (m - r.nominal) + (r.nominal - m) ≤ r.nominal / 10) ∧
    ({ state := .tracking, count := 62, lastArrival := some 0 } : Ring).count + 1 < 64 ∧
    ({ state := .training } : Ring).lastArrival = none := by decide

/-! ### Walks, resumed steps, trips and arrivals -/

/-- The loop intervals of the n records a walk from s has passed. -/
def passed (x : Ctx) (s : Nat) : Nat → List LoopInterval
  | 0 => []
  | n + 1 => intervalsAfter (x.stepRecord (s + n)) (s + n) (passed x s n)

theorem passed_intervals (x : Ctx) (s : Nat) : ∀ n, WalkIntervals x s (s + n) (passed x s n)
  | 0 => ⟨by simp [passed], by omega, by simp [passed]⟩
  | n + 1 => walkIntervals_after (passed_intervals x s n) (Nat.le_add_right s n)

/-- What a walk refuses a record for is the first of its rules that is broken. -/
theorem broken_of {x : Ctx} {m : Vector SlotUse 128} {c : Chamber} {s : Nat} {f : ChamberRefusal} (n : Nat)
    (h : walkFault x m c s (s + n) (passed x s n) = some f) : FirstBroken (walkRules x m c s (s + n)) f :=
  (walkFault_iff (passed_intervals x s n) m c f).1 h

theorem all_of_none_broken {α : Type} {rules : List (Prop × α)} (h : ∀ f, ¬FirstBroken rules f) : ∀ r ∈ rules, r.1 := by
  induction rules with
  | nil => simp
  | cons a l ih =>
    have ha : a.1 := Classical.byContradiction fun k => h a.2 ⟨[], l, a.1, rfl, by simp, k⟩
    refine fun r hr => (List.mem_cons.1 hr).elim (fun k => k ▸ ha) (ih (fun f ⟨b, c, p, e, hb, hp⟩ => h f ⟨a :: b, c, p, ?_, ?_, hp⟩) r)
    · rw [e]; rfl
    · exact fun q hq => (List.mem_cons.1 hq).elim (fun k => k ▸ ha) (hb q)

theorem passes_of {x : Ctx} {m : Vector SlotUse 128} {c : Chamber} {s : Nat} (n : Nat)
    (h : walkFault x m c s (s + n) (passed x s n) = none) : ∀ test ∈ walkRules x m c s (s + n), test.1 :=
  all_of_none_broken fun f k => by rw [← walkFault_iff (passed_intervals x s n) m c f, h] at k; cases k

/-- The START walk: an index beyond the table; records 106 and 107 that pass, the second END; record 511 that passes and is not
END; and, one after the other, a record refused for its check state, for a loop target below the start, for an overlap, for a third
loop, for a channel, for a missing level table, for missing RF readings, and an END with the line. -/
theorem witness_WalkForms :
    let x := recipe.ctx
    let m := recipe.slotMap
    let last := (recipe.setStep 511 (checked (timed 1))).ctx
    let overlap := (recipe.setStep 105 { checked (timed 1000) with loopTarget := 104 }).ctx
    let deep := (recipe.setStep 106 { checked (timed 1000) with loopTarget := 103 }).ctx
    let claims := (recipe.setStep 107 { checked endRecord with claims := 1#8 }).ctx
    let unmapped := (recipe.setStep 106 { checked (timed 1) with entries := (Vector.replicate 8 {}).set 7 (entry 2 1 0) }).ctx
    512 ≤ (512 : Nat) ∧
    ((∀ test ∈ walkRules x m 0 106 106, test.1) ∧ (x.stepRecord 106).kind.toNat ≠ 4 ∧
      (∀ test ∈ walkRules x m 0 106 107, test.1) ∧ (x.stepRecord 107).kind.toNat = 4) ∧
    ((∀ test ∈ walkRules last m 0 511 511, test.1) ∧ (last.stepRecord 511).kind.toNat ≠ 4) ∧
    FirstBroken (walkRules x m 0 108 108) { result := .notChecked, index := 108 } ∧
    FirstBroken (walkRules x m 0 104 104) { result := .badSequence, index := 104, field := 9 } ∧
    ((∀ test ∈ walkRules overlap m 0 103 103, test.1) ∧ (∀ test ∈ walkRules overlap m 0 103 104, test.1) ∧
      FirstBroken (walkRules overlap m 0 103 105) { result := .badSequence, index := 105, field := 9 }) ∧
    FirstBroken (walkRules deep m 0 103 106) { result := .badSequence, index := 106, field := 9 } ∧
    FirstBroken (walkRules unmapped m 0 106 106) { result := .badValue, index := 106, field := 11, position := 8 } ∧
    FirstBroken (walkRules x m 2 100 100) { result := .badSequence, index := 100, field := 1 } ∧
    FirstBroken (walkRules x m 2 102 102) { result := .badSequence, index := 102, field := 1 } ∧
    FirstBroken (walkRules claims m 0 107 107) { result := .badSequence, index := 107, field := 12 } := by
  exact ⟨le_refl _, ⟨passes_of 0 (by decide +kernel), by decide +kernel, passes_of 1 (by decide +kernel), by decide +kernel⟩,
    ⟨passes_of 0 (by decide +kernel), by decide +kernel⟩, broken_of 0 (by decide +kernel), broken_of 0 (by decide +kernel),
    ⟨passes_of 0 (by decide +kernel), passes_of 1 (by decide +kernel), broken_of 2 (by decide +kernel)⟩,
    broken_of 3 (by decide +kernel), broken_of 0 (by decide +kernel), broken_of 0 (by decide +kernel),
    broken_of 0 (by decide +kernel), broken_of 0 (by decide +kernel)⟩

/-- Chamber A held from RUNNING at an elapsed time, before a step with a gas flow of load 120, with an arbiter of budget 500 and
chamber D running. -/
def resumePart (step : StepRecord) (elapsed : Nat) (line : LineState) (allowance others : Nat) : State :=
  let record : HoldRecord :=
    { heldFrom := .running, step := 40, elapsed := elapsed, loops := [], startTable := Vector.replicate 16 0
      outputTable := Vector.replicate 16 0, mode := .continue }
  engineAt 0 { state := .held, range := some (40, 41), step := 40, sources := { controller := true }, hold := some record }
    (engineAt 3 { state := .running, range := some (40, 41), timer := some 900000 }
      (stepsAt [(40, { step with entries := (Vector.replicate 8 {}).set 0 (entry 2 3000 1) })]
        (arbiterAt
          { line := line, budget := 500, allowance := #v[allowance, 0, 0, 0], reservation := #v[allowance, 0, 0, others] }
          { heldStep with ring := {}, plant := part.plant })))

/-- The forms of the boundary below. -/
def resumeForms : List (Nat × LineState × Nat × Nat) :=
  [(0, .free, 120, 0), (3000000, .free, 120, 0), (0, .settling 5, 120, 0), (0, .free, 50, 381), (0, .free, 50, 380),
   (0, .free, 50, 0)]

theorem resumePart_safe (q : Nat × LineState × Nat × Nat) (h : q ∈ resumeForms) (step : StepRecord) :
    (resumePart step q.1 q.2.1 q.2.2.1 q.2.2.2).Safe :=
  show (resumePart {} q.1 q.2.1 q.2.2.1 q.2.2.2).Safe from safe_of
    (by revert q
        unfold Plant.WithinBudget Plant.GrowthWaits Plant.QueueWaits Plant.HolderActive Plant.PermitsFollow
          Plant.NoticesCounted Plant.ReservationsSettled
        decide +kernel)
    (by revert q; decide +kernel)

/-- The boundary of a step taken up after a hold: END; a step without the line, with time left and without, TIMED and with each
timeout action; the line FREE and settling for a step that claims it; growth that waits, growth served at once, and a load that never
fits. -/
theorem witness_ResumesBoundary :
    let at_ (s : State) : Plant :=
      s.plant.setEngine 0 ((s.engine 0).leaving s.ctx (((s.engine 0).hold).getD
        { heldFrom := .waiting, step := 0, elapsed := 0, loops := [], startTable := Vector.replicate 16 0
          outputTable := Vector.replicate 16 0, mode := .continue }))
    let wanted (s : State) : Nat := requestedReservation s.ctx 0 (at_ s)
    let plain := checked (timed 30000)
    let deadline (action : Nat) : StepRecord :=
      { check := .checked, kind := 1#8, timeout := BitVec.ofNat 8 action, duration := 30000, count := 1 }
    let claiming : StepRecord := { plain with claims := 1#8 }
    (∀ q ∈ resumeForms, let s := resumePart plain q.1 q.2.1 q.2.2.1 q.2.2.2
      s.Takes (req 1 0 [0]) ∧ (req 1 0 [0]).Only 0 ∧ (s.engine 0).state = .held ∧ (s.engine 0).hold.isSome = true ∧
      (s.engine 0).sources.guard = false ∧ wanted s = 120) ∧
    ((resumePart (checked endRecord) 0 .free 120 0).stepRecord 40).isEnd = true ∧
    (let s := resumePart plain 0 .free 120 0
     wanted s = (at_ s).reservation 0 ∧ (s.stepRecord 40).isEnd = false ∧ (s.stepRecord 40).claimsRoughing = false ∧
       ((at_ s).engine 0).hold.map HoldRecord.takenUp = some 0 ∧ (s.stepRecord 40).dwell = 3000000) ∧
    ((resumePart plain 3000000 .free 120 0).engine 0).hold.map HoldRecord.takenUp = some 3000000 ∧
    (∀ a ∈ [(1, TimeoutAction.toSafe), (2, .toHold), (3, .toAdvance)],
      let s := resumePart (deadline a.1) 3000000 .free 120 0
      (s.stepRecord 40).isConditioned = true ∧ (s.stepRecord 40).timeoutAction = some a.2 ∧
        (s.stepRecord 40).dwell = 3000000) ∧
    ((resumePart claiming 0 .free 120 0).stepRecord 40).claimsRoughing = true ∧
    (resumePart claiming 0 (.settling 5) 120 0).plant.arbiter.line ≠ .free ∧
    (let p := at_ (resumePart plain 0 .free 50 381)
     p.reservation 0 < 120 ∧ otherAllowances p 0 = 0 ∧ p.arbiter.growth = [] ∧
       headFits { p with arbiter := { p.arbiter with growth := [⟨0, 120⟩] } } ⟨0, 120⟩ = false ∧
       headStuck { p with arbiter := { p.arbiter with growth := [⟨0, 120⟩] } } ⟨0, 120⟩ = false) ∧
    (let p := at_ (resumePart plain 0 .free 50 380)
     p.arbiter.growth = [] ∧ 120 + otherReservations p 0 ≤ p.arbiter.budget) ∧
    (let s := arbiterAt { budget := 119, allowance := #v[50, 0, 0, 0], reservation := #v[50, 0, 0, 0] }
       (resumePart plain 0 .free 50 0)
     (at_ s).arbiter.budget < wanted s + otherAllowances (at_ s) 0) := by
  unfold State.Takes Request.Only; decide +kernel

/-- A waiting engine with its resume pending: its growth served, and the line granted to it. -/
theorem witness_ResumePending :
    let record : HoldRecord :=
      { heldFrom := .waiting, step := 0, elapsed := 0, loops := [], startTable := Vector.replicate 16 0
        outputTable := Vector.replicate 16 0, mode := .continue }
    let growing := engineAt 1 { fullBudget.engine 1 with hold := some record }
      (arbiterAt { fullBudget.plant.arbiter with budget := 335, reservation := #v[120, 40, 30, 35] } fullBudget)
    let claiming := engineAt 1 { fourChambers.engine 1 with hold := some record } fourChambers
    (growing.plant.arbiter.growth = ⟨1, 150⟩ :: [⟨2, 40⟩] ∧
      150 + otherReservations growing.plant 1 ≤ growing.plant.arbiter.budget ∧ (growing.engine 1).hold = some record ∧
      (claiming.engine 1).state = .waiting ∧ (claiming.engine 1).hold = some record ∧
      claiming.plant.arbiter.queue = [2, 3] ++ 1 :: [] ∧ claiming.plant.arbiter.line = .settling 1400000) ∧
    growing.Safe ∧ claiming.Safe :=
  ⟨by decide +kernel, safe_of
    (by unfold Plant.WithinBudget Plant.GrowthWaits Plant.QueueWaits Plant.HolderActive Plant.PermitsFollow
          Plant.NoticesCounted Plant.ReservationsSettled
        decide +kernel)
    (by decide +kernel), safe_of
    (by unfold Plant.WithinBudget Plant.GrowthWaits Plant.QueueWaits Plant.HolderActive Plant.PermitsFollow
          Plant.NoticesCounted Plant.ReservationsSettled
        decide +kernel)
    (by decide +kernel)⟩

/-- Trips of each action on chambers that are and are not SAFE, and INPUT and OFF entries at a cycle close. -/
theorem witness_Trips :
    GuardAction.note ≠ .safe ∧ GuardAction.hold ≠ .safe ∧ (heldStep.engine 0).state ≠ .safe ∧
    ((engineAt 3 { state := .safe } part).engine 3).state = .safe ∧
    ((part.setGuard 3 15 { config := { kind := .inputLow } }).guardEntry 3 15).config.kind = .inputLow ∧
    ((part.setGuard 0 0 { config := { kind := .inputHigh } }).guardEntry 0 0).config.kind = .inputHigh ∧
    (part.guardEntry 3 15).config.kind = .off ∧
    (newTrips part.guards (part.setGuard 3 15 { config := { action := .safe }, state := .tripped }).guards) =
      [(3, 15, .safe)] := by decide +kernel

/-- The arrival of a LOST ring, and one whose window is judged and rejected (mean 2000 against N = 1000). -/
theorem witness_ArrivalForms :
    let full : State :=
      { part with now := 128000, ring := { state := .training, lastArrival := some 126000, count := 63, sum := 126000 } }
    ({ part with ring := { state := .lost } } : State).ring.state = .lost ∧ part.ring.state ≠ .lost ∧
    (part.ring.arrive part.now).2 = none ∧ (full.ring.arrive full.now).2 = some 2000 := by decide +kernel

/-- The forms of a channel's words and of a grace state: every kind with and without a pair, sizes at 1, a stale limit of 1; an entry
that is no DEVIATION, one whose source has no pair, one lapsed to the microsecond, and one not. -/
theorem witness_ChannelAndGraceForms :
    let source : ChannelRecord := { kind := .flowRead, pair := some 2 }
    let s := channelsAt 0 [(2, gasFlow), (3, source), (4, { source with pair := none })] { part with now := 2000000 }
    let e : GuardEntry := { config := { kind := .deviation, source := 3, grace := 2000 } }
    let r := req 0 0 [11, 1, 1, 0xFF, 15]
    ((∃ k ∈ channelKinds, r.byte 0 = k.code) ∧ r.byte 1 ≤ 1 ∧ r.byte 2 ≤ 1 ∧ r.byte 4 = 15) ∧
    (req 0 1 [0, 1, 0, 1]).number 0 2 ≠ 0 ∧ (req 0 1 [0, 1, 0, 1]).number 2 2 ≠ 0 ∧ (req 0 2 [0, 0, 1]).byte 2 ≠ 0 ∧
    e.config.kind = .deviation ∧ ({} : GuardEntry).config.kind ≠ .deviation ∧ (s.ctx.record 0 3).kind = .flowRead ∧
    (s.ctx.record 0 3).pair = some 2 ∧ (s.ctx.record 0 4).pair = none ∧ (s.ctx.record 0 2).kind ≠ .flowRead ∧
    (s.ctx.status 0 2).changed + e.config.grace * 1000 ≤ s.ctx.now ∧
    ({ s with now := 1999999 } : State).ctx.now < (s.ctx.status 0 2).changed + e.config.grace * 1000 := by decide +kernel

/-- Step records as they are read, present and absent entries, and loads at and above the cap. -/
theorem witness_StepFields :
    (timed 1).ramp = 0 ∧ ({ timed 2 with ramp := 1 } : StepRecord).ramp ≠ 0 ∧ (timed 1).claims = 0#8 ∧
    ({ timed 1 with claims := 1#8 } : StepRecord).claims = 1#8 ∧ (timed 1).loopTarget = 0xFFFF ∧
    ({ timed 1 with loopTarget := 511 } : StepRecord).loopTarget ≠ 0xFFFF ∧
    (∀ n : Fin 8, ((timed 1).entries[n]).channel.toNat ≠ 15) ∧ (entry 15 3000 1).channel.toNat = 15 ∧
    (entry 15 3000 1).ramp = 1#8 ∧ (entry 15 3000 0).ramp = 0#8 ∧
    (let s := channelsAt 0 [(2, { gasFlow with weight := 255 })] part
     stepLoad s.ctx 0 (timed 1) ((Vector.replicate 16 0).set 2 257000) = 65535 ∧ flowLoad 257000 255 = 65535 ∧
       flowLoad 257001 255 = 65536 ∧ stepLoad s.ctx 0 (timed 1) ((Vector.replicate 16 0).set 2 257001) = 65535) ∧
    setTargets [⟨2, 7, false⟩] (Vector.replicate 16 0) = (Vector.replicate 16 0).set 2 7 := by decide +kernel

/-- CHECK on the faulty block of section 2.4 and on records that break the first and the tenth rule. -/
theorem witness_CheckFields :
    let at_ (i : Nat) := faultyBlock.stepRecord i
    FirstBroken (checkRules 201 (at_ 201)) (3, 0) ∧ FirstBroken (checkRules 202 (at_ 202)) (11, 3) ∧
    FirstBroken (checkRules 0 { timed 1 with kind := 5#8 }) (1, 0) ∧
    FirstBroken (checkRules 511 { timed 1 with loopTarget := 511 }) (10, 0) :=
  ⟨(checkFault_iff _ _ _).1 (by decide +kernel), (checkFault_iff _ _ _).1 (by decide +kernel),
   (checkFault_iff _ _ _).1 (by decide +kernel), (checkFault_iff _ _ _).1 (by decide +kernel)⟩

/-- Chamber A IDLE before a START at record 0, which sends a gas of load 120, or at its END, with chamber D running on a
reservation. -/
def startPart (budget others : Nat) : State :=
  engineAt 3 { state := .running, range := some (0, 1), timer := some 900000 }
    (stepsAt [(0, { checked (timed 100) with entries := (Vector.replicate 8 {}).set 0 (entry 2 120 0) }), (1, checked endRecord)]
      (slotsAt [(0, .channel 0 2)] (channelsAt 0 [(2, { gasFlow with weight := 1000 })]
        (arbiterAt { budget := budget, allowance := #v[50, 0, 0, 0], reservation := #v[50, 0, 0, others] } part))))

theorem startPart_safe (q : Nat × Nat) (h : q ∈ [(500, 381), (500, 380), (119, 0)]) : (startPart q.1 q.2).Safe := safe_of
  (by revert q
      unfold Plant.WithinBudget Plant.GrowthWaits Plant.QueueWaits Plant.HolderActive Plant.PermitsFollow
        Plant.NoticesCounted Plant.ReservationsSettled
      decide +kernel)
  (by revert q; decide +kernel)

/-- The outcomes of a START: END at once, growth that waits, growth served at once, and a load that never fits. -/
theorem witness_StartOutcomes :
    let r := req 1 0 [0, 0]
    let entered (s : State) (first : Nat) : Plant :=
      s.plant.setEngine 0 { s.engine 0 with range := some (first, 1), step := first, outputTable := carriedOutputs s.ctx 0 }
    let wanted (s : State) (first : Nat) : Nat := requestedReservation s.ctx 0 (entered s first)
    (∀ q ∈ [(500, 381), (500, 380), (119, 0)], let s := startPart q.1 q.2
      s.Takes r ∧ r.Only 0 ∧ (s.engine 0).state = .idle ∧ startWalk s.ctx s.slotMap 0 0 = .ok 1 ∧
        startWalk s.ctx s.slotMap 0 1 = .ok 1 ∧ wanted s 0 = 120 ∧ wanted s 1 = 50 ∧ s.plant.reservation 0 = 50 ∧
        (s.stepRecord 1).isEnd = true ∧ s.plant.arbiter.growth = []) ∧
    (let s := startPart 500 381
     let q := (entered s 0).asking s.ctx 0
     q.arbiter.growth = ⟨0, 120⟩ :: [] ∧ headFits q ⟨0, 120⟩ = false ∧ headStuck q ⟨0, 120⟩ = false) ∧
    (120 + otherReservations (startPart 500 380).plant 0 ≤ 500) ∧
    119 < 120 + otherAllowances (startPart 119 0).plant 0 := by
  unfold State.Takes Request.Only; decide +kernel

/-- A settle timer that does not run, a line that a chamber holds, a line change in reset, and a ramped channel of a RUNNING step. -/
theorem witness_QuietEvents :
    (∀ t, part.plant.arbiter.line ≠ .settling t) ∧ part.plant.arbiter.queue = [] ∧
    (arbiterAt { line := .granted 3, queue := [1] } part).plant.arbiter.line = .granted 3 ∧
    ({ part with inReset := true } : State).inReset = true ∧
    ((onePassage.engine 0).state = .running ∧ (onePassage.channel 0 2).record.owner = .sequence ∧
      ((onePassage.stepRecord 0).setpointFor 2).map (fun t => t.ramp) = some true ∧ (rampStep 3000).rampTime ≤ 600000000) := by
  refine ⟨fun t => by simp [part, State.reset], by decide +kernel⟩

/-! ### Sources lost, lines given up, and what is in use -/

/-- Chamber A with READBACK channel 0, and an entry on it that stands TRIPPED. -/
def watched : State :=
  (channelsAt 0 [(0, { kind := .readback })] part).setGuard 0 3
    { config := { kind := .valueAbove, count := 1, trip := 80, release := 50 }, state := .tripped }

/-- R105: a channel record write takes the source, the next close reads trip, putting the record right gives nothing back, and a
write of the entry does. -/
theorem test_source_lost :
    let gone := after (.channelWrite (req 0 0 [0, 0, 0, 0, 0xFF])) watched
    let back := after (.channelWrite (req 0 0 [11, 0, 0, 0, 0xFF])) gone
    let rewritten := after (.guardWrite (req 3 1 [0, 80, 0, 50])) back
    (watched.guardEntry 0 3).sourceLost = false ∧ (gone.guardEntry 0 3).sourceLost = true ∧
    ((gone.closeCycle []).guardEntry 0 3).state = .tripped ∧ (back.channel 0 0).record.kind = .readback ∧
    (back.guardEntry 0 3).sourceLost = true ∧ (rewritten.guardEntry 0 3).sourceLost = false ∧
    (rewritten.guardEntry 0 3).state = .clear := by decide +kernel

/-- An entry without its source, and a standing one that has lost it. -/
theorem witness_SourcesLost :
    let gone := after (.channelWrite (req 0 0 [0, 0, 0, 0, 0xFF])) watched
    (gone.channel 0 0).record.kind.isReadback = false ∧ (gone.guardEntry 0 3).config.kind = .valueAbove ∧
    (gone.guardEntry 0 3).sourceLost = true ∧ (gone.guardEntry 0 3).state.standing = true ∧
    (watched.channel 0 0).record.kind.isReadback = true := by decide +kernel

/-- R122: with settle time 500 ms the line of chamber A is SETTLING after HOLD, ABORT, ring loss and a step that does not claim it;
R123: with settle time 0 the chamber that waits has it. -/
theorem test_line_given_up :
    let at0 := arbiterAt { ringPart.plant.arbiter with settleTime := 0 } ringPart
    let t := after (.hold (req 1 0 [])) at0
    (after (.hold (req 1 0 [])) ringPart).plant.arbiter.line = .settling 2300000 ∧
    (after (.abort (req 1 0 [])) ringPart).plant.arbiter.line = .settling 2300000 ∧
    (after .ringWatchExpiry ringPart).plant.arbiter.line = .settling 2800000 ∧
    (after (.dwellExpiry 0) (boundaryPart 50 (checked (timed 100)) (roomFor (.granted 0) 0))).plant.arbiter.line =
      .settling 900000 ∧
    t.plant.arbiter.line = .granted 1 ∧ (t.engine 1).state = .running := by decide +kernel

/-- A chamber with the line and a settle time, at a command, at ring loss and at a boundary that gives the line up. -/
theorem witness_LineGivenUp :
    (let s := boundaryPart 50 (checked (timed 100)) (roomFor (.granted 0) 0)
     s.plant.arbiter.line = .granted 0 ∧ s.plant.arbiter.settleTime ≠ 0 ∧ (s.stepRecord 1).claimsRoughing = false ∧
       ringPart.plant.arbiter.line = .granted 0 ∧ ringPart.plant.arbiter.settleTime ≠ 0) ∧
    (boundaryPart 50 (checked (timed 100)) (roomFor (.granted 0) 0)).Safe :=
  ⟨by decide +kernel,
   safe_of
    (by unfold Plant.WithinBudget Plant.GrowthWaits Plant.QueueWaits Plant.HolderActive Plant.PermitsFollow
          Plant.NoticesCounted Plant.ReservationsSettled
        decide +kernel)
    (by decide +kernel)⟩

/-- R141: a kind of another protocol, n outside its range, a wrong check, and a length that n does not give. -/
theorem test_frame_classes :
    let f := oneSlot directionOut 9 []
    classify directionOut ({ f with kind := 0xC4#8 } : Frame).bytes = .foreign ∧
    classify directionOut ({ f with slots := [] } : Frame).bytes = .foreign ∧
    classify directionOut (f.bytes.set 13 0#8) = .bad ∧
    (let body := f.body.set 4 2#8
     classify directionOut (body ++ be2 (crc16 body).toNat) = .bad) := by decide +kernel

/-- Chamber A running records 40 and 41, both CHECKED. -/
def usedPart : State := stepsAt [(41, checked endRecord)] heldStep

theorem usedPart_safe : usedPart.Safe := safe_of
  (by unfold Plant.WithinBudget Plant.GrowthWaits Plant.QueueWaits Plant.HolderActive Plant.PermitsFollow
        Plant.NoticesCounted Plant.ReservationsSettled
      decide +kernel)
  (by decide +kernel)

theorem usedPart_ranges : usedPart.RangesChecked := by
  intro c first last h i h1 h2
  have k : ∀ c : Chamber, ∀ q ∈ (usedPart.engine c).range, q = (40, 41) := by decide +kernel
  have hq := k c (first, last) (by rw [h]; rfl)
  cases hq
  have : i = 40 ∨ i = 41 := by omega
  rcases this with rfl | rfl <;> decide +kernel

/-- A write of record 40 by a command and by two entries of a frame, chamber A RUNNING at the taking of each (R39, R40). -/
theorem witness_KeepsInUse :
    let write := record 1 2 9 3 40 0 [4]
    let frame := Instr.outboundPassage 1900000 (oneSlot directionOut 9 [write, write]).bytes
    (usedPart.recordStates frame).length = 2 ∧
    (∀ i ∈ [Instr.stepWrite (req 40 0 [4]), frame], ∀ u ∈ usedPart.recordStates i,
      (u.engine 0).state = .running ∧ (u.engine 0).range = some (40, 41)) ∧
    usedPart.pool[40].kind = 0#8 ∧ (after frame usedPart).pool[40] = usedPart.pool[40] := by decide +kernel

/-- With no growth queued and a settle time, ring loss holds a chamber that waits for the line. -/
theorem witness_RingLossServesNone :
    ringPart.plant.arbiter.growth = [] ∧ ringPart.plant.arbiter.line = .granted 0 ∧ ringPart.plant.arbiter.settleTime ≠ 0 ∧
      ((after .ringWatchExpiry ringPart).engine 1).sources = { ring := true } := by decide +kernel

/-- R150: A gives its reservation back in its turn, which serves the request of B, whose step is END, before B has its own. -/
theorem test_ring_loss_serves :
    let s := stepsAt [(0, checked endRecord)] (arbiterAt { fullBudget.plant.arbiter with budget := 320 } fullBudget)
    let t := after .ringWatchExpiry { s with ring := { s.ring with state := .tracking, watch := some 5 } }
    ((t.engine 0).state, (t.engine 1).state, (t.engine 3).state) = (.held, .done, .held) := by decide +kernel

/-- A word with full scale and word full scale at their least and lo and hi at their ends. -/
theorem witness_ChannelWriteInRange :
    (req 0 1 [0, 1, 0, 1, 0, 0, 255, 255]).channelRecord 1 {} = .ok { fullScale := 1, wordFullScale := 1, hi := 65535 } ∧
      ({} : ChannelRecord).InRange := ⟨rfl, none_inRange⟩

end Sys2Proof.Tests
end

/-! ### Every command keeps the part orderly (R1, R146, R149, R154, R167) -/
section
namespace Sys2Proof.Machine

namespace State.Orderly

variable {s : State}

theorem advanceTo (h : s.Orderly) (time : Nat) : (s.advanceTo time).Orderly :=
  ⟨h.slots, h.responses, h.address, h.ring, h.watch, h.threshold⟩

theorem sendDown (h : s.Orderly) (bytes : List Byte) : (s.sendDown bytes).Orderly :=
  ⟨h.slots, h.responses, h.address, h.ring, h.watch, h.threshold⟩

theorem sendUp (h : s.Orderly) (bytes : List Byte) : (s.sendUp bytes).Orderly :=
  ⟨h.slots, h.responses, h.address, h.ring, h.watch, h.threshold⟩

theorem setPending (h : s.Orderly) (waiting : List Instr) : ({ s with pending := waiting } : State).Orderly :=
  ⟨h.slots, h.responses, h.address, h.ring, h.watch, h.threshold⟩

theorem setInput (h : s.Orderly) (l : Line) (i : InputLine) : (s.setInput l i).Orderly :=
  ⟨h.slots, h.responses, h.address, h.ring, h.watch, h.threshold⟩

theorem setGuard (h : s.Orderly) (c : Chamber) (g : GuardIndex) (e : GuardEntry) : (s.setGuard c g e).Orderly :=
  ⟨h.slots, h.responses, h.address, h.ring, h.watch, h.threshold⟩

theorem onPlant (h : s.Orderly) (f : Ctx → Plant → Plant) : (s.onPlant f).Orderly := (State.Serves.onPlant s f).orderly h

theorem badFrame (h : s.Orderly) : s.badFrame.Orderly :=
  ⟨h.slots, h.responses, h.address, h.ring, h.watch, h.threshold⟩

theorem loseRing (h : s.Orderly) : s.loseRing.Orderly := by
  have lost := Ring.Orderly.lost ⟨h.ring, h.watch⟩
  exact ⟨h.slots, h.responses, h.address, lost.range, lost.watch, h.threshold⟩

theorem acceptLevel (h : s.Orderly) (l : Line) : (s.acceptLevel l).Orderly :=
  (State.Serves.guardPass _ _ _).orderly (h.setInput l _)

theorem changeLevel (h : s.Orderly) (l : Line) (high : Bool) : (s.changeLevel l high).Orderly := by
  unfold State.changeLevel
  dsimp only
  split
  · exact h
  · split
    · exact h.setInput _ _
    · split
      · exact h.setInput _ _
      · split
        · exact (h.setInput _ _).acceptLevel l
        · exact h.setInput _ _

/-- The part after power-on reset is orderly (R1, R146, R152, R154, R167). -/
theorem reset : State.reset.Orderly where
  slots i j _ hi := absurd (by simp [State.reset]) hi
  responses := Nat.zero_le _
  address := by unfold State.AddressLegal; decide
  ring := by unfold Ring.InRange; decide
  watch := by unfold Ring.WatchFollows; decide
  threshold := by decide

theorem powerOn (s : State) : s.powerOn.Orderly :=
  ⟨reset.slots, reset.responses, reset.address, reset.ring, reset.watch, reset.threshold⟩

theorem endReset (h : s.Orderly) : s.endReset.Orderly :=
  ⟨h.slots, h.responses, h.address, h.ring, h.watch, h.threshold⟩

/-- Whatever the class of a frame received outbound (R142, R143). -/
theorem outboundPassage (h : s.Orderly) (time : Nat) (bytes : List Byte) {t : State}
    (ht : execOutboundPassage time bytes s = .next t) : t.Orderly := by
  unfold execOutboundPassage at ht
  injection ht with ht
  subst ht
  split
  · exact h.sendDown _
  · split
    · exact ((h.advanceTo time).badFrame).sendDown _
    · exact (h.advanceTo time).sendDown _
    · next f _ => exact ((h.advanceTo time).takeOutbound f).sendDown _

/-- Whatever the class of a frame received on its return (R142, R144). -/
theorem returnPassage (h : s.Orderly) (time : Nat) (bytes : List Byte) {t : State}
    (ht : execReturnPassage time bytes s = .next t) : t.Orderly := by
  unfold execReturnPassage at ht
  injection ht with ht
  subst ht
  split
  · exact h.sendUp _
  · split
    · exact ((h.advanceTo time).badFrame).sendUp _
    · exact (h.advanceTo time).sendUp _
    · next f _ => exact ((h.advanceTo time).takeReturn f).sendUp _

/-- Every command keeps the part orderly. -/
theorem exec (h : s.Orderly) {t : State} : ∀ i : Instr, exec i s = .next t → t.Orderly
  | .outboundPassage time bytes => h.outboundPassage time bytes
  | .returnPassage time bytes => h.returnPassage time bytes
  | .read _ _ => by rintro ⟨⟩; exact h.takeRecord _ (.refl s)
  | .write table _ => by rintro ⟨⟩; exact h.takeRecord _ (.writeTable s table.toNat)
  | .slotMapWrite _ => by rintro ⟨⟩; exact h.takeRecord _ (.writeSlotMap s)
  | .channelWrite _ => by rintro ⟨⟩; exact h.takeRecord _ (.writeChannel s)
  | .stepWrite _ => by rintro ⟨⟩; exact h.takeRecord _ (.writeStep s)
  | .guardWrite _ => by rintro ⟨⟩; exact h.takeRecord _ (.writeGuard s)
  | .levelWrite _ => by rintro ⟨⟩; exact h.takeRecord _ (.writeLevel s)
  | .inputWrite _ => by rintro ⟨⟩; exact h.takeRecord _ (.writeInput s)
  | .arbiterWrite _ => by rintro ⟨⟩; exact h.takeRecord _ (.writeArbiter s)
  | .ringWrite _ => by rintro ⟨⟩; exact h.takeRecord _ (.writeRing s)
  | .noticeWrite _ => by rintro ⟨⟩; exact h.takeRecord _ (.writeNotice s)
  | .stepCheck _ => by rintro ⟨⟩; exact h.takeRecord _ (.checkSteps s)
  | .levelCheck _ => by rintro ⟨⟩; exact h.takeRecord _ (.checkLevels s)
  | .checkNoObject table _ => by rintro ⟨⟩; exact h.takeRecord _ (.checkTable s table.toNat)
  | .start _ => by rintro ⟨⟩; exact h.takeRecord _ (.commandStart s)
  | .hold _ => by rintro ⟨⟩; exact h.takeRecord _ (.commandHold s)
  | .resume _ => by rintro ⟨⟩; exact h.takeRecord _ (.commandResume s)
  | .abort _ => by rintro ⟨⟩; exact h.takeRecord _ (.commandAbort s)
  | .release _ => by rintro ⟨⟩; exact h.takeRecord _ (.commandRelease s)
  | .clear _ => by rintro ⟨⟩; exact h.takeRecord _ (.commandClear s)
  | .lock _ => by rintro ⟨⟩; exact h.takeRecord _ (.commandLock s)
  | .assign _ => by rintro ⟨⟩; exact h.takeRecord _ (.commandAssign s)
  | .restartPart _ => by rintro ⟨⟩; split; exacts [h.softReset, h]
  | .broadcast command _ => by rintro ⟨⟩; exact (State.Serves.broadcast s command.toNat).orderly h
  | .growthServed _ => by rintro ⟨⟩; split; exacts [h, by split; exacts [h.onPlant _, h]]
  | .lineGranted _ => by rintro ⟨⟩; split; exacts [h, by split; exacts [(h.advanceTo _).onPlant _, h]]
  | .dwellExpiry _ => by rintro ⟨⟩; split; exacts [h, by split; exacts [(h.advanceTo _).onPlant _, h]]
  | .settleExpiry => by rintro ⟨⟩; split; exacts [(h.advanceTo _).onPlant _, h, h]
  | .ringWatchExpiry => by rintro ⟨⟩; split; exacts [h, by split; exacts [(h.advanceTo _).loseRing, h]]
  | .inputLevelChange time l high => by rintro ⟨⟩; split; exacts [h.setInput _ _, (h.advanceTo time).changeLevel l high]
  | .inputAcceptance l => by rintro ⟨⟩; split; exacts [h, (h.advanceTo _).acceptLevel l]
  | .graceLapse _ _ => by rintro ⟨⟩; split; exacts [h, (h.advanceTo _).setGuard _ _ _]
  | .powerOnReset _ => by rintro ⟨⟩; split; exacts [powerOn s, h]
  | .resetEnd => by rintro ⟨⟩; split; exacts [h.endReset, h]

end State.Orderly

/-- Settles O4: an empty queue idles, and every command keeps the part orderly. -/
theorem stepKeepsOrderly : Obligations.StepKeepsOrderly := by
  intro s t h ht
  unfold step at ht
  split at ht
  · injection ht with ht
    exact ht ▸ h
  · next i rest _ => exact (h.setPending rest).exec i ht

end Sys2Proof.Machine
end

/-! ### The part after power-on reset, block by block, and the promises it meets (R152) -/
section
namespace Sys2Proof.Machine

theorem State.reset_slotMap (k : Fin 128) : State.reset.slotMap[k] = .unmapped := by simp [State.reset]

@[simp] theorem State.reset_channel (c : Chamber) (h : Chan) : State.reset.channel c h = {} := by
  simp [State.channel, State.reset]

theorem State.reset_levels (c : Chamber) : State.reset.levels[c] = {} := by simp [State.reset]

theorem State.reset_pool (i : Fin 512) : State.reset.pool[i] = {} := by simp [State.reset]

@[simp] theorem State.reset_engine (c : Chamber) : State.reset.engine c = {} := by
  simp [State.engine, Plant.engine, State.reset]

@[simp] theorem State.reset_guardEntry (c : Chamber) (g : GuardIndex) : State.reset.guardEntry c g = {} := by
  simp [State.guardEntry, State.reset]

@[simp] theorem State.reset_reservation (c : Chamber) : State.reset.plant.reservation c = 0 := by
  simp [Plant.reservation, State.reset]

@[simp] theorem State.reset_allowance (c : Chamber) : State.reset.plant.allowance c = 0 := by
  simp [Plant.allowance, State.reset]

/-- An engine at the last column of Table 3-1 is consistent. -/
theorem Engine.Consistent.initial : ({} : Engine).Consistent :=
  { sources := by decide, range := by decide, timer := by decide, awaited := by decide, held := by decide, hold := by decide }

/-- No notice is pending, and its class is that of Table 10-1 (R168). -/
theorem noticeDefaults_counted (i : NoticeIndex) :
    noticeDefaults[i].cls ≤ 3 ∧ noticeDefaults[i].pending = false ∧ noticeDefaults[i].merge = 0 := by
  revert i; decide

theorem State.Safe.reset : State.reset.Safe where
  budget := ⟨by simp, by decide⟩
  growth := ⟨List.nodup_nil, fun _ hg => nomatch hg⟩
  queue := ⟨List.nodup_nil, fun _ hc => (nomatch hc), fun _ => rfl, fun _ hl => nomatch hl⟩
  holder _ hl := nomatch hl
  cells c := by simpa using Engine.Consistent.initial
  permits c := by simp [State.reset, permitLevel, Ring.up]
  notices i := by
    obtain ⟨hcls, hpending, hmerge⟩ := noticeDefaults_counted i
    exact ⟨hcls, (if_neg (by rw [show State.reset.plant.notices[i] = noticeDefaults[i] from rfl, hpending]; simp)).mpr hmerge⟩
  settled c _ := by simp

/-- A channel record at its power-on values is within the ranges of Table 1-2 (R5). -/
theorem ChannelRecord.InRange.initial : ({} : ChannelRecord).InRange := by constructor <;> decide

/-- Records of kind NONE break no rule of R6 and R7. -/
theorem ChannelRules.initial (h : Chan) : ChannelRules (fun _ => {}) h := by
  constructor <;> simp [ChannelKind.isSetpoint, ChannelKind.isReadback, ChannelKind.single]

theorem State.RecordsSound.reset : State.reset.RecordsSound where
  ranges c first last hr := by simp at hr
  checkedSteps i hi := by rw [State.reset_pool] at hi; cases hi
  emptySteps i _ := State.reset_pool i
  checkedLevels c k hc := by rw [State.reset_levels] at hc; cases hc
  stored c h := by simpa using ChannelRecord.InRange.initial
  channels c h := by simpa using ChannelRules.initial h

theorem State.GuardsAct.reset : State.reset.GuardsAct where
  safe c g ha := by simp at ha
  hold c hs := by simp at hs

/-- Settles O7. -/
theorem resetKeepsPromises : Obligations.ResetKeepsPromises :=
  ⟨⟨.reset, .reset, .reset, .reset⟩, State.reset_slotMap, State.reset_channel, State.reset_levels, State.reset_pool,
    State.reset_engine, State.reset_guardEntry,
    fun c => ⟨State.reset_allowance c, State.reset_reservation c, by simp [State.reset]⟩, rfl, rfl⟩

end Sys2Proof.Machine
end

/-! ### Rounding to the nearest, and the two conversions (R10, R11) -/
section
namespace Sys2Proof.Machine

/-- A multiple of the divisor is its own nearest. -/
theorem round_multiple {b : Nat} (q : Nat) (hb : 1 ≤ b) : (q * b + b / 2) / b = q := by
  rw [Nat.add_comm, Nat.add_mul_div_right _ _ hb, Nat.div_eq_of_lt (by omega), Nat.zero_add]

/-- What is at most a multiple of the divisor rounds to at most the factor. -/
theorem round_le {a b q : Nat} (hb : 1 ≤ b) (h : a ≤ q * b) : (a + b / 2) / b ≤ q :=
  (Nat.div_le_div_right (Nat.add_le_add_right h _)).trans_eq (round_multiple q hb)

theorem wordToValue_of_le {r : ChannelRecord} {w : Nat} (h : w ≤ r.wordFullScale) :
    wordToValue r w = (w * r.fullScale + r.wordFullScale / 2) / r.wordFullScale := if_pos h

theorem wordToValue_of_lt {r : ChannelRecord} {w : Nat} (h : r.wordFullScale < w) : wordToValue r w = r.fullScale :=
  if_neg (Nat.not_le.2 h)

/-- A value read from a word is within full scale (R10). -/
theorem wordToValue_le {r : ChannelRecord} (hw : 1 ≤ r.wordFullScale) (w : Nat) : wordToValue r w ≤ r.fullScale := by
  rcases Nat.lt_or_ge r.wordFullScale w with h | h
  · exact (wordToValue_of_lt h).le
  · rw [wordToValue_of_le h]
    exact round_le hw (by rw [Nat.mul_comm r.fullScale]; exact Nat.mul_le_mul_right _ h)

/-- The word of a value within full scale is within word full scale (R11). -/
theorem valueToWord_le {r : ChannelRecord} (hf : 1 ≤ r.fullScale) {v : Nat} (h : v ≤ r.fullScale) :
    valueToWord r v ≤ r.wordFullScale :=
  round_le hf (by rw [Nat.mul_comm r.wordFullScale]; exact Nat.mul_le_mul_right _ h)

/-- A value scaled up, rounded, scaled down and rounded is the value: the first rounding moves it by at most half of the coarser
scale, which the second takes back. -/
theorem round_round {f w : Nat} (hf : 1 ≤ f) (hfw : f ≤ w) (v : Nat) : ((v * w + f / 2) / f * f + w / 2) / w = v := by
  rcases Nat.eq_or_lt_of_le hfw with rfl | hlt
  · rw [round_multiple v hf, round_multiple v hf]
  · have split := Nat.div_add_mod' (v * w + f / 2) f
    have rest := Nat.mod_lt (v * w + f / 2) hf
    generalize (v * w + f / 2) / f * f = scaled at split ⊢
    apply Nat.div_eq_of_lt_le
    · omega
    · rw [Nat.add_mul]; omega

/-- Settles O52. -/
theorem conversionsRoundToNearest : Obligations.ConversionsRoundToNearest := by
  intro r hf hw
  have ends : ∀ {b : Nat}, 1 ≤ b → ∀ a, (0 * a + b / 2) / b = 0 := fun hb a => by
    simpa using round_multiple 0 hb
  refine ⟨fun w => wordToValue_of_le, fun w => wordToValue_of_lt, ?_, ?_, wordToValue_le hw, ends hf _, ?_,
    fun v hv => ⟨rfl, valueToWord_le hf hv⟩, fun hfw v hv => ?_⟩
  · rw [wordToValue_of_le (Nat.zero_le _)]
    exact ends hw _
  · rw [wordToValue_of_le le_rfl, Nat.mul_comm]
    exact round_multiple r.fullScale hw
  · unfold valueToWord
    rw [Nat.mul_comm]
    exact round_multiple r.wordFullScale hf
  · rw [wordToValue_of_le (valueToWord_le hf hv)]
    exact round_round hf hfw v

end Sys2Proof.Machine
end

/-! ### A record that is taken, by what its command answers (R155, R160) -/
section
namespace Sys2Proof.Machine

variable {s t : State} {r : Request} {command : State → State × Answer}

theorem State.Takes.answers_noObject (h : s.Takes r) (code : Nat) (hc : command s = (s, noObject)) :
    s.takeRecord code r command = s.answered code r .noObject zeroData := by
  rw [h.takeRecord, hc]; rfl

theorem State.Takes.answers_refused (h : s.Takes r) {result : Result} {table : Nat}
    (hc : command s = (s, s.refuseWith result table r)) : s.takeRecord codeWrite r command = s.refused result table r := by
  rw [h.takeRecord, hc]; rfl

theorem State.Takes.answers_badField (h : s.Takes r) {field : Nat} (hc : command s = (s, badField field)) :
    s.takeRecord codeWrite r command = s.refusedField r field := by
  rw [h.takeRecord, hc]; rfl

theorem State.Takes.answers_stored (h : s.Takes r) {table : Nat} (hc : command s = t.acceptWrite table r) :
    s.takeRecord codeWrite r command = t.stored table r := by
  rw [h.takeRecord, hc]; rfl

end Sys2Proof.Machine
end

/-! ### WRITE on SLOT_MAP (R2, Table 1-1) -/
section
namespace Sys2Proof.Machine

variable {s : State} {r : Request}

theorem State.allIdle_iff : s.allIdle = true ↔ ∀ c : Chamber, (s.engine c).state = .idle := by
  simp only [State.allIdle, chambers, List.all_cons, List.all_nil, Bool.and_true, Bool.and_eq_true, beq_iff_eq]
  exact ⟨fun ⟨h0, h1, h2, h3⟩ c => by fin_cases c <;> assumption, fun h => ⟨h 0, h 1, h 2, h 3⟩⟩

/-! #### The assignment a request carries -/

theorem Request.slotUse_unmapped (h : r.byte 0 = 0) : r.slotUse = .ok .unmapped := by simp [Request.slotUse, h]

theorem Request.slotUse_badKind (h : 2 < r.byte 0) : r.slotUse = .error 1 := by
  unfold Request.slotUse
  split
  · omega
  · omega
  · omega
  · rfl

theorem Request.slotUse_badChamber (h1 : 1 ≤ r.byte 0) (h2 : r.byte 0 ≤ 2) (hc : 3 < r.byte 1) : r.slotUse = .error 2 := by
  have kind : r.byte 0 = 1 ∨ r.byte 0 = 2 := by omega
  have range : ¬r.byte 1 < 4 := by omega
  rcases kind with kind | kind <;> simp [Request.slotUse, kind, range]

theorem Request.slotUse_badChannel (h1 : r.byte 0 = 1) (hc : r.byte 1 ≤ 3) (hh : 15 < r.byte 2) : r.slotUse = .error 3 := by
  have chamber : r.byte 1 < 4 := by omega
  have range : ¬r.byte 2 < 16 := by omega
  simp [Request.slotUse, h1, chamber, range]

theorem Request.slotUse_channel {c : Chamber} {h : Chan} (h1 : r.byte 0 = 1) (hc : r.byte 1 = c.val) (hh : r.byte 2 = h.val) :
    r.slotUse = .ok (.channel c h) := by simp [Request.slotUse, h1, hc, hh]

theorem Request.slotUse_report {c : Chamber} (h2 : r.byte 0 = 2) (hc : r.byte 1 = c.val) : r.slotUse = .ok (.report c) := by
  simp [Request.slotUse, h2, hc]

/-! #### The slot that already holds an assignment -/

theorem duplicateSlot_eq_none {slotMap : Vector SlotUse 128} {k : Fin 128} {u : SlotUse}
    (h : ∀ j : Fin 128, j ≠ k → slotMap[j] = u → u = .unmapped) : duplicateSlot slotMap k.val u = none := by
  unfold duplicateSlot
  split
  · rfl
  · next hu =>
    rw [Option.map_eq_none_iff, List.find?_eq_none]
    rintro ⟨v, j⟩ hmem hfound
    rw [List.mem_zipIdx_iff_getElem?, List.getElem?_eq_some_iff] at hmem
    obtain ⟨hj, hv⟩ := hmem
    simp only [Bool.and_eq_true, beq_iff_eq, bne_iff_ne] at hfound
    rw [Vector.length_toList] at hj
    exact hu (h ⟨j, hj⟩ (fun hk => hfound.2 (congrArg Fin.val hk)) ((by simpa using hv : slotMap[j] = v).trans hfound.1))

theorem duplicateSlot_eq_some {slotMap : Vector SlotUse 128} {j k : Fin 128} {u : SlotUse} (hjk : j ≠ k) (hu : u ≠ .unmapped)
    (hj : slotMap[j] = u) (unique : ∀ i : Fin 128, slotMap[i] = u → i = j) :
    duplicateSlot slotMap k.val u = some j.val := by
  unfold duplicateSlot
  rw [if_neg hu]
  have found : (slotMap.toList.zipIdx.find? fun e => e.1 == u && e.2 != k.val).isSome = true := by
    rw [List.find?_isSome]
    refine ⟨(u, j.val), ?_, by simpa using fun h => hjk (Fin.ext h)⟩
    rw [List.mem_zipIdx_iff_getElem?]
    simpa using hj
  obtain ⟨⟨v, i⟩, he⟩ := Option.isSome_iff_exists.1 found
  have hv := List.find?_some he
  have hmem := List.mem_of_find?_eq_some he
  rw [List.mem_zipIdx_iff_getElem?, List.getElem?_eq_some_iff] at hmem
  obtain ⟨hi, hvi⟩ := hmem
  rw [Vector.length_toList] at hi
  simp only [Bool.and_eq_true, beq_iff_eq] at hv
  rw [he, Option.map_some, ← unique ⟨i, hi⟩ ((by simpa using hvi : slotMap[i] = v).trans hv.1)]

/-! #### The outcomes -/

theorem writeSlotMap_locked (hl : s.lock = true) : writeSlotMap r s = (s, s.refuseWith .locked 1 r) := if_pos hl

theorem writeSlotMap_noObject (hl : s.lock = false) (h : 128 ≤ r.index.toNat ∨ r.word.toNat ≠ 0) :
    writeSlotMap r s = (s, noObject) := by
  have absent : ¬(r.index.toNat < 128 ∧ r.word.toNat = 0) := by omega
  simp [writeSlotMap, hl, absent]

section
variable {k : Fin 128} (hl : s.lock = false) (hk : r.index.toNat = k.val) (hw : r.word.toNat = 0)
include hl hk hw

theorem writeSlotMap_inUse (hi : s.allIdle = false) : writeSlotMap r s = (s, s.refuseWith .inUse 1 r) := by
  simp [writeSlotMap, hl, hk, hw, hi, slotMapTable]

theorem writeSlotMap_badField (hi : s.allIdle = true) {field : Nat} (hu : r.slotUse = .error field) :
    writeSlotMap r s = (s, badField field) := by
  simp [writeSlotMap, hl, hk, hw, hi, hu]

theorem writeSlotMap_duplicate (hi : s.allIdle = true) {u : SlotUse} (hu : r.slotUse = .ok u) {j : Nat}
    (hj : duplicateSlot s.slotMap k.val u = some j) :
    writeSlotMap r s = (s, { result := .duplicate, data := packData (be2 j) }) := by
  simp [writeSlotMap, hl, hk, hw, hi, hu, hj]

theorem writeSlotMap_stored (hi : s.allIdle = true) {u : SlotUse} (hu : r.slotUse = .ok u)
    (hj : duplicateSlot s.slotMap k.val u = none) : writeSlotMap r s = (s.setSlot k u).acceptWrite 1 r := by
  simp [writeSlotMap, hl, hk, hw, hi, hu, hj, slotMapTable]

end

/-- Settles O19. -/
theorem slotMapWriteOutcomes : Obligations.SlotMapWriteOutcomes := by
  intro r s h
  refine ⟨Request.slotUse_unmapped, Request.slotUse_badKind, Request.slotUse_badChamber, Request.slotUse_badChannel,
    fun c ch hc => ⟨fun h1 hh => Request.slotUse_channel h1 hc hh, fun h2 => Request.slotUse_report h2 hc⟩,
    fun hl => congrArg _ (h.answers_refused (writeSlotMap_locked hl)), fun hl =>
    ⟨fun absent => congrArg _ (h.answers_noObject _ (writeSlotMap_noObject hl absent)), fun k hk hw => ⟨?_, fun idle => ?_⟩⟩⟩
  · intro c hc
    have busy : s.allIdle = false := Bool.eq_false_iff.2 fun idle => hc (State.allIdle_iff.1 idle c)
    exact congrArg _ (h.answers_refused (writeSlotMap_inUse hl hk hw busy))
  · have idle := State.allIdle_iff.2 idle
    refine ⟨fun field hu => congrArg _ (h.answers_badField (writeSlotMap_badField hl hk hw idle hu)), fun u hu => ⟨?_, ?_⟩⟩
    · intro j hjk hmapped hj distinct
      have holder := duplicateSlot_eq_some hjk hmapped hj fun i hi =>
        distinct i j (hi.trans hj.symm) (hi ▸ hmapped)
      refine congrArg Host.Outcome.next ((h.takeRecord codeWrite (writeSlotMap r)).trans ?_)
      rw [writeSlotMap_duplicate hl hk hw idle hu holder]
    · intro free
      exact congrArg _ (h.answers_stored (writeSlotMap_stored hl hk hw idle hu (duplicateSlot_eq_none free)))

end Sys2Proof.Machine
end

/-! ### WRITE on LEVEL and INPUT (R18, R116) -/
section
namespace Sys2Proof.Machine

variable {s : State} {r : Request} (hl : s.lock = false)
include hl

theorem writeLevel_noObject (h : 4 ≤ r.index.toNat ∨ 4 < r.word.toNat) : writeLevel r s = (s, noObject) := by
  rcases h with h | h
  · simp [writeLevel, hl, Nat.not_lt.2 h]
  · simp [writeLevel, hl, h]

theorem writeLevel_readOnly {c : Chamber} (hc : r.index.toNat = c.val) (hw : r.word.toNat = 4) :
    writeLevel r s = (s, s.refuseWith .readOnly 5 r) := by
  simp [writeLevel, hl, hc, hw, levelTable]

theorem writeLevel_inUse {c : Chamber} (hc : r.index.toNat = c.val) (hw : r.word.toNat < 4)
    (busy : (s.engine c).state ≠ .idle) : writeLevel r s = (s, s.refuseWith .inUse 5 r) := by
  simp [writeLevel, hl, hc, Nat.not_lt.2 hw.le, hw.ne, busy, levelTable]

theorem writeLevel_stored {c : Chamber} (hc : r.index.toNat = c.val) (hw : r.word.toNat < 4)
    (idle : (s.engine c).state = .idle) :
    writeLevel r s = (s.setLevel c (r.levelTable r.word.toNat s.levels[c])).acceptWrite 5 r := by
  simp [writeLevel, hl, hc, Nat.not_lt.2 hw.le, hw.ne, idle, levelTable]

theorem writeInput_noObject (h : 16 ≤ r.index.toNat ∨ 1 < r.word.toNat) : writeInput r s = (s, noObject) := by
  rcases h with h | h
  · simp [writeInput, hl, Nat.not_lt.2 h]
  · simp [writeInput, hl, h]

theorem writeInput_readOnly {l : Line} (hi : r.index.toNat = l.val) (hw : r.word.toNat = 1) :
    writeInput r s = (s, s.refuseWith .readOnly 6 r) := by
  simp [writeInput, hl, hi, hw, inputTable]

theorem writeInput_stored {l : Line} (hi : r.index.toNat = l.val) (hw : r.word.toNat = 0) :
    writeInput r s = (s.setInput l { s.input l with filter := r.byte 0 }).acceptWrite 6 r := by
  simp [writeInput, hl, hi, hw, inputTable]

omit hl

/-- Settles O24. -/
theorem levelAndInputWritesStored : Obligations.LevelAndInputWritesStored := by
  refine ⟨fun r s h hl => ⟨fun absent => ?_, fun c hc => ⟨fun hw => ?_, fun hw => ⟨fun busy => ?_, fun idle => ?_⟩⟩⟩,
    fun r s h hl => ⟨fun absent => ?_, fun l hi => ⟨fun hw => ?_, fun hw => ?_⟩⟩⟩
  · exact congrArg _ (h.answers_noObject _ (writeLevel_noObject hl absent))
  · exact congrArg _ (h.answers_refused (writeLevel_readOnly hl hc hw))
  · exact congrArg _ (h.answers_refused (writeLevel_inUse hl hc hw busy))
  · exact congrArg _ (h.answers_stored (writeLevel_stored hl hc hw idle))
  · exact congrArg _ (h.answers_noObject _ (writeInput_noObject hl absent))
  · exact congrArg _ (h.answers_refused (writeInput_readOnly hl hi hw))
  · exact congrArg _ (h.answers_stored (writeInput_stored hl hi hw))

end Sys2Proof.Machine
end

/-! ### CHECK on LEVEL (R19, R161) -/
section
namespace Sys2Proof.Machine

theorem firstNotRising_eq_none (k : Nat) (l : List Nat) (rising : ∀ (j : Nat) (_ : j + 1 < l.length), l[j] < l[j + 1]) :
    firstNotRising k l = none := by
  induction l generalizing k with
  | nil => rfl
  | cons a rest ih =>
    cases rest with
    | nil => rfl
    | cons b rest =>
      rw [firstNotRising, if_pos (show a < b from rising 0 (by simp))]
      exact ih (k + 1) fun j hj => rising (j + 1) (by simpa using hj)

theorem firstNotRising_eq_some (k : Nat) (l : List Nat) (j : Nat) (hj : j + 1 < l.length) (falls : ¬l[j] < l[j + 1])
    (rising : ∀ (i : Nat) (_ : i < j), l[i] < l[i + 1]) : firstNotRising k l = some (k + j + 1) := by
  induction l generalizing k j with
  | nil => simp at hj
  | cons a rest ih =>
    cases rest with
    | nil => simp at hj
    | cons b rest =>
      cases j with
      | zero => rw [firstNotRising, if_neg (by simpa using falls), Nat.add_zero]
      | succ j =>
        rw [firstNotRising, if_pos (show a < b from rising 0 (Nat.succ_pos j)),
          ih (k + 1) j (by simpa using hj) (by simpa using falls) fun i hi => rising (i + 1) (Nat.succ_lt_succ hi)]
        congr 1
        omega

/-- The thresholds of a level table rise strictly (R18). -/
def LevelTable.Rises (t : LevelTable) : Prop := ∀ k : Fin 14, t.thresholds[k.val] < t.thresholds[k.val + 1]

theorem LevelTable.Rises.firstNotRising {t : LevelTable} (h : t.Rises) :
    Machine.firstNotRising 1 t.thresholds.toList = none :=
  firstNotRising_eq_none _ _ fun j hj => by
    simp only [Vector.length_toList] at hj
    simpa using h ⟨j, by omega⟩

theorem LevelTable.firstNotRising_of_falls {t : LevelTable} {k : Fin 14}
    (falls : ¬t.thresholds[k.val] < t.thresholds[k.val + 1])
    (rising : ∀ j : Fin 14, j < k → t.thresholds[j.val] < t.thresholds[j.val + 1]) :
    firstNotRising 1 t.thresholds.toList = some (k.val + 2) := by
  rw [firstNotRising_eq_some 1 _ k.val (by simp only [Vector.length_toList]; omega) (by simpa using falls)
    fun i hi => by simpa using rising ⟨i, by omega⟩ hi]
  congr 1
  omega

/-- The level tables of `count` chambers from `first` on CHECKED. -/
def State.levelsChecked (s : State) (first count : Nat) : State :=
  { s with levels := Vector.ofFn fun c : Fin 4 =>
    if first ≤ c.val ∧ c.val < first + count then { s.levels[c] with checked := true } else s.levels[c] }

theorem State.levelsChecked_zero (s : State) (first : Nat) : s.levelsChecked first 0 = s := by
  have none : ∀ c : Fin 4, ¬(first ≤ c.val ∧ c.val < first + 0) := fun c h => by omega
  simp only [State.levelsChecked, none, if_false]
  congr 1
  ext c hc
  simp

theorem State.levelsChecked_succ (s : State) (c : Chamber) (count : Nat) :
    (s.setLevel c { s.levels[c] with checked := true }).levelsChecked (c.val + 1) count =
      s.levelsChecked c.val (count + 1) := by
  simp only [State.levelsChecked, State.levels_setLevel]
  unfold State.setLevel
  congr 2
  funext d
  by_cases hcd : c = d
  · subst hcd
    rw [if_pos rfl, if_neg (by omega), if_pos (by omega)]
  · have hval : c.val ≠ d.val := fun h => hcd (Fin.ext h)
    rw [if_neg hcd]
    congr 1
    exact propext ⟨fun h => by omega, fun h => by omega⟩

/-- The examination passes over a run of rising tables. -/
theorem checkLevelTables_rising (m n first passed : Nat) (s : State) (hm : first + m ≤ 4)
    (rises : ∀ c : Chamber, first ≤ c.val → c.val < first + m → s.levels[c].Rises) :
    checkLevelTables (m + n) first passed s =
      checkLevelTables n (first + m) (passed + m) (s.levelsChecked first m) := by
  induction m generalizing first passed s with
  | zero => rw [State.levelsChecked_zero, Nat.zero_add, Nat.add_zero, Nat.add_zero]
  | succ m ih =>
    have hfirst : first < 4 := by omega
    have passes := (rises ⟨first, hfirst⟩ le_rfl (by simp)).firstNotRising
    rw [Nat.succ_add, checkLevelTables, dif_pos hfirst]
    simp only [passes]
    rw [ih (first + 1) (passed + 1) _ (by omega) fun c h1 h2 => ?_, s.levelsChecked_succ ⟨first, hfirst⟩ m]
    · congr 1 <;> omega
    · have hne : (⟨first, hfirst⟩ : Chamber) ≠ c := fun h => by rw [← h] at h1; simp at h1
      rw [State.levels_setLevel, if_neg hne]
      exact rises c (by omega) (by omega)

/-- The examination stops at a table that does not rise. -/
theorem checkLevelTables_stops (n passed : Nat) (s : State) (c : Chamber) {field : Nat}
    (falls : firstNotRising 1 s.levels[c].thresholds.toList = some field) :
    checkLevelTables (n + 1) c.val passed s = (s, checkStopped c.val field 0 passed) := by
  rw [checkLevelTables, dif_pos c.isLt]
  simp only [Fin.eta, falls]

section
variable {s : State} {r : Request}

theorem checkLevels_outside (h : 3 < r.index.toNat ∨ r.byte 0 = 0 ∨ 4 < r.index.toNat + r.byte 0) :
    checkLevels r s = (s, { result := .badValue, data := zeroData }) := if_pos h

theorem checkLevels_within (h1 : 1 ≤ r.byte 0) (h2 : r.index.toNat + r.byte 0 ≤ 4) :
    checkLevels r s = checkLevelTables (r.byte 0) r.index.toNat 0 s := if_neg (by omega)

theorem checkLevels_passes (h1 : 1 ≤ r.byte 0) (h2 : r.index.toNat + r.byte 0 ≤ 4)
    (rises : ∀ c : Chamber, r.index.toNat ≤ c.val → c.val < r.index.toNat + r.byte 0 → s.levels[c].Rises) :
    checkLevels r s = (s.levelsChecked r.index.toNat (r.byte 0), checkPassed (r.byte 0)) := by
  have run := checkLevelTables_rising (r.byte 0) 0 r.index.toNat 0 s h2 rises
  rw [checkLevels_within h1 h2, ← Nat.add_zero (r.byte 0), run, Nat.zero_add]
  rfl

theorem checkLevels_stops (h2 : r.index.toNat + r.byte 0 ≤ 4) {c : Chamber} {k : Fin 14}
    (hc : r.index.toNat ≤ c.val) (hc' : c.val < r.index.toNat + r.byte 0)
    (falls : ¬s.levels[c].thresholds[k.val] < s.levels[c].thresholds[k.val + 1])
    (rising : ∀ j : Fin 14, j < k → s.levels[c].thresholds[j.val] < s.levels[c].thresholds[j.val + 1])
    (before : ∀ d : Chamber, r.index.toNat ≤ d.val → d < c → s.levels[d].Rises) :
    checkLevels r s = (s.levelsChecked r.index.toNat (c.val - r.index.toNat),
      checkStopped c.val (k.val + 2) 0 (c.val - r.index.toNat)) := by
  have count : r.byte 0 = (c.val - r.index.toNat) + ((r.index.toNat + r.byte 0 - c.val - 1) + 1) := by omega
  have unchanged : (s.levelsChecked r.index.toNat (c.val - r.index.toNat)).levels[c] = s.levels[c] := by
    have outside : ¬(r.index.toNat ≤ c.val ∧ c.val < r.index.toNat + (c.val - r.index.toNat)) := by omega
    simp [State.levelsChecked, outside]
  have stop := LevelTable.firstNotRising_of_falls falls rising
  rw [← unchanged] at stop
  rw [checkLevels_within (by omega) h2, count,
    checkLevelTables_rising _ _ _ 0 s (by omega) fun d h3 h4 => before d h3 (Fin.lt_def.2 (by omega))]
  simpa [Nat.add_sub_cancel' hc] using checkLevelTables_stops _ (c.val - r.index.toNat) _ c stop

end

/-- Settles O30. -/
theorem levelCheckBlock : Obligations.LevelCheckBlock := by
  intro r s h
  refine ⟨fun outside => ?_, fun h1 h2 => ⟨fun rises => ?_, fun c k hc hc' falls rising before => ?_⟩⟩ <;>
    refine congrArg Host.Outcome.next ((h.takeRecord codeCheck (checkLevels r)).trans ?_)
  · rw [checkLevels_outside outside]
  · rw [checkLevels_passes h1 h2 rises]
    rfl
  · rw [checkLevels_stops h2 hc hc' falls rising before]
    rfl

end Sys2Proof.Machine
end

/-! ### Readings at a cycle close (R12, R13) and the pressure level (R20) -/
section
namespace Sys2Proof.Machine

variable {s : State} {slots : List Slot} {c : Chamber} {h : Chan}

theorem State.takeReadings_channel (s : State) (slots : List Slot) (c : Chamber) (h : Chan) :
    (s.takeReadings slots).channel c h =
      (s.channel c h).close (if (s.channel c h).record.kind.isReadback then readingOf s slots c h else none) := by
  simp [State.takeReadings, State.channel]

theorem Channel.close_other {ch : Channel} (hk : ch.record.kind.isReadback = false) (reading : Option Nat) :
    ch.close reading = ch := by simp [Channel.close, hk]

theorem Channel.close_valid {ch : Channel} (hk : ch.record.kind.isReadback = true) (word : Nat) :
    ch.close (some word) = { ch with status := ch.status.take ch.record word } := by simp [Channel.close, hk]

theorem Channel.close_missing {ch : Channel} (hk : ch.record.kind.isReadback = true) :
    ch.close none = { ch with status := ch.status.miss ch.record } := by simp [Channel.close, hk]

/-- The one slot of a channel of a slot map without duplicates (R1). -/
theorem State.SlotsDistinct.idxOf (distinct : s.SlotsDistinct) {k : Fin 128} (hk : s.slotMap[k] = .channel c h) :
    s.slotMap.toList.idxOf? (.channel c h) = some k.val := by
  rw [List.idxOf?_eq_some_iff]
  refine ⟨by simp, by simpa using hk, fun j hj hkj => ?_⟩
  have hj' : s.slotMap[(⟨j, by omega⟩ : Fin 128)] = .channel c h := by simpa using hkj
  have same := distinct ⟨j, by omega⟩ k (hj'.trans hk.symm) (by rw [hj']; simp)
  rw [← same] at hj
  exact Nat.lt_irrefl _ hj

theorem readingOf_valid (distinct : s.SlotsDistinct) {k : Fin 128} {slot : Slot} (hk : s.slotMap[k] = .channel c h)
    (hslot : slots[k.val]? = some slot) (valid : nodeReadingValid slot.nodeFlags = true) :
    readingOf s slots c h = some slot.readback.toNat := by
  simp [readingOf, distinct.idxOf hk, hslot, valid]

theorem readingOf_missing (invalid : ∀ (k : Fin 128) (slot : Slot), s.slotMap[k] = .channel c h →
    slots[k.val]? = some slot → nodeReadingValid slot.nodeFlags = false) : readingOf s slots c h = none := by
  unfold readingOf
  split
  · rfl
  · next k hk =>
    rw [List.idxOf?_eq_some_iff] at hk
    obtain ⟨hlt, hat, -⟩ := hk
    rw [Vector.length_toList] at hlt
    split
    · rfl
    · next slot hslot =>
      rw [invalid ⟨k, hlt⟩ slot (by simpa using hat) hslot]
      rfl

theorem nodeReadingValid_iff (flags : Byte) :
    nodeReadingValid flags = true ↔ flags.getLsbD 0 = true ∧ flags.getLsbD 1 = false := by
  simp only [nodeReadingValid, Bool.and_eq_true, Bool.not_eq_true']

/-! #### The pressure level -/

theorem Ctx.pressureLevel_none {x : Ctx} (absent : x.levels[c].checked = false ∨ ∀ h, (x.record c h).kind ≠ .pressure) :
    x.pressureLevel c = 15 := by
  unfold Ctx.pressureLevel
  split
  · rfl
  · next h hh =>
    rcases absent with unchecked | absent
    · exact if_neg (by rw [unchecked]; simp)
    · exact absurd (by simpa using List.find?_some hh) (absent h)

theorem Ctx.channelOfKind_eq {x : Ctx} {k : ChannelKind} (hk : (x.record c h).kind = k)
    (unique : ∀ j, (x.record c j).kind = k → j = h) : x.channelOfKind c k = some h := by
  have found : (x.channelOfKind c k).isSome = true := by
    rw [Ctx.channelOfKind, List.find?_isSome]
    exact ⟨h, mem_sixteen h, by simpa using hk⟩
  obtain ⟨j, hj⟩ := Option.isSome_iff_exists.1 found
  rw [hj, unique j (by simpa using List.find?_some hj)]

theorem LevelTable.levelOf_eq (t : LevelTable) (v : Nat) :
    t.levelOf v = (List.finRange 15).countP fun k => t.thresholds[k] ≤ v := by
  have listed : t.thresholds.toList = (List.finRange 15).map fun k => t.thresholds[k] := by
    rw [← List.ofFn_eq_map, ← Vector.toList_ofFn]
    congr 1
    ext
    simp
  rw [LevelTable.levelOf, ← List.countP_eq_length_filter, listed, List.countP_map]
  rfl

/-- Settles O53. -/
theorem readingsAndPressureLevel : Obligations.ReadingsAndPressureLevel := by
  refine ⟨fun s slots c h => ?_, fun s c => ⟨Ctx.pressureLevel_none (x := s.ctx), fun h checked hk unique => ?_⟩⟩
  · dsimp only
    rw [State.takeReadings_channel]
    refine ⟨fun hk => Channel.close_other hk _, fun k slot hk distinct hat hslot valid noFault => ?_, fun hk invalid => ?_⟩
    · rw [if_pos hk, readingOf_valid distinct hat hslot ((nodeReadingValid_iff _).2 ⟨valid, noFault⟩), Channel.close_valid hk]
      rfl
    · have missing : readingOf s slots c h = none := readingOf_missing fun k slot hat hslot => by
        rw [Bool.eq_false_iff, Ne, nodeReadingValid_iff]
        rintro ⟨valid, noFault⟩
        rcases invalid k slot hat hslot with h0 | h1
        · rw [h0] at valid; cases valid
        · rw [h1] at noFault; cases noFault
      rw [if_pos hk, missing, Channel.close_missing hk]
      rfl
  · have found : s.ctx.channelOfKind c .pressure = some h := Ctx.channelOfKind_eq hk unique
    simp only [Ctx.pressureLevel, found]
    exact (if_pos checked).trans (s.levels[c].levelOf_eq _)

end Sys2Proof.Machine
end

/-! ### The rules of a channel record (R6, R7) -/
section
namespace Sys2Proof.Machine

variable {after : Chan → ChannelRecord} {h : Chan}

theorem channelRules_iff : (∀ rule ∈ channelRules after h, rule.1) ↔ ChannelRules after h := by
  simp only [channelRules, List.forall_mem_cons, List.not_mem_nil, false_implies, implies_true, and_true]
  constructor
  · rintro ⟨h1, h2, h3, h4, h5, h6, h7, h8, h9, h10, h11, h12, h13⟩
    exact ⟨h1, h2, h3, h4, h5, h6, h7, h8, h9, h10, h11, h12, h13⟩
  · rintro ⟨h1, h2, h3, h4, h5, h6, h7, h8, h9, h10, h11, h12, h13⟩
    exact ⟨h1, h2, h3, h4, h5, h6, h7, h8, h9, h10, h11, h12, h13⟩

/-- The rules name the fields of Table 9-5 (log 11 leaves open which of 8 and 9 the second does). -/
theorem channelRules_fields : ∀ rule ∈ channelRules after h, 1 ≤ rule.2 ∧ rule.2 ≤ 12 := by
  have limits : ∀ b : Bool, 1 ≤ (if b = true then 9 else 8) ∧ (if b = true then 9 else 8) ≤ 12 := by decide
  simp [channelRules, limits]

theorem ChannelRules.channelFault (rules : ChannelRules after h) : Machine.channelFault after h = none := by
  rw [Option.eq_none_iff_forall_ne_some]
  intro field hf
  obtain ⟨before, rest, rule, hlist, -, broken⟩ := (channelFault_iff after h field).1 hf
  exact broken (channelRules_iff.2 rules (rule, field) (by rw [hlist]; simp))

theorem firstBroken_of_not_channelRules (hr : ¬ChannelRules after h) :
    ∃ field, FirstBroken (channelRules after h) field ∧ 1 ≤ field ∧ field ≤ 12 := by
  have broken : ∃ rule ∈ channelRules after h, ¬rule.1 := by
    simpa only [not_forall, exists_prop] using mt channelRules_iff.1 hr
  obtain ⟨field, first, rule, hmem, rfl⟩ := exists_firstBroken _ broken
  exact ⟨rule.2, first, channelRules_fields rule hmem⟩

end Sys2Proof.Machine
end

/-! ### WRITE on CHANNEL: what a request carries, and the outcomes (R5, R8) -/
section
namespace Sys2Proof.Machine

variable {s : State} {r : Request} {old : ChannelRecord}

/-! #### The fields of words 0 to 2 -/

theorem channelKinds_of_code {n : Nat} (h : n ≤ 11) : ∃ kind, channelKinds[n]? = some kind :=
  ⟨_, List.getElem?_eq_getElem (Nat.lt_succ_of_le h)⟩

theorem Request.channelRecord_badKind (h : 11 < r.byte 0) : r.channelRecord 0 old = .error 1 := by
  have absent : channelKinds[r.byte 0]? = none := List.getElem?_eq_none h
  simp [Request.channelRecord, absent]

/-- Word 0 of a kind that exists: owner, hold behaviour and pair examined in this order. -/
theorem Request.channelRecord_zero {kind : ChannelKind} (hk : channelKinds[r.byte 0]? = some kind) :
    r.channelRecord 0 old =
      if 1 < r.byte 1 then .error 2
      else if 1 < r.byte 2 then .error 3
      else if h : r.byte 4 < 16 then
        .ok { old with kind := kind, owner := if r.byte 1 = 0 then .sequence else .controller
                       holdBehaviour := if r.byte 2 = 0 then .safeValue else .keep, weight := r.byte 3
                       pair := some ⟨r.byte 4, h⟩ }
      else if r.byte 4 = 0xFF then
        .ok { old with kind := kind, owner := if r.byte 1 = 0 then .sequence else .controller
                       holdBehaviour := if r.byte 2 = 0 then .safeValue else .keep, weight := r.byte 3, pair := none }
      else .error 5 := by
  simp only [Request.channelRecord, hk]

theorem Request.channelRecord_badOwner (h0 : r.byte 0 ≤ 11) (h1 : 1 < r.byte 1) : r.channelRecord 0 old = .error 2 := by
  obtain ⟨kind, hk⟩ := channelKinds_of_code h0
  rw [Request.channelRecord_zero hk, if_pos h1]

theorem Request.channelRecord_badHold (h0 : r.byte 0 ≤ 11) (h1 : r.byte 1 ≤ 1) (h2 : 1 < r.byte 2) :
    r.channelRecord 0 old = .error 3 := by
  obtain ⟨kind, hk⟩ := channelKinds_of_code h0
  rw [Request.channelRecord_zero hk, if_neg (Nat.not_lt.2 h1), if_pos h2]

theorem Request.channelRecord_badPair (h0 : r.byte 0 ≤ 11) (h1 : r.byte 1 ≤ 1) (h2 : r.byte 2 ≤ 1) (h4 : 15 < r.byte 4)
    (h4' : r.byte 4 ≠ 0xFF) : r.channelRecord 0 old = .error 5 := by
  obtain ⟨kind, hk⟩ := channelKinds_of_code h0
  rw [Request.channelRecord_zero hk, if_neg (Nat.not_lt.2 h1), if_neg (Nat.not_lt.2 h2), dif_neg (Nat.not_lt.2 h4),
    if_neg h4']

theorem Request.channelRecord_badFullScale (h : r.number 0 2 = 0) : r.channelRecord 1 old = .error 6 := if_pos h

theorem Request.channelRecord_badWordFullScale (h : r.number 0 2 ≠ 0) (h' : r.number 2 2 = 0) :
    r.channelRecord 1 old = .error 7 := (if_neg h).trans (if_pos h')

theorem Request.channelRecord_badStaleLimit (h : r.byte 2 = 0) : r.channelRecord 2 old = .error 11 := if_pos h

/-! #### The outcomes -/

theorem writeChannel_noObject (hl : s.lock = false) (h : 64 ≤ r.index.toNat ∨ 3 < r.word.toNat) :
    writeChannel r s = (s, noObject) := by
  rcases h with h | h
  · simp [writeChannel, hl, Nat.not_lt.2 h]
  · simp [writeChannel, hl, h]

section
variable {c : Chamber} {h : Chan} (hl : s.lock = false) (hi : r.index.toNat = c.val * 16 + h.val)
include hl hi

theorem writeChannel_readOnly (hw : r.word.toNat = 3) : writeChannel r s = (s, s.refuseWith .readOnly 2 r) := by
  have present : r.index.toNat < 64 := by omega
  simp [writeChannel, hl, present, hw, channelTable]

variable (hw : r.word.toNat < 3)
include hw

theorem writeChannel_inUse (busy : (s.engine c).state ≠ .idle) : writeChannel r s = (s, s.refuseWith .inUse 2 r) := by
  have present : r.index.toNat < 64 := by omega
  have chamber : r.index.toNat / 16 = c.val := by omega
  simp [writeChannel, hl, present, chamber, Nat.not_lt.2 hw.le, hw.ne, busy, channelTable]

variable (idle : (s.engine c).state = .idle)
include idle

theorem writeChannel_badField {field : Nat}
    (hf : r.channelRecord r.word.toNat (s.channel c h).record = .error field) : writeChannel r s = (s, badField field) := by
  have present : r.index.toNat < 64 := by omega
  have chamber : r.index.toNat / 16 = c.val := by omega
  have channel : r.index.toNat % 16 = h.val := by omega
  simp [writeChannel, hl, present, chamber, channel, Nat.not_lt.2 hw.le, hw.ne, idle, hf]

variable {given : ChannelRecord} (hg : r.channelRecord r.word.toNat (s.channel c h).record = .ok given)
include hg

theorem writeChannel_brokenRule {field : Nat}
    (hf : channelFault (fun j => if j = h then given.stored else (s.channel c j).record) h = some field) :
    writeChannel r s = (s, badField field) := by
  have present : r.index.toNat < 64 := by omega
  have chamber : r.index.toNat / 16 = c.val := by omega
  have channel : r.index.toNat % 16 = h.val := by omega
  simp [writeChannel, hl, present, chamber, channel, Nat.not_lt.2 hw.le, hw.ne, idle, hg, hf]

theorem writeChannel_stored
    (hf : channelFault (fun j => if j = h then given.stored else (s.channel c j).record) h = none) :
    writeChannel r s = (s.storeChannel c h given.stored).acceptWrite 2 r := by
  have present : r.index.toNat < 64 := by omega
  have chamber : r.index.toNat / 16 = c.val := by omega
  have channel : r.index.toNat % 16 = h.val := by omega
  simp [writeChannel, hl, present, chamber, channel, Nat.not_lt.2 hw.le, hw.ne, idle, hg, hf, channelTable]

end

/-- Settles O21. -/
theorem channelWriteRefused : Obligations.ChannelWriteRefused := by
  intro r s h hl
  refine ⟨fun absent => congrArg _ (h.answers_noObject _ (writeChannel_noObject hl absent)), fun c ch hi =>
    ⟨fun hw => congrArg _ (h.answers_refused (writeChannel_readOnly hl hi hw)), fun hw =>
      ⟨fun busy => congrArg _ (h.answers_refused (writeChannel_inUse hl hi hw busy)), fun idle => ⟨?_, ?_, ?_⟩⟩⟩⟩
  · intro field hf
    exact congrArg _ (h.answers_badField (writeChannel_badField hl hi hw idle hf))
  · intro old
    exact ⟨Request.channelRecord_badKind, Request.channelRecord_badOwner, Request.channelRecord_badHold,
      Request.channelRecord_badPair, Request.channelRecord_badFullScale, Request.channelRecord_badWordFullScale,
      Request.channelRecord_badStaleLimit⟩
  · intro given hg
    refine ⟨fun field first => ?_, firstBroken_of_not_channelRules⟩
    exact congrArg _ (h.answers_badField (writeChannel_brokenRule hl hi hw idle hg ((channelFault_iff _ _ _).2 first)))

end Sys2Proof.Machine
end

/-! ### The end of an IDLE chamber's implicit claim (R90) -/
section
namespace Sys2Proof.Machine

variable {x : Ctx} {expire : Expire} {c : Chamber} {p : Plant}

theorem Plant.holds_eq_false_iff : p.holds c = false ↔ p.arbiter.line ≠ .granted c := by
  rw [Bool.eq_false_iff, Ne, Plant.holds_iff]

theorem endIdleClaim_of_holder (h : p.arbiter.line = .granted c) :
    endIdleClaim x expire c p = releaseLine x expire c p := if_pos ((Plant.holds_iff p c).2 h)

theorem endIdleClaim_withdraws (h : p.arbiter.line ≠ .granted c) : endIdleClaim x expire c p = withdrawLine c p :=
  if_neg (by rw [Plant.holds_eq_false_iff.2 h]; simp)

theorem endIdleClaim_settles (h : p.arbiter.line = .granted c) (hs : p.arbiter.settleTime ≠ 0) :
    endIdleClaim x expire c p = p.setLine (.settling (x.now + p.arbiter.settleTime * 1000)) p.arbiter.queue := by
  rw [endIdleClaim_of_holder h, releaseLine_settles fun _ => hs, Plant.freedLine, if_pos h]

theorem endIdleClaim_selects (h : p.arbiter.line = .granted c) (hs : p.arbiter.settleTime = 0) :
    endIdleClaim x expire c p = selectLine x expire (p.setLine .free p.arbiter.queue) := by
  rw [endIdleClaim_of_holder h, releaseLine, if_pos ((Plant.holds_iff p c).2 h), if_pos hs]

/-- An IDLE chamber waits for no growth (R127). -/
theorem Plant.Sound.not_growing {up : Bool} (h : p.Sound up) (idle : (p.engine c).state = .idle) :
    ∀ g ∈ p.arbiter.growth, g.chamber ≠ c := by
  rintro g hg rfl
  have waiting := (h.growth.2 g hg).1
  rw [idle] at waiting
  cases waiting

/-- After the end of its implicit claim an IDLE chamber neither holds the line nor waits for it, and its engine is as it was. -/
theorem endIdleClaim_rests {up : Bool} (h : p.Sound up) (idle : (p.engine c).state = .idle) :
    c ∉ (endIdleClaim x (expireNow x) c p).arbiter.queue ∧
      (endIdleClaim x (expireNow x) c p).arbiter.line ≠ .granted c ∧
      (endIdleClaim x (expireNow x) c p).engine c = p.engine c := by
  by_cases hl : p.arbiter.line = .granted c
  · have out : p.Out c := ⟨h.queue.2.2.2 c hl, h.not_growing idle⟩
    have rests := releaseLine_rests (x := x) (fun q r d => expireNow_spares x c q r d) out
    rw [endIdleClaim_of_holder hl]
    exact ⟨rests.out.1, rests.line, rests.engine⟩
  · rw [endIdleClaim_withdraws hl]
    exact ⟨by simp [withdrawLine], hl, rfl⟩

end Sys2Proof.Machine
end

/-! ### WRITE on CHANNEL of a sound record (R8, R105, R107) -/
section
namespace Sys2Proof.Machine

variable {s : State} {c : Chamber}

/-! #### The fields of words 0 to 2 as they are stored -/

section
variable {r : Request} {old : ChannelRecord}

/-- The place of a kind in the order of R4. -/
theorem channelKinds_code (kind : ChannelKind) : channelKinds[kind.code]? = some kind := by cases kind <;> rfl

theorem ChannelKind.code_eq (kind : ChannelKind) : kind.code = match kind with
    | .none => 0 | .gasFlow => 1 | .valve => 2 | .roughValve => 3 | .throttle => 4 | .rfPower => 5 | .setpoint => 6
    | .pressure => 7 | .flowRead => 8 | .rfForward => 9 | .rfReflected => 10 | .readback => 11 := by
  cases kind <;> rfl

theorem Request.channelRecord_kind {kind : ChannelKind} (h0 : r.byte 0 = kind.code) (h1 : r.byte 1 ≤ 1)
    (h2 : r.byte 2 ≤ 1) {pair : Option Chan} (h4 : r.byte 4 = match pair with | none => 0xFF | some j => j.val) :
    r.channelRecord 0 old =
      .ok { old with kind := kind, owner := if r.byte 1 = 0 then .sequence else .controller
                     holdBehaviour := if r.byte 2 = 0 then .safeValue else .keep, weight := r.byte 3, pair := pair } := by
  rw [Request.channelRecord_zero (h0 ▸ channelKinds_code kind), if_neg (Nat.not_lt.2 h1), if_neg (Nat.not_lt.2 h2)]
  cases pair with
  | none => rw [dif_neg (by rw [h4]; decide), if_pos h4]
  | some j => simp [h4]

theorem Request.channelRecord_scales (h : r.number 0 2 ≠ 0) (h' : r.number 2 2 ≠ 0) : r.channelRecord 1 old =
    .ok { old with fullScale := r.number 0 2, wordFullScale := r.number 2 2, lo := r.number 4 2, hi := r.number 6 2 } :=
  (if_neg h).trans (if_neg h')

theorem Request.channelRecord_values (h : r.byte 2 ≠ 0) : r.channelRecord 2 old =
    .ok { old with safeValue := r.number 0 2, staleLimit := r.byte 2, failValue := r.number 3 2 } := if_neg h

end

/-! #### The guard entries of the chamber -/

/-- A guard entry as a channel record write of its chamber leaves it (R105, R107). -/
def State.reviewed (s : State) (c : Chamber) (g : GuardIndex) : GuardEntry :=
  { s.guardEntry c g with
    lapse := deriveGrace s.ctx c (s.guardEntry c g)
    sourceLost := (s.guardEntry c g).sourceLost || !sourceHolds s.ctx c (s.guardEntry c g).config }

theorem State.reviewGuards_eq (s : State) (c : Chamber) :
    s.reviewGuards c = { s with guards := s.guards.set c (Vector.ofFn (s.reviewed c)) } := rfl

/-- An entry whose source does not satisfy the source rules of R99: no readback kind for a VALUE entry, no paired FLOW_READ for a
DEVIATION. -/
theorem sourceHolds_eq_false_iff (x : Ctx) (c : Chamber) (k : GuardConfig) :
    sourceHolds x c k = false ↔
      (k.kind = .valueAbove ∨ k.kind = .valueBelow) ∧ (x.record c k.source).kind.isReadback = false ∨
        k.kind = .deviation ∧ ((x.record c k.source).kind ≠ .flowRead ∨ (x.record c k.source).pair = none) := by
  cases hk : k.kind <;> simp [sourceHolds, hk, Ctx.deviationPair, imp_iff_not_or]

theorem State.reviewed_lost {g : GuardIndex} (h : sourceHolds s.ctx c (s.guardEntry c g).config = false) :
    s.reviewed c g = { s.guardEntry c g with lapse := deriveGrace s.ctx c (s.guardEntry c g), sourceLost := true } := by
  rw [State.reviewed, h, Bool.not_false, Bool.or_true]

theorem State.reviewed_kept {g : GuardIndex} (h : sourceHolds s.ctx c (s.guardEntry c g).config = true) :
    s.reviewed c g = { s.guardEntry c g with lapse := deriveGrace s.ctx c (s.guardEntry c g) } := by
  rw [State.reviewed, h, Bool.not_true, Bool.or_false]

/-! #### The derivation of grace (R107) -/

theorem deriveGrace_armed {x : Ctx} {e : GuardEntry} (h : e.config.kind ≠ .deviation ∨
    (x.record c e.config.source).kind ≠ .flowRead ∨ (x.record c e.config.source).pair = none) :
    deriveGrace x c e = none := by
  unfold deriveGrace
  split
  · next hk =>
    have unpaired : x.deviationPair c e.config.source = none := by
      rcases h with h | h | h
      · exact absurd hk h
      · exact if_neg h
      · simp [Ctx.deviationPair, h]
    rw [unpaired]
  · rfl

theorem deriveGrace_deviation {x : Ctx} {e : GuardEntry} {j : Chan} (hk : e.config.kind = .deviation)
    (hs : (x.record c e.config.source).kind = .flowRead) (hp : (x.record c e.config.source).pair = some j) :
    deriveGrace x c e =
      if (x.status c j).changed + e.config.grace * 1000 ≤ x.now then none
      else some ((x.status c j).changed + e.config.grace * 1000) := by
  have paired : x.deviationPair c e.config.source = some j := (if_pos hs).trans hp
  simp only [deriveGrace, if_pos hk, paired]

/-! #### The record stored -/

/-- A channel in its power-on condition at a write (R8, log 18), field by field. -/
theorem freshStatus_eq (r : ChannelRecord) (now : Nat) : freshStatus r now =
    { value := if r.kind.isReadback then r.failValue else 0, missing := 0, stale := true, carried := 0
      changed := if r.kind.isSetpoint then now else 0 } := by
  cases hk : r.kind <;> simp [freshStatus, hk, ChannelKind.isReadback, ChannelKind.isSetpoint]

theorem State.storeChannel_other {h : Chan} {r : ChannelRecord}
    (hr : ¬((s.channel c h).record.kind = .roughValve ∨ r.kind = .roughValve)) :
    s.storeChannel c h r = (s.setChannel c h ⟨r, freshStatus r s.now⟩).reviewGuards c := by
  rw [State.storeChannel, if_neg hr]

theorem State.storeChannel_rough {h : Chan} {r : ChannelRecord}
    (hr : (s.channel c h).record.kind = .roughValve ∨ r.kind = .roughValve) :
    s.storeChannel c h r = ((s.setChannel c h ⟨r, freshStatus r s.now⟩).onPlant
      fun x p => endIdleClaim x (expireNow x) c p).reviewGuards c := by
  rw [State.storeChannel, if_pos hr]

/-- Settles O20. -/
theorem channelWriteAccepted : Obligations.ChannelWriteAccepted := by
  refine ⟨fun r old => ⟨fun kind pair h0 h1 h2 h4 => ?_, Request.channelRecord_scales, Request.channelRecord_values,
    fun word given _ hold hg => r.channelRecord_inRange hold hg⟩, fun k => ?_, fun s c => ?_, fun x c e => ?_, ?_⟩
  · exact Request.channelRecord_kind (h0.trans kind.code_eq.symm) h1 h2 h4
  · cases k <;> decide
  · refine ⟨Vector.ofFn (s.reviewed c), s.reviewGuards_eq c, fun g => ?_⟩
    have entry : (Vector.ofFn (s.reviewed c))[g] = s.reviewed c g := by simp
    have lost := sourceHolds_eq_false_iff s.ctx c (s.guardEntry c g).config
    rw [entry]
    exact ⟨fun hlost => State.reviewed_lost (lost.2 hlost), fun hkept => State.reviewed_kept
      (Bool.of_not_eq_false (mt lost.1 hkept))⟩
  · refine ⟨deriveGrace_armed, fun j hk hs hp => ?_⟩
    rw [deriveGrace_deviation hk hs hp]
    exact ⟨fun past => if_pos past, fun ahead => if_neg (Nat.not_le.2 ahead)⟩
  · intro r s c h given record hr hl hi hw idle hg hrecord rules
    have hstored : record = given.stored := by
      rw [hrecord, ChannelRecord.stored]
      split <;> rfl
    subst hstored
    have stored := hr.answers_stored (writeChannel_stored hl hi hw idle hg rules.channelFault)
    rw [← freshStatus_eq]
    refine ⟨fun other => ?_, fun rough => ⟨?_, endIdleClaim_withdraws, endIdleClaim_settles, fun safe => ?_⟩⟩
    · rw [State.storeChannel_other other] at stored
      exact congrArg _ stored
    · rw [State.storeChannel_rough rough] at stored
      exact congrArg _ stored
    · obtain ⟨queue, line, engine⟩ := endIdleClaim_rests
        (x := (s.setChannel c h ⟨given.stored, freshStatus given.stored s.now⟩).ctx) safe idle
      exact ⟨queue, line, engine, fun d ne out => (Plant.Spares.refl out).endIdleClaim spares_expireNow ne.symm⟩

end Sys2Proof.Machine
end

/-! ### The parts of a computed slot (R81 to R92) -/
section
namespace Sys2Proof.Machine

/-! #### Flags -/

@[simp] theorem gateFlags_substituted (a b c : Bool) : (gateFlags a b c).getLsbD 0 = a := by
  revert a b c; decide

@[simp] theorem gateFlags_clamped (a b c : Bool) : (gateFlags a b c).getLsbD 1 = b := by
  revert a b c; decide

@[simp] theorem gateFlags_forced (a b c : Bool) : (gateFlags a b c).getLsbD 2 = c := by
  revert a b c; decide

/-- Bits 3 to 7 are written 0 (R92). -/
theorem gateFlags_lt (a b c : Bool) : (gateFlags a b c).toNat < 8 := by revert a b c; decide

theorem forcedByState_iff (e : Engine) (r : ChannelRecord) : forcedByState e r = true ↔ e.state = .safe ∨
    (e.state = .held ∨ e.state = .waiting ∧ e.hold.isSome = true) ∧ r.owner = .sequence ∧ r.holdBehaviour = .safeValue := by
  simp only [forcedByState, Bool.or_eq_true, Bool.and_eq_true, beq_iff_eq, and_assoc]

/-! #### The base value (R82) -/

section
variable {x : Ctx} {e : Engine} {r : ChannelRecord} {h : Chan} {controller : Nat}

theorem baseValue_idle (hs : e.state = .idle) : baseValue x e r h controller = controller := by simp [baseValue, hs]

theorem baseValue_safe (hs : e.state = .safe) : baseValue x e r h controller = r.safeValue := by simp [baseValue, hs]

theorem baseValue_controller (h1 : e.state ≠ .idle) (h2 : e.state ≠ .safe) (ho : r.owner = .controller) :
    baseValue x e r h controller = controller := by
  cases hs : e.state <;> simp_all [baseValue]

theorem rampedEntry_of_not_running (hs : e.state ≠ .running) : rampedEntry x e h = none := if_neg hs

theorem rampedEntry_eq_some {sp : Setpoint} (hs : e.state = .running) (hsp : (x.stepRecord e.step).setpointFor h = some sp)
    (hr : sp.ramp = true) : rampedEntry x e h = some sp := by
  simp [rampedEntry, hs, hsp, hr]

theorem rampedEntry_eq_none (hs : ∀ sp, (x.stepRecord e.step).setpointFor h = some sp → sp.ramp = false) :
    rampedEntry x e h = none := by
  unfold rampedEntry
  split
  · rw [Option.filter_eq_none_iff]
    intro sp hsp
    simp [hs sp hsp]
  · rfl

theorem rampedEntry_isSome_iff : (rampedEntry x e h).isSome = true ↔
    e.state = .running ∧ ∃ sp, (x.stepRecord e.step).setpointFor h = some sp ∧ sp.ramp = true := by
  constructor
  · intro hsome
    have running : e.state = .running := by
      by_contra hs
      rw [rampedEntry_of_not_running hs] at hsome
      cases hsome
    refine ⟨running, ?_⟩
    by_contra flat
    rw [rampedEntry_eq_none fun sp hsp => Bool.eq_false_iff.2 fun hr => flat ⟨sp, hsp, hr⟩] at hsome
    cases hsome
  · rintro ⟨hs, sp, hsp, hr⟩
    rw [rampedEntry_eq_some hs hsp hr]
    rfl

theorem baseValue_ramped (ho : r.owner = .sequence) (hs : e.state = .running) {sp : Setpoint}
    (hsp : (x.stepRecord e.step).setpointFor h = some sp) (hr : sp.ramp = true) :
    baseValue x e r h controller = rampValue e (x.stepRecord e.step) sp x.now := by
  simp [baseValue, hs, ho, rampedEntry_eq_some hs hsp hr]

theorem baseValue_output (ho : r.owner = .sequence)
    (hs : e.state = .running ∨ e.state = .waiting ∨ e.state = .held ∨ e.state = .done)
    (flat : rampedEntry x e h = none) : baseValue x e r h controller = e.outputTable[h] := by
  rcases hs with hs | hs | hs | hs <;> simp [baseValue, hs, ho, flat]

end

/-! #### The clamp and the idle allowance (R86, R87) -/

theorem clampTo_within {r : ChannelRecord} (h : r.lo ≤ r.hi) (v : Nat) : r.lo ≤ clampTo r v ∧ clampTo r v ≤ r.hi := by
  unfold clampTo
  split
  · exact ⟨le_rfl, h⟩
  · split
    · exact ⟨h, le_rfl⟩
    · omega

/-- What does not fit the remaining allowance is cut to less. -/
theorem cut_lt {weight remaining v : Nat} (hw : weight ≠ 0) (h : remaining < flowLoad v weight) :
    remaining * 1000 / weight < v := by
  unfold flowLoad at h
  rw [Nat.div_lt_iff_lt_mul (Nat.pos_of_ne_zero hw)]
  omega

theorem allowanceClamp_le (weight remaining v : Nat) : (allowanceClamp weight remaining v).1 ≤ v := by
  unfold allowanceClamp
  split
  · exact le_rfl
  · next hw =>
    split
    · exact le_rfl
    · next hfit => exact (cut_lt hw (Nat.lt_of_not_le hfit)).le

/-- The third part says whether the value was cut. -/
theorem allowanceClamp_cut (weight remaining v : Nat) :
    (allowanceClamp weight remaining v).2.2 = true ↔ (allowanceClamp weight remaining v).1 ≠ v := by
  unfold allowanceClamp
  split
  · simp
  · next hw =>
    split
    · simp
    · next hfit => simpa using (cut_lt hw (Nat.lt_of_not_le hfit)).ne

/-! #### The roughing rule (R88 to R90) -/

/-- The arbiter after a roughing claim of chamber c, by the line state (R121). -/
def Arbiter.claimed (a : Arbiter) (c : Chamber) : Arbiter :=
  if a.line = .free then { a with line := .granted c }
  else if a.line = .granted c ∨ c ∈ a.queue then a
  else { a with queue := a.queue ++ [c] }

theorem claimLine_eq (c : Chamber) (p : Plant) : claimLine c p = { p with arbiter := p.arbiter.claimed c } := by
  cases hl : p.arbiter.line with
  | free => simp [claimLine, Arbiter.claimed, hl, Plant.setLine]
  | granted o =>
    simp only [claimLine, Arbiter.claimed, hl, reduceCtorEq, if_false, LineState.granted.injEq]
    split
    · rfl
    · rw [Plant.setLine]
  | settling t =>
    simp only [claimLine, Arbiter.claimed, hl, reduceCtorEq, if_false, false_or]
    split
    · rfl
    · rw [Plant.setLine]

section
variable (x : Ctx) (c : Chamber) (idle : Bool) (v : Nat) (p : Plant)

theorem roughingRule_plant : (roughingRule x c idle v p).1 =
    if idle then (if v = 0 then endIdleClaim x (expireNow x) c p else claimLine c p) else p := by
  unfold roughingRule
  by_cases hv : v = 0
  · rw [if_pos hv, if_pos hv]
  · rw [if_neg hv, if_neg hv]
    dsimp only
    generalize (if idle = true then claimLine c p else p) = q
    split <;> rfl

/-- The value passes with the line granted to the chamber, else 0 does; the third part says whether it was denied. -/
theorem roughingRule_value :
    ((roughingRule x c idle v p).1.arbiter.line = .granted c → (roughingRule x c idle v p).2.1 = v) ∧
      ((roughingRule x c idle v p).1.arbiter.line ≠ .granted c → (roughingRule x c idle v p).2.1 = 0) ∧
      ((roughingRule x c idle v p).2.2 = true ↔ (roughingRule x c idle v p).2.1 ≠ v) := by
  unfold roughingRule
  by_cases hv : v = 0
  · simp [hv]
  · rw [if_neg hv]
    dsimp only
    generalize (if idle = true then claimLine c p else p) = q
    by_cases hq : q.holds c = true
    · rw [if_pos hq]
      exact ⟨fun _ => rfl, fun hl => absurd ((Plant.holds_iff q c).1 hq) hl, by simp⟩
    · rw [if_neg hq]
      exact ⟨fun hl => absurd ((Plant.holds_iff q c).2 hl) hq, fun _ => rfl, by simpa using Ne.symm hv⟩

end

end Sys2Proof.Machine
end

/-! ### The carried value and the grace it restarts (R16, R107) -/
section
namespace Sys2Proof.Machine

variable {s : State} {c d : Chamber} {h k : Chan} {v : Nat}

/-- The channel after a passage carried v at the present time (R16). -/
def State.carrying (s : State) (c : Chamber) (h : Chan) (v : Nat) : Channel :=
  ⟨(s.channel c h).record, { (s.channel c h).status with carried := v, changed := s.now }⟩

theorem State.carry_same (hv : v = (s.channel c h).status.carried) : s.carry c h v = s := if_pos hv

theorem State.carry_changed (hv : v ≠ (s.channel c h).status.carried) :
    s.carry c h v = (s.setChannel c h (s.carrying c h v)).restartGraces c h := if_neg hv

theorem State.restartGraces_channel (s : State) (c d : Chamber) (h k : Chan) :
    (s.restartGraces c h).channel d k = s.channel d k := rfl

theorem State.carry_carried (s : State) (c : Chamber) (h : Chan) (v : Nat) :
    ((s.carry c h v).channel c h).status.carried = v := by
  by_cases hv : v = (s.channel c h).status.carried
  · rw [State.carry_same hv, hv]
  · rw [State.carry_changed hv, State.restartGraces_channel, State.channel_setChannel, if_pos ⟨rfl, rfl⟩]
    rfl

theorem State.carry_record (s : State) (c : Chamber) (h : Chan) (v : Nat) (d : Chamber) (k : Chan) :
    ((s.carry c h v).channel d k).record = (s.channel d k).record := by
  by_cases hv : v = (s.channel c h).status.carried
  · rw [State.carry_same hv]
  · rw [State.carry_changed hv, State.restartGraces_channel, State.channel_setChannel]
    split
    · next hat => rw [← hat.1, ← hat.2]; rfl
    · rfl

theorem State.carry_channel_ne (hne : ¬(c = d ∧ h = k)) : (s.carry c h v).channel d k = s.channel d k := by
  by_cases hv : v = (s.channel c h).status.carried
  · rw [State.carry_same hv]
  · rw [State.carry_changed hv, State.restartGraces_channel, State.channel_setChannel, if_neg hne]

theorem Ctx.deviationPair_eq_some_iff {x : Ctx} {source : Chan} : x.deviationPair c source = some h ↔
    (x.record c source).kind = .flowRead ∧ (x.record c source).pair = some h := by
  unfold Ctx.deviationPair
  split <;> simp_all

/-- A guard entry after its pair's carried value changed at the present time: IN_GRACE for its grace time, ARMED where that is 0
(R107). -/
def State.regraced (s : State) (c : Chamber) (h : Chan) (g : GuardIndex) : GuardEntry :=
  let k := (s.guardEntry c g).config
  let source := (s.channel c k.source).record
  if k.kind = .deviation ∧ source.kind = .flowRead ∧ source.pair = some h then
    { s.guardEntry c g with lapse := if k.grace = 0 then none else some (s.now + k.grace * 1000) }
  else s.guardEntry c g

theorem deriveGrace_restarted {x : Ctx} {e : GuardEntry} (hk : e.config.kind = .deviation)
    (hs : (x.record c e.config.source).kind = .flowRead) (hp : (x.record c e.config.source).pair = some h)
    (hc : (x.status c h).changed = x.now) :
    deriveGrace x c e = if e.config.grace = 0 then none else some (x.now + e.config.grace * 1000) := by
  rw [deriveGrace_deviation hk hs hp, hc]
  congr 1
  exact propext ⟨fun h => by omega, fun h => by omega⟩

theorem State.carry_guards (hv : v ≠ (s.channel c h).status.carried) : s.carry c h v =
    { s.setChannel c h (s.carrying c h v) with guards := s.guards.set c (Vector.ofFn (s.regraced c h)) } := by
  rw [State.carry_changed hv]
  generalize ht : s.setChannel c h (s.carrying c h v) = t
  have guards : t.guards = s.guards := by rw [← ht]; rfl
  have now : t.ctx.now = s.now := by rw [← ht]; rfl
  have record : ∀ k, t.ctx.record c k = (s.channel c k).record := fun k => by
    rw [← State.carry_record s c h v c k, State.carry_changed hv, ht]
    rfl
  have changed : (t.ctx.status c h).changed = s.now := by
    rw [show t.ctx.status c h = (t.channel c h).status from rfl, ← ht, State.channel_setChannel, if_pos ⟨rfl, rfl⟩]
    rfl
  have entry : ∀ g : GuardIndex, (if (t.guardEntry c g).config.kind = .deviation ∧
      t.ctx.deviationPair c (t.guardEntry c g).config.source = some h then
        { t.guardEntry c g with lapse := deriveGrace t.ctx c (t.guardEntry c g) } else t.guardEntry c g) =
      s.regraced c h g := fun g => by
    have same : t.guardEntry c g = s.guardEntry c g := by rw [State.guardEntry, guards]; rfl
    simp only [same, Ctx.deviationPair_eq_some_iff, record, State.regraced]
    split
    · next hd =>
      obtain ⟨hk, hs, hp⟩ := hd
      rw [deriveGrace_restarted hk (by rw [record]; exact hs) (by rw [record]; exact hp) (changed.trans now.symm), now]
    · rfl
  rw [State.restartGraces, State.mapGuards, guards]
  congr 3
  rw [← guards]
  exact funext entry

end Sys2Proof.Machine
end

/-! ### One slot computed, part by part (R81 to R92) -/
section
namespace Sys2Proof.Machine
namespace Passage

variable (a : Passage) (engines : Vector Engine 4) (c : Chamber) (h : Chan) (slot : Slot)

/-- The record of the slot's channel. -/
def record : ChannelRecord := (a.state.channel c h).record

/-- The base value of the slot (R82). -/
def base : Nat :=
  baseValue a.state.ctx engines[c] (a.record c h) h (wordToValue (a.record c h) slot.setpoint.toNat)

/-- The base value clamped to the channel's limits (R86). -/
def clamped : Nat := clampTo (a.record c h) (a.base engines c h slot)

/-- What the idle allowance lets pass, what it leaves, and whether it cut the value (R87). -/
def allowed : Nat × Nat × Bool :=
  if engines[c].state = .idle ∧ (a.record c h).kind = .gasFlow then
    allowanceClamp (a.record c h).weight a.remaining[c] (a.clamped engines c h slot)
  else (a.clamped engines c h slot, a.remaining[c], false)

/-- The plant after the roughing rule, the value that passes it, and whether it was denied (R88 to R90). -/
def roughed : Plant × Nat × Bool :=
  if (a.record c h).kind = .roughValve then
    roughingRule a.state.ctx c (engines[c].state == .idle) (a.allowed engines c h slot).1 a.state.plant
  else (a.state.plant, (a.allowed engines c h slot).1, false)

/-- The value the slot carries. -/
def passed : Nat := (a.roughed engines c h slot).2.1

/-- The channel is ramped by the step its chamber runs (R84, R85). -/
def ramps : Bool := (rampedEntry a.state.ctx engines[c] h).isSome && (a.record c h).owner == .sequence

/-- The plant after the slot (R85). -/
def plantAfter : Plant :=
  if a.ramps engines c h then handRamp c h (a.passed engines c h slot) (a.roughed engines c h slot).1
  else (a.roughed engines c h slot).1

/-- The slot as it travels on (R91, R92). -/
def sent : Slot :=
  { slot with
    setpoint := BitVec.ofNat 16 (valueToWord (a.record c h) (a.passed engines c h slot))
    gateFlags := gateFlags
      (BitVec.ofNat 16 (valueToWord (a.record c h) (a.passed engines c h slot)) != slot.setpoint)
      (a.clamped engines c h slot != a.base engines c h slot)
      (forcedByState engines[c] (a.record c h) || (a.allowed engines c h slot).2.2 || (a.roughed engines c h slot).2.2) }

theorem computeSlot_eq : computeSlot engines c h slot a = (a.sent engines c h slot,
    { state := ({ a.state with plant := a.plantAfter engines c h slot } : State).carry c h (a.passed engines c h slot)
      remaining := a.remaining.set c (a.allowed engines c h slot).2.1 }) := rfl

variable {a engines c h slot}

theorem allowed_gasFlow (hk : (a.record c h).kind = .gasFlow) (hs : engines[c].state = .idle) :
    a.allowed engines c h slot = allowanceClamp (a.record c h).weight a.remaining[c] (a.clamped engines c h slot) :=
  if_pos ⟨hs, hk⟩

theorem allowed_other (hn : (a.record c h).kind ≠ .gasFlow ∨ engines[c].state ≠ .idle) :
    a.allowed engines c h slot = (a.clamped engines c h slot, a.remaining[c], false) :=
  if_neg fun ⟨hs, hk⟩ => hn.elim (absurd hk) (absurd hs)

theorem roughed_other (hk : (a.record c h).kind ≠ .roughValve) :
    a.roughed engines c h slot = (a.state.plant, (a.allowed engines c h slot).1, false) := if_neg hk

theorem roughed_valve (hk : (a.record c h).kind = .roughValve) : a.roughed engines c h slot =
    roughingRule a.state.ctx c (engines[c].state == .idle) (a.clamped engines c h slot) a.state.plant := by
  rw [roughed, if_pos hk, allowed_other (.inl (by rw [hk]; simp))]

/-! #### The value -/

theorem passed_gasFlow (hk : (a.record c h).kind = .gasFlow) (hs : engines[c].state = .idle) :
    a.passed engines c h slot =
      (allowanceClamp (a.record c h).weight a.remaining[c] (a.clamped engines c h slot)).1 := by
  rw [passed, roughed_other (by rw [hk]; simp), allowed_gasFlow hk hs]

theorem passed_other (hk : (a.record c h).kind ≠ .roughValve)
    (hn : (a.record c h).kind ≠ .gasFlow ∨ engines[c].state ≠ .idle) :
    a.passed engines c h slot = a.clamped engines c h slot := by
  rw [passed, roughed_other hk, allowed_other hn]

/-- A ramp leaves the arbiter as it is. -/
theorem plantAfter_arbiter :
    (a.plantAfter engines c h slot).arbiter = (a.roughed engines c h slot).1.arbiter := by
  unfold plantAfter
  split <;> rfl

theorem passed_granted (hk : (a.record c h).kind = .roughValve)
    (hl : (a.plantAfter engines c h slot).arbiter.line = .granted c) :
    a.passed engines c h slot = a.clamped engines c h slot := by
  rw [plantAfter_arbiter, roughed_valve hk] at hl
  rw [passed, roughed_valve hk]
  exact (roughingRule_value _ _ _ _ _).1 hl

theorem passed_ungranted (hk : (a.record c h).kind = .roughValve)
    (hl : (a.plantAfter engines c h slot).arbiter.line ≠ .granted c) : a.passed engines c h slot = 0 := by
  rw [plantAfter_arbiter, roughed_valve hk] at hl
  rw [passed, roughed_valve hk]
  exact (roughingRule_value _ _ _ _ _).2.1 hl

/-- The value passes within the channel's limits, or it is the 0 of a closed valve (R86, R88). -/
theorem passed_within (limits : (a.record c h).lo ≤ (a.record c h).hi)
    (gasLow : (a.record c h).kind = .gasFlow → (a.record c h).lo = 0) :
    (a.record c h).lo ≤ a.passed engines c h slot ∧ a.passed engines c h slot ≤ (a.record c h).hi ∨
      (a.record c h).kind = .roughValve ∧ a.passed engines c h slot = 0 := by
  have within : (a.record c h).lo ≤ a.clamped engines c h slot ∧ a.clamped engines c h slot ≤ (a.record c h).hi :=
    clampTo_within limits _
  by_cases hk : (a.record c h).kind = .roughValve
  · by_cases hl : (a.plantAfter engines c h slot).arbiter.line = .granted c
    · exact .inl ((passed_granted hk hl).symm ▸ within)
    · exact .inr ⟨hk, passed_ungranted hk hl⟩
  · refine .inl ?_
    by_cases hn : (a.record c h).kind ≠ .gasFlow ∨ engines[c].state ≠ .idle
    · rw [passed_other hk hn]
      exact within
    · rw [not_or, not_not, not_not] at hn
      rw [passed_gasFlow hn.1 hn.2, gasLow hn.1]
      exact ⟨Nat.zero_le _, (allowanceClamp_le _ _ _).trans within.2⟩

/-! #### What is left of the allowances -/

theorem remaining_other (hn : (a.record c h).kind ≠ .gasFlow ∨ engines[c].state ≠ .idle) :
    a.remaining.set c (a.allowed engines c h slot).2.1 = a.remaining := by
  rw [allowed_other hn]
  exact Vector.set_getElem_self _

/-! #### FORCED (R92) -/

theorem withheld_iff :
    ((a.allowed engines c h slot).2.2 = true ∨ (a.roughed engines c h slot).2.2 = true) ↔
      a.passed engines c h slot ≠ a.clamped engines c h slot := by
  by_cases hk : (a.record c h).kind = .roughValve
  · rw [allowed_other (.inl (by rw [hk]; simp)), passed, roughed_valve hk, (roughingRule_value _ _ _ _ _).2.2]
    simp
  · rw [roughed_other hk]
    by_cases hn : (a.record c h).kind ≠ .gasFlow ∨ engines[c].state ≠ .idle
    · rw [passed_other hk hn, allowed_other hn]
      simp
    · rw [not_or, not_not, not_not] at hn
      rw [passed_gasFlow hn.1 hn.2, allowed_gasFlow hn.1 hn.2, allowanceClamp_cut]
      simp

theorem sent_forced_iff : (a.sent engines c h slot).gateFlags.getLsbD 2 = true ↔
    engines[c].state = .safe ∨ a.passed engines c h slot ≠ a.clamped engines c h slot ∨
      (engines[c].state = .held ∨ engines[c].state = .waiting ∧ engines[c].hold.isSome = true) ∧
        (a.record c h).owner = .sequence ∧ (a.record c h).holdBehaviour = .safeValue := by
  rw [← withheld_iff, sent, gateFlags_forced, Bool.or_eq_true, Bool.or_eq_true, forcedByState_iff]
  tauto

/-! #### The plant -/

theorem ramps_iff : a.ramps engines c h = true ↔ engines[c].state = .running ∧ (a.record c h).owner = .sequence ∧
    ∃ sp, (a.state.stepRecord engines[c].step).setpointFor h = some sp ∧ sp.ramp = true := by
  rw [ramps, Bool.and_eq_true, beq_iff_eq, rampedEntry_isSome_iff]
  exact ⟨fun ⟨⟨h1, h2⟩, h3⟩ => ⟨h1, h3, h2⟩, fun ⟨h1, h3, h2⟩ => ⟨⟨h1, h2⟩, h3⟩⟩

/-- Away from the valve of an IDLE chamber the roughing rule leaves the plant (R89). -/
theorem roughed_plant_other (hn : (a.record c h).kind ≠ .roughValve ∨ engines[c].state ≠ .idle) :
    (a.roughed engines c h slot).1 = a.state.plant := by
  by_cases hk : (a.record c h).kind = .roughValve
  · have hs : (engines[c].state == .idle) = false := by simpa using hn.resolve_left (not_not.2 hk)
    rw [roughed_valve hk, roughingRule_plant, hs]
    rfl
  · rw [roughed_other hk]

theorem plantAfter_idle_valve (hk : (a.record c h).kind = .roughValve) (hs : engines[c].state = .idle) :
    a.plantAfter engines c h slot = if a.clamped engines c h slot = 0 then
      endIdleClaim a.state.ctx (expireNow a.state.ctx) c a.state.plant else claimLine c a.state.plant := by
  have flat : a.ramps engines c h = false := Bool.eq_false_iff.2 fun hr => by
    have running := (ramps_iff.1 hr).1
    rw [hs] at running
    cases running
  rw [plantAfter, flat, roughed_valve hk, roughingRule_plant, hs]
  rfl

theorem plantAfter_ramped (hn : (a.record c h).kind ≠ .roughValve ∨ engines[c].state ≠ .idle)
    (hr : a.ramps engines c h = true) :
    a.plantAfter engines c h slot = handRamp c h (a.passed engines c h slot) a.state.plant := by
  rw [plantAfter, if_pos hr, roughed_plant_other hn]

theorem plantAfter_flat (hn : (a.record c h).kind ≠ .roughValve ∨ engines[c].state ≠ .idle)
    (hr : ¬a.ramps engines c h = true) : a.plantAfter engines c h slot = a.state.plant := by
  rw [plantAfter, if_neg hr, roughed_plant_other hn]

end Passage
end Sys2Proof.Machine
end

/-! ### A passage, slot by slot (R3, R81, R93) -/
section
namespace Sys2Proof.Machine

/-! #### What one slot leaves of the tables -/

theorem Passage.computeSlot_sameFacts (engines : Vector Engine 4) (c : Chamber) (h : Chan) (slot : Slot) (a : Passage) :
    a.state.SameFacts (computeSlot engines c h slot a).2.state := by
  rw [Passage.computeSlot_eq]
  generalize a.passed engines c h slot = v
  generalize hs : ({ a.state with plant := a.plantAfter engines c h slot } : State) = s
  have facts : a.state.SameFacts s := by rw [← hs]; exact ⟨rfl, fun _ _ => rfl, rfl, rfl⟩
  refine facts.trans ⟨?_, State.carry_record s c h v, ?_, ?_⟩ <;>
  · unfold State.carry
    dsimp only
    split <;> rfl

section
variable {engines : Vector Engine 4} {k : Nat} {slot : Slot} {a : Passage} {c : Chamber} {h : Chan}

theorem substituteSlot_setpoint (hu : a.state.slotUse k = .channel c h)
    (hk : (a.state.channel c h).record.kind.isSetpoint = true) :
    substituteSlot engines k slot a = computeSlot engines c h slot a := by
  simp only [substituteSlot, hu]
  exact if_pos hk

/-- A slot of no setpoint channel changes nothing (R3). -/
theorem substituteSlot_other
    (hu : ∀ c h, a.state.slotUse k = .channel c h → (a.state.channel c h).record.kind.isSetpoint = false) :
    substituteSlot engines k slot a = (slot, a) := by
  unfold substituteSlot
  split
  · next c h hc => exact if_neg (by rw [show (a.state.ctx.record c h).kind.isSetpoint = false from hu c h hc]; simp)
  · rfl
  · rfl

end

theorem substituteSlot_sameFacts (engines : Vector Engine 4) (k : Nat) (slot : Slot) (a : Passage) :
    a.state.SameFacts (substituteSlot engines k slot a).2.state := by
  unfold substituteSlot
  split
  · split
    · exact Passage.computeSlot_sameFacts engines _ _ slot a
    · exact .refl _
  · exact .refl _
  · exact .refl _

/-! #### The passage as a run of its slots -/

theorem substituteSlots_cons (engines : Vector Engine 4) (k : Nat) (slot : Slot) (rest : List Slot) (a : Passage) :
    substituteSlots engines k (slot :: rest) a =
      ((substituteSlot engines k slot a).1 :: (substituteSlots engines (k + 1) rest (substituteSlot engines k slot a).2).1,
        (substituteSlots engines (k + 1) rest (substituteSlot engines k slot a).2).2) := rfl

theorem substituteSlots_length (engines : Vector Engine 4) (k : Nat) (slots : List Slot) (a : Passage) :
    (substituteSlots engines k slots a).1.length = slots.length := by
  induction slots generalizing k a with
  | nil => rfl
  | cons slot rest ih => rw [substituteSlots_cons, List.length_cons, ih, List.length_cons]

theorem substituteSlots_append (engines : Vector Engine 4) (k : Nat) (before after : List Slot) (a : Passage) :
    substituteSlots engines k (before ++ after) a =
      ((substituteSlots engines k before a).1 ++
          (substituteSlots engines (k + before.length) after (substituteSlots engines k before a).2).1,
        (substituteSlots engines (k + before.length) after (substituteSlots engines k before a).2).2) := by
  induction before generalizing k a with
  | nil => rfl
  | cons slot rest ih =>
    rw [List.cons_append, substituteSlots_cons, ih, substituteSlots_cons, List.length_cons,
      show k + 1 + rest.length = k + (rest.length + 1) by omega]
    rfl

theorem substituteSlots_sameFacts (engines : Vector Engine 4) (k : Nat) (slots : List Slot) (a : Passage) :
    a.state.SameFacts (substituteSlots engines k slots a).2.state := by
  induction slots generalizing k a with
  | nil => exact .refl _
  | cons slot rest ih => exact (substituteSlot_sameFacts engines k slot a).trans (ih _ _)

/-- What the first k slots of a passage leave. -/
def State.passageAt (s : State) (slots : List Slot) (k : Nat) : Passage :=
  (substituteSlots s.plant.engines 0 (slots.take k) { state := s, remaining := s.plant.arbiter.allowance }).2

section
variable {s : State} {slots : List Slot} {k : Nat} {slot : Slot}

theorem State.passageAt_sameFacts (s : State) (slots : List Slot) (k : Nat) : s.SameFacts (s.passageAt slots k).state :=
  substituteSlots_sameFacts _ _ _ { state := s, remaining := s.plant.arbiter.allowance }

theorem State.SameFacts.slotUse {t : State} (facts : s.SameFacts t) (k : Nat) : t.slotUse k = s.slotUse k := by
  unfold State.slotUse
  rw [facts.slotMap]

/-- A passage taken apart at slot k: the slots before it, the slot, and the slots after it. -/
theorem State.substitute_split (hk : slots[k]? = some slot) :
    (s.substitute slots).1[k]? = some (substituteSlot s.plant.engines k slot (s.passageAt slots k)).1 ∧
      s.passageAt slots (k + 1) = (substituteSlot s.plant.engines k slot (s.passageAt slots k)).2 ∧
      (s.substitute slots).2 =
        (substituteSlots s.plant.engines (k + 1) (slots.drop (k + 1)) (s.passageAt slots (k + 1))).2.state := by
  obtain ⟨hlt, hat⟩ := List.getElem?_eq_some_iff.1 hk
  have length : (slots.take k).length = k := List.length_take_of_le hlt.le
  have next : slots.take (k + 1) = slots.take k ++ [slot] := by rw [List.take_add_one, hk]; rfl
  have parts : slots = slots.take k ++ slot :: slots.drop (k + 1) := by
    rw [← hat, ← List.drop_eq_getElem_cons hlt, List.take_append_drop]
  have after : s.passageAt slots (k + 1) = (substituteSlot s.plant.engines k slot (s.passageAt slots k)).2 := by
    rw [State.passageAt, next, substituteSlots_append, length, Nat.zero_add]
    rfl
  refine ⟨?_, after, ?_⟩
  · rw [State.substitute]
    conv_lhs => rw [parts]
    rw [substituteSlots_append, length, Nat.zero_add, substituteSlots_cons]
    dsimp only
    rw [List.getElem?_append_right (by rw [substituteSlots_length, length]), substituteSlots_length, length, Nat.sub_self]
    rfl
  · rw [after, State.substitute]
    conv_lhs => rw [parts]
    rw [substituteSlots_append, length, Nat.zero_add, substituteSlots_cons]
    rfl

end

/-! #### What the other slots leave of a channel, and of the line its chamber holds -/

/-- If channel h of chamber c is a ROUGH_VALVE, it is the chamber's only one (R7). -/
def State.SoleValve (s : State) (c : Chamber) (h : Chan) : Prop :=
  (s.channel c h).record.kind = .roughValve → ∀ i, (s.channel c i).record.kind = .roughValve → i = h

theorem State.SameFacts.soleValve {s t : State} {c : Chamber} {h : Chan} (facts : s.SameFacts t) (sole : s.SoleValve c h) :
    t.SoleValve c h := by
  unfold State.SoleValve
  simp only [facts.records]
  exact sole

theorem ChannelRules.soleValve {s : State} {c : Chamber} {h : Chan}
    (rules : ChannelRules (fun j => (s.channel c j).record) h) : s.SoleValve c h :=
  fun valve i hi => rules.single (by rw [valve]; rfl) i (hi.trans valve.symm)

/-- The channel keeps its state, and its chamber the line if it holds it. -/
structure Passage.Spares (c : Chamber) (h : Chan) (a b : Passage) : Prop where
  channel : b.state.channel c h = a.state.channel c h
  line : (a.state.channel c h).record.kind = .roughValve → a.state.plant.arbiter.line = .granted c →
    b.state.plant.arbiter.line = .granted c

theorem claimLine_keeps_holder {c d : Chamber} {p : Plant} (hl : p.arbiter.line = .granted c) :
    (claimLine d p).arbiter.line = .granted c := by
  rw [claimLine_eq]
  unfold Arbiter.claimed
  dsimp only
  rw [if_neg (by rw [hl]; simp)]
  split <;> exact hl

theorem endIdleClaim_keeps_holder {x : Ctx} {expire : Expire} {c d : Chamber} {p : Plant} (hl : p.arbiter.line = .granted c)
    (hne : c ≠ d) : (endIdleClaim x expire d p).arbiter.line = .granted c := by
  rw [endIdleClaim_withdraws (by rw [hl]; simpa using hne)]
  exact hl

section
variable {engines : Vector Engine 4} {c : Chamber} {h : Chan}

/-- A chamber has one ROUGH_VALVE (R7), so that the slot of another channel is no valve of a chamber with one. -/
theorem Passage.computeSlot_spares {d : Chamber} {j : Chan} (slot : Slot) (a : Passage) (hne : ¬(d = c ∧ j = h))
    (sole : a.state.SoleValve c h) :
    a.Spares c h (computeSlot engines d j slot a).2 := by
  rw [Passage.computeSlot_eq]
  refine ⟨State.carry_channel_ne hne, fun valve hl => ?_⟩
  rw [State.Safe.carry_plant]
  dsimp only
  rw [Passage.plantAfter_arbiter]
  by_cases hn : (a.record d j).kind ≠ .roughValve ∨ engines[d].state ≠ .idle
  · rw [Passage.roughed_plant_other hn]
    exact hl
  · rw [not_or, not_not, not_not] at hn
    have other : c ≠ d := by
      rintro rfl
      exact hne ⟨rfl, sole valve j hn.1⟩
    rw [← Passage.plantAfter_arbiter, Passage.plantAfter_idle_valve hn.1 hn.2]
    split
    · exact endIdleClaim_keeps_holder hl other
    · exact claimLine_keeps_holder hl

theorem substituteSlot_spares (k : Nat) (slot : Slot) (a : Passage) (hk : a.state.slotUse k ≠ .channel c h)
    (sole : a.state.SoleValve c h) :
    a.Spares c h (substituteSlot engines k slot a).2 := by
  unfold substituteSlot
  split
  · next d j hu =>
    split
    · exact Passage.computeSlot_spares slot a (fun ⟨hd, hj⟩ => hk (by rw [hu, hd, hj])) sole
    · exact ⟨rfl, fun _ => id⟩
  · exact ⟨rfl, fun _ => id⟩
  · exact ⟨rfl, fun _ => id⟩

theorem substituteSlots_spares (k : Nat) (slots : List Slot) (a : Passage)
    (hk : ∀ i, k ≤ i → a.state.slotUse i ≠ .channel c h)
    (sole : a.state.SoleValve c h) :
    a.Spares c h (substituteSlots engines k slots a).2 := by
  induction slots generalizing k a with
  | nil => exact ⟨rfl, fun _ => id⟩
  | cons slot rest ih =>
    have facts := substituteSlot_sameFacts engines k slot a
    have first := substituteSlot_spares (engines := engines) k slot a (hk k le_rfl) sole
    have others := ih (k + 1) (substituteSlot engines k slot a).2
      (fun i hi => by rw [facts.slotUse]; exact hk i (Nat.le_of_succ_le hi)) (facts.soleValve sole)
    exact ⟨others.channel.trans first.channel,
      fun valve hl => others.line (by rw [facts.records]; exact valve) (first.line valve hl)⟩

end

/-- The slots after one of a channel are slots of other channels (R1). -/
theorem State.SlotsDistinct.slotUse_ne {s : State} (distinct : s.SlotsDistinct) {k i : Nat} {c : Chamber} {h : Chan}
    (hk : s.slotUse k = .channel c h) (hi : k + 1 ≤ i) : s.slotUse i ≠ .channel c h := by
  unfold State.slotUse at hk ⊢
  intro hu
  split at hk
  · next hk' =>
    split at hu
    · next hi' =>
      have same := distinct ⟨k, hk'⟩ ⟨i, hi'⟩ (hk.trans hu.symm)
        (by rw [show s.slotMap[(⟨k, hk'⟩ : Fin 128)] = _ from hk]; simp)
      rw [Fin.mk.injEq] at same
      omega
    · cases hu
  · cases hk

/-! ### The statement -/

section
variable {s : State} {slots : List Slot} {k : Nat} {slot : Slot}

/-- A slot of no setpoint channel passes as received (R3). -/
theorem State.substitute_other (hk : slots[k]? = some slot)
    (hu : ∀ c h, s.slotUse k = .channel c h → (s.channel c h).record.kind.isSetpoint = false) :
    (s.substitute slots).1[k]? = some slot ∧ s.passageAt slots (k + 1) = s.passageAt slots k := by
  have facts := s.passageAt_sameFacts slots k
  obtain ⟨out, next, -⟩ := State.substitute_split (s := s) hk
  rw [substituteSlot_other fun c h hc => by rw [facts.records]; exact hu c h (by rw [← facts.slotUse]; exact hc)] at out next
  exact ⟨out, next⟩

variable {c : Chamber} {h : Chan}

/-- A slot of a setpoint channel is computed from what the slot before it left (R81). -/
theorem State.substitute_setpoint (hk : slots[k]? = some slot) (hu : s.slotUse k = .channel c h)
    (setpoint : (s.channel c h).record.kind.isSetpoint = true) :
    (s.substitute slots).1[k]? = some (computeSlot s.plant.engines c h slot (s.passageAt slots k)).1 ∧
      s.passageAt slots (k + 1) = (computeSlot s.plant.engines c h slot (s.passageAt slots k)).2 := by
  have facts := s.passageAt_sameFacts slots k
  obtain ⟨out, next, -⟩ := State.substitute_split (s := s) hk
  rw [substituteSlot_setpoint (by rw [facts.slotUse]; exact hu) (by rw [facts.records]; exact setpoint)] at out next
  exact ⟨out, next⟩

/-- What the passage leaves of a setpoint channel is what its slot left, the line of a valve's chamber included (R1, R7). -/
theorem State.substitute_spares (distinct : s.SlotsDistinct)
    (sole : s.SoleValve c h) (hk : slots[k]? = some slot) (hu : s.slotUse k = .channel c h) :
    ((s.substitute slots).2.channel c h) = (s.passageAt slots (k + 1)).state.channel c h ∧
      ((s.channel c h).record.kind = .roughValve → (s.passageAt slots (k + 1)).state.plant.arbiter.line = .granted c →
        (s.substitute slots).2.plant.arbiter.line = .granted c) := by
  have facts := s.passageAt_sameFacts slots (k + 1)
  have rest := substituteSlots_spares (engines := s.plant.engines) (c := c) (h := h) (k + 1) (slots.drop (k + 1))
    (s.passageAt slots (k + 1)) (fun i hi => by rw [facts.slotUse]; exact distinct.slotUse_ne hu hi)
    (facts.soleValve sole)
  rw [(State.substitute_split (s := s) hk).2.2]
  exact ⟨rest.channel, fun valve => rest.line (by rw [facts.records]; exact valve)⟩

end

/-! #### What a computed slot leaves -/

namespace Passage

variable {engines : Vector Engine 4} {c : Chamber} {h : Chan} {slot : Slot} {a : Passage}

theorem computeSlot_carried :
    ((computeSlot engines c h slot a).2.state.channel c h).status.carried = a.passed engines c h slot :=
  State.carry_carried _ _ _ _

theorem computeSlot_plant : (computeSlot engines c h slot a).2.state.plant = a.plantAfter engines c h slot :=
  State.Safe.carry_plant _ _ _ _

/-- An unchanged value leaves the channel and the guards (R16). -/
theorem computeSlot_same (hv : a.passed engines c h slot = (a.state.channel c h).status.carried) :
    (computeSlot engines c h slot a).2.state = { a.state with plant := a.plantAfter engines c h slot } :=
  State.carry_same hv

/-- A changed one is the new carried value, with its change time, and restarts grace (R16, R107). -/
theorem computeSlot_changed (hv : a.passed engines c h slot ≠ (a.state.channel c h).status.carried) :
    (computeSlot engines c h slot a).2.state =
      { a.state.setChannel c h (a.state.carrying c h (a.passed engines c h slot)) with
        plant := a.plantAfter engines c h slot
        guards := a.state.guards.set c (Vector.ofFn (a.state.regraced c h)) } :=
  State.carry_guards hv

theorem sent_gateFlags_lt : (a.sent engines c h slot).gateFlags.toNat < 8 := gateFlags_lt _ _ _

theorem sent_substituted :
    (a.sent engines c h slot).gateFlags.getLsbD 0 = ((a.sent engines c h slot).setpoint != slot.setpoint) :=
  gateFlags_substituted _ _ _

theorem sent_clamped :
    (a.sent engines c h slot).gateFlags.getLsbD 1 = (a.clamped engines c h slot != a.base engines c h slot) :=
  gateFlags_clamped _ _ _

/-- The roughing rule at the valve of an IDLE chamber: an open value claims the line, a closed one ends the claim (R89, R90). -/
theorem plantAfter_claims (hk : (a.record c h).kind = .roughValve) (hs : engines[c].state = .idle)
    (hv : a.clamped engines c h slot ≠ 0) :
    a.plantAfter engines c h slot = { a.state.plant with arbiter := a.state.plant.arbiter.claimed c } := by
  rw [plantAfter_idle_valve hk hs, if_neg hv, claimLine_eq]

theorem plantAfter_ends (hk : (a.record c h).kind = .roughValve) (hs : engines[c].state = .idle)
    (hv : a.clamped engines c h slot = 0) :
    a.plantAfter engines c h slot = endIdleClaim a.state.ctx (expireNow a.state.ctx) c a.state.plant := by
  rw [plantAfter_idle_valve hk hs, if_pos hv]

end Passage

/-- The value a setpoint channel is left with, on its slot and within its limits (R86, R88, R91). -/
theorem State.substitute_within {s : State} {slots : List Slot} {k : Nat} {slot : Slot} {c : Chamber} {h : Chan}
    (sound : s.RecordsSound) (distinct : s.SlotsDistinct) (hk : slots[k]? = some slot) (hu : s.slotUse k = .channel c h)
    (setpoint : (s.channel c h).record.kind.isSetpoint = true) :
    let r := (s.channel c h).record
    let after := (s.substitute slots).2
    let out := (s.passageAt slots k).sent s.plant.engines c h slot
    let v := (after.channel c h).status.carried
    out.setpoint = BitVec.ofNat 16 (valueToWord r v) ∧ (r.lo ≤ v ∧ v ≤ r.hi ∨ r.kind = .roughValve ∧ v = 0) ∧
      (r.kind = .roughValve → v ≠ 0 → after.plant.arbiter.line = .granted c) := by
  intro r after out v
  have rules : ChannelRules (fun j => (s.channel c j).record) h := sound.channels c h
  have record : (s.passageAt slots k).record c h = r := (s.passageAt_sameFacts slots k).records c h
  obtain ⟨channel, line⟩ := State.substitute_spares distinct rules.soleValve hk hu
  have next := (State.substitute_setpoint hk hu setpoint).2
  have carried : v = (s.passageAt slots k).passed s.plant.engines c h slot := by
    rw [← Passage.computeSlot_carried, ← next, ← channel]
  refine ⟨?_, ?_, fun valve hv => line valve ?_⟩
  · rw [carried, ← record]
    rfl
  · rw [carried, ← record]
    exact Passage.passed_within (by rw [record]; exact (rules.limits setpoint).1) (by rw [record]; exact rules.gasLow)
  · rw [next, Passage.computeSlot_plant]
    by_contra ungranted
    exact hv (carried.trans (Passage.passed_ungranted (by rw [record]; exact valve) ungranted))

/-- Settles O55. -/
theorem passageKeepsLimits : Obligations.PassageKeepsLimits := by
  refine ⟨fun s slots => ⟨s.passageAt slots, rfl, ?_, substituteSlots_length _ _ _ _, fun k slot hk => ?_⟩,
    fun s slots k slot sound distinct hk => ?_, fun engines c h slot a => ?_⟩
  · rw [State.passageAt, List.take_length]
    rfl
  · dsimp only
    split
    · next c h hu =>
      split
      · next setpoint => exact State.substitute_setpoint hk hu setpoint
      · next setpoint => exact State.substitute_other hk (by simpa [hu] using setpoint)
    · next hu => exact State.substitute_other hk (by simp [hu])
    · next hu => exact State.substitute_other hk (by simp [hu])
  · dsimp only
    split
    · next c h hu =>
      split
      · next setpoint =>
        obtain ⟨word, within, granted⟩ := State.substitute_within sound distinct hk hu setpoint
        exact ⟨_, (State.substitute_setpoint hk hu setpoint).1, rfl, rfl, word, within, granted,
          Passage.sent_substituted, Passage.sent_gateFlags_lt⟩
      · next setpoint => exact ⟨slot, (State.substitute_other hk (by simpa [hu] using setpoint)).1, rfl, rfl, rfl⟩
    · next hu => exact ⟨slot, (State.substitute_other hk (by simp [hu])).1, rfl, rfl, rfl⟩
    · next hu => exact ⟨slot, (State.substitute_other hk (by simp [hu])).1, rfl, rfl, rfl⟩
  · intro s r e step controller base clamped out done v held ramped
    have carried : v = a.passed engines c h slot := Passage.computeSlot_carried
    have plant : done.state.plant = a.plantAfter engines c h slot := Passage.computeSlot_plant
    have ramps : ramped ↔ a.ramps engines c h = true := Passage.ramps_iff.symm
    refine ⟨baseValue_idle, baseValue_safe, baseValue_controller, fun ho hs => ?_, fun ho hs => ⟨fun sp hsp hr => ?_,
      fun flat => ?_⟩, ?_, fun hk hs => ⟨?_, ?_⟩, fun hk => ⟨fun hl => ?_, fun hl => ?_⟩, fun hk hn => ?_, fun hn => ?_,
      Passage.sent_gateFlags_lt, Passage.sent_substituted, Passage.sent_clamped, ?_, fun hn => ?_,
      fun hk hs => ⟨fun hv => ?_, fun hv => ⟨fun hl => ?_, fun hl ht => ?_, fun hl ht => ?_⟩⟩,
      fun hn => ⟨fun hr => ?_, fun hr => ?_⟩, fun hv => ?_, fun hv => ?_⟩
    -- R82
    · exact baseValue_output ho (.inr hs) (rampedEntry_of_not_running (by rcases hs with hs | hs | hs <;> rw [hs] <;> simp))
    · exact baseValue_ramped ho hs hsp hr
    · exact baseValue_output ho (.inl hs) (rampedEntry_eq_none flat)
    -- R86 to R91
    · rw [carried]
      rfl
    · exact carried.trans (Passage.passed_gasFlow hk hs)
    · exact congrArg (fun left => a.remaining.set c left.2.1) (Passage.allowed_gasFlow hk hs)
    · exact carried.trans (Passage.passed_granted hk (plant ▸ hl))
    · exact carried.trans (Passage.passed_ungranted hk (plant ▸ hl))
    · exact carried.trans (Passage.passed_other hk hn)
    · exact Passage.remaining_other hn
    -- R92
    · rw [carried]
      exact Passage.sent_forced_iff
    -- R89, R90
    · rw [plant, Passage.plantAfter_arbiter, Passage.roughed_plant_other hn]
    · exact plant.trans (Passage.plantAfter_claims hk hs hv)
    · exact plant.trans ((Passage.plantAfter_ends hk hs hv).trans (endIdleClaim_withdraws hl))
    · exact plant.trans ((Passage.plantAfter_ends hk hs hv).trans (endIdleClaim_settles hl ht))
    · exact plant.trans ((Passage.plantAfter_ends hk hs hv).trans (endIdleClaim_selects hl ht))
    -- R85
    · rw [plant, carried]
      exact Passage.plantAfter_ramped hn (ramps.1 hr)
    · exact plant.trans (Passage.plantAfter_flat hn (mt ramps.2 hr))
    -- R16, R107
    · rw [plant]
      exact Passage.computeSlot_same (carried.symm.trans hv)
    · rw [plant, carried]
      exact Passage.computeSlot_changed (carried ▸ hv)

end Sys2Proof.Machine
end

/-! ### Every command keeps the part safe (R38, R67, R117, R119 to R121, R126, R127, R168) -/
section
namespace Sys2Proof.Machine

namespace State.Safe

variable {s : State}

/-- The part after power-on reset is safe, the model's own fields as they stand (R152). -/
theorem powerOn (s : State) : s.powerOn.Safe := State.Safe.reset.congr rfl rfl

/-- Whatever the class of a frame received outbound (R142, R143). -/
theorem outboundPassage (h : s.Safe) (time : Nat) (bytes : List Byte) {t : State}
    (ht : execOutboundPassage time bytes s = .next t) : t.Safe := by
  unfold execOutboundPassage at ht
  injection ht with ht
  subst ht
  split
  · exact h
  · split
    · exact h
    · exact h
    · next f _ => exact (show (s.advanceTo time).Safe from h).takeOutbound f

/-- Whatever the class of a frame received on its return (R142, R144). -/
theorem returnPassage (h : s.Safe) (time : Nat) (bytes : List Byte) {t : State}
    (ht : execReturnPassage time bytes s = .next t) : t.Safe := by
  unfold execReturnPassage at ht
  injection ht with ht
  subst ht
  split
  · exact h
  · split
    · exact h
    · exact h
    · next f _ => exact (show (s.advanceTo time).Safe from h).takeReturn f

/-! #### The events between frames -/

theorem growthServed (h : s.Safe) (c : Chamber) {t : State} (ht : execGrowthServed c s = .next t) : t.Safe := by
  unfold execGrowthServed at ht
  injection ht with ht
  subst ht
  split
  · exact h
  · split
    · exact h.examineGrowth
    · exact h

/-- A selection made by a command of its own chooses a chamber of the roughing queue. -/
theorem lineGranted (h : s.Safe) (c : Chamber) {t : State} (ht : execLineGranted c s = .next t) : t.Safe := by
  unfold execLineGranted at ht
  injection ht with ht
  subst ht
  split
  · exact h
  · next time _ =>
    split
    · next hc =>
      exact (show (s.advanceTo time).Safe from h).onPlant fun q => q.grantLine (expireNow_keeps _ _) (Plant.chosen_mem hc)
    · exact h

theorem dwellExpiry (h : s.Safe) (c : Chamber) {t : State} (ht : execDwellExpiry c s = .next t) : t.Safe := by
  unfold execDwellExpiry at ht
  injection ht with ht
  subst ht
  split
  · exact h
  · next time _ =>
    split
    · exact (show (s.advanceTo time).Safe from h).onPlant fun q => q.dwellEnds (expireNow_keeps _ _) id
    · exact h

theorem settleExpiry (h : s.Safe) {t : State} (ht : execSettleExpiry s = .next t) : t.Safe := by
  unfold execSettleExpiry at ht
  injection ht with ht
  subst ht
  split
  · next time _ => exact (show (s.advanceTo time).Safe from h).onPlant fun q => q.selectLine (expireNow_keeps _ _)
  · exact h
  · exact h

theorem ringWatchExpiry (h : s.Safe) {t : State} (ht : execRingWatchExpiry s = .next t) : t.Safe := by
  unfold execRingWatchExpiry at ht
  injection ht with ht
  subst ht
  split
  · exact h
  · next time _ =>
    split
    · exact (show (s.advanceTo time).Safe from h).loseRing
    · exact h

theorem inputLevelChange (h : s.Safe) (time : Nat) (l : Line) (high : Bool) {t : State}
    (ht : execInputLevelChange time l high s = .next t) : t.Safe := by
  unfold execInputLevelChange at ht
  injection ht with ht
  subst ht
  split
  · exact h
  · exact (show (s.advanceTo time).Safe from h).changeLevel l high

theorem inputAcceptance (h : s.Safe) (l : Line) {t : State} (ht : execInputAcceptance l s = .next t) : t.Safe := by
  unfold execInputAcceptance at ht
  injection ht with ht
  subst ht
  split
  · exact h
  · next time _ => exact (show (s.advanceTo time).Safe from h).acceptLevel l

/-- Every command keeps the part safe. -/
theorem exec (h : s.Safe) {t : State} : ∀ i : Instr, exec i s = .next t → t.Safe
  | .outboundPassage time bytes => h.outboundPassage time bytes
  | .returnPassage time bytes => h.returnPassage time bytes
  | .read _ _ => by rintro ⟨⟩; exact h.takeRecord _ h
  | .write table _ => by rintro ⟨⟩; exact h.takeRecord _ (h.writeTable table.toNat)
  | .slotMapWrite _ => by rintro ⟨⟩; exact h.takeRecord _ h.writeSlotMap
  | .channelWrite _ => by rintro ⟨⟩; exact h.takeRecord _ h.writeChannel
  | .stepWrite _ => by rintro ⟨⟩; exact h.takeRecord _ h.writeStep
  | .guardWrite _ => by rintro ⟨⟩; exact h.takeRecord _ h.writeGuard
  | .levelWrite _ => by rintro ⟨⟩; exact h.takeRecord _ h.writeLevel
  | .inputWrite _ => by rintro ⟨⟩; exact h.takeRecord _ h.writeInput
  | .arbiterWrite _ => by rintro ⟨⟩; exact h.takeRecord _ h.writeArbiter
  | .ringWrite _ => by rintro ⟨⟩; exact h.takeRecord _ h.writeRing
  | .noticeWrite _ => by rintro ⟨⟩; exact h.takeRecord _ h.writeNotice
  | .stepCheck _ => by rintro ⟨⟩; exact h.takeRecord _ h.checkSteps
  | .levelCheck _ => by rintro ⟨⟩; exact h.takeRecord _ h.checkLevels
  | .checkNoObject table _ => by rintro ⟨⟩; exact h.takeRecord _ (h.checkTable table.toNat)
  | .start _ => by rintro ⟨⟩; exact h.takeRecord _ h.commandStart
  | .hold _ => by rintro ⟨⟩; exact h.takeRecord _ h.commandHold
  | .resume _ => by rintro ⟨⟩; exact h.takeRecord _ h.commandResume
  | .abort _ => by rintro ⟨⟩; exact h.takeRecord _ h.commandAbort
  | .release _ => by rintro ⟨⟩; exact h.takeRecord _ h.commandRelease
  | .clear _ => by rintro ⟨⟩; exact h.takeRecord _ h.commandClear
  | .lock _ => by rintro ⟨⟩; exact h.takeRecord _ h
  | .assign _ => by rintro ⟨⟩; exact h.takeRecord _ h.commandAssign
  | .restartPart _ => by rintro ⟨⟩; split; exacts [h.softReset, h]
  | .broadcast command _ => by rintro ⟨⟩; exact h.broadcast command.toNat
  | .growthServed c => h.growthServed c
  | .lineGranted c => h.lineGranted c
  | .dwellExpiry c => h.dwellExpiry c
  | .settleExpiry => h.settleExpiry
  | .ringWatchExpiry => h.ringWatchExpiry
  | .inputLevelChange time l high => h.inputLevelChange time l high
  | .inputAcceptance l => h.inputAcceptance l
  | .graceLapse _ _ => by rintro ⟨⟩; split; exacts [h, h]
  | .powerOnReset _ => by rintro ⟨⟩; split; exacts [powerOn s, h]
  | .resetEnd => by rintro ⟨⟩; split; exacts [h, h]

end State.Safe

/-- Settles O3: an empty queue idles, and every command keeps the part safe. -/
theorem stepKeepsSafe : Obligations.StepKeepsSafe := by
  intro s t h ht
  unfold step at ht
  split at ht
  · injection ht with ht
    exact ht ▸ h
  · next i rest _ => exact (show ({ s with pending := rest } : State).Safe from h).exec i ht

end Sys2Proof.Machine
end

/-! ### What an event other than a write, a CHECK or a START leaves: the tables, and no new sequence range (R38 to R40) -/
section
namespace Sys2Proof.Machine

namespace Plant.Leaves

variable {p q : Plant} {x : Ctx}

/-- An operation done for one member of a list after another. -/
theorem forEach {α : Type} {f : Plant → α → Plant} (hf : ∀ {q : Plant} a, Plant.Leaves p q → Plant.Leaves p (f q a))
    (h : Plant.Leaves p q) (l : List α) : Plant.Leaves p (l.foldl f q) := by
  induction l generalizing q with
  | nil => exact h
  | cons a rest ih => exact ih (hf a h)

theorem applyTrip (h : Plant.Leaves p q) (c : Chamber) (g : GuardIndex) (a : GuardAction) :
    Plant.Leaves p (applyTrip x c g a q) := by
  unfold Machine.applyTrip
  dsimp only
  split
  · exact (h.notify c .guardTrip g.val).enterSafe (leaves_expireNow x) c
  · exact h.notify c .guardTrip g.val

theorem applyTrips (h : Plant.Leaves p q) (trips : List (Chamber × GuardIndex × GuardAction)) :
    Plant.Leaves p (applyTrips x trips q) := h.forEach (fun t k => k.applyTrip t.1 t.2.1 t.2.2) trips

theorem examineDemand (h : Plant.Leaves p q) (guards : Vector (Vector GuardEntry 16) 4) (c : Chamber) :
    Plant.Leaves p (examineDemand x guards c q) := by
  unfold Machine.examineDemand
  dsimp only
  split
  · split
    · exact h
    · exact h.addSource (leaves_expireNow x) c _ _
  · split
    · exact h.removeSources (leaves_expireNow x) c _
    · exact h

theorem examineDemands (h : Plant.Leaves p q) (guards : Vector (Vector GuardEntry 16) 4) (cs : List Chamber) :
    Plant.Leaves p (examineDemands x guards cs q) := h.forEach (fun c k => k.examineDemand guards c) cs

theorem roughingRule (h : Plant.Leaves p q) (c : Chamber) (idle : Bool) (v : Nat) :
    Plant.Leaves p (roughingRule x c idle v q).1 := by
  rw [roughingRule_plant]
  split
  · split
    · exact h.endIdleClaim (leaves_expireNow x) c
    · exact h.claimLine c
  · exact h

theorem computed (h : Plant.Leaves p q) {a : Passage} (ha : a.state.plant = q) (engines : Vector Engine 4) (c : Chamber)
    (k : Chan) (slot : Slot) : Plant.Leaves p (a.plantAfter engines c k slot) := by
  have roughed : Plant.Leaves p (a.roughed engines c k slot).1 := by
    unfold Passage.roughed
    split
    · exact ha ▸ h.roughingRule c _ _
    · exact ha ▸ h
  unfold Passage.plantAfter
  split
  · exact roughed.setEngine c _ (.inl rfl)
  · exact roughed

end Plant.Leaves

/-- The tables that sequences stand on are the same, and every sequence range is kept or given up. -/
structure State.Undisturbed (s t : State) : Prop where
  facts : s.SameFacts t
  ranges : ∀ c : Chamber, (t.engine c).range = (s.engine c).range ∨ (t.engine c).range = none

namespace State.Undisturbed

variable {s t u : State}

theorem refl (s : State) : s.Undisturbed s := ⟨.refl s, fun _ => .inl rfl⟩

theorem trans (h : s.Undisturbed t) (k : t.Undisturbed u) : s.Undisturbed u :=
  ⟨h.facts.trans k.facts, fun c => (k.ranges c).elim (fun e => (h.ranges c).imp e.trans e.trans) .inr⟩

/-- An operation on nothing that a sequence stands on, with the engines as they were. -/
theorem of_same (facts : s.SameFacts t) (engines : t.plant.engines = s.plant.engines) : s.Undisturbed t :=
  ⟨facts, fun c => .inl (by unfold State.engine Plant.engine; rw [engines])⟩

/-- An operation of the engines and the arbiter other than START. -/
theorem of_leaves (facts : s.SameFacts t) (leaves : s.plant.Leaves t.plant) : s.Undisturbed t := ⟨facts, leaves.range⟩

theorem onPlant {f : Ctx → Plant → Plant} (leaves : s.plant.Leaves (f s.ctx s.plant)) : s.Undisturbed (s.onPlant f) :=
  of_leaves ⟨rfl, fun _ _ => rfl, rfl, rfl⟩ leaves

/-! #### Guards and input lines -/

theorem guardPass (which : Chamber → GuardIndex → Bool) (ds : List Chamber) (s : State) :
    s.Undisturbed (s.guardPass which ds) :=
  of_leaves (.guardPass which ds s) (((Plant.Leaves.refl s.plant).applyTrips _).examineDemands _ _)

theorem setInput (s : State) (l : Line) (i : InputLine) : s.Undisturbed (s.setInput l i) :=
  of_same ⟨rfl, fun _ _ => rfl, rfl, rfl⟩ rfl

theorem setGuard (s : State) (c : Chamber) (g : GuardIndex) (e : GuardEntry) : s.Undisturbed (s.setGuard c g e) :=
  of_same ⟨rfl, fun _ _ => rfl, rfl, rfl⟩ rfl

theorem acceptLevel (s : State) (l : Line) : s.Undisturbed (s.acceptLevel l) :=
  (setInput s l _).trans (guardPass _ _ _)

theorem changeLevel (s : State) (l : Line) (high : Bool) : s.Undisturbed (s.changeLevel l high) := by
  unfold State.changeLevel
  dsimp only
  split
  · exact .refl s
  · split
    · exact setInput s l _
    · split
      · exact setInput s l _
      · split
        · exact (setInput s l _).trans (acceptLevel _ l)
        · exact setInput s l _

/-! #### Frames, cycles and the ring -/

theorem advanceTo (s : State) (time : Nat) : s.Undisturbed (s.advanceTo time) :=
  of_same ⟨rfl, fun _ _ => rfl, rfl, rfl⟩ rfl

theorem sendDown (s : State) (bytes : List Byte) : s.Undisturbed (s.sendDown bytes) :=
  of_same ⟨rfl, fun _ _ => rfl, rfl, rfl⟩ rfl

theorem sendUp (s : State) (bytes : List Byte) : s.Undisturbed (s.sendUp bytes) :=
  of_same ⟨rfl, fun _ _ => rfl, rfl, rfl⟩ rfl

theorem setPending (s : State) (waiting : List Instr) : s.Undisturbed { s with pending := waiting } :=
  of_same ⟨rfl, fun _ _ => rfl, rfl, rfl⟩ rfl

theorem setRing (s : State) (r : Ring) : s.Undisturbed { s with ring := r } :=
  of_same ⟨rfl, fun _ _ => rfl, rfl, rfl⟩ rfl

theorem setResponses (s : State) (rs : List Response) : s.Undisturbed { s with responses := rs } :=
  of_same ⟨rfl, fun _ _ => rfl, rfl, rfl⟩ rfl

theorem endReset (s : State) : s.Undisturbed s.endReset := of_same ⟨rfl, fun _ _ => rfl, rfl, rfl⟩ rfl

theorem notifyRing (s : State) (i : NoticeIndex) (detail : Nat) : s.Undisturbed (s.notifyRing i detail) :=
  of_same ⟨rfl, fun _ _ => rfl, rfl, rfl⟩ rfl

theorem drivePermits (s : State) : s.Undisturbed s.drivePermits := of_same ⟨rfl, fun _ _ => rfl, rfl, rfl⟩ rfl

/-- A cycle close changes the status of a channel, not its record (R9). -/
theorem takeReadings (s : State) (slots : List Slot) : s.Undisturbed (s.takeReadings slots) := by
  refine of_same ⟨rfl, fun c h => ?_, rfl, rfl⟩ rfl
  rw [State.takeReadings_channel]
  unfold Channel.close
  split
  · split <;> rfl
  · rfl

theorem evaluateConditions (s : State) (running : Chamber → Bool) : s.Undisturbed (s.evaluateConditions running) := by
  refine onPlant ((Plant.Leaves.refl s.plant).forEach (fun c k => ?_) _)
  split
  · exact k.evaluateCondition (leaves_expireNow _) c
  · exact k

theorem closeCycle (s : State) (slots : List Slot) : s.Undisturbed (s.closeCycle slots) :=
  ((takeReadings s slots).trans (guardPass _ _ _)).trans (evaluateConditions _ _)

theorem overrun (s : State) : s.Undisturbed s.overrun := by
  unfold State.overrun
  split
  · exact closeCycle s []
  · exact .refl s

theorem loseRing (s : State) : s.Undisturbed s.loseRing := by
  unfold State.loseRing
  dsimp only
  refine trans ?_ (onPlant ((Plant.Leaves.refl _).forEach (fun c k => k.loseRing (leaves_expireNow _) c) _))
  exact ((notifyRing s _ _).trans (setRing _ _)).trans (drivePermits _)

theorem arrival (s : State) : s.Undisturbed s.arrival := by
  have driven := (setRing s (s.ring.arrive s.now).1).trans (drivePermits _)
  have raised : s.Undisturbed (if (s.ring.state == .lost) = true then
      ({ s with ring := (s.ring.arrive s.now).1 }.drivePermits).notifyRing ringUpSlot 0
      else { s with ring := (s.ring.arrive s.now).1 }.drivePermits) := by
    split
    · exact driven.trans (notifyRing _ _ _)
    · exact driven
  unfold State.arrival
  dsimp only
  split
  · exact raised
  · exact raised.trans (notifyRing _ _ _)

theorem openCycleWith (s : State) (cycle : Nat) : s.Undisturbed (s.openCycleWith cycle) := setRing s _

theorem substituteSlot (engines : Vector Engine 4) (k : Nat) (slot : Slot) (a : Passage) :
    a.state.Undisturbed (Machine.substituteSlot engines k slot a).2.state := by
  refine ⟨substituteSlot_sameFacts engines k slot a, ?_⟩
  unfold Machine.substituteSlot
  split
  · split
    · unfold State.engine
      rw [Passage.computeSlot_plant]
      exact ((Plant.Leaves.refl _).computed rfl engines _ _ slot).range
    · exact fun _ => .inl rfl
  · exact fun _ => .inl rfl
  · exact fun _ => .inl rfl

theorem substituteSlots (engines : Vector Engine 4) (k : Nat) (slots : List Slot) (a : Passage) :
    a.state.Undisturbed (Machine.substituteSlots engines k slots a).2.state := by
  induction slots generalizing k a with
  | nil => exact .refl _
  | cons slot rest ih => exact (substituteSlot engines k slot a).trans (ih (k + 1) _)

theorem substitute (s : State) (slots : List Slot) : s.Undisturbed (s.substitute slots).2 :=
  substituteSlots s.plant.engines 0 slots { state := s, remaining := s.plant.arbiter.allowance }

/-- The outbound frame as far as its slots (R143). -/
theorem opened (s : State) (time : Nat) (f : Frame) :
    s.Undisturbed ((((s.advanceTo time).arrival.overrun).openCycleWith f.cycle.toNat).substitute f.slots).2 :=
  ((((advanceTo s time).trans (arrival _)).trans (overrun _)).trans (openCycleWith _ _)).trans (substitute _ _)

theorem matchReturn (s : State) (f : Frame) : s.Undisturbed (s.matchReturn f) := by
  unfold State.matchReturn
  split
  · exact (closeCycle s f.slots).trans (setRing _ _)
  · exact .refl s

theorem postNotices (s : State) (mailbox : List (List Byte)) : s.Undisturbed (s.postNotices mailbox).2 :=
  of_same ⟨rfl, fun _ _ => rfl, rfl, rfl⟩ rfl

theorem takeReturn (s : State) (f : Frame) : s.Undisturbed (s.takeReturn f).1 :=
  ((matchReturn s f).trans (setResponses _ _)).trans (postNotices _ _)

theorem softReset (s : State) : s.Undisturbed s.softReset := by
  refine ⟨.softReset s, ?_⟩
  unfold State.softReset
  refine fun c => .inr (((guardPass _ _ _).ranges c).elim (fun e => e.trans ?_) id)
  simp [State.engine, Plant.engine]

/-! #### Chamber commands other than START -/

theorem holdChamber (c : Chamber) (s : State) : s.Undisturbed (Machine.holdChamber c s).1 := by
  refine ⟨.chamberStep (n := 0) (m := 0) (by simp) c s, ?_⟩
  have added := ((Plant.Leaves.refl s.plant).addSource (x := s.ctx) (leaves_expireNow s.ctx) c .controller false).range
  unfold Machine.holdChamber
  split
  iterate 3 exact added
  all_goals exact fun _ => .inl rfl

theorem resumeChamber (mode : Nat) (c : Chamber) (s : State) : s.Undisturbed (Machine.resumeChamber mode c s).1 := by
  refine ⟨.chamberStep (n := 0) (m := mode) (by simp) c s, ?_⟩
  unfold Machine.resumeChamber
  split
  · exact fun _ => .inl rfl
  · split
    · exact fun _ => .inl rfl
    · exact (((Plant.Leaves.refl s.plant).setEngine c _ (.inl (by rfl))).removeSources (leaves_expireNow s.ctx) c _).range

theorem abortChamber (c : Chamber) (s : State) : s.Undisturbed (Machine.abortChamber c s).1 := by
  refine ⟨.chamberStep (n := 0) (m := 0) (by simp) c s, ?_⟩
  have aborted := ((Plant.Leaves.refl s.plant).abortEngine (x := s.ctx) (leaves_expireNow s.ctx) c).range
  unfold Machine.abortChamber
  split
  iterate 4 exact aborted
  all_goals exact fun _ => .inl rfl

theorem releaseChamber (c : Chamber) (s : State) : s.Undisturbed (Machine.releaseChamber c s).1 := by
  refine ⟨.chamberStep (n := 0) (m := 0) (by simp) c s, ?_⟩
  unfold Machine.releaseChamber
  split
  · exact ((Plant.Leaves.refl s.plant).releaseEngine (leaves_expireNow s.ctx) c).range
  · exact fun _ => .inl rfl

theorem clearChamber (c : Chamber) (s : State) : s.Undisturbed (Machine.clearChamber c s).1 := by
  refine ⟨.chamberStep (n := 0) (m := 0) (by simp) c s, ?_⟩
  unfold Machine.clearChamber
  split
  · exact fun _ => .inl rfl
  · split
    · exact fun _ => .inl rfl
    · exact (((Plant.Leaves.refl s.plant).setEngine c { s.engine c with state := .idle } (.inl rfl)).setPermit c s.ring.up).range

/-! #### Writes of tables no sequence stands on -/

variable {r : Request}

theorem storeGuard (s : State) (c : Chamber) (g : GuardIndex) (k : GuardConfig) : s.Undisturbed (s.storeGuard c g k) :=
  (setGuard s c g _).trans (guardPass _ _ _)

theorem writeGuard (s : State) : s.Undisturbed (Machine.writeGuard r s).1 := by
  refine ⟨State.KeepsInUse.writeGuard s, ?_⟩
  unfold Machine.writeGuard
  split
  · exact fun _ => .inl rfl
  · split
    · split
      · exact fun _ => .inl rfl
      · split
        · exact fun _ => .inl rfl
        · dsimp only
          split
          · exact fun _ => .inl rfl
          · split
            · exact fun _ => .inl rfl
            · exact (storeGuard s _ _ _).ranges
    · exact fun _ => .inl rfl

theorem writeArbiter (s : State) : s.Undisturbed (Machine.writeArbiter r s).1 := by
  have examined : ∀ a : Arbiter, ∀ c, ((s.setArbiter a).examineGrowth.engine c).range = (s.engine c).range ∨
      ((s.setArbiter a).examineGrowth.engine c).range = none := fun a =>
    ((Plant.Leaves.refl (s.setArbiter a).plant).examineGrowth (leaves_expireNow _)).range
  refine ⟨State.KeepsInUse.writeArbiter s, ?_⟩
  unfold Machine.writeArbiter
  dsimp only
  repeat' split
  all_goals first
    | exact examined _
    | exact fun _ => .inl rfl

theorem writeInput (s : State) : s.Undisturbed (Machine.writeInput r s).1 := by
  refine of_same (State.KeepsInUse.writeInput s) ?_
  unfold Machine.writeInput
  repeat' split
  all_goals rfl

theorem writeRing (s : State) : s.Undisturbed (Machine.writeRing r s).1 := by
  refine of_same (State.KeepsInUse.writeRing s) ?_
  unfold Machine.writeRing
  dsimp only
  repeat' split
  all_goals rfl

theorem writeNotice (s : State) : s.Undisturbed (Machine.writeNotice r s).1 := by
  refine of_same (State.KeepsInUse.writeNotice s) ?_
  unfold Machine.writeNotice
  dsimp only
  repeat' split
  all_goals rfl

end State.Undisturbed

end Sys2Proof.Machine
end

/-! ### The rules of a step record (R30) and of a level table (R19), as their CHECKs find them -/
section
namespace Sys2Proof.Machine

variable {i : Nat} {r : StepRecord}

/-- Two halves of a rule, one where a condition holds and one where it does not. -/
theorem ite_rule_iff {c a b : Prop} [Decidable c] : (if c then a else b) ↔ (c → a) ∧ (¬c → b) := by
  by_cases h : c <;> simp [h]

theorem checkRules_iff : (∀ rule ∈ checkRules i r, rule.1) ↔ r.MeetsCheck i := by
  have conditioned : (1 ≤ r.kind.toNat ∧ r.kind.toNat ≤ 3) ∨ r.kind.toNat = 0 ∨ r.kind.toNat = 4 ∨ 4 < r.kind.toNat := by omega
  simp only [checkRules, List.forall_mem_append, List.forall_mem_cons, List.not_mem_nil, false_implies, implies_true, and_true,
    List.forall_mem_map, List.mem_finRange, forall_const]
  constructor
  · rintro ⟨⟨h1, h2, h3, h4, h5, h6, h7, h8, h9, h10⟩, h11⟩
    exact ⟨h1, ite_rule_iff.2 h2, ite_rule_iff.2 h3, ite_rule_iff.2 ⟨fun k => h4.2 (by omega), fun k => h4.1 (by omega)⟩,
      ite_rule_iff.2 h5, ite_rule_iff.2 ⟨fun k => h6.2 (by omega), fun k => h6.1 (by omega)⟩, ite_rule_iff.2 h7, h8, h9, h10, h11⟩
  · intro h
    have h4 := ite_rule_iff.1 h.timeout
    have h6 := ite_rule_iff.1 h.count
    have h1 := h.kind
    exact ⟨⟨h.kind, ite_rule_iff.1 h.duration, ite_rule_iff.1 h.ramp, ⟨fun k => h4.2 (by omega), fun k => h4.1 (by omega)⟩,
      ite_rule_iff.1 h.level, ⟨fun k => h6.2 (by omega), fun k => h6.1 (by omega)⟩, ite_rule_iff.1 h.ratio, h.minForward,
      h.loopTarget, h.loopCount⟩, h.entries⟩

theorem checkFault_eq_none_iff : checkFault i r = none ↔ r.MeetsCheck i := by
  rw [← checkRules_iff, Option.eq_none_iff_forall_ne_some]
  constructor
  · intro h
    by_contra broken
    simp only [not_forall, exists_prop] at broken
    obtain ⟨f, first, -⟩ := exists_firstBroken _ broken
    exact h f ((checkFault_iff i r f).2 first)
  · intro h f hf
    obtain ⟨before, rest, rule, hlist, -, broken⟩ := (checkFault_iff i r f).1 hf
    exact broken (h (rule, f) (by rw [hlist]; simp))

/-- The rules say nothing of the check state. -/
theorem StepRecord.MeetsCheck.setCheck (h : r.MeetsCheck i) (k : CheckState) : ({ r with check := k } : StepRecord).MeetsCheck i :=
  ⟨h.kind, h.duration, h.ramp, h.timeout, h.level, h.count, h.ratio, h.minForward, h.loopTarget, h.loopCount, h.entries⟩

theorem firstNotRising_eq_none_iff {k : Nat} {l : List Nat} :
    firstNotRising k l = none ↔ ∀ (j : Nat) (_ : j + 1 < l.length), l[j] < l[j + 1] := by
  refine ⟨fun h => ?_, firstNotRising_eq_none k l⟩
  induction l generalizing k with
  | nil => exact fun j hj => absurd hj (by simp)
  | cons a rest ih =>
    cases rest with
    | nil => exact fun j hj => absurd hj (by simp)
    | cons b rest =>
      rw [firstNotRising] at h
      split at h
      · next rises =>
        rintro (_ | j) hj
        · exact rises
        · exact ih h j (by simpa using hj)
      · cases h

theorem LevelTable.rises_iff {t : LevelTable} : t.Rises ↔ Machine.firstNotRising 1 t.thresholds.toList = none := by
  refine ⟨LevelTable.Rises.firstNotRising, fun h k => ?_⟩
  have rises := firstNotRising_eq_none_iff.1 h k.val (by simp only [Vector.length_toList]; omega)
  rwa [Vector.getElem_toList, Vector.getElem_toList] at rises

end Sys2Proof.Machine
end

/-! ### The tables keep within their rules (R6, R7, R19, R22, R30) -/
section
namespace Sys2Proof.Machine

/-- What `State.RecordsSound` promises of the tables themselves, the engines aside. -/
structure State.TablesSound (s : State) : Prop where
  checkedSteps : ∀ i : Fin 512, s.pool[i].check = .checked → s.pool[i].MeetsCheck i.val
  emptySteps : ∀ i : Fin 512, s.pool[i].check = .empty → s.pool[i] = {}
  checkedLevels : ∀ c : Chamber, s.levels[c].checked = true → s.levels[c].Rises
  stored : ∀ (c : Chamber) (h : Chan), (s.channel c h).record.InRange
  channels : ∀ (c : Chamber) (h : Chan), ChannelRules (fun j => (s.channel c j).record) h

theorem State.recordsSound_iff {s : State} : s.RecordsSound ↔ s.RangesChecked ∧ s.TablesSound :=
  ⟨fun h => ⟨h.ranges, h.checkedSteps, h.emptySteps, fun c hc k => h.checkedLevels c k hc, h.stored, h.channels⟩,
    fun ⟨hr, h⟩ => ⟨hr, h.checkedSteps, h.emptySteps, fun c k hc => h.checkedLevels c hc k, h.stored, h.channels⟩⟩

/-- Records that differ from sound ones at h alone, where they break no rule, are sound: what the rules of the others say of record
h is what its own rules say of them (R7). -/
theorem ChannelRules.replaced {before after : Chan → ChannelRecord} {h : Chan} (away : ∀ j, j ≠ h → after j = before j)
    (old : ∀ k, ChannelRules before k) (rules : ChannelRules after h) (k : Chan) : ChannelRules after k := by
  by_cases hk : k = h
  · exact hk ▸ rules
  have same := away k hk
  have o := old k
  refine ⟨same ▸ o.valves, same ▸ o.limits, same ▸ o.gasLow, same ▸ o.safeWithin, same ▸ o.safeZero, same ▸ o.safeHold,
    same ▸ o.weight, same ▸ o.pairAbsent, fun flow j hj => ?_, same ▸ o.failValue, fun single j hj => ?_, fun gas => ?_,
    fun notGas j flow hj => ?_⟩
  · by_cases hjh : j = h
    · subst hjh
      by_contra notGas
      exact rules.paired notGas k flow hj
    · rw [away j hjh]
      exact o.pairGas (same ▸ flow) j (same ▸ hj)
  · by_cases hjh : j = h
    · subst hjh
      exact (rules.single (hj ▸ single) k hj.symm).symm
    · exact o.single (same ▸ single) j (by rw [← away j hjh, ← same]; exact hj)
  · by_cases gas' : (after h).kind = .gasFlow
    · exact rules.gasCount gas'
    · refine le_trans (List.Sublist.length_le ?_) (o.gasCount (same ▸ gas))
      refine List.monotone_filter_right _ fun j hj => ?_
      have hjh : j ≠ h := fun e => gas' (by simpa [e] using hj)
      rwa [away j hjh] at hj
  · by_cases hjh : j = h
    · subst hjh
      exact notGas (rules.pairGas flow k hj)
    · rw [away j hjh] at flow hj
      exact o.paired (same ▸ notGas) j flow hj

/-- What an accepted channel write does beside the record changes no table. -/
theorem State.storeChannel_sameFacts (s : State) (c : Chamber) (k : Chan) (record : ChannelRecord) :
    (s.setChannel c k ⟨record, freshStatus record s.now⟩).SameFacts (s.storeChannel c k record) := by
  unfold State.storeChannel
  dsimp only
  split <;> exact ⟨rfl, fun _ _ => rfl, rfl, rfl⟩

theorem channelRules_of_channelFault {after : Chan → ChannelRecord} {h : Chan} (hf : channelFault after h = none) :
    ChannelRules after h := by
  by_contra broken
  obtain ⟨field, first, -⟩ := firstBroken_of_not_channelRules broken
  rw [(channelFault_iff after h field).2 first] at hf
  cases hf

theorem ChannelRecord.InRange.stored {r : ChannelRecord} (h : r.InRange) : r.stored.InRange := by
  unfold ChannelRecord.stored
  split
  · exact ⟨h.weight, h.fullScale, h.wordFullScale, h.lo, h.hi, h.safeValue, h.staleLimit, h.failValue⟩
  · exact h

namespace State.TablesSound

variable {s t : State} {r : Request}

/-- They rest on the pool, the level tables and the channel records. -/
theorem sameFacts (h : s.TablesSound) (facts : s.SameFacts t) : t.TablesSound := by
  refine ⟨?_, ?_, ?_, ?_, ?_⟩
  · rw [facts.pool]; exact h.checkedSteps
  · rw [facts.pool]; exact h.emptySteps
  · rw [facts.levels]; exact h.checkedLevels
  · intro c k; rw [facts.records]; exact h.stored c k
  · intro c k; simp only [facts.records]; exact h.channels c k

/-! #### The updates -/

theorem setSlot (h : s.TablesSound) (k : Fin 128) (u : SlotUse) : (s.setSlot k u).TablesSound :=
  ⟨h.checkedSteps, h.emptySteps, h.checkedLevels, h.stored, h.channels⟩

/-- A record that is not EMPTY, and is within its rules if it is CHECKED. -/
theorem setStep (h : s.TablesSound) {i : Fin 512} {record : StepRecord} (stored : record.check ≠ .empty)
    (rules : record.check = .checked → record.MeetsCheck i.val) : (s.setStep i record).TablesSound := by
  refine ⟨fun j => ?_, fun j => ?_, h.checkedLevels, h.stored, h.channels⟩ <;> rw [State.pool_setStep] <;> split
  · next e => exact e ▸ rules
  · exact h.checkedSteps j
  · exact fun empty => absurd empty stored
  · exact h.emptySteps j

theorem setLevel (h : s.TablesSound) {c : Chamber} {table : LevelTable} (rises : table.checked = true → table.Rises) :
    (s.setLevel c table).TablesSound := by
  refine ⟨h.checkedSteps, h.emptySteps, fun d => ?_, h.stored, h.channels⟩
  rw [State.levels_setLevel]
  split
  · exact rises
  · exact h.checkedLevels d

theorem setChannel (h : s.TablesSound) {c : Chamber} {k : Chan} {ch : Channel} (stored : ch.record.InRange)
    (rules : ChannelRules (fun j => if j = k then ch.record else (s.channel c j).record) k) :
    (s.setChannel c k ch).TablesSound := by
  refine ⟨h.checkedSteps, h.emptySteps, h.checkedLevels, fun d j => ?_, fun d => ?_⟩
  · rw [State.channel_setChannel]
    split
    · exact stored
    · exact h.stored d j
  · by_cases hd : c = d
    · subst hd
      have written : (fun j => ((s.setChannel c k ch).channel c j).record) =
          fun j => if j = k then ch.record else (s.channel c j).record := by
        funext j
        rw [State.channel_setChannel]
        by_cases hj : j = k
        · simp [hj]
        · simp [hj, Ne.symm hj]
      rw [written]
      exact ChannelRules.replaced (fun j hj => if_neg hj) (h.channels c) rules
    · simpa [hd] using h.channels d

/-! #### Writes and CHECKs -/

theorem writeSlotMap (h : s.TablesSound) : (Machine.writeSlotMap r s).1.TablesSound := by
  unfold Machine.writeSlotMap
  split
  · exact h
  · split
    · split
      · exact h
      · split
        · exact h
        · split
          · exact h
          · exact h.setSlot _ _
    · exact h

theorem writeChannel (h : s.TablesSound) : (Machine.writeChannel r s).1.TablesSound := by
  unfold Machine.writeChannel
  split
  · exact h
  · split
    · split
      · exact h
      · split
        · exact h
        · dsimp only
          split
          · exact h
          · split
            · exact h
            · next given hg =>
              split
              · exact h
              · next unbroken =>
                exact (h.setChannel (r.channelRecord_inRange (h.stored _ _) hg).stored
                  (channelRules_of_channelFault unbroken)).sameFacts (s.storeChannel_sameFacts _ _ _)
    · exact h

theorem writeStep (h : s.TablesSound) : (Machine.writeStep r s).1.TablesSound := by
  unfold Machine.writeStep
  split
  · split
    · exact h
    · exact h.setStep (by simp) (by simp)
  · exact h

theorem writeLevel (h : s.TablesSound) : (Machine.writeLevel r s).1.TablesSound := by
  unfold Machine.writeLevel
  split
  · exact h
  · split
    · dsimp only
      split
      · exact h
      · split
        · exact h
        · split
          · exact h
          · exact h.setLevel (by simp [Request.levelTable])
    · exact h

theorem writeTable (h : s.TablesSound) (table : Nat) : (Machine.writeTable table r s).1.TablesSound := by
  unfold Machine.writeTable
  split
  · exact h.writeSlotMap
  · exact h.writeChannel
  · exact h.writeStep
  · exact h.sameFacts (State.KeepsInUse.writeGuard s)
  · exact h.writeLevel
  · exact h.sameFacts (State.KeepsInUse.writeInput s)
  · exact h.sameFacts (State.KeepsInUse.writeArbiter s)
  · exact h.sameFacts (State.KeepsInUse.writeRing s)
  · exact h.sameFacts (State.KeepsInUse.writeNotice s)
  · exact h

/-- A CHECK makes CHECKED the records alone that break no rule (R29, R30). -/
theorem checkRecords (h : s.TablesSound) (n i passed : Nat) : (Machine.checkRecords n i passed s).1.TablesSound := by
  induction n generalizing i passed s with
  | zero => exact h
  | succ n ih =>
    unfold Machine.checkRecords
    split
    · dsimp only
      split
      · exact h
      · split
        · exact h
        · next unbroken =>
          exact ih (h.setStep (by simp) fun _ => (checkFault_eq_none_iff.1 unbroken).setCheck .checked) _ _
    · exact h

/-- A CHECK makes CHECKED the level tables alone that rise (R19). -/
theorem checkLevelTables (h : s.TablesSound) (n i passed : Nat) : (Machine.checkLevelTables n i passed s).1.TablesSound := by
  induction n generalizing i passed s with
  | zero => exact h
  | succ n ih =>
    unfold Machine.checkLevelTables
    split
    · dsimp only
      split
      · exact h
      · next rises =>
        refine ih (h.setLevel ?_) _ _
        exact fun _ => LevelTable.rises_iff.2 rises
    · exact h

theorem checkTable (h : s.TablesSound) (table : Nat) : (Machine.checkTable table r s).1.TablesSound := by
  unfold Machine.checkTable
  split
  · unfold checkSteps
    dsimp only
    split
    · exact h
    · exact h.checkRecords _ _ _
  · unfold checkLevels
    dsimp only
    split
    · exact h
    · exact h.checkLevelTables _ _ _
  · exact h

end State.TablesSound

end Sys2Proof.Machine
end

/-! ### Every record within a held sequence range stays CHECKED (R27, R39) -/
section
namespace Sys2Proof.Machine

theorem State.stepRecord_eq (s : State) (k : Fin 512) : s.stepRecord k.val = s.pool[k] := dif_pos k.isLt

/-- A record beyond the pool reads as an EMPTY one. -/
theorem State.lt_of_checked {s : State} {i : Nat} (h : (s.stepRecord i).check = .checked) : i < 512 := by
  by_contra beyond
  unfold State.stepRecord Ctx.stepRecord at h
  rw [dif_neg beyond] at h
  cases h

/-- A walk that passes has found every record from its start to its end index CHECKED (R31, R32). -/
theorem walkFrom_checked {x : Ctx} {slotMap : Vector SlotUse 128} {c : Chamber} {start n i last : Nat} {earlier : List LoopInterval}
    (h : walkFrom x slotMap c start n i earlier = .ok last) (j : Nat) (h1 : i ≤ j) (h2 : j ≤ last) :
    (x.stepRecord j).check = .checked := by
  induction n generalizing i earlier with
  | zero => cases h
  | succ n ih =>
    unfold walkFrom at h
    split at h
    · cases h
    · next passes =>
      have first : (x.stepRecord i).check = .checked := by
        by_contra unchecked
        simp [walkFault, firstBroken, unchecked] at passes
      rcases Nat.eq_or_lt_of_le h1 with rfl | hlt
      · exact first
      · split at h
        · injection h with h
          omega
        · exact ih h hlt

theorem startWalk_checked {x : Ctx} {slotMap : Vector SlotUse 128} {c : Chamber} {first last : Nat}
    (h : startWalk x slotMap c first = .ok last) (j : Nat) (h1 : first ≤ j) (h2 : j ≤ last) :
    (x.stepRecord j).check = .checked := by
  unfold startWalk at h
  split at h
  · cases h
  · exact walkFrom_checked h j h1 h2

namespace State.RangesChecked

variable {s t : State} {r : Request}

/-- Ranges that are kept or given up, over records that stay CHECKED. -/
theorem kept (h : s.RangesChecked) (ranges : ∀ c : Chamber, (t.engine c).range = (s.engine c).range ∨ (t.engine c).range = none)
    (steps : ∀ k : Fin 512, s.pool[k].check = .checked → t.pool[k].check = .checked) : t.RangesChecked := by
  intro c first last hr i h1 h2
  rcases ranges c with same | gone
  · have checked := h c first last (same ▸ hr) i h1 h2
    have hi := State.lt_of_checked checked
    rw [s.stepRecord_eq ⟨i, hi⟩] at checked
    exact (congrArg StepRecord.check (t.stepRecord_eq ⟨i, hi⟩)).trans (steps ⟨i, hi⟩ checked)
  · rw [gone] at hr
    cases hr

theorem undisturbed (h : s.RangesChecked) (u : s.Undisturbed t) : t.RangesChecked :=
  h.kept u.ranges fun k hk => by rw [u.facts.pool]; exact hk

/-- START records the range of records its walk has passed (R43). -/
theorem startChamber (h : s.RangesChecked) (first : Nat) (c : Chamber) : (Machine.startChamber first c s).1.RangesChecked := by
  unfold Machine.startChamber
  split
  · exact h
  · split
    · exact h
    · next last walked =>
      intro d a b hr i h1 h2
      have started := (Plant.Leaves.startEngine (x := s.ctx) (leaves_expireNow s.ctx) c first last s.plant).range d
      rcases started with same | gone
      · replace hr := same.symm.trans hr
        rw [Plant.engine_setEngine] at hr
        split at hr
        · cases hr
          exact startWalk_checked walked i h1 h2
        · exact h d a b hr i h1 h2
      · cases gone.symm.trans hr

theorem overMask {act : ChamberStep} (hact : ∀ (c : Chamber) (s : State), s.RangesChecked → (act c s).1.RangesChecked)
    (h : s.RangesChecked) (cs : List Chamber) (tally : MaskTally) : (Machine.overMask r act cs s tally).1.RangesChecked := by
  induction cs generalizing s tally with
  | nil => exact h
  | cons c rest ih =>
    unfold Machine.overMask
    split
    · dsimp only
      split
      · exact ih (hact c s h) _
      · exact ih (hact c s h) _
    · exact ih h _

theorem chamberCommand {act : ChamberStep} (hact : ∀ (c : Chamber) (s : State), s.RangesChecked → (act c s).1.RangesChecked)
    (h : s.RangesChecked) : (Machine.chamberCommand act r s).1.RangesChecked := by
  unfold Machine.chamberCommand
  split
  · exact h
  · exact overMask hact h _ _

end State.RangesChecked

end Sys2Proof.Machine
end

/-! ### What a command leaves of what sequences stand on (R39, R40), and of the rules of the tables -/
section
namespace Sys2Proof.Machine

/-- What an operation that takes its records at the states `us` keeps: the step records in use by a chamber at each of them, what
the sequence of a chamber stands on that is not IDLE at any of them, ranges CHECKED, and the tables within their rules. -/
structure State.Sustains (us : List State) (s t : State) : Prop where
  steps : ∀ (c : Chamber) (k : Fin 512), (∀ u ∈ us, u.InUse c k.val) → t.pool[k] = s.pool[k]
  facts : ∀ c : Chamber, (∀ u ∈ us, (u.engine c).state ≠ .idle) → s.KeepsFacts c t
  ranges : t.RangesChecked
  tables : s.TablesSound → t.TablesSound

theorem State.KeepsFacts.trans {c : Chamber} {s t u : State} (h : s.KeepsFacts c t) (k : t.KeepsFacts c u) : s.KeepsFacts c u :=
  ⟨fun j => (k.channels j).trans (h.channels j), k.thresholds.trans h.thresholds, fun hc => k.checked (h.checked hc),
    k.slotMap.trans h.slotMap⟩

/-! #### The ranges through the writes -/

namespace State.RangesChecked

variable {s : State} {r : Request}

theorem writeSlotMap (h : s.RangesChecked) : (Machine.writeSlotMap r s).1.RangesChecked := by
  unfold Machine.writeSlotMap
  split
  · exact h
  · split
    · split
      · exact h
      · split
        · exact h
        · split <;> exact h
    · exact h

/-- The implicit claim that a channel write ends gives no range (R90). -/
theorem storeChannel (h : s.RangesChecked) (c : Chamber) (k : Chan) (record : ChannelRecord) :
    (s.storeChannel c k record).RangesChecked := by
  unfold State.storeChannel
  dsimp only
  split
  · exact h.kept ((Plant.Leaves.refl s.plant).endIdleClaim (leaves_expireNow _) c).range fun _ => id
  · exact h

theorem writeChannel (h : s.RangesChecked) : (Machine.writeChannel r s).1.RangesChecked := by
  unfold Machine.writeChannel
  split
  · exact h
  · split
    · split
      · exact h
      · split
        · exact h
        · dsimp only
          split
          · exact h
          · split
            · exact h
            · split
              · exact h
              · exact h.storeChannel _ _ _
    · exact h

theorem writeLevel (h : s.RangesChecked) : (Machine.writeLevel r s).1.RangesChecked := by
  unfold Machine.writeLevel
  split
  · exact h
  · split
    · dsimp only
      split
      · exact h
      · split
        · exact h
        · split <;> exact h
    · exact h

/-- A record is written outside the ranges in use (R26), and every range is in use (R38). -/
theorem writeStep (h : s.RangesChecked) (safe : s.Safe) : (Machine.writeStep r s).1.RangesChecked := by
  unfold Machine.writeStep
  split
  · split
    · exact h
    · next hi free =>
      intro c first last hr k h1 h2
      have engaged := (safe.cells c).range.1 (show (s.engine c).range.isSome = true by
        rw [show (s.engine c).range = some (first, last) from hr]; rfl)
      have checked := h c first last hr k h1 h2
      have hk := State.lt_of_checked checked
      have away : (⟨r.index.toNat, hi.1⟩ : Fin 512) ≠ ⟨k, hk⟩ := fun e => free (by
        rw [Fin.mk.inj e]
        exact State.KeepsInUse.inUse_stepInUse ⟨engaged, first, last, hr, h1, h2⟩)
      rw [s.stepRecord_eq ⟨k, hk⟩] at checked
      have kept : (s.setStep ⟨r.index.toNat, hi.1⟩ { r.stepRecord r.word.toNat s.pool[r.index.toNat] with
          check := .unchecked }).pool[(⟨k, hk⟩ : Fin 512)] = s.pool[(⟨k, hk⟩ : Fin 512)] := by
        rw [State.pool_setStep, if_neg away]
      exact (congrArg StepRecord.check ((State.stepRecord_eq _ ⟨k, hk⟩).trans kept)).trans checked
  · exact h

theorem checkTable (h : s.RangesChecked) (table : Nat) : (Machine.checkTable table r s).1.RangesChecked := by
  unfold Machine.checkTable
  split
  · unfold checkSteps
    dsimp only
    split
    · exact h
    · obtain ⟨checked, rest⟩ := State.KeepsInUse.checkRecords (r.byte 0) r.index.toNat 0 s
      refine h.kept (fun c => .inl ?_) fun k hk => by rw [checked k hk]; exact hk
      rw [rest]
      rfl
  · unfold checkLevels
    dsimp only
    split
    · exact h
    · rw [(State.KeepsInUse.checkLevelTables (r.byte 0) r.index.toNat 0 s).2]
      exact h
  · exact h

end State.RangesChecked

namespace State.Sustains

variable {us vs : List State} {s t v : State} {r : Request}

theorem undisturbed (checked : s.RangesChecked) (h : s.Undisturbed t) : Sustains us s t :=
  ⟨fun _ _ _ => by rw [h.facts.pool], fun c _ => h.facts.facts c, checked.undisturbed h, fun k => k.sameFacts h.facts⟩

theorem refl (checked : s.RangesChecked) : Sustains us s s := undisturbed checked (.refl s)

theorem trans (h : Sustains us s t) (k : Sustains vs t v) : Sustains (us ++ vs) s v where
  steps c i hi := by
    rw [List.forall_mem_append] at hi
    exact (k.steps c i hi.2).trans (h.steps c i hi.1)
  facts c hc := by
    rw [List.forall_mem_append] at hc
    exact (h.facts c hc.1).trans (k.facts c hc.2)
  ranges := k.ranges
  tables := k.tables ∘ h.tables

theorem after (h : Sustains us s t) (k : t.Undisturbed v) : Sustains us s v :=
  List.append_nil us ▸ h.trans (undisturbed (us := []) h.ranges k)

theorem of_keepsInUse (inUse : ∀ c, s.KeepsInUse c t) (ranges : t.RangesChecked) (tables : s.TablesSound → t.TablesSound) :
    Sustains [s] s t :=
  ⟨fun c k hk => (inUse c).steps k (hk s List.mem_cons_self), fun c hc => (inUse c).facts (hc s List.mem_cons_self), ranges,
    tables⟩

/-! #### Records taken -/

theorem writeTable (safe : s.Safe) (checked : s.RangesChecked) (table : Nat) :
    Sustains [s] s (Machine.writeTable table r s).1 := by
  refine of_keepsInUse (State.KeepsInUse.writeTable table) ?_ fun h => h.writeTable table
  unfold Machine.writeTable
  split
  · exact checked.writeSlotMap
  · exact checked.writeChannel
  · exact checked.writeStep safe
  · exact checked.undisturbed (.writeGuard s)
  · exact checked.writeLevel
  · exact checked.undisturbed (.writeInput s)
  · exact checked.undisturbed (.writeArbiter s)
  · exact checked.undisturbed (.writeRing s)
  · exact checked.undisturbed (.writeNotice s)
  · exact checked

theorem checkTable (checked : s.RangesChecked) (table : Nat) : Sustains [s] s (Machine.checkTable table r s).1 :=
  of_keepsInUse (State.KeepsInUse.checkTable checked table) (checked.checkTable table) fun h => h.checkTable table

theorem commandStart (checked : s.RangesChecked) : Sustains us s (Machine.commandStart r s).1 := by
  have facts : s.SameFacts (Machine.commandStart r s).1 :=
    .chamberCommand (fun c s => .chamberStep (m := 0) (.inl rfl) c s) r s
  exact ⟨fun _ _ _ => by rw [facts.pool], fun c _ => facts.facts c,
    .chamberCommand (fun c s h => h.startChamber (r.number 0 2) c) checked, fun h => h.sameFacts facts⟩

/-- A chamber command other than START (R66). -/
theorem chamberCommand {act : ChamberStep} (hact : ∀ (c : Chamber) (s : State), s.Undisturbed (act c s).1)
    (checked : s.RangesChecked) : Sustains us s (Machine.chamberCommand act r s).1 := by
  have facts : s.SameFacts (Machine.chamberCommand act r s).1 := .chamberCommand (fun c s => (hact c s).facts) r s
  exact ⟨fun _ _ _ => by rw [facts.pool], fun c _ => facts.facts c,
    .chamberCommand (fun c s h => h.undisturbed (hact c s)) checked, fun h => h.sameFacts facts⟩

theorem commandHold (checked : s.RangesChecked) : Sustains us s (Machine.commandHold r s).1 :=
  chamberCommand .holdChamber checked

theorem commandResume (checked : s.RangesChecked) : Sustains us s (Machine.commandResume r s).1 :=
  chamberCommand (.resumeChamber _) checked

theorem commandAbort (checked : s.RangesChecked) : Sustains us s (Machine.commandAbort r s).1 :=
  chamberCommand .abortChamber checked

theorem commandRelease (checked : s.RangesChecked) : Sustains us s (Machine.commandRelease r s).1 :=
  chamberCommand .releaseChamber checked

theorem commandClear (checked : s.RangesChecked) : Sustains us s (Machine.commandClear r s).1 :=
  chamberCommand .clearChamber checked

theorem commandLock (checked : s.RangesChecked) : Sustains us s (Machine.commandLock s).1 :=
  undisturbed checked (.of_same ⟨rfl, fun _ _ => rfl, rfl, rfl⟩ rfl)

theorem commandAssign (checked : s.RangesChecked) : Sustains us s (Machine.commandAssign r s).1 := by
  unfold Machine.commandAssign
  dsimp only
  split
  · exact refl checked
  · exact undisturbed checked (.of_same ⟨rfl, fun _ _ => rfl, rfl, rfl⟩ rfl)

theorem commandOf (safe : s.Safe) (checked : s.RangesChecked) (code table : Nat) :
    Sustains [s] s (Machine.commandOf code table r s).1 := by
  unfold Machine.commandOf
  split
  · exact refl checked
  · exact writeTable safe checked table
  · exact checkTable checked table
  · exact commandStart checked
  · exact commandHold checked
  · exact commandResume checked
  · exact commandAbort checked
  · exact commandRelease checked
  · exact commandClear checked
  · exact commandLock checked
  · exact commandAssign checked

theorem takeWith {command : State → State × Answer} (h : Sustains us s (command s).1) (code : Nat) :
    Sustains us s (s.takeWith code r command) := h.after (.setResponses _ _)

theorem takeRecord (checked : s.RangesChecked) {command : State → State × Answer} (h : Sustains us s (command s).1)
    (code : Nat) : Sustains us s (s.takeRecord code r command) := by
  unfold State.takeRecord
  split
  · exact h.takeWith code
  · exact refl checked

theorem broadcast (checked : s.RangesChecked) (code : Nat) : Sustains us s (s.broadcast code r) := by
  unfold State.broadcast
  split
  · exact refl checked
  · split
    · exact commandHold checked
    · split
      · exact commandResume checked
      · split
        · exact commandAbort checked
        · exact refl checked

/-- One entry of a mailbox (R155, R156). -/
theorem takeEntry (safe : s.Safe) (checked : s.RangesChecked) (entry : List Byte) :
    Sustains [s] s (Machine.takeEntry entry s).1 := by
  unfold Machine.takeEntry
  dsimp only
  split
  · exact refl checked
  · split
    · exact broadcast checked _
    · split
      · exact refl checked
      · split
        · exact undisturbed checked (.softReset s)
        · split
          · exact (commandOf safe checked _ _).takeWith _
          · exact refl checked

theorem takeMailbox (safe : s.Safe) (checked : s.RangesChecked) (entries : List (List Byte)) :
    Sustains (mailboxStates entries s) s (Machine.takeMailbox entries s).2 := by
  induction entries generalizing s with
  | nil => exact refl checked
  | cons entry rest ih =>
    have first := takeEntry safe checked entry
    exact first.trans (ih (safe.takeEntry entry) first.ranges)

/-! #### Commands -/

theorem outboundPassage (safe : s.Safe) (checked : s.RangesChecked) (time : Nat) (bytes : List Byte)
    (ht : execOutboundPassage time bytes s = .next t) : Sustains (s.recordStates (.outboundPassage time bytes)) s t := by
  unfold execOutboundPassage at ht
  injection ht with ht
  subst ht
  have moved := State.Undisturbed.advanceTo s time
  split
  · exact undisturbed checked (.sendDown s bytes)
  · next acting =>
    split
    · exact undisturbed checked ((moved.trans (.setRing _ _)).trans (.sendDown _ bytes))
    · exact undisturbed checked (moved.trans (.sendDown _ bytes))
    · next f good =>
      have states : s.recordStates (.outboundPassage time bytes) = mailboxStates f.mailbox
          (((s.advanceTo time).arrival.overrun.openCycleWith f.cycle.toNat).substitute f.slots).2 := by
        simp only [State.recordStates, acting, good, Bool.false_eq_true, if_false]
      have arrived : (s.advanceTo time).Safe := safe
      have cycle : ((s.advanceTo time).arrival.overrun.openCycleWith f.cycle.toNat).Safe := arrived.arrival.overrun
      have opened := undisturbed (us := []) checked (.opened s time f)
      rw [states]
      exact (opened.trans (takeMailbox (cycle.substitute f.slots) opened.ranges f.mailbox)).after (.sendDown _ _)

theorem returnPassage (checked : s.RangesChecked) (time : Nat) (bytes : List Byte)
    (ht : execReturnPassage time bytes s = .next t) : Sustains us s t := by
  unfold execReturnPassage at ht
  injection ht with ht
  subst ht
  split
  · exact undisturbed checked (.sendUp s bytes)
  · have moved := State.Undisturbed.advanceTo s time
    split
    · exact undisturbed checked ((moved.trans (.setRing _ _)).trans (.sendUp _ bytes))
    · exact undisturbed checked (moved.trans (.sendUp _ bytes))
    · next f _ => exact undisturbed checked ((moved.trans (.takeReturn _ f)).trans (.sendUp _ _))

end State.Sustains

/-! #### The events between frames leave every table, and give no range -/

namespace State.Undisturbed

variable {s t : State}

theorem growthServed (c : Chamber) (ht : execGrowthServed c s = .next t) : s.Undisturbed t := by
  unfold execGrowthServed at ht
  injection ht with ht
  subst ht
  split
  · exact .refl s
  · split
    · exact onPlant ((Plant.Leaves.refl _).examineGrowth (leaves_expireNow _))
    · exact .refl s

theorem lineGranted (c : Chamber) (ht : execLineGranted c s = .next t) : s.Undisturbed t := by
  unfold execLineGranted at ht
  injection ht with ht
  subst ht
  split
  · exact .refl s
  · split
    · exact (advanceTo s _).trans (onPlant ((Plant.Leaves.refl _).grantLine (leaves_expireNow _) c))
    · exact .refl s

theorem dwellExpiry (c : Chamber) (ht : execDwellExpiry c s = .next t) : s.Undisturbed t := by
  unfold execDwellExpiry at ht
  injection ht with ht
  subst ht
  split
  · exact .refl s
  · split
    · exact (advanceTo s _).trans (onPlant ((Plant.Leaves.refl _).dwellEnds (leaves_expireNow _) c))
    · exact .refl s

theorem settleExpiry (ht : execSettleExpiry s = .next t) : s.Undisturbed t := by
  unfold execSettleExpiry at ht
  injection ht with ht
  subst ht
  split
  · exact (advanceTo s _).trans (onPlant ((Plant.Leaves.refl _).selectLine (leaves_expireNow _)))
  · exact .refl s
  · exact .refl s

theorem ringWatchExpiry (ht : execRingWatchExpiry s = .next t) : s.Undisturbed t := by
  unfold execRingWatchExpiry at ht
  injection ht with ht
  subst ht
  split
  · exact .refl s
  · split
    · exact (advanceTo s _).trans (loseRing _)
    · exact .refl s

theorem inputLevelChange (time : Nat) (l : Line) (high : Bool) (ht : execInputLevelChange time l high s = .next t) :
    s.Undisturbed t := by
  unfold execInputLevelChange at ht
  injection ht with ht
  subst ht
  split
  · exact setInput s l _
  · exact (advanceTo s time).trans (changeLevel _ l high)

theorem inputAcceptance (l : Line) (ht : execInputAcceptance l s = .next t) : s.Undisturbed t := by
  unfold execInputAcceptance at ht
  injection ht with ht
  subst ht
  split
  · exact .refl s
  · exact (advanceTo s _).trans (acceptLevel _ l)

theorem graceLapse (c : Chamber) (g : GuardIndex) (ht : execGraceLapse c g s = .next t) : s.Undisturbed t := by
  unfold execGraceLapse at ht
  injection ht with ht
  subst ht
  split
  · exact .refl s
  · exact (advanceTo s _).trans (setGuard _ c g _)

theorem resetEnd (ht : execResetEnd s = .next t) : s.Undisturbed t := by
  unfold execResetEnd at ht
  injection ht with ht
  subst ht
  split
  · exact endReset s
  · exact .refl s

theorem restartPart {r : Request} (ht : execRestartPart r s = .next t) : s.Undisturbed t := by
  unfold execRestartPart at ht
  injection ht with ht
  subst ht
  split
  · exact softReset s
  · exact .refl s

end State.Undisturbed

/-- Every command short of a power-on reset (R39, R40). -/
theorem State.Sustains.exec {s t : State} (safe : s.Safe) (checked : s.RangesChecked) :
    ∀ i : Instr, exec i s = .next t → (∀ cause, i = .powerOnReset cause → cause.asserts = false) →
      Sustains (s.recordStates i) s t
  | .outboundPassage time bytes, ht, _ => .outboundPassage safe checked time bytes ht
  | .returnPassage time bytes, ht, _ => .returnPassage checked time bytes ht
  | .read _ _, rfl, _ => takeRecord checked (refl checked) _
  | .write table _, rfl, _ => takeRecord checked (writeTable safe checked table.toNat) _
  | .slotMapWrite _, rfl, _ => takeRecord checked (writeTable safe checked 1) _
  | .channelWrite _, rfl, _ => takeRecord checked (writeTable safe checked 2) _
  | .stepWrite _, rfl, _ => takeRecord checked (writeTable safe checked 3) _
  | .guardWrite _, rfl, _ => takeRecord checked (writeTable safe checked 4) _
  | .levelWrite _, rfl, _ => takeRecord checked (writeTable safe checked 5) _
  | .inputWrite _, rfl, _ => takeRecord checked (writeTable safe checked 6) _
  | .arbiterWrite _, rfl, _ => takeRecord checked (writeTable safe checked 7) _
  | .ringWrite _, rfl, _ => takeRecord checked (writeTable safe checked 8) _
  | .noticeWrite _, rfl, _ => takeRecord checked (writeTable safe checked 9) _
  | .stepCheck _, rfl, _ => takeRecord checked (checkTable checked 3) _
  | .levelCheck _, rfl, _ => takeRecord checked (checkTable checked 5) _
  | .checkNoObject table _, rfl, _ => takeRecord checked (checkTable checked table.toNat) _
  | .start _, rfl, _ => takeRecord checked (commandStart checked) _
  | .hold _, rfl, _ => takeRecord checked (commandHold checked) _
  | .resume _, rfl, _ => takeRecord checked (commandResume checked) _
  | .abort _, rfl, _ => takeRecord checked (commandAbort checked) _
  | .release _, rfl, _ => takeRecord checked (commandRelease checked) _
  | .clear _, rfl, _ => takeRecord checked (commandClear checked) _
  | .lock _, rfl, _ => takeRecord checked (commandLock checked) _
  | .assign _, rfl, _ => takeRecord checked (commandAssign checked) _
  | .restartPart _, ht, _ => undisturbed checked (.restartPart ht)
  | .broadcast command _, rfl, _ => broadcast checked command.toNat
  | .growthServed c, ht, _ => undisturbed checked (.growthServed c ht)
  | .lineGranted c, ht, _ => undisturbed checked (.lineGranted c ht)
  | .dwellExpiry c, ht, _ => undisturbed checked (.dwellExpiry c ht)
  | .settleExpiry, ht, _ => undisturbed checked (.settleExpiry ht)
  | .ringWatchExpiry, ht, _ => undisturbed checked (.ringWatchExpiry ht)
  | .inputLevelChange time l high, ht, _ => undisturbed checked (.inputLevelChange time l high ht)
  | .inputAcceptance l, ht, _ => undisturbed checked (.inputAcceptance l ht)
  | .graceLapse c g, ht, _ => undisturbed checked (.graceLapse c g ht)
  | .powerOnReset cause, ht, short => by
    injection ht with ht
    rw [if_neg (by simp [short cause rfl])] at ht
    exact ht ▸ refl checked
  | .resetEnd, ht, _ => undisturbed checked (.resetEnd ht)

/-- The part after power-on reset keeps its tables within their rules (R152). -/
theorem State.RecordsSound.powerOn (s : State) : s.powerOn.RecordsSound :=
  ⟨reset.ranges, reset.checkedSteps, reset.emptySteps, reset.checkedLevels, reset.stored, reset.channels⟩

theorem State.RecordsSound.exec {s t : State} (h : s.RecordsSound) (safe : s.Safe) (i : Instr) (ht : exec i s = .next t) :
    t.RecordsSound := by
  obtain ⟨checked, tables⟩ := State.recordsSound_iff.1 h
  by_cases short : ∀ cause, i = .powerOnReset cause → cause.asserts = false
  · have kept := State.Sustains.exec safe checked i ht short
    exact State.recordsSound_iff.2 ⟨kept.ranges, kept.tables tables⟩
  · simp only [not_forall, exists_prop] at short
    obtain ⟨cause, rfl, asserts⟩ := short
    injection ht with ht
    rw [if_pos (Bool.of_not_eq_false asserts)] at ht
    exact ht ▸ powerOn s

theorem State.RecordsSound.step {s t : State} (h : s.RecordsSound) (safe : s.Safe) (ht : step s = .next t) : t.RecordsSound := by
  unfold Machine.step at ht
  split at ht
  · injection ht with ht
    exact ht ▸ h
  · next i rest _ =>
    obtain ⟨checked, tables⟩ := State.recordsSound_iff.1 h
    have waiting := State.Undisturbed.setPending s rest
    exact (State.recordsSound_iff.2 ⟨checked.undisturbed waiting, tables.sameFacts waiting.facts⟩).exec
      (show ({ s with pending := rest } : State).Safe from safe) i ht

/-- Settles O5. -/
theorem stepKeepsRecordsSound : Obligations.StepKeepsRecordsSound := by
  refine ⟨fun s t safe h ht => h.step safe ht, fun i s t c safe checked ht short => ?_, fun entry s c safe checked => ?_⟩
  · have kept := State.Sustains.exec safe checked i ht short
    exact ⟨kept.steps c, kept.facts c⟩
  · have kept := State.KeepsInUse.takeEntry checked entry c
    exact ⟨kept.steps, kept.facts⟩

end Sys2Proof.Machine
end

/-! ### The loop part at a step's end (R25) -/
section
namespace Sys2Proof.Machine

variable {L T k : Nat} {top : LoopEntry} {rest loops : List LoopEntry}

theorem applyLoop_none : applyLoop L none loops = (loops, L + 1) := rfl

theorem applyLoop_pushes (other : ∀ top tail, loops = top :: tail → top.step ≠ L) :
    applyLoop L (some (T, k)) loops = (⟨L, k⟩ :: loops, T) := by
  cases loops with
  | nil => rfl
  | cons top tail => exact if_neg (other top tail rfl)

theorem applyLoop_lowers (own : top.step = L) (left : 2 ≤ top.remaining) :
    applyLoop L (some (T, k)) (top :: rest) = ({ top with remaining := top.remaining - 1 } :: rest, T) :=
  (if_pos own).trans (if_neg (by omega))

theorem applyLoop_removes (own : top.step = L) (last : top.remaining ≤ 1) :
    applyLoop L (some (T, k)) (top :: rest) = (rest, L + 1) :=
  (if_pos own).trans (if_pos last)

/-- Settles O46. -/
theorem loopPartApplied : Obligations.LoopPartApplied := fun L _ _ remaining _ _ =>
  ⟨applyLoop_none, applyLoop_pushes, applyLoop_lowers (top := ⟨L, remaining⟩) rfl, applyLoop_removes (top := ⟨L, 1⟩) rfl le_rfl⟩

end Sys2Proof.Machine
end

/-! ### The words of a step record (Table 2-2, R153), and READ on STEP (R28) -/
section
namespace Sys2Proof.Machine

section
variable (p : StepRecord)

/-- Words 4 to 7 carry the setpoint list, two positions each. -/
theorem StepRecord.wordData_entries (g : Fin 4) : p.wordData (4 + g.val) = some (p.entryData g) := by
  fin_cases g <;> rfl

theorem StepRecord.wordData_none {word : Nat} (h : 8 ≤ word) : p.wordData word = none := by
  obtain ⟨k, rfl⟩ := Nat.exists_eq_add_of_le' h
  rfl

theorem StepRecord.wordData_isSome (word : Nat) : (p.wordData word).isSome = decide (word < 8) := by
  rcases Nat.lt_or_ge word 8 with h | h
  · interval_cases word <;> rfl
  · rw [p.wordData_none h]
    exact (decide_eq_false (Nat.not_lt.2 h)).symm

end

variable {s : State} {r : Request}

theorem State.tableWord_stepTable (s : State) (index word : Nat) :
    s.tableWord 3 index word = if h : index < 512 then s.pool[index].wordData word else none := rfl

theorem State.tableWord_step_absent (h : 512 ≤ r.index.toNat ∨ 8 ≤ r.word.toNat) :
    s.tableWord 3 r.index.toNat r.word.toNat = none := by
  rw [State.tableWord_stepTable]
  split
  · exact StepRecord.wordData_none _ (by omega)
  · rfl

theorem State.tableWord_step {i : Fin 512} (hi : r.index.toNat = i.val) :
    s.tableWord 3 r.index.toNat r.word.toNat = s.pool[i].wordData r.word.toNat := by
  rw [State.tableWord_stepTable, hi]
  exact dif_pos i.isLt

theorem readTable_step_absent (h : 512 ≤ r.index.toNat ∨ 8 ≤ r.word.toNat) : readTable 3 r s = noObject := by
  rw [readTable, State.tableWord_step_absent h]

/-- The answer to a READ of a record in a check state, on the word as stored (R28). -/
def CheckState.answer (data : Data) : CheckState → Answer
  | .checked => { result := .accepted, data := data }
  | .unchecked => { result := .notChecked, data := data }
  | .empty => noObject

theorem readTable_step {i : Fin 512} {data : Data} (hi : r.index.toNat = i.val)
    (hd : s.pool[i].wordData r.word.toNat = some data) : readTable 3 r s = s.pool[i].check.answer data := by
  rw [readTable, State.tableWord_step hi, hd]
  dsimp only
  rw [if_pos (show (3 : Nat) = stepTable from rfl), hi, s.stepRecord_eq i]
  cases s.pool[i].check <;> rfl

/-- Settles O17. -/
theorem readStepReportsCheck : Obligations.ReadStepReportsCheck := by
  intro table r s takes ht
  have read : exec (.read table r) s = .next (s.answered codeRead r (readTable 3 r s).result (readTable 3 r s).data) := by
    rw [← ht]
    exact congrArg _ (takes.takeRecord codeRead _)
  refine ⟨fun h data hd => ?_, fun absent => ?_, fun h => StepRecord.wordData_isSome _ _, fun p => ?_⟩
  · rw [read, readTable_step (i := ⟨r.index.toNat, h⟩) rfl hd, Fin.getElem_fin]
    cases s.pool[r.index.toNat].check <;> rfl
  · rw [read, readTable_step_absent absent]
    rfl
  · exact ⟨rfl, rfl, rfl, rfl, rfl, rfl, rfl, rfl⟩

end Sys2Proof.Machine
end

/-! ### The fields of a request (R153) -/
section
namespace Sys2Proof.Machine

section
variable {l : List Byte} {n : Nat}

theorem byteAt_eq (h : n < l.length) : byteAt l n = l[n].toNat := by
  rw [byteAt, List.getD_eq_getElem _ _ h]

theorem numberAt_two (h : n + 2 ≤ l.length) : numberAt l n 2 = 256 * byteAt l n + byteAt l (n + 1) := by
  rw [numberAt, bytesAt, List.drop_eq_getElem_cons (show n < l.length by omega),
    List.drop_eq_getElem_cons (show n + 1 < l.length by omega), byteAt_eq (show n < l.length by omega),
    byteAt_eq (show n + 1 < l.length by omega)]
  simp only [fromBytes, List.take_succ_cons, List.take_zero, List.foldl_cons, List.foldl_nil]
  omega

theorem numberAt_three (h : n + 3 ≤ l.length) :
    numberAt l n 3 = 65536 * byteAt l n + 256 * byteAt l (n + 1) + byteAt l (n + 2) := by
  change _ = 65536 * byteAt l n + 256 * byteAt l (n + 1) + byteAt l (n + 1 + 1)
  rw [numberAt, bytesAt, List.drop_eq_getElem_cons (show n < l.length by omega),
    List.drop_eq_getElem_cons (show n + 1 < l.length by omega), List.drop_eq_getElem_cons (show n + 1 + 1 < l.length by omega),
    byteAt_eq (show n < l.length by omega), byteAt_eq (show n + 1 < l.length by omega),
    byteAt_eq (show n + 1 + 1 < l.length by omega)]
  simp only [fromBytes, List.take_succ_cons, List.take_zero, List.foldl_cons, List.foldl_nil]
  omega

end

variable (r : Request)

theorem Request.byte_eq (n : Fin 8) : r.byte n.val = r.data[n].toNat := by
  rw [Request.byte, byteAt_eq (by simp)]
  simp

theorem Request.number_two {n : Nat} (h : n ≤ 6) : r.number n 2 = 256 * r.byte n + r.byte (n + 1) :=
  numberAt_two (by rw [Vector.length_toList]; omega)

theorem Request.number_three {n : Nat} (h : n ≤ 5) :
    r.number n 3 = 65536 * r.byte n + 256 * r.byte (n + 1) + r.byte (n + 2) :=
  numberAt_three (by rw [Vector.length_toList]; omega)

end Sys2Proof.Machine
end

/-! ### WRITE on STEP (R23, R26, R27) -/
section
namespace Sys2Proof.Machine

/-! #### What a request makes of a record -/

section
variable (r : Request) (p : StepRecord)

theorem Request.stepRecord_entries (g : Fin 4) : r.stepRecord (4 + g.val) p = r.writeEntries g p := by
  fin_cases g <;> rfl

theorem Request.writeEntries_eq (g : Fin 4) : r.writeEntries g p = { p with
    entries := Vector.ofFn fun n : Fin 8 => if n.val = 2 * g.val then r.setpointEntry 0
      else if n.val = 2 * g.val + 1 then r.setpointEntry 4 else p.entries[n] } := by
  unfold Request.writeEntries
  congr 1
  ext n hn : 1
  rw [Vector.getElem_set, Vector.getElem_set, Vector.getElem_ofFn]
  by_cases first : n = 2 * g.val
  · rw [if_neg (by omega), if_pos first.symm, if_pos first]
  · by_cases second : n = 2 * g.val + 1
    · rw [if_pos second.symm, if_neg first, if_pos second]
    · rw [if_neg (Ne.symm second), if_neg (Ne.symm first), if_neg first, if_neg second]
      rfl

theorem Request.writeEntries_entryData_ne {g k : Fin 4} (h : k ≠ g) : (r.writeEntries g p).entryData k = p.entryData k := by
  have away : k.val ≠ g.val := fun e => h (Fin.ext e)
  simp only [StepRecord.entryData, Request.writeEntries, Vector.getElem_set]
  rw [if_neg (by omega), if_neg (by omega), if_neg (by omega), if_neg (by omega)]

/-- The words of a record are in words 0 to 3 or among the entries. -/
theorem word_cases {word : Nat} (h : word < 8) : word < 4 ∨ ∃ g : Fin 4, word = 4 + g.val := by
  rcases Nat.lt_or_ge word 4 with low | high
  · exact .inl low
  · exact .inr ⟨⟨word - 4, by omega⟩, by simp; omega⟩

/-- A WRITE keeps the words it does not name. -/
theorem Request.stepRecord_wordData_ne {word other : Nat} (h : word < 8) (ne : other ≠ word) :
    (r.stepRecord word p).wordData other = p.wordData other := by
  rcases Nat.lt_or_ge other 8 with ho | ho
  swap
  · rw [StepRecord.wordData_none _ ho, StepRecord.wordData_none _ ho]
  rcases word_cases h with low | ⟨g, rfl⟩
  · interval_cases word <;> interval_cases other <;> first | rfl | exact absurd rfl ne
  · rw [Request.stepRecord_entries]
    rcases word_cases ho with low | ⟨k, rfl⟩
    · interval_cases other <;> rfl
    · rw [StepRecord.wordData_entries, StepRecord.wordData_entries,
        Request.writeEntries_entryData_ne r p fun e => ne (by rw [e])]

end

/-! #### The outcomes -/

variable {s : State} {r : Request}

theorem State.stepInUse_iff {i : Nat} : s.stepInUse i = true ↔ ∃ c, s.InUse c i := by
  refine ⟨fun h => ?_, fun ⟨c, h⟩ => State.KeepsInUse.inUse_stepInUse h⟩
  obtain ⟨c, -, hc⟩ := List.any_eq_true.1 h
  simp only [Bool.and_eq_true, Bool.or_eq_true, beq_iff_eq, or_assoc] at hc
  obtain ⟨engaged, within⟩ := hc
  split at within
  · next first last hr =>
    simp only [Bool.and_eq_true, decide_eq_true_eq] at within
    exact ⟨c, engaged, first, last, hr, within.1, within.2⟩
  · cases within

theorem writeStep_noObject (h : 512 ≤ r.index.toNat ∨ 7 < r.word.toNat) : writeStep r s = (s, noObject) :=
  dif_neg (by omega)

section
variable {i : Fin 512} (hi : r.index.toNat = i.val) (hw : r.word.toNat < 8)
include hi hw

theorem writeStep_inUse {c : Chamber} (busy : s.InUse c i.val) : writeStep r s = (s, s.refuseWith .inUse 3 r) := by
  have used : s.stepInUse i.val = true := State.stepInUse_iff.2 ⟨c, busy⟩
  simp [writeStep, hi, hw, used, stepTable]

theorem writeStep_stored (free : ∀ c, ¬s.InUse c i.val) : writeStep r s =
    (s.setStep i { r.stepRecord r.word.toNat s.pool[i] with check := .unchecked }).acceptWrite 3 r := by
  have none : ¬s.stepInUse i.val = true := fun used => (State.stepInUse_iff.1 used).elim free
  simp [writeStep, hi, hw, none, stepTable]

end

/-- A START of a record that is not CHECKED (R32). -/
theorem startWalk_notChecked {x : Ctx} (slotMap : Vector SlotUse 128) (c : Chamber) {i : Fin 512}
    (h : (x.stepRecord i.val).check ≠ .checked) :
    startWalk x slotMap c i.val = .error { result := .notChecked, index := i.val } :=
  (startWalk_ends x slotMap c i.val i.val le_rfl i.isLt (fun j h1 h2 => absurd h1 (Nat.not_le.2 h2))).1 _
    ⟨[], _, _, rfl, by simp, h⟩

/-- Settles O22. -/
theorem stepWriteMakesUnchecked : Obligations.StepWriteMakesUnchecked := by
  refine ⟨fun r s takes absent => congrArg _ (takes.answers_noObject _ (writeStep_noObject absent)),
    fun r s i takes hi hw => ⟨fun free => ?_, fun c first last hr h1 h2 busy => ?_, rfl, rfl, rfl, rfl, fun g => ?_,
      r.byte_eq, fun n => r.number_two, fun n => r.number_three⟩⟩
  · refine ⟨r.stepRecord r.word.toNat s.pool[i], congrArg _ (takes.answers_stored (writeStep_stored hi hw ?_)), rfl,
      fun w ne => r.stepRecord_wordData_ne _ hw ne, fun c => startWalk_notChecked _ c ?_⟩
    · rintro c ⟨busy, first, last, hr, h1, h2⟩
      obtain ⟨notWaiting, notRunning, notHeld⟩ := free c first last hr h1 h2
      exact busy.elim notWaiting fun busy => busy.elim notRunning notHeld
    · have written := State.stepRecord_eq
        (s.setStep i { r.stepRecord r.word.toNat s.pool[i] with check := .unchecked }) i
      rw [State.pool_setStep, if_pos rfl] at written
      exact (congrArg StepRecord.check written).trans_ne (by simp)
  · exact congrArg _ (takes.answers_refused (writeStep_inUse hi hw ⟨busy, first, last, hr, h1, h2⟩))
  · rw [Request.stepRecord_entries, Request.writeEntries_eq]
    rfl

end Sys2Proof.Machine
end

/-! ### CHECK on STEP (R29, R30, R161) -/
section
namespace Sys2Proof.Machine

/-- The step records of a block of `count` from `first` on CHECKED. -/
def State.stepsChecked (s : State) (first count : Nat) : State :=
  { s with pool := Vector.ofFn fun i : Fin 512 =>
    if first ≤ i.val ∧ i.val < first + count then { s.pool[i] with check := .checked } else s.pool[i] }

theorem State.stepsChecked_zero (s : State) (first : Nat) : s.stepsChecked first 0 = s := by
  have none : ∀ i : Fin 512, ¬(first ≤ i.val ∧ i.val < first + 0) := fun i h => by omega
  have same : (Vector.ofFn fun i : Fin 512 => s.pool[i]) = s.pool := by
    ext i hi : 1
    rw [Vector.getElem_ofFn]
    rfl
  simp only [State.stepsChecked, none, if_false, same]

theorem State.stepsChecked_succ (s : State) (i : Fin 512) (count : Nat) :
    (s.setStep i { s.pool[i] with check := .checked }).stepsChecked (i.val + 1) count = s.stepsChecked i.val (count + 1) := by
  simp only [State.stepsChecked, State.pool_setStep]
  unfold State.setStep
  congr 2
  funext j
  by_cases hij : i = j
  · subst hij
    rw [if_pos rfl, if_neg (by omega), if_pos (by omega)]
  · have hval : i.val ≠ j.val := fun h => hij (Fin.ext h)
    rw [if_neg hij]
    congr 1
    exact propext ⟨fun h => by omega, fun h => by omega⟩

theorem State.stepsChecked_outside (s : State) {first count : Nat} {i : Fin 512} (h : first + count ≤ i.val) :
    (s.stepsChecked first count).pool[i] = s.pool[i] := by
  have outside : ¬(first ≤ i.val ∧ i.val < first + count) := by omega
  simp [State.stepsChecked, outside]

/-- A record that CHECK passes over (R29, R30). -/
def StepRecord.Passes (r : StepRecord) (i : Nat) : Prop := r.check ≠ .empty ∧ r.MeetsCheck i

/-- The examination passes over a run of records within their rules. -/
theorem checkRecords_passing (m n first passed : Nat) (s : State) (hm : first + m ≤ 512)
    (passes : ∀ i : Fin 512, first ≤ i.val → i.val < first + m → s.pool[i].Passes i.val) :
    checkRecords (m + n) first passed s = checkRecords n (first + m) (passed + m) (s.stepsChecked first m) := by
  induction m generalizing first passed s with
  | zero => rw [State.stepsChecked_zero, Nat.zero_add, Nat.add_zero, Nat.add_zero]
  | succ m ih =>
    have hfirst : first < 512 := by omega
    obtain ⟨stored, rules⟩ := passes ⟨first, hfirst⟩ le_rfl (by simp)
    have unbroken : checkFault first s.pool[first] = none := checkFault_eq_none_iff.2 rules
    have present : ¬s.pool[first].check = .empty := stored
    rw [Nat.succ_add, checkRecords, dif_pos hfirst]
    simp only [present, if_false, unbroken]
    rw [ih (first + 1) (passed + 1) _ (by omega) fun i h1 h2 => ?_]
    · rw [show first + 1 + m = first + (m + 1) by omega, show passed + 1 + m = passed + (m + 1) by omega]
      exact congrArg _ (s.stepsChecked_succ ⟨first, hfirst⟩ m)
    · have hne : (⟨first, hfirst⟩ : Fin 512) ≠ i := fun h => by rw [← h] at h1; simp at h1
      rw [State.pool_setStep, if_neg hne]
      exact passes i (by omega) (by omega)

/-- What CHECK names of a record that it does not pass over: the code of EMPTY (R161), or the first rule broken. -/
def StepRecord.StopsAt (r : StepRecord) (i field position : Nat) : Prop :=
  if r.check = .empty then field = 0xFE ∧ position = 0 else FirstBroken (checkRules i r) (field, position)

theorem StepRecord.exists_stopsAt {r : StepRecord} {i : Nat} (h : ¬r.Passes i) : ∃ field position, r.StopsAt i field position := by
  by_cases empty : r.check = .empty
  · exact ⟨_, _, (if_pos empty).mpr ⟨rfl, rfl⟩⟩
  · have broken : ∃ rule ∈ checkRules i r, ¬rule.1 := by
      simpa only [not_forall, exists_prop] using mt checkRules_iff.1 fun rules => h ⟨empty, rules⟩
    obtain ⟨⟨field, position⟩, first, -⟩ := exists_firstBroken _ broken
    exact ⟨field, position, (if_neg empty).mpr first⟩

/-- The examination stops at a record that is EMPTY or breaks a rule. -/
theorem checkRecords_stops (n passed : Nat) (s : State) (i : Fin 512) {field position : Nat}
    (stops : s.pool[i].StopsAt i.val field position) :
    checkRecords (n + 1) i.val passed s = (s, checkStopped i.val field position passed) := by
  rw [checkRecords, dif_pos i.isLt]
  dsimp only
  unfold StepRecord.StopsAt at stops
  split at stops
  · next empty =>
    obtain ⟨rfl, rfl⟩ := stops
    exact if_pos empty
  · next present =>
    have stored : ¬s.pool[i.val].check = .empty := present
    have fault : checkFault i.val s.pool[i.val] = some (field, position) := (checkFault_iff _ _ _).2 stops
    rw [if_neg stored, fault]

section
variable {s : State} {r : Request}

theorem checkSteps_outside (h : 511 < r.index.toNat ∨ r.byte 0 = 0 ∨ 64 < r.byte 0 ∨ 512 < r.index.toNat + r.byte 0) :
    checkSteps r s = (s, { result := .badValue, data := zeroData }) := if_pos h

section
variable (h1 : 1 ≤ r.byte 0) (h2 : r.byte 0 ≤ 64) (h3 : r.index.toNat + r.byte 0 ≤ 512)
include h1 h2 h3

theorem checkSteps_within : checkSteps r s = checkRecords (r.byte 0) r.index.toNat 0 s := if_neg (by omega)

theorem checkSteps_passes
    (passes : ∀ i : Fin 512, r.index.toNat ≤ i.val → i.val < r.index.toNat + r.byte 0 → s.pool[i].Passes i.val) :
    checkSteps r s = (s.stepsChecked r.index.toNat (r.byte 0), checkPassed (r.byte 0)) := by
  have run := checkRecords_passing (r.byte 0) 0 r.index.toNat 0 s h3 passes
  rw [Nat.add_zero, Nat.zero_add, checkRecords] at run
  rw [checkSteps_within h1 h2 h3, run]

theorem checkSteps_stops {k : Fin 512} (hk : r.index.toNat ≤ k.val) (hk' : k.val < r.index.toNat + r.byte 0)
    {field position : Nat} (stops : s.pool[k].StopsAt k.val field position)
    (before : ∀ i : Fin 512, r.index.toNat ≤ i.val → i < k → s.pool[i].Passes i.val) :
    checkSteps r s = (s.stepsChecked r.index.toNat (k.val - r.index.toNat),
      checkStopped k.val field position (k.val - r.index.toNat)) := by
  have count : r.byte 0 = (k.val - r.index.toNat) + ((r.index.toNat + r.byte 0 - k.val - 1) + 1) := by omega
  have upto : r.index.toNat + (k.val - r.index.toNat) = k.val := by omega
  have run := checkRecords_passing (k.val - r.index.toNat) ((r.index.toNat + r.byte 0 - k.val - 1) + 1) r.index.toNat 0 s
    (by omega) fun i h4 h5 => before i h4 (Fin.lt_def.2 (by omega))
  rw [← count, upto, Nat.zero_add] at run
  have kept : (s.stepsChecked r.index.toNat (k.val - r.index.toNat)).pool[k] = s.pool[k] :=
    s.stepsChecked_outside upto.le
  rw [checkSteps_within h1 h2 h3, run]
  generalize s.stepsChecked r.index.toNat (k.val - r.index.toNat) = t at kept ⊢
  exact checkRecords_stops _ _ t k (kept ▸ stops)

end
end

/-- Settles O29. -/
theorem stepCheckBlock : Obligations.StepCheckBlock := by
  intro r s takes
  have answered : ∀ {t : State} {a : Answer}, checkSteps r s = (t, a) →
      exec (.stepCheck r) s = .next (t.answered codeCheck r a.result a.data) := fun {t a} hc => by
    refine congrArg Host.Outcome.next ((takes.takeRecord codeCheck (checkSteps r)).trans ?_)
    rw [hc]
  refine ⟨fun outside => answered (checkSteps_outside outside), fun h1 h2 h3 => ⟨fun passes =>
    answered (checkSteps_passes h1 h2 h3 passes), fun k hk hk' stopped before => ?_⟩⟩
  obtain ⟨field, position, stops⟩ := StepRecord.exists_stopsAt stopped
  exact ⟨field, position, stops, answered (checkSteps_stops h1 h2 h3 hk hk' stops before)⟩

end Sys2Proof.Machine
end

/-! ### A chamber command that names one chamber, by what its engine answers (R66, R162) -/
section
namespace Sys2Proof.Machine

variable {s t : State} {r : Request} {c : Chamber} {act : ChamberStep}

theorem State.Takes.chamber_refuses (takes : s.Takes r) (only : r.Only c) (code : Nat) {f : ChamberRefusal}
    (h : act c s = (s, some f)) : s.takeRecord code r (chamberCommand act r) = s.chamberRefused code r c f := by
  rw [takes.takeRecord, only.chamberCommand, h]
  rfl

theorem State.Takes.chamber_accepts (takes : s.Takes r) (only : r.Only c) (code : Nat) (h : act c s = (t, none)) :
    s.takeRecord code r (chamberCommand act r) = t.chamberTook code r c := by
  rw [takes.takeRecord, only.chamberCommand, h]
  rfl

end Sys2Proof.Machine
end

/-! ### START and RESUME refused, and RESUME while GUARD remains (R31, R43, R74) -/
section
namespace Sys2Proof.Machine

variable {s : State} {c : Chamber}

theorem startChamber_wrongState (first : Nat) (h : (s.engine c).state ≠ .idle) :
    startChamber first c s = (s, some { result := .wrongState }) := if_pos h

theorem startChamber_walkRefuses {first : Nat} {f : ChamberRefusal} (idle : (s.engine c).state = .idle)
    (walk : startWalk s.ctx s.slotMap c first = .error f) : startChamber first c s = (s, some f) := by
  rw [startChamber, if_neg (not_not.2 idle), walk]

theorem startWalk_outside {x : Ctx} {slotMap : Vector SlotUse 128} {first : Nat} (h : 512 ≤ first) :
    startWalk x slotMap c first = .error { result := .badValue } := if_pos h

theorem resumeChamber_wrongState (mode : Nat) (h : (s.engine c).state ≠ .held) :
    resumeChamber mode c s = (s, some { result := .wrongState }) := if_pos h

theorem resumeMode_eq_none {mode : Nat} (h : 1 < mode) : resumeMode mode = none := by
  obtain ⟨k, rfl⟩ := Nat.exists_eq_add_of_le' h
  rfl

theorem resumeMode_eq_some {mode : Nat} (h : mode ≤ 1) :
    resumeMode mode = some (if mode = 0 then .continue else .restart) := by
  interval_cases mode <;> rfl

theorem resumeChamber_badMode {mode : Nat} (held : (s.engine c).state = .held) (h : 1 < mode) :
    resumeChamber mode c s = (s, some { result := .badValue }) := by
  rw [resumeChamber, if_neg (not_not.2 held), resumeMode_eq_none h]

/-- The mode is stored and the other sources go, while GUARD keeps the hold (R74). -/
theorem resumeChamber_guarded {mode : Nat} {m : ResumeMode} {h : HoldRecord} (held : (s.engine c).state = .held)
    (named : resumeMode mode = some m) (record : (s.engine c).hold = some h) (guard : (s.engine c).sources.guard = true) :
    resumeChamber mode c s = ({ s with plant := s.plant.setEngine c { s.engine c with
      sources := { guard := true }, hold := some { h with mode := m } } }, none) := by
  have stays : (s.engine c).sources.afterResume = { guard := true } := by rw [HoldSources.afterResume, guard]
  have stored : storeMode c m s.plant =
      s.plant.setEngine c { s.engine c with hold := some { h with mode := m } } := by
    rw [storeMode, State.engine_eq, record, Option.map_some]
  rw [resumeChamber, if_neg (not_not.2 held), named]
  dsimp only [State.onPlant]
  rw [State.engine_eq, stays, stored, removeSources, Plant.engine_setEngine_self, Plant.setEngine_setEngine]
  rfl

/-- Settles O34. -/
theorem startAndResumeRefused : Obligations.StartAndResumeRefused := by
  refine ⟨fun r s c takes only => ⟨fun busy => ?_, fun f idle walk => ?_⟩,
    fun x slotMap c s => ⟨startWalk_outside, fun i hs hi before => ?_⟩,
    fun r s c takes only => ⟨fun other => ?_, fun held badMode => ?_, fun h held mode record guard => ?_⟩⟩
  · exact congrArg _ (takes.chamber_refuses only codeStart (startChamber_wrongState _ busy))
  · exact congrArg _ (takes.chamber_refuses only codeStart (startChamber_walkRefuses idle walk))
  · obtain ⟨fails, passes⟩ := startWalk_ends x slotMap c s i hs hi before
    exact ⟨fails, fun pass => (passes pass).1, fun pass => (passes pass).2⟩
  · exact congrArg _ (takes.chamber_refuses only codeResume (resumeChamber_wrongState _ other))
  · exact congrArg _ (takes.chamber_refuses only codeResume (resumeChamber_badMode held badMode))
  · exact congrArg _ (takes.chamber_accepts only codeResume
      (resumeChamber_guarded held (resumeMode_eq_some mode) record guard))

end Sys2Proof.Machine
end

/-! ### ABORT, RELEASE and CLEAR at one engine, by the state of the engine (R63 to R65) -/
section
namespace Sys2Proof.Machine

variable {s : State} {c : Chamber}

theorem abortChamber_wrongState (h : (s.engine c).state = .idle ∨ (s.engine c).state = .safe) :
    abortChamber c s = (s, some { result := .wrongState }) := by
  unfold abortChamber
  rcases h with h | h <;> rw [h] <;> rfl

theorem abortChamber_aborts (h1 : (s.engine c).state ≠ .idle) (h2 : (s.engine c).state ≠ .safe) :
    abortChamber c s = ({ s with plant := abortEngine s.ctx (expireNow s.ctx) c s.plant }, none) := by
  unfold abortChamber
  split
  iterate 4 rfl
  · next h => exact absurd h h1
  · next h => exact absurd h h2

theorem releaseChamber_wrongState (h : (s.engine c).state ≠ .done) :
    releaseChamber c s = (s, some { result := .wrongState }) := if_neg h

theorem releaseChamber_releases (h : (s.engine c).state = .done) :
    releaseChamber c s = ({ s with plant := releaseEngine s.ctx (expireNow s.ctx) c s.plant }, none) := if_pos h

theorem clearChamber_wrongState (h : (s.engine c).state ≠ .safe) :
    clearChamber c s = (s, some { result := .wrongState }) := if_pos h

theorem clearChamber_stillTripped (safe : (s.engine c).state = .safe) (h : anyStanding s.guards[c] .safe = true) :
    clearChamber c s = (s, some { result := .stillTripped }) := by
  rw [clearChamber, if_neg (not_not.2 safe), if_pos h]

theorem clearChamber_clears (safe : (s.engine c).state = .safe) (h : anyStanding s.guards[c] .safe = false) :
    clearChamber c s =
      ({ s with plant := (s.plant.setEngine c { s.engine c with state := .idle }).setPermit c s.ring.up }, none) := by
  rw [clearChamber, if_neg (not_not.2 safe), if_neg (ne_true_of_eq_false h)]

/-- ABORT of another chamber leaves a chamber that stands in neither queue as it was. -/
theorem Plant.Spares.abortEngine {x : Ctx} {expire : Expire} {d : Chamber} {p q : Plant}
    (hE : ∀ d q, d ≠ c → Plant.Spares c p q → Plant.Spares c p (expire d q)) (h : Plant.Spares c p q) (ne : d ≠ c) :
    Plant.Spares c p (abortEngine x expire d q) :=
  ((h.setEngine ne _).giveBack hE (fun _ k => k.examineGrowth hE) ne).setEngine ne _

/-- Settles O36. -/
theorem abortReturnsToIdle : Obligations.AbortReturnsToIdle := by
  intro r s c takes only
  refine ⟨fun notIdle notSafe => ?_, fun h => congrArg _ (takes.chamber_refuses only codeAbort (abortChamber_wrongState h))⟩
  have spared := expireNow_spares s.ctx c
  have rests := abortEngine_rests (x := s.ctx) spared s.plant
  refine ⟨_, congrArg _ (takes.chamber_accepts only codeAbort (abortChamber_aborts notIdle notSafe)), rests.engine,
    rests.reservation, rests.permit, rests.out, rests.line, fun d ne out => ?_, ?_⟩
  · exact (Plant.Spares.refl out).abortEngine (fun e q => expireNow_spares s.ctx d s.plant q e) ne.symm
  · exact abortEngine_handsBack spared (fun t d q => settles_expireWithin s.ctx 4 d q) s.plant

end Sys2Proof.Machine
end

/-! ### RELEASE, and what ABORT leaves of a DONE engine (R63, R64) -/
section
namespace Sys2Proof.Machine

variable {x : Ctx} {expire : Expire} {c : Chamber} {p : Plant}

/-- A chamber that is not queued for the line has no claim to withdraw. -/
theorem withdrawLine_of_not_queued (h : c ∉ p.arbiter.queue) : withdrawLine c p = p := by
  have kept : p.arbiter.queue.filter (· ≠ c) = p.arbiter.queue :=
    List.filter_eq_self.2 fun d hd => by simpa using fun k : d = c => h (k ▸ hd)
  rw [withdrawLine, kept]
  rfl

/-- A chamber in neither queue has nothing to withdraw. -/
theorem withdrawBoth_of_out (h : p.Out c) : withdrawBoth c p = p := by
  have kept : p.arbiter.growth.filter (fun g => g.chamber ≠ c) = p.arbiter.growth :=
    List.filter_eq_self.2 fun g hg => by simpa using h.2 g hg
  rw [withdrawBoth, withdrawLine_of_not_queued h.1, withdrawGrowth, kept]
  rfl

theorem releaseLine_of_not_holder (h : p.arbiter.line ≠ .granted c) : releaseLine x expire c p = p :=
  if_neg (by rw [Plant.holds_iff]; exact h)

/-- A chamber that has nothing of the arbiter gives back its reservation alone. -/
theorem giveBack_of_out (examine : Plant → Plant) (out : p.Out c) (line : p.arbiter.line ≠ .granted c) :
    giveBack x expire examine c p = examine (returnReservation c p) := by
  rw [giveBack, withdrawBoth_of_out out, releaseLine_of_not_holder line]

theorem HoldSources.eq_empty {h : HoldSources} (empty : h.isEmpty = true) : h = {} := by
  obtain ⟨controller, guard, ring, engine⟩ := h
  revert empty
  revert controller guard ring engine
  decide

/-- What a sound engine that is not WAITING, RUNNING or HELD has (Tables 3-2 and 2-6). -/
structure Engine.AtRest (e : Engine) : Prop where
  range : e.range = none
  timer : e.timer = none
  awaited : e.awaited = .nothing
  sources : e.sources = {}
  hold : e.hold = none

theorem Engine.Consistent.timer_none {e : Engine} (h : e.Consistent) (hs : e.state ≠ .running) : e.timer = none :=
  Option.not_isSome_iff_eq_none.1 fun k => hs (h.timer k)

theorem Engine.Consistent.atRest {e : Engine} (h : e.Consistent) (hs : e.state = .idle ∨ e.state = .done ∨ e.state = .safe) :
    e.AtRest := by
  have notWaiting : e.state ≠ .waiting := by rcases hs with hs | hs | hs <;> simp [hs]
  have notRunning : e.state ≠ .running := by rcases hs with hs | hs | hs <;> simp [hs]
  have notHeld : e.state ≠ .held := by rcases hs with hs | hs | hs <;> simp [hs]
  refine ⟨?_, h.timer_none notRunning, ?_, HoldSources.eq_empty (h.sources.2 notHeld), ?_⟩
  · exact Option.not_isSome_iff_eq_none.1 fun k => (h.range.1 k).elim notWaiting fun k => k.elim notRunning notHeld
  · exact Decidable.not_not.1 fun k => notWaiting (h.awaited.1 k)
  · exact Option.not_isSome_iff_eq_none.1 fun k => (h.hold k).elim notHeld notWaiting

/-- The plant with the condition counter of chamber c at 0, its reservation at the allowance and the abatement queue examined
(R64). -/
def Plant.released (x : Ctx) (expire : Expire) (c : Chamber) (p : Plant) : Plant :=
  examineGrowth x expire ((p.setEngine c { p.engine c with counter := 0 }).setReservation c (p.allowance c))

variable (hE : ∀ (q r : Plant) d, d ≠ c → Plant.Spares c q r → Plant.Spares c q (expire d r))
include hE

theorem Plant.released_spares (out : p.Out c) :
    Plant.Spares c ((p.setEngine c { p.engine c with counter := 0 }).setReservation c (p.allowance c)) (p.released x expire c) :=
  examineGrowth_spares hE out

theorem Plant.released_engine (out : p.Out c) : (p.released x expire c).engine c = { p.engine c with counter := 0 } :=
  (Plant.released_spares hE out).engine.trans (Plant.engine_setEngine_self p c _)

theorem releaseEngine_eq (out : p.Out c) : releaseEngine x expire c p =
    (p.released x expire c).setEngine c { p.engine c with state := .idle, counter := 0, loops := [] } := by
  have zeroed := Plant.released_engine (x := x) hE out
  unfold Plant.released at zeroed ⊢
  rw [releaseEngine, returnReservation, Plant.setEngine_allowance]
  dsimp only
  rw [zeroed]

/-- ABORT of an engine at rest that has nothing of the arbiter is RELEASE (R63, R64). -/
theorem abortEngine_of_atRest (out : p.Out c) (line : p.arbiter.line ≠ .granted c) (rest : (p.engine c).AtRest) :
    abortEngine x expire c p = releaseEngine x expire c p := by
  have zeroed := Plant.released_engine (x := x) hE out
  rw [releaseEngine_eq hE out, abortEngine]
  dsimp only
  have entered : { p.engine c with timer := none, counter := 0, awaited := .nothing } = { p.engine c with counter := 0 } := by
    rw [← rest.timer, ← rest.awaited]
  rw [entered, giveBack_of_out (p := p.setEngine c _) _ out line, returnReservation, Plant.setEngine_allowance]
  change (p.released x expire c).setEngine c { (p.released x expire c).engine c with
    state := .idle, hold := none, sources := {}, loops := [], range := none } = _
  rw [zeroed, ← rest.hold, ← rest.sources, ← rest.range]

end Sys2Proof.Machine
end

/-! ### RELEASE of a DONE engine (R63, R64) -/
section
namespace Sys2Proof.Machine

/-- Settles O37. -/
theorem releaseReturnsToIdle : Obligations.ReleaseReturnsToIdle := by
  intro r s c takes only
  refine ⟨fun safe done => ?_, fun h => congrArg _ (takes.chamber_refuses only codeRelease (releaseChamber_wrongState h))⟩
  have done' : (s.plant.engine c).state = .done := done
  have spared := expireNow_spares s.ctx c
  have out : s.plant.Out c := (State.safe_iff.1 safe).out_of_state (by rw [done']; simp) (by rw [done']; simp)
  have line : s.plant.arbiter.line ≠ .granted c := fun k => by
    have active := safe.holder c k
    rw [done'] at active
    simp at active
  have rest := (safe.cells c).atRest (.inr (.inl done))
  have kept := Plant.released_spares (x := s.ctx) spared out
  have same := abortEngine_of_atRest (x := s.ctx) spared out line rest
  have eq := releaseEngine_eq (x := s.ctx) spared out
  refine ⟨_, congrArg _ (takes.chamber_accepts only codeRelease (releaseChamber_releases done)), ?_, ?_, ?_, ?_,
    fun d ne outside => ?_, eq⟩
  · rw [← same]
    exact congrArg _ (takes.chamber_accepts only codeAbort (abortChamber_aborts (by simp [done]) (by simp [done])))
  · rw [eq, Plant.engine_setEngine_self]
    rfl
  · rw [eq, Plant.setEngine_reservation, kept.reservation]
    simp
  · rw [eq]
    exact kept.permit
  · rw [← same]
    exact (Plant.Spares.refl outside).abortEngine (fun e q => expireNow_spares s.ctx d s.plant q e) ne.symm

end Sys2Proof.Machine
end

/-! ### CLEAR (R65) -/
section
namespace Sys2Proof.Machine

theorem GuardState.standing_iff {g : GuardState} : g.standing = true ↔ g = .tripped ∨ ∃ n, g = .releasing n := by
  cases g <;> simp [GuardState.standing]

theorem anyStanding_iff {entries : Vector GuardEntry 16} {action : GuardAction} : anyStanding entries action = true ↔
    ∃ g : GuardIndex, entries[g].config.action = action ∧
      (entries[g].state = .tripped ∨ ∃ n, entries[g].state = .releasing n) := by
  simp only [anyStanding, List.any_eq_true, mem_sixteen, true_and, Bool.and_eq_true, beq_iff_eq, GuardState.standing_iff]

/-- Settles O38. -/
theorem clearLeavesSafe : Obligations.ClearLeavesSafe := by
  intro r s c takes only standing
  have stands : anyStanding s.guards[c] .safe = true ↔ ∃ g, standing g := anyStanding_iff
  refine ⟨fun safe tripped => ?_, fun safe clear => ⟨?_, fun sound => sound.settled c (.inr (.inr safe)), fun k h v => ?_⟩,
    fun h => congrArg _ (takes.chamber_refuses only codeClear (clearChamber_wrongState h))⟩
  · exact congrArg _ (takes.chamber_refuses only codeClear (clearChamber_stillTripped safe (stands.2 tripped)))
  · refine congrArg _ (takes.chamber_accepts only codeClear (clearChamber_clears safe ?_))
    exact Bool.eq_false_iff.2 fun h => not_exists.2 clear (stands.1 h)
  · exact baseValue_idle rfl

end Sys2Proof.Machine
end

/-! ### The load of a flow and of a step, the requested reservation and the idle allowance clamp (R45, R46, R87) -/
section
namespace Sys2Proof.Machine

theorem flowLoad_rounds_up (v weight : Nat) :
    v * weight ≤ 1000 * flowLoad v weight ∧ 1000 * flowLoad v weight < v * weight + 1000 := by
  unfold flowLoad
  omega

/-- What is cut to the remaining allowance has a load within it. -/
theorem flowLoad_cut (weight remaining : Nat) : flowLoad (remaining * 1000 / weight) weight ≤ remaining := by
  have within := Nat.div_mul_le_self (remaining * 1000) weight
  unfold flowLoad
  omega

theorem allowanceClamp_fits {weight remaining v : Nat} (h : flowLoad v weight ≤ remaining) :
    allowanceClamp weight remaining v = (v, remaining - flowLoad v weight, false) := by
  by_cases weightless : weight = 0
  · simp [weightless, allowanceClamp, flowLoad]
  · rw [allowanceClamp, if_neg weightless, if_pos h]

theorem allowanceClamp_cuts {weight remaining v : Nat} (h : remaining < flowLoad v weight) :
    allowanceClamp weight remaining v =
      (remaining * 1000 / weight, remaining - flowLoad (remaining * 1000 / weight) weight, true) := by
  have weighs : weight ≠ 0 := by
    rintro rfl
    simp [flowLoad] at h
  rw [allowanceClamp, if_neg weighs, if_neg (Nat.not_le.2 h)]

/-- The present entry at a position of the list, for a position that names channel h (R24). -/
def SetpointEntry.setpoint (e : SetpointEntry) (h : Chan) : Setpoint := ⟨h, e.target, readFlag e.ramp⟩

/-- The first position that names channel h gives the entry of the list for it. -/
theorem StepRecord.setpointFor_eq (r : StepRecord) (h : Chan) :
    r.setpointFor h = (r.entries.toList.find? fun e => e.channel.toNat == h.val).map fun e => e.setpoint h := by
  unfold StepRecord.setpointFor StepRecord.setpoints
  induction r.entries.toList with
  | nil => rfl
  | cons e rest ih =>
    by_cases named : e.channel.toNat = h.val
    · simp [named, SetpointEntry.setpoint]
    · rw [List.find?_cons_of_neg (by simpa using named), ← ih]
      by_cases within : e.channel.toNat < 16
      · have other : (⟨e.channel.toNat, within⟩ : Chan) ≠ h := fun k => named (congrArg Fin.val k)
        simp [within, other]
      · simp [within]

theorem StepRecord.setpointFor_none {r : StepRecord} {h : Chan} (unnamed : ∀ n : Fin 8, r.entries[n].channel.toNat ≠ h.val) :
    r.setpointFor h = none := by
  rw [r.setpointFor_eq, Option.map_eq_none_iff, List.find?_eq_none]
  intro e he
  obtain ⟨n, hn, rfl⟩ := List.getElem_of_mem he
  simpa using unnamed ⟨n, by simpa using hn⟩

theorem StepRecord.setpointFor_first {r : StepRecord} {h : Chan} {n : Fin 8} (named : r.entries[n].channel.toNat = h.val)
    (first : ∀ m : Fin 8, m < n → r.entries[m].channel.toNat ≠ h.val) :
    r.setpointFor h = some (r.entries[n].setpoint h) := by
  rw [r.setpointFor_eq, Option.map_eq_some_iff]
  refine ⟨_, List.find?_eq_some_iff_getElem.2 ⟨by simpa using named, n.val, by simp, rfl, fun j hj => ?_⟩, rfl⟩
  simpa using first ⟨j, by omega⟩ hj

theorem sixteen_eq_finRange : sixteen = List.finRange 16 := by decide

/-- The greater of output table value and target (R45). -/
def StepRecord.greatestValue (step : StepRecord) (table : ValueTable) (h : Chan) : Nat :=
  match step.setpointFor h with
  | none => table[h]
  | some e => if table[h] < e.target then e.target else table[h]

/-- The loads of the channels of chamber c at those values, 0 but for its gas flows. -/
def StepRecord.flowLoads (x : Ctx) (c : Chamber) (step : StepRecord) (table : ValueTable) : List Nat :=
  (List.finRange 16).map fun h =>
    if (x.record c h).kind = .gasFlow then flowLoad (step.greatestValue table h) (x.record c h).weight else 0

theorem stepLoad_eq (x : Ctx) (c : Chamber) (step : StepRecord) (table : ValueTable) :
    stepLoad x c step table = min 65535 (step.flowLoads x c table).sum := by
  rw [stepLoad, StepRecord.flowLoads, sixteen_eq_finRange]
  refine congrArg (fun loads : List Nat => min 65535 loads.sum) (List.map_congr_left fun h _ => ?_)
  unfold StepRecord.greatestValue
  cases step.setpointFor h with
  | none => rfl
  | some e =>
    have greater : max table[h] e.target = if table[h] < e.target then e.target else table[h] := by
      rw [Nat.max_def]
      split <;> split <;> omega
    simp only [greater]

/-- Settles O56. -/
theorem allowanceClampFits : Obligations.AllowanceClampFits := by
  refine ⟨flowLoad_rounds_up, fun x c step table => ?_, fun step h => ⟨StepRecord.setpointFor_none, fun n named first => ?_⟩,
    fun x c p => ⟨max_eq_left, max_eq_right⟩, fun weight remaining v => ?_⟩
  · change ((step.flowLoads x c table).sum ≤ 65535 → _ = (step.flowLoads x c table).sum) ∧
      (65535 < (step.flowLoads x c table).sum → _)
    rw [stepLoad_eq]
    exact ⟨Nat.min_eq_right, fun exceeds => Nat.min_eq_left (Nat.le_of_lt exceeds)⟩
  · refine ⟨_, StepRecord.setpointFor_first named first, fun k => ?_, fun k => ?_⟩ <;> rw [k] <;> rfl
  · intro out
    rcases Nat.lt_or_ge remaining (flowLoad v weight) with exceeds | fits
    · have cut := flowLoad_cut weight remaining
      have out_eq : out = _ := allowanceClamp_cuts exceeds
      rw [out_eq]
      exact ⟨out_eq ▸ allowanceClamp_le weight remaining v, by simpa using Nat.add_sub_cancel' cut, by simpa using exceeds,
        by simp, fun _ => rfl⟩
    · have out_eq : out = _ := allowanceClamp_fits fits
      rw [out_eq]
      exact ⟨le_rfl, Nat.add_sub_cancel' fits, by simpa using fits, fun _ => rfl, by simp⟩

end Sys2Proof.Machine
end

/-! ### What is read of a step record, and the setting of targets (Tables 2-1 and 2-2, R25) -/
section
namespace Sys2Proof.Machine

namespace StepRecord

variable {r : StepRecord}

theorem kindOf_eq_some_iff {k : StepKind} : r.kindOf = some k ↔ r.kind.toNat = match k with
    | .timed => 0
    | .pumpTo => 1
    | .ventTo => 2
    | .strike => 3
    | .endOfSequence => 4 := by
  unfold StepRecord.kindOf
  split
  iterate 5 next named => cases k <;> simp [named]
  next => cases k <;> simp <;> assumption

theorem isEnd_iff : r.isEnd = true ↔ r.kind.toNat = 4 := by
  rw [StepRecord.isEnd, beq_iff_eq, kindOf_eq_some_iff]

theorem isConditioned_iff : r.isConditioned = true ↔ 1 ≤ r.kind.toNat ∧ r.kind.toNat ≤ 3 := by
  simp only [StepRecord.isConditioned, Bool.or_eq_true, beq_iff_eq, kindOf_eq_some_iff]
  omega

theorem timeoutAction_eq_some_iff {a : TimeoutAction} : r.timeoutAction = some a ↔ r.timeout.toNat = match a with
    | .toSafe => 1
    | .toHold => 2
    | .toAdvance => 3 := by
  unfold StepRecord.timeoutAction
  split
  iterate 3 next named => cases a <;> simp [named]
  next => cases a <;> simp <;> assumption

end StepRecord

theorem setTargets_cons (e : Setpoint) (rest : List Setpoint) (t : ValueTable) :
    setTargets (e :: rest) t = setTargets rest (t.set e.channel.val e.target e.channel.isLt) := rfl

theorem setTargets_unnamed {targets : List Setpoint} {h : Chan} (unnamed : ∀ e ∈ targets, e.channel ≠ h) (t : ValueTable) :
    (setTargets targets t)[h] = t[h] := by
  induction targets generalizing t with
  | nil => rfl
  | cons e rest ih =>
    obtain ⟨other, others⟩ := List.forall_mem_cons.1 unnamed
    have apart : e.channel.val ≠ h.val := fun k => other (Fin.ext k)
    rw [setTargets_cons, ih others]
    simp [apart]

/-- Targets that agree on channel h set it to what they agree on. -/
theorem setTargets_named {targets : List Setpoint} {e : Setpoint} (named : e ∈ targets)
    (alone : ∀ d ∈ targets, d.channel = e.channel → d = e) (t : ValueTable) :
    (setTargets targets t)[e.channel] = e.target := by
  induction targets generalizing t with
  | nil => cases named
  | cons d rest ih =>
    obtain ⟨first, others⟩ := List.forall_mem_cons.1 alone
    rw [setTargets_cons]
    by_cases later : e ∈ rest
    · exact ih later others _
    · have head : d = e := ((List.mem_cons.1 named).resolve_right later).symm
      rw [setTargets_unnamed fun k hk same => later (others k hk same ▸ hk)]
      simp [head]

end Sys2Proof.Machine
end

/-! ### The dwell timer of a TIMED step (R52, R53, R58) -/
section
namespace Sys2Proof.Machine

variable {x : Ctx} {expire : Expire} {c : Chamber} {p : Plant} {s : State}

/-- A RUNNING chamber stands in neither queue and has no hold pending (R120, R127, Table 2-6). -/
theorem Plant.Sound.running {up : Bool} (h : p.Sound up) (hs : (p.engine c).state = .running) :
    p.Out c ∧ (p.engine c).hold = none :=
  ⟨(Plant.soundBut_none.2 h).out_of_state (by simp [hs]) (by simp [hs]),
    Option.not_isSome_iff_eq_none.1 fun k => by simpa [hs] using (h.cells c).hold k⟩

theorem dwellEnds_timed (hs : (p.engine c).state = .running) (runs : (p.engine c).timer.isSome = true)
    (timed : (x.stepRecord (p.engine c).step).isConditioned = false) : dwellEnds x expire c p = endStep x expire c p := by
  rw [dwellEnds]
  dsimp only
  rw [if_pos ⟨hs, runs⟩, if_neg (by simp [timed])]

theorem execDwellExpiry_stopped (h : (s.engine c).timer = none) : execDwellExpiry c s = .next s := by
  rw [execDwellExpiry, h]

theorem execDwellExpiry_running {t : Nat} (h : (s.engine c).timer = some t) (hs : (s.engine c).state = .running) :
    execDwellExpiry c s = .next { s.advanceTo t with
      plant := dwellEnds (s.advanceTo t).ctx (expireNow (s.advanceTo t).ctx) c s.plant } := by
  rw [execDwellExpiry, h]
  dsimp only
  rw [if_pos hs]
  rfl

/-- Settles O45. -/
theorem dwellExpiryEndsStep : Obligations.DwellExpiryEndsStep := by
  refine ⟨fun r => ⟨StepRecord.isEnd_iff, StepRecord.isConditioned_iff, rfl, fun h => ?_, fun h => ?_, fun h => ?_, fun h => ?_,
      StepRecord.timeoutAction_eq_some_iff, StepRecord.timeoutAction_eq_some_iff, StepRecord.timeoutAction_eq_some_iff,
      fun h => if_pos h, fun h => if_neg h⟩,
    fun targets t h => ⟨fun unnamed => setTargets_unnamed unnamed t, ?_⟩,
    fun s c => ⟨execDwellExpiry_stopped, fun t safe timer timed => ?_⟩⟩
  · rw [StepRecord.rampTime, if_pos h]
  · rw [StepRecord.rampTime, if_neg h]
  · rw [StepRecord.claimsRoughing, h]; rfl
  · rw [StepRecord.claimsRoughing, h]; rfl
  · rintro e named rfl alone
    exact setTargets_named named alone t
  · have runs : (s.engine c).timer.isSome = true := by rw [timer]; rfl
    have running : (s.engine c).state = .running := (safe.cells c).timer runs
    obtain ⟨out, noHold⟩ := Plant.Sound.running safe running
    refine ⟨_, execDwellExpiry_running timer running, ?_⟩
    rw [dwellEnds_timed (x := (s.advanceTo t).ctx) running runs timed]
    exact endStep_takes (x := (s.advanceTo t).ctx) out noHold

end Sys2Proof.Machine
end

/-! ### The mask of a chamber command, taken in index order (R66, R162) -/
section
namespace Sys2Proof.Machine

/-! #### The chambers of a mask as a number -/

/-- The mask with the bits of the chambers that b holds of. -/
def maskOf (b : Chamber → Bool) : Nat := (chambers.map fun c => if b c then 2 ^ c.val else 0).sum

theorem maskOf_bits (b0 b1 b2 b3 : Bool) : ∀ c : Chamber, (BitVec.ofNat 16 (maskOf ![b0, b1, b2, b3])).getLsbD c.val =
    ![b0, b1, b2, b3] c := by
  revert b0 b1 b2 b3
  decide

theorem chamberTable_eq (b : Chamber → Bool) : ![b 0, b 1, b 2, b 3] = b := by
  funext c
  fin_cases c <;> rfl

theorem getLsbD_maskOf (b : Chamber → Bool) (c : Chamber) : (BitVec.ofNat 16 (maskOf b)).getLsbD c.val = b c := by
  simpa only [chamberTable_eq] using maskOf_bits (b 0) (b 1) (b 2) (b 3) c

theorem maskOf_lt (b : Chamber → Bool) : maskOf b < 16 := by
  have bit : ∀ (a : Bool) (n : Nat), (if a then n else 0) ≤ n := fun a n => by cases a <;> simp
  have b0 := bit (b 0) 1
  have b1 := bit (b 1) 2
  have b2 := bit (b 2) 4
  have b3 := bit (b 3) 8
  simp [maskOf, chambers]
  omega

theorem toNat_maskOf (b : Chamber → Bool) : (BitVec.ofNat 16 (maskOf b)).toNat = maskOf b := by
  have small := maskOf_lt b
  rw [BitVec.toNat_ofNat]
  omega

theorem Request.maskOf_names {r : Request} (sound : r.index.toNat < 16) : maskOf r.names = r.index.toNat := by
  have each : ∀ n < 16, maskOf (fun c => (BitVec.ofNat 16 n).getLsbD c.val) = n := by decide
  have index : BitVec.ofNat 16 r.index.toNat = r.index := by simp
  have named := each _ sound
  rwa [index] at named

/-! #### The engines one after another -/

variable {r : Request} {act : ChamberStep} {s : State}

/-- What the answer of one chamber adds to the tally. -/
def MaskTally.heard (t : MaskTally) (c : Chamber) : Option ChamberRefusal → MaskTally
  | none => { t with accepted := t.accepted + 2 ^ c.val }
  | some f => if t.refused.isSome then t else { t with refused := some (c, f) }

theorem overMask_cons (c : Chamber) (rest : List Chamber) (s : State) (t : MaskTally) :
    overMask r act (c :: rest) s t = overMask r act rest (if r.names c then (act c s).1 else s)
      (if r.names c then t.heard c (act c s).2 else t) := by
  rw [overMask]
  split
  · rcases act c s with ⟨_, _ | _⟩ <;> rfl
  · rfl

/-- The part after the first n chambers of the mask have taken the command. -/
def maskState (r : Request) (act : ChamberStep) (s : State) (n : Nat) : State :=
  (chambers.take n).foldl (fun s c => if r.names c then (act c s).1 else s) s

/-- What chamber c answers at its turn. -/
def maskRefusal (r : Request) (act : ChamberStep) (s : State) (c : Chamber) : Option ChamberRefusal :=
  (act c (maskState r act s c.val)).2

/-- The tally of a list of chambers that answer by `refusal`. -/
def tallyOf (r : Request) (refusal : Chamber → Option ChamberRefusal) (cs : List Chamber) (t : MaskTally) : MaskTally :=
  cs.foldl (fun t c => if r.names c then t.heard c (refusal c) else t) t

theorem overMask_chambers (r : Request) (act : ChamberStep) (s : State) :
    overMask r act chambers s {} = (maskState r act s 4, tallyOf r (maskRefusal r act s) chambers {}) := by
  rw [chambers, overMask_cons, overMask_cons, overMask_cons, overMask_cons, overMask]
  rfl

/-- A chamber of the mask that accepts. -/
def takesIt (r : Request) (refusal : Chamber → Option ChamberRefusal) (c : Chamber) : Bool :=
  r.names c && (refusal c).isNone

theorem takesIt_iff {refusal : Chamber → Option ChamberRefusal} {c : Chamber} :
    takesIt r refusal c = true ↔ r.names c = true ∧ refusal c = none := by
  rw [takesIt, Bool.and_eq_true, Option.isNone_iff_eq_none]

theorem tallyOf_cons (refusal : Chamber → Option ChamberRefusal) (c : Chamber) (cs : List Chamber) (t : MaskTally) :
    tallyOf r refusal (c :: cs) t = tallyOf r refusal cs (if r.names c then t.heard c (refusal c) else t) := rfl

/-- The tally counts the bits of those that accept. -/
theorem tallyOf_accepted (refusal : Chamber → Option ChamberRefusal) (cs : List Chamber) (t : MaskTally) :
    (tallyOf r refusal cs t).accepted =
      t.accepted + (cs.map fun c => if takesIt r refusal c then 2 ^ c.val else 0).sum := by
  induction cs generalizing t with
  | nil => rfl
  | cons c rest ih =>
    rw [tallyOf_cons, ih, List.map_cons, List.sum_cons, ← Nat.add_assoc]
    congr 1
    cases named : r.names c with
    | false => simp [takesIt, named]
    | true =>
      cases answer : refusal c with
      | none => simp [takesIt, named, answer, MaskTally.heard]
      | some f =>
        cases refused : t.refused.isSome <;> simp [takesIt, named, answer, MaskTally.heard, refused]

/-- A refusal once tallied stands. -/
theorem tallyOf_refused_some {refusal : Chamber → Option ChamberRefusal} {t : MaskTally} (h : t.refused.isSome = true)
    (cs : List Chamber) : (tallyOf r refusal cs t).refused = t.refused := by
  induction cs generalizing t with
  | nil => rfl
  | cons c rest ih =>
    have kept : (if r.names c then t.heard c (refusal c) else t).refused = t.refused := by
      split
      · cases refusal c with
        | none => rfl
        | some f => rw [MaskTally.heard, if_pos h]
      · rfl
    rw [tallyOf_cons, ih (by rw [kept]; exact h), kept]

/-- While every chamber of the mask accepts, no refusal is tallied. -/
theorem tallyOf_refused_none {refusal : Chamber → Option ChamberRefusal} {cs : List Chamber}
    (h : ∀ c ∈ cs, r.names c = true → refusal c = none) (t : MaskTally) : (tallyOf r refusal cs t).refused = t.refused := by
  induction cs generalizing t with
  | nil => rfl
  | cons c rest ih =>
    obtain ⟨head, tail⟩ := List.forall_mem_cons.1 h
    rw [tallyOf_cons, ih tail]
    split
    · next named => rw [head named]; rfl
    · rfl

/-- The first refusal of the mask is the one tallied. -/
theorem tallyOf_refused_first {refusal : Chamber → Option ChamberRefusal} {c : Chamber} {f : ChamberRefusal}
    {before after : List Chamber} (accepted : ∀ d ∈ before, r.names d = true → refusal d = none) (named : r.names c = true)
    (refuses : refusal c = some f) : (tallyOf r refusal (before ++ c :: after) {}).refused = some (c, f) := by
  have first : ({} : MaskTally).refused = (tallyOf r refusal before {}).refused := (tallyOf_refused_none accepted {}).symm
  have split : tallyOf r refusal (before ++ c :: after) {} =
      tallyOf r refusal after ((tallyOf r refusal before {}).heard c (some f)) := by
    rw [← refuses, tallyOf, List.foldl_append, List.foldl_cons, if_pos named]
    rfl
  have heard : ((tallyOf r refusal before {}).heard c (some f)).refused = some (c, f) := by
    rw [MaskTally.heard, ← first]
    rfl
  rw [split, tallyOf_refused_some (by rw [heard]; rfl), heard]

theorem chambers_split (c : Chamber) : chambers = chambers.filter (· < c) ++ c :: chambers.filter (c < ·) := by
  revert c
  decide

/-! #### The command -/

/-- A command of the six at the chambers of its mask. -/
theorem exec_chamberRow {i : Instr} {code : Nat} (row : chamberRow i = some (code, r, act)) :
    exec i s = .next (s.takeRecord code r (chamberCommand act r)) := by
  cases i <;> cases row <;> rfl

theorem exec_chamberRow_taken {i : Instr} {code : Nat} (row : chamberRow i = some (code, r, act)) (takes : s.Takes r) :
    exec i s = .next ((chamberCommand act r s).1.answered code r (chamberCommand act r s).2.result
      (chamberCommand act r s).2.data) := by
  rw [exec_chamberRow row, takes.takeRecord]

theorem chamberCommand_badMask (h : 16 ≤ r.index.toNat) :
    chamberCommand act r s = (s, { result := .badValue, data := packData (be1 0 ++ be1 0xFF) }) :=
  if_pos (decide_eq_true h)

theorem chamberCommand_sound (sound : r.index.toNat < 16) : chamberCommand act r s =
    (maskState r act s 4, (tallyOf r (maskRefusal r act s) chambers {}).answer) := by
  rw [chamberCommand, if_neg (by simpa [Request.badMask] using sound), overMask_chambers]

theorem tallyOf_accepted_chambers (refusal : Chamber → Option ChamberRefusal) :
    (tallyOf r refusal chambers {}).accepted = maskOf (takesIt r refusal) :=
  (tallyOf_accepted refusal chambers {}).trans (Nat.zero_add _)

theorem MaskTally.answer_accepted {t : MaskTally} (h : t.refused = none) :
    t.answer = { result := .accepted, data := packData (be1 t.accepted ++ be1 0xFF) } := by
  rw [MaskTally.answer, h]

theorem MaskTally.answer_refused {t : MaskTally} {c : Chamber} {f : ChamberRefusal} (h : t.refused = some (c, f)) :
    t.answer = { result := f.result
                 data := packData (be1 t.accepted ++ be1 c.val ++ be1 f.result.code ++ be2 f.index ++ be1 f.field ++
                   be1 f.position) } := by
  rw [MaskTally.answer, h]

/-- Every chamber of the mask accepts. -/
theorem chamberCommand_accepts (sound : r.index.toNat < 16)
    (accepts : ∀ c, r.names c = true → maskRefusal r act s c = none) : chamberCommand act r s =
      (maskState r act s 4, { result := .accepted, data := packData (be1 r.index.toNat ++ be1 0xFF) }) := by
  have all : takesIt r (maskRefusal r act s) = r.names := by
    funext c
    rw [Bool.eq_iff_iff, takesIt_iff]
    exact ⟨And.left, fun named => ⟨named, accepts c named⟩⟩
  rw [chamberCommand_sound sound, MaskTally.answer_accepted (tallyOf_refused_none (fun c _ => accepts c) {}),
    tallyOf_accepted_chambers, all, Request.maskOf_names sound]

/-- A chamber of the mask refuses, and none before it. -/
theorem chamberCommand_refuses (sound : r.index.toNat < 16) {c : Chamber} {f : ChamberRefusal} (named : r.names c = true)
    (refuses : maskRefusal r act s c = some f) (first : ∀ d, d < c → r.names d = true → maskRefusal r act s d = none) :
    chamberCommand act r s = (maskState r act s 4,
      { result := f.result
        data := packData (be1 (maskOf (takesIt r (maskRefusal r act s))) ++ be1 c.val ++ be1 f.result.code ++ be2 f.index ++
          be1 f.field ++ be1 f.position) }) := by
  have refused : (tallyOf r (maskRefusal r act s) chambers {}).refused = some (c, f) := by
    rw [chambers_split c]
    exact tallyOf_refused_first (fun d hd => first d (by simpa using (List.mem_filter.1 hd).2)) named refuses
  rw [chamberCommand_sound sound, MaskTally.answer_refused refused, tallyOf_accepted_chambers]

theorem Request.names_of_index_zero (h : r.index.toNat = 0) (c : Chamber) : r.names c = false := by
  have index : r.index = 0#16 := BitVec.eq_of_toNat_eq h
  rw [Request.names, index]
  simp

theorem maskState_of_unnamed (unnamed : ∀ c, r.names c = false) : maskState r act s 4 = s := by
  simp [maskState, chambers, unnamed]

/-- Settles O31. -/
theorem maskInIndexOrder : Obligations.MaskInIndexOrder := by
  refine ⟨fun i code r act s row takes sound => ⟨fun accepts => ?_, fun c f named refuses first => ?_⟩,
    fun i code r act s row takes => ⟨fun bad => ?_, fun empty => ?_⟩⟩
  · rw [exec_chamberRow_taken row takes, chamberCommand_accepts sound accepts]
    rfl
  · refine ⟨BitVec.ofNat 16 (maskOf (takesIt r (maskRefusal r act s))), fun d => ?_, ?_, ?_⟩
    · rw [getLsbD_maskOf]
      exact takesIt_iff
    · rw [toNat_maskOf]
      exact maskOf_lt _
    · rw [exec_chamberRow_taken row takes, chamberCommand_refuses sound named refuses first, toNat_maskOf]
      rfl
  · rw [exec_chamberRow_taken row takes, chamberCommand_badMask bad]
  · have unnamed := Request.names_of_index_zero empty
    rw [exec_chamberRow_taken row takes, chamberCommand_accepts (by omega) fun c named => by simp [unnamed] at named,
      maskState_of_unnamed unnamed, empty]

end Sys2Proof.Machine
end

/-! ### START and the boundary of its first step (R43 to R50, R121) -/
section
namespace Sys2Proof.Machine

variable {x : Ctx} {expire : Expire} {c : Chamber} {p : Plant}

/-- The plant in which chamber c comes to the first step of its sequence: the context START enters, the queue entry of an idle
claim withdrawn (R43). -/
def Plant.entering (x : Ctx) (c : Chamber) (first last : Nat) (p : Plant) : Plant :=
  { p.setEngine c
      { p.engine c with range := some (first, last), step := first, loops := [], sources := {}, counter := 0
                        outputTable := carriedOutputs x c } with
    arbiter := { p.arbiter with queue := p.arbiter.queue.filter (· ≠ c) } }

theorem startEngine_eq (x : Ctx) (expire : Expire) (c : Chamber) (first last : Nat) (p : Plant) :
    startEngine x expire c first last p = stepBoundary x expire c (p.entering x c first last) := rfl

@[simp] theorem Plant.entering_engine (x : Ctx) (c : Chamber) (first last : Nat) (p : Plant) :
    (p.entering x c first last).engine c =
      { p.engine c with range := some (first, last), step := first, loops := [], sources := {}, counter := 0
                        outputTable := carriedOutputs x c } := Plant.engine_setEngine_self _ _ _

theorem Plant.entering_out (first last : Nat) (growing : ∀ g ∈ p.arbiter.growth, g.chamber ≠ c) :
    (p.entering x c first last).Out c := ⟨by simp [Plant.entering], growing⟩

theorem startChamber_starts {s : State} {first last : Nat} (idle : (s.engine c).state = .idle)
    (walk : startWalk s.ctx s.slotMap c first = .ok last) : startChamber first c s =
      ({ s with plant := startEngine s.ctx (expireNow s.ctx) c first last s.plant }, none) := by
  rw [startChamber, if_neg (not_not.2 idle), walk]
  rfl

theorem carriedOutputs_getElem (x : Ctx) (c : Chamber) (h : Chan) :
    (carriedOutputs x c)[h] = if (x.record c h).kind.isSetpoint then (x.status c h).carried else 0 := by
  simp [carriedOutputs]

/-- What needs no more than the allowance may always be granted (R126). -/
theorem Plant.WithinBudget.mayFit (h : p.WithinBudget) (wanted : requestedReservation x c p = p.allowance c) :
    p.MayFit x c := by
  obtain ⟨covered, fits⟩ := h
  have others_le : otherAllowances p c ≤ otherReservations p c :=
    List.sum_le_sum fun d _ => covered d
  have own := covered c
  rw [Plant.reserved_eq p c] at fits
  unfold Plant.MayFit
  omega

/-- START of another chamber leaves a chamber that stands in neither queue as it was. -/
theorem Plant.Spares.startEngine {d : Chamber} {q : Plant}
    (hE : ∀ d q, d ≠ c → Plant.Spares c p q → Plant.Spares c p (expire d q)) (h : Plant.Spares c p q) (ne : d ≠ c)
    (first last : Nat) : Plant.Spares c p (startEngine x expire d first last q) :=
  ((h.setEngine ne _).withdrawLine d).stepBoundary hE ne

/-- The engine that runs the first step of its sequence, from the carried values (R43, R49). -/
def Engine.started (x : Ctx) (c : Chamber) (first last : Nat) : Engine :=
  let step := x.stepRecord first
  { state := .running, range := some (first, last), step := first, startTime := x.now, timer := some (x.now + step.dwell)
    startTable := carriedOutputs x c
    outputTable := setTargets (step.setpoints.filter fun e => !e.ramp) (carriedOutputs x c) }

theorem Plant.StepRuns.started {q : Plant} {first last : Nat} (runs : (p.entering x c first last).StepRuns x c q)
    (rest : (p.engine c).AtRest) : q.engine c = Engine.started x c first last := by
  have entered := runs.engine
  dsimp only at entered
  rw [Plant.entering_engine] at entered
  rw [entered, Engine.started]
  simp only [rest.hold]

section
variable {s : State} {first last : Nat}

/-- START at the engine of one chamber takes the boundary of the first step, and spares the chambers in neither queue (R43). -/
theorem start_takes {r : Request} (takes : s.Takes r) (only : r.Only c) (safe : s.Safe) (idle : (s.engine c).state = .idle)
    (named : first = r.number 0 2) (walk : startWalk s.ctx s.slotMap c first = .ok last) :
    ∃ p : Plant, exec (.start r) s = .next ({ s with plant := p }.chamberTook codeStart r c) ∧
      (s.plant.entering s.ctx c first last).Out c ∧
      (s.plant.entering s.ctx c first last).TakesBoundary s.ctx (expireNow s.ctx) c p ∧
      ∀ d, d ≠ c → s.plant.Out d → s.plant.Spares d p := by
  subst named
  have out := Plant.entering_out (x := s.ctx) (r.number 0 2) last (Plant.Sound.not_growing safe idle)
  refine ⟨_, congrArg _ (takes.chamber_accepts only codeStart (startChamber_starts idle walk)), out, ?_, fun d ne outside => ?_⟩
  · rw [startEngine_eq]
    exact stepBoundary_takes (fun d q r e => expireNow_spares s.ctx d q r e)
      (fun t d q => settles_expireWithin s.ctx 4 d q) out
      (by rw [Plant.entering_engine]; exact ((safe.cells c).atRest (.inl idle)).hold)
  · exact (Plant.Spares.refl outside).startEngine (fun e q => expireNow_spares s.ctx d s.plant q e) ne.symm _ _

end

/-- Settles O32. -/
theorem startEntersFirstStep : Obligations.StartEntersFirstStep := by
  refine ⟨fun r s c first last takes only safe idle named walk => start_takes takes only safe idle named walk,
    fun r s c first last takes only safe idle named walk notEnd => ⟨carriedOutputs_getElem s.ctx c, fun load => ?_⟩⟩
  obtain ⟨p, eq, out, boundary, spared⟩ := start_takes takes only safe idle named walk
  have rest := (safe.cells c).atRest (.inl idle)
  have settled : s.plant.reservation c = s.plant.allowance c := safe.settled c (.inl idle)
  let entered := s.plant.entering s.ctx c first last
  have step : (entered.engine c).step = first := by rw [Plant.entering_engine]
  have wanted : requestedReservation s.ctx c entered = s.plant.allowance c := by
    rw [requestedReservation, Plant.entering_engine]
    exact max_eq_left load
  have same : requestedReservation s.ctx c entered = entered.reservation c := wanted.trans settled.symm
  have fits : entered.MayFit s.ctx c := Plant.WithinBudget.mayFit (p := entered) safe.budget wanted
  have ends : (s.ctx.stepRecord (entered.engine c).step).isEnd = false := by rw [step]; exact notEnd
  refine ⟨p, eq, ((boundary.reservation fits same.le).1.trans wanted).trans settled.symm, spared, fun unclaimed => ?_,
    fun claims => ?_⟩
  · obtain ⟨runs, line, -⟩ := boundary.runs fits same.le ends (by rw [step]; exact unclaimed)
    exact ⟨runs.started rest, runs.out, line⟩
  · have claims' : (s.ctx.stepRecord (entered.engine c).step).claimsRoughing = true := by rw [step]; exact claims
    obtain ⟨free, queued⟩ := boundary.claimsAlone fits ends claims' (.inl same)
    refine ⟨?_, fun notFree notHeld => ?_⟩
    · rintro (isFree | held)
      · obtain ⟨runs, line⟩ := free isFree
        exact ⟨runs.started rest, runs.out, line⟩
      · obtain ⟨runs, line, -⟩ := boundary.keeps fits same.le ends claims' held
        exact ⟨runs.started rest, runs.out, line⟩
    · obtain ⟨waits, line, queue⟩ := queued notFree notHeld
      rw [Plant.StepWaits, Plant.entering_engine] at waits
      exact ⟨waits, line, queue⟩

end Sys2Proof.Machine
end

/-! ### The head of the abatement queue, served or stuck (R47 to R51, R129) -/
section
namespace Sys2Proof.Machine

variable {x : Ctx} {expire : Expire} {c : Chamber} {requested : Nat} {rest : List GrowthRequest} {p q : Plant}

/-- What the queues and the line say of the chamber at the head (R119, R120, R127). -/
structure Plant.Asks (p : Plant) (c : Chamber) (rest : List GrowthRequest) : Prop where
  state : (p.engine c).state = .waiting
  awaited : (p.engine c).awaited = .growth
  queue : c ∉ p.arbiter.queue
  rest : ∀ g ∈ rest, g.chamber ≠ c
  line : p.arbiter.line ≠ .granted c

theorem Plant.Sound.asks {up : Bool} (h : p.Sound up) (growth : p.arbiter.growth = ⟨c, requested⟩ :: rest) :
    p.Asks c rest := by
  obtain ⟨state, awaited, -⟩ := h.growth.2 ⟨c, requested⟩ (by rw [growth]; exact List.mem_cons_self)
  have distinct := h.growth.1
  rw [growth, List.map_cons, List.nodup_cons] at distinct
  refine ⟨state, awaited, fun queued => ?_, fun g hg same => distinct.1 (List.mem_map.2 ⟨g, hg, same⟩), fun held => ?_⟩
  · rcases h.queue.2.1 c queued with ⟨-, k⟩ | k
    · simp [awaited] at k
    · simp [state] at k
  · rcases h.holder c held with k | k <;> simp [state] at k

/-- The plant with the head's request granted and out of the queue, before its line is considered (R129). -/
def Plant.serving (p : Plant) (c : Chamber) (requested : Nat) (rest : List GrowthRequest) : Plant :=
  (p.setReservation c requested).setGrowth rest

theorem Plant.Asks.serving_out (h : p.Asks c rest) : (p.serving c requested rest).Out c := ⟨h.queue, h.rest⟩

/-- The plant with the head served, before the examination goes on with the heads behind it (R51, R129). -/
def Plant.served (x : Ctx) (p : Plant) (c : Chamber) (requested : Nat) (rest : List GrowthRequest) : Plant :=
  considerLine x (expireNow x) c (p.serving c requested rest)

theorem headFits_iff : headFits p ⟨c, requested⟩ = true ↔ requested + otherReservations p c ≤ p.arbiter.budget :=
  decide_eq_true_iff

theorem headStuck_iff : headStuck p ⟨c, requested⟩ = true ↔
    p.arbiter.budget < requested + ((chambers.filter (· ≠ c)).map fun d =>
      if ∃ g ∈ p.arbiter.growth, g.chamber = d then p.reservation d else p.allowance d).sum := by
  have counted : ∀ d : Chamber, (if p.queuedForGrowth d then p.reservation d else p.allowance d) =
      if ∃ g ∈ p.arbiter.growth, g.chamber = d then p.reservation d else p.allowance d := fun d =>
    if_congr (by simp [Plant.queuedForGrowth]) rfl rfl
  simp only [headStuck, counted, others, decide_eq_true_eq]

theorem examineGrowth_of_head (growth : p.arbiter.growth = ⟨c, requested⟩ :: rest)
    (taken : examineHead x expire p = some q) : examineGrowth x expire p = examineHeads x expire (rest.length + 5) q := by
  have steps : examineGrowth x expire p = examineHeads x expire ((rest.length + 5) + 1) p := by
    rw [examineGrowth, growth]
    rfl
  rw [steps, examineHeads, taken]

/-- A head that fits is served (R129, test 1). -/
theorem examineHead_serves (growth : p.arbiter.growth = ⟨c, requested⟩ :: rest) (asks : p.Asks c rest)
    (fits : requested + otherReservations p c ≤ p.arbiter.budget) :
    examineHead x expire p = some (considerLine x expire c (p.serving c requested rest)) := by
  rw [examineHead, growth]
  dsimp only
  rw [if_pos (headFits_iff.2 fits), if_pos ⟨asks.state, asks.awaited⟩]
  rfl

/-- A stuck head is held with LOAD_REFUSED (R129, test 2). -/
theorem examineHead_holds (growth : p.arbiter.growth = ⟨c, requested⟩ :: rest)
    (exceeds : headFits p ⟨c, requested⟩ = false) (stuck : headStuck p ⟨c, requested⟩ = true) :
    examineHead x expire p =
      some ((enterHold x expire id c .engine false p).notify x c .loadRefused (p.engine c).step) := by
  rw [examineHead, growth]
  dsimp only
  rw [if_neg (ne_true_of_eq_false exceeds), if_pos stuck]

theorem examineGrowth_serves (growth : p.arbiter.growth = ⟨c, requested⟩ :: rest) (asks : p.Asks c rest)
    (fits : requested + otherReservations p c ≤ p.arbiter.budget) :
    examineGrowth x (expireNow x) p = examineHeads x (expireNow x) (rest.length + 5) (p.served x c requested rest) :=
  examineGrowth_of_head growth (examineHead_serves growth asks fits)

namespace Plant.Asks

theorem served_reservation (asks : p.Asks c rest) (fresh : (p.engine c).hold = none) :
    (p.served x c requested rest).reservation c = requested := by
  have reserved := (considerLine_takes (x := x) (expireNow_spares x c) (asks.serving_out (requested := requested)) fresh).1.2
  exact reserved.trans ((Plant.reservation_setReservation p c c requested).trans (if_pos rfl))

/-- END ends the sequence (R50). -/
theorem served_finishes (asks : p.Asks c rest) (fresh : (p.engine c).hold = none)
    (ends : (x.stepRecord (p.engine c).step).isEnd = true) : p.StepFinishes x c (p.served x c requested rest) :=
  ((considerLine_takes (x := x) (expireNow_spares x c) (asks.serving_out (requested := requested)) fresh).2.1 ends).congr rfl

/-- A step that does not claim the line, or claims a FREE one, runs at once (R48, R49). -/
theorem served_runs (asks : p.Asks c rest) (fresh : (p.engine c).hold = none)
    (notEnd : (x.stepRecord (p.engine c).step).isEnd = false)
    (free : (x.stepRecord (p.engine c).step).claimsRoughing = false ∨ p.arbiter.line = .free) :
    p.StepRuns x c (p.served x c requested rest) ∧ ((p.served x c requested rest).arbiter.line = .granted c ↔
      (x.stepRecord (p.engine c).step).claimsRoughing = true) := by
  obtain ⟨-, -, unclaimed, claimed⟩ :=
    considerLine_takes (x := x) (expireNow_spares x c) (asks.serving_out (requested := requested)) fresh
  cases claims : (x.stepRecord (p.engine c).step).claimsRoughing with
  | false =>
    obtain ⟨runs, line⟩ := unclaimed notEnd claims
    exact ⟨runs.congr rfl, fun held => absurd held line, nofun⟩
  | true =>
    obtain ⟨runs, line⟩ := (claimed notEnd claims).1 (.inr (free.resolve_left (by simp [claims])))
    exact ⟨runs.congr rfl, fun _ => rfl, fun _ => line⟩

/-- A step that claims a line it cannot have waits for it, its claim queued (R48, R121). -/
theorem served_waits (asks : p.Asks c rest) (fresh : (p.engine c).hold = none)
    (notEnd : (x.stepRecord (p.engine c).step).isEnd = false)
    (claims : (x.stepRecord (p.engine c).step).claimsRoughing = true) (busy : p.arbiter.line ≠ .free) :
    p.served x c requested rest =
      { p.setEngine c { p.engine c with awaited := .line } with
        arbiter := { p.arbiter with
          growth := rest, queue := p.arbiter.queue ++ [c], reservation := p.arbiter.reservation.set c requested } } := by
  have waits := (considerLine_claims (x := x) (expire := expireNow x) (asks.serving_out (requested := requested)) fresh notEnd
    claims).2 asks.line busy
  have asked : { p.engine c with state := .waiting, awaited := .line } = { p.engine c with awaited := .line } := by
    rw [← asks.state]
  change p.served x c requested rest = ((p.serving c requested rest).setLine p.arbiter.line (p.arbiter.queue ++ [c])).setEngine c
    { p.engine c with state := .waiting, awaited := .line } at waits
  rw [waits, asked]
  rfl

end Plant.Asks

/-- The heads that an examination goes on with leave a chamber that stands in neither queue. -/
theorem examineHeads_spares (n : Nat) (out : q.Out c) : Plant.Spares c q (examineHeads x (expireNow x) n q) :=
  (Plant.Spares.refl out).examineHeads (fun d r => expireNow_spares x c q r d) n

theorem Plant.Raised.examineHeads {n : ChamberNotice} (raised : q.Raised c n) (k : Nat) :
    (examineHeads x (expireNow x) k q).Raised c n :=
  raised.leaves ((Plant.Leaves.refl q).examineHeads (leaves_expireNow x) k)

theorem Plant.StepRuns.examineHeads (runs : p.StepRuns x c q) (n : Nat) :
    p.StepRuns x c (examineHeads x (expireNow x) n q) :=
  have kept := examineHeads_spares (x := x) n runs.out
  ⟨kept.out, kept.engine.trans runs.engine⟩

theorem Plant.StepFinishes.examineHeads (finishes : p.StepFinishes x c q) (n : Nat) :
    p.StepFinishes x c (examineHeads x (expireNow x) n q) :=
  have kept := examineHeads_spares (x := x) n finishes.out
  ⟨kept.out, fun k => finishes.line (kept.line.1 k), finishes.notice.examineHeads n, kept.engine.trans finishes.engine⟩

end Sys2Proof.Machine
end

/-! ### GROWTH_SERVED (R51, R129) -/
section
namespace Sys2Proof.Machine

variable {s : State} {c : Chamber} {requested : Nat} {rest : List GrowthRequest}

theorem execGrowthServed_unasked (h : ∀ g rest, s.plant.arbiter.growth = g :: rest → g.chamber = c →
    s.plant.arbiter.budget < g.requested + otherReservations s.plant c) : execGrowthServed c s = .next s := by
  unfold execGrowthServed
  split
  · rfl
  · next g rest growth =>
    rw [if_neg]
    rintro ⟨rfl, fits⟩
    exact Nat.not_lt.2 (of_decide_eq_true fits) (h g rest growth rfl)

theorem execGrowthServed_examines (growth : s.plant.arbiter.growth = ⟨c, requested⟩ :: rest)
    (fits : requested + otherReservations s.plant c ≤ s.plant.arbiter.budget) :
    execGrowthServed c s = .next { s with plant := examineGrowth s.ctx (expireNow s.ctx) s.plant } := by
  rw [execGrowthServed, growth]
  dsimp only
  rw [if_pos ⟨rfl, headFits_iff.2 fits⟩]
  rfl

/-- The head's chamber goes on to the line, and the examination with the heads behind it. -/
theorem execGrowthServed_serves (asks : s.plant.Asks c rest) (growth : s.plant.arbiter.growth = ⟨c, requested⟩ :: rest)
    (fits : requested + otherReservations s.plant c ≤ s.plant.arbiter.budget) :
    execGrowthServed c s = .next { s with
      plant := examineHeads s.ctx (expireNow s.ctx) (rest.length + 5) (s.plant.served s.ctx c requested rest) } := by
  rw [execGrowthServed_examines growth fits, examineGrowth_serves growth asks fits]

/-- An examination begun by any event spares the chambers in neither queue. -/
theorem examineGrowth_spares_out {d : Chamber} (out : s.plant.Out d) :
    s.plant.Spares d (examineGrowth s.ctx (expireNow s.ctx) s.plant) :=
  examineGrowth_spares (expireNow_spares s.ctx d) out

/-- The stuck head is taken out of the queue and held by ENGINE; the examination that goes on leaves it so (R69 to R71, R129). -/
theorem examineGrowth_holds {x : Ctx} {p : Plant} (waiting : (p.engine c).state = .waiting)
    (growth : p.arbiter.growth = ⟨c, requested⟩ :: rest) (exceeds : headFits p ⟨c, requested⟩ = false)
    (stuck : headStuck p ⟨c, requested⟩ = true) :
    Plant.Rests c p (examineGrowth x (expireNow x) p)
      { p.engine c with
        state := .held, awaited := .nothing, timer := none, counter := 0, sources := { engine := true }
        hold := some (match (p.engine c).hold with
          | some h => { h with elapsed := 0, mode := .continue }
          | none =>
            { heldFrom := .waiting, step := (p.engine c).step, elapsed := 0, loops := (p.engine c).loops
              startTable := (p.engine c).startTable, outputTable := (p.engine c).outputTable, mode := .continue })
        outputTable := holdOutputs x c (p.engine c).outputTable } (p.allowance c) ∧
    (examineGrowth x (expireNow x) p).Raised c .loadRefused ∧ (examineGrowth x (expireNow x) p).Raised c .holdEntered := by
  have held := enterHold_rests (x := x) (expireNow_spares x c) (examine := id) (fun q out => .refl out) .engine false p
  have refused := held.notify (x := x) c .loadRefused (p.engine c).step
  have record : (p.engine c).writeHold x.now (x.stepRecord (p.engine c).step) false = match (p.engine c).hold with
      | some h => { h with elapsed := 0, mode := .continue }
      | none =>
        { heldFrom := .waiting, step := (p.engine c).step, elapsed := 0, loops := (p.engine c).loops
          startTable := (p.engine c).startTable, outputTable := (p.engine c).outputTable, mode := .continue } := by
    unfold Engine.writeHold
    cases (p.engine c).hold <;> simp [waiting]
  rw [record] at refused
  rw [examineGrowth_of_head growth (examineHead_holds growth exceeds stuck)]
  refine ⟨refused.spares (examineHeads_spares _ refused.out), (Plant.raised_notify _ _ _ _ _).examineHeads _, ?_⟩
  refine (Plant.Raised.notify ?_ _ _).examineHeads _
  unfold enterHold
  exact Plant.raised_notify _ _ _ _ _

/-- Settles O43. -/
theorem growthServed : Obligations.GrowthServed := by
  refine ⟨fun s c => ⟨?_, ?_, execGrowthServed_unasked⟩, ?_⟩
  · rintro ⟨d, requested⟩ rest safe growth rfl fits fresh
    have asks := Plant.Sound.asks safe growth
    have serves := execGrowthServed_serves asks growth fits
    have reserved := asks.served_reservation (x := s.ctx) (requested := requested) fresh
    have spared : ∀ e, e ≠ d → s.plant.Out e → s.plant.Spares e (examineHeads s.ctx (expireNow s.ctx) (rest.length + 5)
        (s.plant.served s.ctx d requested rest)) := fun e _ out => by
      rw [← examineGrowth_serves growth asks fits]
      exact examineGrowth_spares_out out
    refine ⟨fun notEnd free => ?_, fun ends => ?_, fun notEnd claims busy alone => ?_⟩
    · obtain ⟨runs, line⟩ := asks.served_runs (x := s.ctx) (requested := requested) fresh notEnd free
      have kept := examineHeads_spares (x := s.ctx) (rest.length + 5) runs.out
      exact ⟨_, serves, (runs.examineHeads _).engine, kept.reservation.trans reserved, kept.out, kept.line.trans line, spared⟩
    · have finishes := asks.served_finishes (x := s.ctx) (requested := requested) fresh ends
      have kept := examineHeads_spares (x := s.ctx) (rest.length + 5) finishes.out
      exact ⟨_, serves, finishes.examineHeads _, kept.reservation.trans reserved, spared⟩
    · subst alone
      have waits := asks.served_waits (x := s.ctx) (requested := requested) fresh notEnd claims busy
      exact serves.trans (by rw [examineHeads_nil _ (by rw [waits]), waits]; rfl)
  · rintro ⟨d, requested⟩ rest h safe growth rfl fits pending
    have asks := Plant.Sound.asks safe growth
    obtain ⟨m, settles, eq⟩ := examineGrowth_resumes (x := s.ctx) growth (headFits_iff.2 fits) asks.state asks.awaited pending
      asks.queue asks.rest asks.line
    refine ⟨m, _, settles, rfl, ?_, fun out => examineHeads_spares _ out, ?_, ?_⟩
    · exact (execGrowthServed_examines growth fits).trans (by rw [eq])
    · rintro rfl notSpent
      exact examineHeads_nil _ (settles.growth notSpent)
    · intro e ne out
      rw [← eq]
      exact examineGrowth_spares_out out
  · intro s c requested rest safe growth exceeds stuck
    have asks := Plant.Sound.asks safe growth
    have tooMuch : headFits s.plant ⟨c, requested⟩ = false :=
      Bool.eq_false_iff.2 fun fits => Nat.not_lt.2 (headFits_iff.1 fits) exceeds
    obtain ⟨rests, refused, entered⟩ := examineGrowth_holds (x := s.ctx) asks.state growth tooMuch (headStuck_iff.2 stuck)
    exact ⟨rests.engine, rests.reservation, rests.out, rests.line, rests.permit, refused, entered,
      fun d _ out => examineGrowth_spares_out out⟩

end Sys2Proof.Machine
end

/-! ### RESUME without GUARD, and the boundary of the held step (R74, R76 to R78) -/
section
namespace Sys2Proof.Machine

variable {x : Ctx} {expire : Expire} {c : Chamber} {h : HoldRecord} {p q : Plant} {s : State}

theorem HoldSources.afterResume_isEmpty {sources : HoldSources} (noGuard : sources.guard = false) :
    sources.afterResume.isEmpty = true := by
  rw [HoldSources.afterResume, noGuard]
  rfl

theorem storeMode_eq (m : ResumeMode) (record : (p.engine c).hold = some h) :
    storeMode c m p = p.setEngine c { p.engine c with hold := some { h with mode := m } } := by
  rw [storeMode, record, Option.map_some]

theorem resumeChamber_resumes {mode : Nat} {m : ResumeMode} (held : (s.engine c).state = .held)
    (named : resumeMode mode = some m) : resumeChamber mode c s =
      ({ s with
        plant := removeSources s.ctx (expireNow s.ctx) c (s.engine c).sources.afterResume (storeMode c m s.plant) },
        none) := by
  rw [resumeChamber, if_neg (not_not.2 held), named]
  rfl

/-- A removal of hold sources at another chamber leaves a chamber that stands in neither queue as it was. -/
theorem Plant.Spares.removeSources {d : Chamber}
    (hE : ∀ d q, d ≠ c → Plant.Spares c p q → Plant.Spares c p (expire d q)) (spared : Plant.Spares c p q) (ne : d ≠ c)
    (left : HoldSources) : Plant.Spares c p (removeSources x expire d left q) := by
  rw [Machine.removeSources]
  split
  · exact (spared.setEngine ne _).leaveHold hE ne
  · exact spared.setEngine ne _

/-- What a HELD chamber has of the arbiter: its allowance, and nothing of queues or line (R119, R120, R126, R127). -/
theorem Plant.Sound.held_settled {up : Bool} (sound : p.Sound up) (held : (p.engine c).state = .held) :
    p.Out c ∧ p.arbiter.line ≠ .granted c ∧ p.reservation c = p.allowance c := by
  refine ⟨sound.out (by simp [held]) (by simp [held]), fun granted => ?_, sound.settled c (.inr (.inl held))⟩
  rcases sound.holder c granted with k | k <;> simp [held] at k

/-- The plant in which chamber c comes to the boundary of the step that hold record h takes up (R76). -/
def Plant.leavingHold (x : Ctx) (c : Chamber) (h : HoldRecord) (p : Plant) : Plant :=
  p.setEngine c ((p.engine c).leaving x h)

@[simp] theorem Plant.leavingHold_engine (x : Ctx) (c : Chamber) (h : HoldRecord) (p : Plant) :
    (p.leavingHold x c h).engine c = (p.engine c).leaving x h := Plant.engine_setEngine_self _ _ _

/-- The sources of a hold removed with the mode stored: the boundary is that of the record with the mode it names (R74, R76). -/
theorem removeSources_storeMode (m : ResumeMode) {left : HoldSources} (empties : left.isEmpty = true) (out : p.Out c)
    (line : p.arbiter.line ≠ .granted c) (settled : p.reservation c = p.allowance c)
    (record : (p.engine c).hold = some h) :
    (p.leavingHold x c { h with mode := m }).ResumesBoundary x c { h with mode := m }
      (removeSources x (expireNow x) c left (storeMode c m p)) := by
  rw [storeMode_eq m record]
  have boundary := removeSources_leaves (x := x) (h := { h with mode := m })
    (p := p.setEngine c { p.engine c with hold := some { h with mode := m } }) empties out line settled
    (by rw [Plant.engine_setEngine_self])
  rw [Plant.engine_setEngine_self, Plant.setEngine_setEngine] at boundary
  exact boundary

/-- RESUME at the engine of one chamber takes the boundary of the held step, and spares the chambers in neither queue (R74). -/
theorem resume_takes {r : Request} {m : ResumeMode} (takes : s.Takes r) (only : r.Only c) (safe : s.Safe)
    (held : (s.engine c).state = .held) (named : resumeMode (r.byte 0) = some m) (record : (s.engine c).hold = some h)
    (noGuard : (s.engine c).sources.guard = false) :
    let left := s.plant.leavingHold s.ctx c { h with mode := m }
    ∃ q : Plant, exec (.resume r) s = .next ({ s with plant := q }.chamberTook codeResume r c) ∧
      left.Out c ∧ left.arbiter.line ≠ .granted c ∧ left.reservation c = left.allowance c ∧
      left.ResumesBoundary s.ctx c { h with mode := m } q ∧ ∀ d, d ≠ c → s.plant.Out d → s.plant.Spares d q := by
  obtain ⟨out, line, settled⟩ := Plant.Sound.held_settled safe held
  refine ⟨_, congrArg _ (takes.chamber_accepts only codeResume (resumeChamber_resumes held named)), out, line, settled,
    removeSources_storeMode m (HoldSources.afterResume_isEmpty noGuard) out line settled record, fun d ne outside => ?_⟩
  exact ((Plant.Spares.refl outside).setEngine ne.symm _).removeSources
    (fun e q => expireNow_spares s.ctx d s.plant q e) ne.symm _

theorem HoldRecord.takenUp_withMode (h : HoldRecord) (mode : Nat) :
    HoldRecord.takenUp { h with mode := if mode = 0 then .continue else .restart } = if mode = 0 then h.elapsed else 0 := by
  unfold HoldRecord.takenUp
  split_ifs <;> rfl

/-- The engine that runs the held step again, field by field (R49, R76, R77). -/
theorem Engine.leaving_resumed (x : Ctx) (e : Engine) (h : HoldRecord) : (e.leaving x h).resumed x h =
    { state := .running, range := e.range, step := h.step, awaited := .nothing, counter := 0, sources := {}
      hold := none, loops := h.loops
      outputTable := setTargets ((x.stepRecord h.step).setpoints.filter fun k => !k.ramp) (h.values x)
      startTime := (match h.heldFrom with | .running => x.now - h.takenUp | .waiting => x.now)
      timer := some (match h.heldFrom with
        | .running => x.now + ((x.stepRecord h.step).dwell - h.takenUp)
        | .waiting => x.now + (x.stepRecord h.step).dwell)
      startTable := (match h.heldFrom with | .running => h.startTable | .waiting => h.values x) } := rfl

/-- A held step that is not END, claims no line, needs no more than the allowance and has time left is RUNNING again, and that
is all that changes (R48, R49, R77). -/
theorem Plant.ResumesBoundary.runs (budget : p.WithinBudget) (settled : p.reservation c = p.allowance c)
    (boundary : (p.leavingHold x c h).ResumesBoundary x c h q) (notEnd : (x.stepRecord h.step).isEnd = false)
    (unclaimed : (x.stepRecord h.step).claimsRoughing = false)
    (load : stepLoad x c (x.stepRecord h.step) (h.values x) ≤ p.allowance c)
    (timeLeft : h.heldFrom = .running → h.takenUp < (x.stepRecord h.step).dwell) :
    q = p.setEngine c (((p.engine c).leaving x h).resumed x h) := by
  have step : ((p.leavingHold x c h).engine c).step = h.step := by rw [Plant.leavingHold_engine, Engine.leaving]
  have wanted : requestedReservation x c (p.leavingHold x c h) = p.allowance c := by
    rw [requestedReservation, Plant.leavingHold_engine]
    exact max_eq_left load
  have fits : (p.leavingHold x c h).MayFit x c := Plant.WithinBudget.mayFit (p := p.leavingHold x c h) budget wanted
  have notSpent : ¬((p.leavingHold x c h).engine c).Spent x h := by
    rintro ⟨fromRunning, used⟩
    rw [step] at used
    exact Nat.not_lt.2 used (timeLeft fromRunning)
  have settles := boundary.settled fits (wanted.trans settled.symm)
  have resumes := settles.runs (by rw [step]; exact notEnd) (by rw [step]; exact unclaimed)
  rw [resumes.runs notSpent, Plant.leavingHold_engine, Plant.leavingHold, Plant.setEngine_setEngine]

/-- Settles O35. -/
theorem resumeTakesHeldStepUp : Obligations.ResumeTakesHeldStepUp := by
  refine ⟨fun r s c h takes only safe held mode record noGuard =>
      resume_takes takes only safe held (resumeMode_eq_some mode) record noGuard,
    fun r s c h takes only safe held mode record noGuard => ?_⟩
  intro step values elapsed outputs notEnd unclaimed load timeLeft resumed
  obtain ⟨q, eq, -, -, -, boundary, -⟩ := resume_takes takes only safe held (resumeMode_eq_some mode) record noGuard
  have takenUp := h.takenUp_withMode (r.byte 0)
  have runs := boundary.runs safe.budget (safe.settled c (.inr (.inl held))) notEnd unclaimed load
    (by rw [takenUp]; exact timeLeft)
  rw [Engine.leaving_resumed, takenUp] at runs
  rw [eq, runs]
  rfl

end Sys2Proof.Machine
end

/-! ### The ramp of a setpoint (R49, R77, R82, R84) -/
section
namespace Sys2Proof.Machine

/-- The time a ramp has run at a passage, at most its ramp time (R84). -/
def rampElapsed (e : Engine) (r : StepRecord) (time : Nat) : Nat := min (time - e.startTime) r.rampTime

variable {e : Engine} {r : StepRecord} {sp : Setpoint} {time : Nat}

theorem rampElapsed_le : rampElapsed e r time ≤ r.rampTime := Nat.min_le_right _ _

theorem rampElapsed_passed (passed : e.startTime + r.rampTime ≤ time) : rampElapsed e r time = r.rampTime :=
  Nat.min_eq_right (Nat.le_sub_of_add_le' passed)

/-- What a ramp has covered of a difference at a passage (R84). -/
def rampCovered (e : Engine) (r : StepRecord) (time difference : Nat) : Nat := difference * rampElapsed e r time / r.rampTime

theorem rampCovered_le (difference : Nat) : rampCovered e r time difference ≤ difference :=
  Nat.div_le_of_le_mul (by rw [Nat.mul_comm]; exact Nat.mul_le_mul_right _ rampElapsed_le)

theorem rampCovered_passed (positive : 1 ≤ r.rampTime) (passed : e.startTime + r.rampTime ≤ time) (difference : Nat) :
    rampCovered e r time difference = difference := by
  rw [rampCovered, rampElapsed_passed passed, Nat.mul_div_cancel _ positive]

/-- A rising ramp: the signed quotient is that of naturals. -/
theorem rampValue_rising (rising : e.startTable[sp.channel] ≤ sp.target) : rampValue e r sp time =
    e.startTable[sp.channel] + rampCovered e r time (sp.target - e.startTable[sp.channel]) := by
  change (_ + Int.tdiv (_ * (rampElapsed e r time : Int)) _).toNat = _
  rw [← Int.ofNat_sub rising, ← Int.natCast_mul, ← Int.ofNat_tdiv, ← Int.natCast_add, Int.toNat_natCast, rampCovered]

/-- A falling ramp: truncated toward zero, the quotient is the negative of that of naturals. -/
theorem rampValue_falling (falling : sp.target ≤ e.startTable[sp.channel]) : rampValue e r sp time =
    e.startTable[sp.channel] - rampCovered e r time (e.startTable[sp.channel] - sp.target) := by
  change (_ + Int.tdiv (_ * (rampElapsed e r time : Int)) _).toNat = _
  rw [← Int.neg_sub, ← Int.ofNat_sub falling, Int.neg_mul, Int.neg_tdiv, ← Int.natCast_mul, ← Int.ofNat_tdiv,
    ← Int.sub_eq_add_neg, Int.toNat_sub, rampCovered]

theorem rampValue_passed (positive : 1 ≤ r.rampTime) (passed : e.startTime + r.rampTime ≤ time) :
    rampValue e r sp time = sp.target := by
  rcases Nat.le_total e.startTable[sp.channel] sp.target with rising | falling
  · rw [rampValue_rising rising, rampCovered_passed positive passed, Nat.add_sub_cancel' rising]
  · rw [rampValue_falling falling, rampCovered_passed positive passed, Nat.sub_sub_self falling]

/-- The product of a ramp, its values in 16 bits and its time that of a ramp field (R84, Table 2-1), formed exactly. -/
theorem rampProduct_le {v0 v1 longest : Nat} (start : v0 ≤ 65535) (target : v1 ≤ 65535) (ramp : r.rampTime ≤ longest) :
    (max v0 v1 - min v0 v1) * rampElapsed e r time ≤ 65535 * longest :=
  Nat.mul_le_mul (Nat.le_trans (Nat.sub_le _ _) (Nat.max_le.2 ⟨start, target⟩)) (Nat.le_trans rampElapsed_le ramp)

theorem StepRecord.setpointFor_channel {h : Chan} (named : r.setpointFor h = some sp) : sp.channel = h := by
  simpa using List.find?_some named

/-- Settles O57. -/
theorem rampStaysBetween : Obligations.RampStaysBetween := by
  refine ⟨fun r => ⟨fun own => congrArg (· * 100) (if_neg own), fun absent => congrArg (· * 100) (if_pos absent)⟩,
    fun x e k h controller sp running owned named ramped =>
      ⟨StepRecord.setpointFor_channel named, baseValue_ramped owned running named ramped⟩,
    fun e now step table => ⟨rfl, fun h => ⟨rfl, fun mode => ?_, fun mode => ?_⟩⟩,
    fun e r sp time positive => ⟨fun rising => ?_, fun falling => ?_, rampValue_passed positive,
      fun start target ramp => ⟨rampProduct_le start target ramp, by decide⟩⟩⟩
  · rw [Engine.runResumed, HoldRecord.resumeElapsed, mode]
  · rw [Engine.runResumed, HoldRecord.resumeElapsed, mode, Nat.sub_zero]
  · have value := rampValue_rising (r := r) (time := time) rising
    have covered := rampCovered_le (e := e) (r := r) (time := time) (sp.target - e.startTable[sp.channel])
    exact ⟨value, by omega, by omega⟩
  · have value := rampValue_falling (r := r) (time := time) falling
    have covered := rampCovered_le (e := e) (r := r) (time := time) (e.startTable[sp.channel] - sp.target)
    exact ⟨value, by omega, by omega⟩

end Sys2Proof.Machine
end

/-! ### The report word and the REPORT slots of a return frame (R94, R95) -/
section
namespace Sys2Proof.Machine

variable {s : State} {k : Nat} {slot : Slot} {c : Chamber}

theorem HoldSources.bits_lt (h : HoldSources) : h.bits < 16 := by
  obtain ⟨controller, guard, ring, engine⟩ := h
  revert controller guard ring engine
  decide

/-- The hold sources at bits 0 to 3 of their set (R95). -/
theorem HoldSources.testBit_bits (h : HoldSources) : h.bits.testBit 0 = h.controller ∧ h.bits.testBit 1 = h.guard ∧
    h.bits.testBit 2 = h.ring ∧ h.bits.testBit 3 = h.engine := by
  obtain ⟨controller, guard, ring, engine⟩ := h
  revert controller guard ring engine
  decide

theorem EngineState.code_lt (e : EngineState) : e.code < 8 := by cases e <;> decide

/-- The three fields of a report word fill its 16 bits. -/
theorem toNat_reportWord (e : Engine) :
    (reportWord e).toNat = e.state.code * 8192 + e.step % 512 * 16 + e.sources.bits := by
  have state := e.state.code_lt
  have sources := e.sources.bits_lt
  rw [reportWord, BitVec.toNat_ofNat]
  omega

theorem reportWord_state (e : Engine) : (reportWord e).toNat / 8192 = e.state.code := by
  have sources := e.sources.bits_lt
  rw [toNat_reportWord]
  omega

theorem reportWord_step (e : Engine) : (reportWord e).toNat / 16 % 512 = e.step % 512 := by
  have sources := e.sources.bits_lt
  rw [toNat_reportWord]
  omega

theorem reportWord_source (e : Engine) {n : Nat} (low : n < 4) : (reportWord e).getLsbD n = e.sources.bits.testBit n := by
  have fields : (reportWord e).toNat = 2 ^ 4 * (e.state.code * 512 + e.step % 512) + e.sources.bits := by
    rw [toNat_reportWord]
    omega
  rw [← BitVec.testBit_toNat, fields, Nat.testBit_two_pow_mul_add _ e.sources.bits_lt, if_pos low]

theorem reportNodeFlags_valid (flags : Byte) : (reportNodeFlags flags).getLsbD 0 = true := by
  simp [reportNodeFlags]

theorem reportNodeFlags_fault (flags : Byte) : (reportNodeFlags flags).getLsbD 1 = false := by
  simp [reportNodeFlags]

/-- The two masks of the node flags leave bits 2 to 7. -/
theorem reportNodeFlags_other (flags : Byte) {n : Nat} (other : 2 ≤ n) :
    (reportNodeFlags flags).getLsbD n = flags.getLsbD n := by
  rcases Nat.lt_or_ge n 8 with within | beyond
  · have masks : ∀ i < 8, 2 ≤ i → (1#8).getLsbD i = false ∧ (0xFD#8).getLsbD i = true := by decide
    obtain ⟨valid, fault⟩ := masks n within other
    rw [reportNodeFlags, BitVec.getLsbD_and, BitVec.getLsbD_or, valid, fault, Bool.or_false, Bool.and_true]
  · rw [BitVec.getLsbD_of_ge _ _ beyond, BitVec.getLsbD_of_ge _ _ beyond]

theorem reportSlot_report (use : s.slotUse k = .report c) : reportSlot s k slot =
    { slot with readback := reportWord (s.engine c), nodeFlags := reportNodeFlags slot.nodeFlags } := by
  rw [reportSlot, use]

theorem reportSlot_other (use : ∀ d, s.slotUse k ≠ .report d) : reportSlot s k slot = slot := by
  unfold reportSlot
  split
  case h_1 d reported => exact absurd reported (use d)
  all_goals rfl

theorem reportSlots_getElem? (s : State) (k : Nat) (slots : List Slot) : ∀ start,
    (reportSlots s start slots)[k]? = slots[k]?.map (reportSlot s (start + k)) := by
  induction slots generalizing k with
  | nil => intro start; rfl
  | cons slot rest ih =>
    intro start
    cases k with
    | zero => rfl
    | succ k => simpa [reportSlots, Nat.add_right_comm, Nat.add_assoc] using ih k (start + 1)

/-- Settles O58. -/
theorem reportSlotsWritten : Obligations.ReportSlotsWritten := by
  refine fun s k slot c => ⟨fun use => ?_, reportSlot_other, fun slots => by simpa using reportSlots_getElem? s k slots 0⟩
  intro e out
  have written : out = _ := reportSlot_report use
  obtain ⟨controller, guard, ring, engine⟩ := e.sources.testBit_bits
  rw [written]
  refine ⟨rfl, rfl, reportNodeFlags_valid _, reportNodeFlags_fault _, fun n => reportNodeFlags_other _, fun within =>
    ⟨(reportWord_state e).trans ?_, (reportWord_step e).trans (Nat.mod_eq_of_lt within),
      (reportWord_source e (by decide)).trans controller, (reportWord_source e (by decide)).trans guard,
      (reportWord_source e (by decide)).trans ring, (reportWord_source e (by decide)).trans engine⟩⟩
  cases e.state <;> rfl

end Sys2Proof.Machine
end

/-! ### The guard unit: evaluations, trips and hold demands, each said once (R103, R104, R108 to R111, R115) -/
section
namespace Sys2Proof.Machine

variable {s : State} {which : Chamber → GuardIndex → Bool} {demands : List Chamber} {x : Ctx} {p : Plant} {c d : Chamber}
  {g : GuardIndex}

/-! #### Evaluations -/

theorem evaluateGuards_getElem (s : State) (which : Chamber → GuardIndex → Bool) (c : Chamber) (g : GuardIndex) :
    (evaluateGuards s which)[c][g] = if which c g then evaluateEntry s c g else s.guardEntry c g := by
  simp [evaluateGuards]

theorem State.guardPass_guardEntry : (s.guardPass which demands).guardEntry c g =
    if which c g then evaluateEntry s c g else s.guardEntry c g := evaluateGuards_getElem s which c g

theorem evaluateEntry_framePaced (k : (s.guardEntry c g).config.kind.isFramePaced = true) : evaluateEntry s c g =
    { s.guardEntry c g with
      state := moveFramePaced (s.guardEntry c g).config.count
        (inScope s.ctx (s.engine c) g (s.guardEntry c g).config.scope) (frameReading s.ctx c (s.guardEntry c g))
        (s.guardEntry c g).state } := if_pos k

theorem GuardKind.not_isFramePaced_of_isInput {k : GuardKind} (h : k.isInput = true) : ¬k.isFramePaced = true := by
  revert h; cases k <;> decide

theorem evaluateEntry_input (k : (s.guardEntry c g).config.kind.isInput = true) : evaluateEntry s c g =
    { s.guardEntry c g with
      state := moveInput (inScope s.ctx (s.engine c) g (s.guardEntry c g).config.scope)
        (inputReading (s.input (s.guardEntry c g).config.source).accepted (s.guardEntry c g).config)
        (s.guardEntry c g).state } :=
  (if_neg (GuardKind.not_isFramePaced_of_isInput k)).trans (if_pos k)

theorem evaluateEntry_off (k : (s.guardEntry c g).config.kind = .off) : evaluateEntry s c g = s.guardEntry c g := by
  simp [evaluateEntry, k, GuardKind.isFramePaced, GuardKind.isInput]

@[simp] theorem evaluateEntry_config (s : State) (c : Chamber) (g : GuardIndex) :
    (evaluateEntry s c g).config = (s.guardEntry c g).config := by
  unfold evaluateEntry
  dsimp only
  split
  · rfl
  · split <;> rfl

/-- From CLEAR or COUNTING a frame-paced entry comes to stand by entering TRIPPED alone (Table 6-5). -/
theorem moveFramePaced_stands {count : Nat} {scope : Bool} {reading : Reading} {before : GuardState}
    (rested : before.standing = false) (stands : (moveFramePaced count scope reading before).standing = true) :
    entersTripped before (moveFramePaced count scope reading before) = true := by
  cases before with
  | tripped | releasing n => cases rested
  | clear | counting n =>
    unfold moveFramePaced at stands ⊢
    dsimp only at stands ⊢
    split at stands
    · next trips =>
      rw [if_pos trips]
      split at stands
      · next reached => rw [if_pos reached]; rfl
      · cases stands
    · cases stands

/-- The same for an INPUT entry (R115). -/
theorem moveInput_stands {scope : Bool} {reading : Reading} {before : GuardState} (rested : before.standing = false)
    (stands : (moveInput scope reading before).standing = true) :
    entersTripped before (moveInput scope reading before) = true := by
  cases before with
  | tripped | releasing n => cases rested
  | clear | counting n =>
    unfold moveInput at stands ⊢
    dsimp only at stands ⊢
    split at stands
    · next trips => rw [if_pos trips]; rfl
    · cases stands

theorem evaluateEntry_stands (rested : (s.guardEntry c g).state.standing = false)
    (stands : (evaluateEntry s c g).state.standing = true) :
    entersTripped (s.guardEntry c g).state (evaluateEntry s c g).state = true := by
  unfold evaluateEntry at stands ⊢
  dsimp only at stands ⊢
  split at stands
  · next paced => rw [if_pos paced]; exact moveFramePaced_stands rested stands
  · next unpaced =>
    rw [if_neg unpaced]
    split at stands
    · next input => rw [if_pos input]; exact moveInput_stands rested stands
    · rw [rested] at stands; cases stands

/-! #### Trips -/

theorem mem_chambers (c : Chamber) : c ∈ chambers := by fin_cases c <;> simp [chambers]

theorem mem_newTrips {before after : Vector (Vector GuardEntry 16) 4} {action : GuardAction} :
    (c, g, action) ∈ newTrips before after ↔
      entersTripped before[c][g].state after[c][g].state = true ∧ action = after[c][g].config.action := by
  simp only [newTrips, List.mem_flatMap, List.mem_filterMap]
  constructor
  · rintro ⟨c', -, g', -, trip⟩
    split at trip
    · next enters => cases trip; exact ⟨enters, rfl⟩
    · cases trip
  · rintro ⟨enters, rfl⟩
    exact ⟨c, mem_chambers c, g, mem_sixteen g, if_pos enters⟩

theorem applyTrip_notes {action : GuardAction} (h : action ≠ .safe ∨ (p.engine c).state = .safe) :
    applyTrip x c g action p = p.notify x c .guardTrip g.val :=
  if_neg fun ⟨isSafe, notSafe⟩ => h.elim (absurd isSafe) notSafe

theorem applyTrip_safes (h : (p.engine c).state ≠ .safe) :
    applyTrip x c g .safe p = enterSafe x (expireNow x) c (p.notify x c .guardTrip g.val) := if_pos ⟨rfl, h⟩

/-! #### Hold demands -/

section
variable {guards : Vector (Vector GuardEntry 16) 4}

theorem examineDemand_joins (demand : anyStanding guards[c] .hold = true) (fresh : (p.engine c).sources.guard = false) :
    examineDemand x guards c p = addSource x (expireNow x) c .guard false p :=
  (if_pos demand).trans (if_neg (ne_true_of_eq_false fresh))

theorem examineDemand_stands (demand : anyStanding guards[c] .hold = true) (joined : (p.engine c).sources.guard = true) :
    examineDemand x guards c p = p := (if_pos demand).trans (if_pos joined)

theorem examineDemand_ends (lifted : anyStanding guards[c] .hold = false) (held : (p.engine c).state = .held)
    (joined : (p.engine c).sources.guard = true) : examineDemand x guards c p =
      removeSources x (expireNow x) c (p.engine c).sources.withoutGuard p :=
  (if_neg (ne_true_of_eq_false lifted)).trans (if_pos ⟨held, joined⟩)

theorem examineDemand_absent (lifted : anyStanding guards[c] .hold = false)
    (free : (p.engine c).state ≠ .held ∨ (p.engine c).sources.guard = false) : examineDemand x guards c p = p :=
  (if_neg (ne_true_of_eq_false lifted)).trans
    (if_neg fun ⟨held, joined⟩ => free.elim (absurd held) fun fresh => by rw [fresh] at joined; cases joined)

end

end Sys2Proof.Machine
end

/-! ### GUARD is added to a hold-source set by the guard unit alone (R68, R75, R110) -/
section
namespace Sys2Proof.Machine

/-- GUARD is no hold source of chamber c. -/
def Plant.Unguarded (c : Chamber) (p : Plant) : Prop := (p.engine c).sources.guard = false

theorem HoldSources.insert_guard {sources : HoldSources} {src : HoldSource} (other : src ≠ .guard)
    (free : sources.guard = false) : (sources.insert src).guard = false := by
  cases src with
  | guard => exact absurd rfl other
  | controller | ring | engine => exact free

namespace Plant.Unguarded

variable {c : Chamber} {p : Plant} {x : Ctx} {expire : Expire}

theorem setEngine (h : p.Unguarded c) (d : Chamber) (e : Engine)
    (he : (p.engine d).sources.guard = false → e.sources.guard = false) : (p.setEngine d e).Unguarded c := by
  unfold Plant.Unguarded
  rw [Plant.engine_setEngine]
  split
  · next hd => exact he (hd ▸ h)
  · exact h

theorem sameSources (h : p.Unguarded c) (d : Chamber) (e : Engine) (he : e.sources = (p.engine d).sources) :
    (p.setEngine d e).Unguarded c := h.setEngine d e fun free => by rw [he]; exact free

theorem setEngine_other (h : p.Unguarded c) {d : Chamber} (ne : d ≠ c) (e : Engine) : (p.setEngine d e).Unguarded c := by
  unfold Plant.Unguarded
  rw [Plant.engine_setEngine_ne _ _ ne]
  exact h

theorem claimLine (h : p.Unguarded c) (d : Chamber) : (claimLine d p).Unguarded c := by
  rw [claimLine_eq]
  exact h

theorem waitFor (h : p.Unguarded c) (d : Chamber) (a : Awaited) : (waitFor x d a p).Unguarded c := h.sameSources d _ (by rfl)

theorem finishSequence (h : p.Unguarded c) (d : Chamber) : (finishSequence x d p).Unguarded c := h.sameSources d _ (by rfl)

variable (hE : ∀ d (q : Plant), q.Unguarded c → (expire d q).Unguarded c)
include hE

theorem runStep (h : p.Unguarded c) (d : Chamber) : (runStep x expire d p).Unguarded c := by
  unfold Machine.runStep
  dsimp only
  split
  · exact h.sameSources d _ (by rfl)
  · split
    · exact h.sameSources d _ (by rfl)
    · split
      · exact hE _ _ (h.sameSources d _ (by rfl))
      · exact h.sameSources d _ (by rfl)

theorem grantLine (h : p.Unguarded c) (d : Chamber) : (grantLine x expire d p).Unguarded c := by
  unfold Machine.grantLine handLine
  split
  · exact runStep (p := p.setLine (.granted d) (p.arbiter.queue.filter (· ≠ d))) hE h d
  · exact h

theorem selectLine (h : p.Unguarded c) : (selectLine x expire p).Unguarded c := by
  unfold Machine.selectLine
  split
  · exact h
  · exact h.grantLine hE _

theorem releaseLine (h : p.Unguarded c) (d : Chamber) : (releaseLine x expire d p).Unguarded c := by
  unfold Machine.releaseLine
  split
  · split
    · exact selectLine (p := p.setLine _ _) hE h
    · exact h
  · exact h

theorem endIdleClaim (h : p.Unguarded c) (d : Chamber) : (endIdleClaim x expire d p).Unguarded c := by
  unfold Machine.endIdleClaim
  split
  · exact h.releaseLine hE d
  · exact h

theorem considerLine (h : p.Unguarded c) (d : Chamber) : (considerLine x expire d p).Unguarded c := by
  unfold Machine.considerLine
  dsimp only
  split
  · exact (h.releaseLine hE d).finishSequence d
  · split
    · split
      · exact (h.claimLine d).runStep hE d
      · exact (h.claimLine d).waitFor d _
    · exact (h.releaseLine hE d).runStep hE d

theorem giveBack {examine : Plant → Plant} (hx : ∀ q : Plant, q.Unguarded c → (examine q).Unguarded c) (h : p.Unguarded c)
    (d : Chamber) : (giveBack x expire examine d p).Unguarded c :=
  hx _ (releaseLine (p := Machine.withdrawBoth d p) hE h d)

theorem enterHold {examine : Plant → Plant} (hx : ∀ q : Plant, q.Unguarded c → (examine q).Unguarded c) (h : p.Unguarded c)
    (d : Chamber) {src : HoldSource} (hs : src = .guard → d ≠ c) (dl : Bool) :
    (enterHold x expire examine d src dl p).Unguarded c := by
  have gaveBack := (h.sameSources d { p.engine d with
    hold := some ((p.engine d).writeHold x.now (x.stepRecord (p.engine d).step) dl)
    timer := none, counter := 0, awaited := .nothing } rfl).giveBack (x := x) hE hx d
  by_cases hd : d = c
  · exact gaveBack.setEngine d _ fun _ => HoldSources.insert_guard (fun isGuard => hs isGuard hd) rfl
  · exact gaveBack.setEngine_other hd _

theorem examineHead {q : Plant} (h : p.Unguarded c) (he : examineHead x expire p = some q) : q.Unguarded c := by
  unfold Machine.examineHead at he
  split at he
  · cases he
  · next g rest _ =>
    split at he
    · dsimp only at he
      split at he <;> cases he
      · exact considerLine (p := (p.setReservation g.chamber g.requested).setGrowth rest) hE h _
      · exact h
    · split at he
      · cases he
        exact h.enterHold (x := x) hE (examine := id) (fun _ k => k) g.chamber (src := .engine) (by simp) false
      · cases he

theorem examineHeads (n : Nat) (h : p.Unguarded c) : (examineHeads x expire n p).Unguarded c := by
  induction n generalizing p with
  | zero => exact h
  | succ n ih =>
    unfold Machine.examineHeads
    split
    · exact h
    · next q he => exact ih (h.examineHead hE he)

theorem examineGrowth (h : p.Unguarded c) : (examineGrowth x expire p).Unguarded c := h.examineHeads hE _

/-- A source other than GUARD, or one of another chamber. -/
theorem addSource (h : p.Unguarded c) (d : Chamber) {src : HoldSource} (hs : src = .guard → d ≠ c) (dl : Bool) :
    (addSource x expire d src dl p).Unguarded c := by
  unfold Machine.addSource
  dsimp only
  split
  · exact h.enterHold hE (fun _ k => k.examineGrowth hE) d hs dl
  · exact h.enterHold hE (fun _ k => k.examineGrowth hE) d hs dl
  · by_cases hd : d = c
    · exact h.setEngine d _ (HoldSources.insert_guard fun isGuard => hs isGuard hd)
    · exact h.setEngine_other hd _
  all_goals exact h

theorem stepBoundary (h : p.Unguarded c) (d : Chamber) : (stepBoundary x expire d p).Unguarded c := by
  unfold Machine.stepBoundary
  dsimp only
  split
  · exact (h.sameSources d _ (by rfl)).enterHold (x := x) hE (fun _ k => k.examineGrowth hE) d (src := .engine) (by simp) false
  · split
    · split
      · exact (examineGrowth (p := p.setReservation d _) hE h).considerLine hE d
      · exact considerLine (p := p.setReservation d _) hE h d
    · exact examineGrowth (p := Plant.setGrowth _ _) hE ((h.releaseLine (x := x) hE d).waitFor (x := x) d .growth)

theorem endStep (h : p.Unguarded c) (d : Chamber) : (endStep x expire d p).Unguarded c :=
  stepBoundary hE (h.sameSources d _ (by rfl)) d

theorem enterSafe (h : p.Unguarded c) (d : Chamber) : (enterSafe x expire d p).Unguarded c :=
  ((h.sameSources d { p.engine d with timer := none, counter := 0, awaited := .nothing } rfl).giveBack (x := x) hE
    (fun _ k => k.examineGrowth (x := x) hE) d).setEngine d _ fun _ => by rfl

theorem dwellEnds (h : p.Unguarded c) (d : Chamber) : (dwellEnds x expire d p).Unguarded c := by
  have noted : (p.notify x d .stepTimeout (p.engine d).step).Unguarded c := h
  unfold Machine.dwellEnds
  dsimp only
  split
  · split
    · split
      · exact noted.endStep hE d
      · exact noted.addSource hE d (by simp) _
      · exact noted.enterSafe hE d
      · exact noted.sameSources d _ (by rfl)
    · exact h.endStep hE d
  · exact h

theorem leaveHold (h : p.Unguarded c) (d : Chamber) : (leaveHold x expire d p).Unguarded c := by
  unfold Machine.leaveHold
  dsimp only
  split
  · exact h.stepBoundary hE d
  · exact stepBoundary hE (h.sameSources d _ (by rfl)) d

/-- A set that is left without GUARD, or that of another chamber. -/
theorem removeSources (h : p.Unguarded c) (d : Chamber) {left : HoldSources}
    (hs : (p.engine d).sources.guard = false → left.guard = false) : (removeSources x expire d left p).Unguarded c := by
  have removed : (p.setEngine d { p.engine d with sources := left }).Unguarded c := h.setEngine d _ hs
  unfold Machine.removeSources
  dsimp only
  split
  · exact removed.leaveHold hE d
  · exact removed

theorem evaluateCondition (h : p.Unguarded c) (d : Chamber) : (evaluateCondition x expire d p).Unguarded c := by
  unfold Machine.evaluateCondition
  dsimp only
  split
  · split
    · split
      · exact (h.sameSources d _ (by rfl)).endStep hE d
      · exact h.sameSources d _ (by rfl)
    · exact h.sameSources d _ (by rfl)
  · exact h

theorem abortEngine (h : p.Unguarded c) (d : Chamber) : (abortEngine x expire d p).Unguarded c :=
  ((h.sameSources d { p.engine d with timer := none, counter := 0, awaited := .nothing } rfl).giveBack (x := x) hE
    (fun _ k => k.examineGrowth (x := x) hE) d).setEngine d _ fun _ => by rfl

theorem releaseEngine (h : p.Unguarded c) (d : Chamber) : (releaseEngine x expire d p).Unguarded c := by
  have examined := examineGrowth (x := x) (p := returnReservation d (p.setEngine d { p.engine d with counter := 0 })) hE
    (h.sameSources d _ (by rfl))
  exact examined.sameSources d _ (by rfl)

theorem startEngine (h : p.Unguarded c) (d : Chamber) (first last : Nat) :
    (startEngine x expire d first last p).Unguarded c := by
  have entered : (Machine.withdrawLine d (p.setEngine d { p.engine d with
      range := some (first, last), step := first, loops := [], sources := {}, counter := 0
      outputTable := carriedOutputs x d })).Unguarded c := h.setEngine d _ fun _ => rfl
  exact entered.stepBoundary hE d

theorem loseRing (h : p.Unguarded c) (d : Chamber) : (loseRing x expire d p).Unguarded c := by
  unfold Machine.loseRing
  split
  iterate 3 exact h.addSource hE d (by simp) _
  · exact h.endIdleClaim hE d
  all_goals exact h

end Plant.Unguarded

theorem unguarded_expireWithin {c : Chamber} (x : Ctx) (n : Nat) (d : Chamber) (q : Plant) (h : q.Unguarded c) :
    (expireWithin x n d q).Unguarded c := by
  induction n generalizing d q with
  | zero => exact h
  | succ n ih => exact h.dwellEnds ih d

theorem unguarded_expireNow {c : Chamber} (x : Ctx) (d : Chamber) (q : Plant) (h : q.Unguarded c) :
    (expireNow x d q).Unguarded c := unguarded_expireWithin x 4 d q h

end Sys2Proof.Machine
end

/-! ### What the operations of the engines and the arbiter leave of what the guards did: a SAFE chamber stays SAFE, and GUARD is
not added (R65, R75, R109) -/
section
namespace Sys2Proof.Machine

/-- A SAFE chamber stands in neither queue and does not hold the line (R61). -/
def Plant.SafeRests (p : Plant) : Prop := ∀ c : Chamber, (p.engine c).state = .safe → p.Out c ∧ p.arbiter.line ≠ .granted c

theorem Plant.SoundBut.safeRests {I : Chamber → Prop} {up : Bool} {p : Plant} (h : p.SoundBut noChamber I up) :
    p.SafeRests := fun c safe => by
  refine ⟨h.out_of_state (by rw [safe]; simp) (by rw [safe]; simp), fun granted => ?_⟩
  rcases h.holder c id granted with k | k <;> rw [safe] at k <;> cases k

/-- A SAFE chamber stays SAFE, and GUARD becomes no hold source of a chamber that it was not of. -/
structure Plant.Heeds (p q : Plant) : Prop where
  safe : ∀ c : Chamber, (p.engine c).state = .safe → (q.engine c).state = .safe
  unguarded : ∀ c : Chamber, p.Unguarded c → q.Unguarded c

namespace Plant.Heeds

variable {p q r : Plant} {x : Ctx} {d : Chamber}

theorem refl (p : Plant) : p.Heeds p := ⟨fun _ => id, fun _ => id⟩

theorem trans (h : p.Heeds q) (k : q.Heeds r) : p.Heeds r :=
  ⟨fun c safe => k.safe c (h.safe c safe), fun c free => k.unguarded c (h.unguarded c free)⟩

theorem of_engines (h : q.engines = p.engines) : p.Heeds q := by
  have same : ∀ c, q.engine c = p.engine c := fun c => by rw [Plant.engine, h, Plant.engine]
  exact ⟨fun c safe => by rw [same]; exact safe, fun c free => by rw [Plant.Unguarded, same]; exact free⟩

theorem setEngine {e : Engine} (state : e.state = (p.engine d).state) (sources : e.sources = (p.engine d).sources) :
    p.Heeds (p.setEngine d e) := by
  refine ⟨fun c safe => ?_, fun c free => free.sameSources d e sources⟩
  rw [Plant.engine_setEngine]
  split
  · next at_ => rw [state, at_]; exact safe
  · exact safe

/-- An operation that begins with a chamber that is not SAFE spares those that are. -/
theorem of_spares (rests : p.SafeRests) (notSafe : (p.engine d).state ≠ .safe)
    (spares : ∀ c, d ≠ c → p.Out c → Plant.Spares c p q) (unguarded : ∀ c, p.Unguarded c → q.Unguarded c) : p.Heeds q := by
  refine ⟨fun c safe => ?_, unguarded⟩
  have other : d ≠ c := fun hd => notSafe (hd ▸ safe)
  rw [(spares c other (rests c safe).1).engine]
  exact safe

/-- An operation that begins with no chamber. -/
theorem of_spares_all (rests : p.SafeRests)
    (spares : ∀ c, p.Out c → p.arbiter.line ≠ .granted c → Plant.Spares c p q)
    (unguarded : ∀ c, p.Unguarded c → q.Unguarded c) : p.Heeds q := by
  refine ⟨fun c safe => ?_, unguarded⟩
  rw [(spares c (rests c safe).1 (rests c safe).2).engine]
  exact safe

/-! #### The arbiter -/

theorem claimLine (p : Plant) (c : Chamber) : p.Heeds (claimLine c p) := of_engines (by rw [claimLine_eq])

theorem examineGrowth (rests : p.SafeRests) : p.Heeds (examineGrowth x (expireNow x) p) :=
  of_spares_all rests (fun _ out _ => (Plant.Spares.refl out).examineGrowth spares_expireNow)
    fun _ free => free.examineGrowth (unguarded_expireNow x)

theorem selectLine (rests : p.SafeRests) : p.Heeds (selectLine x (expireNow x) p) :=
  of_spares_all rests (fun _ out line => (Plant.Spares.refl out).selectLine spares_expireNow line)
    fun _ free => free.selectLine (unguarded_expireNow x)

theorem grantLine (rests : p.SafeRests) (queued : d ∈ p.arbiter.queue) : p.Heeds (grantLine x (expireNow x) d p) :=
  of_spares_all rests
    (fun _ out line => (Plant.Spares.refl out).grantLine spares_expireNow (fun hd => out.1 (hd ▸ queued)) line)
    fun _ free => free.grantLine (unguarded_expireNow x) d

/-- The chamber whose claim ends may be SAFE itself: it then has none. -/
theorem endIdleClaim (rests : p.SafeRests) (d : Chamber) : p.Heeds (endIdleClaim x (expireNow x) d p) := by
  by_cases safe : (p.engine d).state = .safe
  · rw [endIdleClaim_withdraws (rests d safe).2]
    exact of_engines rfl
  · exact of_spares rests safe (fun _ ne out => (Plant.Spares.refl out).endIdleClaim spares_expireNow ne)
      fun _ free => free.endIdleClaim (unguarded_expireNow x) d

/-! #### The engines -/

theorem addSource (rests : p.SafeRests) (d : Chamber) {src : HoldSource} (other : src ≠ .guard) (dl : Bool) :
    p.Heeds (addSource x (expireNow x) d src dl p) := by
  by_cases safe : (p.engine d).state = .safe
  · rw [show Machine.addSource x (expireNow x) d src dl p = p by simp only [Machine.addSource, safe]]
    exact refl p
  · exact of_spares rests safe (fun _ ne out => (Plant.Spares.refl out).addSource spares_expireNow ne src dl)
      fun _ free => free.addSource (unguarded_expireNow x) d (fun isGuard => absurd isGuard other) dl

theorem enterSafe (rests : p.SafeRests) (d : Chamber) : p.Heeds (enterSafe x (expireNow x) d p) := by
  refine ⟨fun c safe => ?_, fun _ free => free.enterSafe (unguarded_expireNow x) d⟩
  by_cases hd : d = c
  · rw [hd, (enterSafe_rests (fun q r e => expireNow_spares x c q r e) p).2.2.1]
  · rw [((Plant.Spares.refl (rests c safe).1).enterSafe (x := x) spares_expireNow hd).engine]
    exact safe

theorem dwellEnds (rests : p.SafeRests) (running : (p.engine d).state = .running) :
    p.Heeds (dwellEnds x (expireNow x) d p) :=
  of_spares rests (by rw [running]; simp) (fun _ ne out => (Plant.Spares.refl out).dwellEnds spares_expireNow ne)
    fun _ free => free.dwellEnds (unguarded_expireNow x) d

theorem removeSources (rests : p.SafeRests) (held : (p.engine d).state = .held) {left : HoldSources}
    (fewer : (p.engine d).sources.guard = false → left.guard = false) :
    p.Heeds (removeSources x (expireNow x) d left p) :=
  of_spares rests (by rw [held]; simp) (fun _ ne out => (Plant.Spares.refl out).removeSources spares_expireNow ne left)
    fun _ free => free.removeSources (unguarded_expireNow x) d fewer

theorem evaluateCondition (rests : p.SafeRests) (d : Chamber) : p.Heeds (evaluateCondition x (expireNow x) d p) := by
  refine ⟨fun c safe => ?_, fun _ free => free.evaluateCondition (unguarded_expireNow x) d⟩
  unfold Machine.evaluateCondition
  dsimp only
  split
  · next runs =>
    have ne : d ≠ c := fun hd => by rw [← hd, runs.1] at safe; cases safe
    have counted := fun e => (Plant.Spares.refl (rests c safe).1).setEngine ne e
    split
    · split
      · rw [((counted _).endStep (x := x) spares_expireNow ne).engine]
        exact safe
      · rw [(counted _).engine]
        exact safe
    · rw [(counted _).engine]
      exact safe
  · exact safe

theorem abortEngine (rests : p.SafeRests) (notSafe : (p.engine d).state ≠ .safe) :
    p.Heeds (abortEngine x (expireNow x) d p) :=
  of_spares rests notSafe (fun _ ne out => (Plant.Spares.refl out).abortEngine spares_expireNow ne)
    fun _ free => free.abortEngine (unguarded_expireNow x) d

theorem releaseEngine (rests : p.SafeRests) (done : (p.engine d).state = .done) :
    p.Heeds (releaseEngine x (expireNow x) d p) := by
  refine of_spares rests (by rw [done]; simp) (fun c ne out => ?_) fun _ free => free.releaseEngine (unguarded_expireNow x) d
  exact ((((Plant.Spares.refl out).setEngine ne _).returnReservation ne).examineGrowth spares_expireNow).setEngine ne _

theorem startEngine (rests : p.SafeRests) (idle : (p.engine d).state = .idle) (first last : Nat) :
    p.Heeds (startEngine x (expireNow x) d first last p) :=
  of_spares rests (by rw [idle]; simp)
    (fun _ ne out => (Plant.Spares.refl out).startEngine spares_expireNow ne first last)
    fun _ free => free.startEngine (unguarded_expireNow x) d first last

theorem loseRing (rests : p.SafeRests) (d : Chamber) : p.Heeds (loseRing x (expireNow x) d p) := by
  unfold Machine.loseRing
  split
  iterate 3 exact addSource rests d (by simp) _
  · exact endIdleClaim rests d
  all_goals exact refl p

/-- One slot of a passage (R85, R89, R90). -/
theorem computed {a : Passage} (rests : a.state.plant.SafeRests) (engines : Vector Engine 4) (c : Chamber) (k : Chan)
    (slot : Slot) : a.state.plant.Heeds (a.plantAfter engines c k slot) := by
  have roughed : a.state.plant.Heeds (a.roughed engines c k slot).1 := by
    unfold Passage.roughed
    split
    · rw [roughingRule_plant]
      split
      · split
        · exact endIdleClaim rests c
        · exact claimLine _ c
      · exact refl _
    · exact refl _
  unfold Passage.plantAfter
  split
  · exact roughed.trans (setEngine rfl rfl)
  · exact roughed

/-- An operation done for one chamber after another. -/
theorem forEach {up : Bool} {f : Plant → Chamber → Plant}
    (hs : ∀ {q : Plant} c, q.SoundBut noChamber noChamber up → (f q c).SoundBut noChamber noChamber up)
    (hf : ∀ {q : Plant} c, q.SoundBut noChamber noChamber up → q.Heeds (f q c))
    (sound : p.SoundBut noChamber noChamber up) (cs : List Chamber) : p.Heeds (cs.foldl f p) := by
  induction cs generalizing p with
  | nil => exact refl p
  | cons c rest ih => exact (hf c sound).trans (ih (hs c sound))

end Plant.Heeds

end Sys2Proof.Machine
end

/-! ### The guard unit acts on what stands: the actions of its trips, and its hold demands (R75, R109 to R111) -/
section
namespace Sys2Proof.Machine

/-- A chamber with a SAFE-action entry standing in the guard tables is SAFE, and GUARD is a hold source only while a HOLD-action
entry stands. -/
structure Plant.Obeys (guards : Vector (Vector GuardEntry 16) 4) (p : Plant) : Prop where
  safe : ∀ c : Chamber, anyStanding guards[c] .safe = true → (p.engine c).state = .safe
  hold : ∀ c : Chamber, anyStanding guards[c] .hold = true ∨ p.Unguarded c

theorem anyStanding_iff_standing {entries : Vector GuardEntry 16} {action : GuardAction} :
    anyStanding entries action = true ↔
      ∃ g : GuardIndex, entries[g].config.action = action ∧ entries[g].state.standing = true := by
  simp only [anyStanding_iff, GuardState.standing_iff]

theorem State.guardsAct_iff {s : State} : s.GuardsAct ↔ s.plant.Obeys s.guards := by
  constructor
  · intro h
    refine ⟨fun c stands => ?_, fun c => ?_⟩
    · obtain ⟨g, action, standing⟩ := anyStanding_iff_standing.1 stands
      exact h.safe c g action standing
    · by_cases joined : (s.engine c).sources.guard = true
      · exact .inl (anyStanding_iff_standing.2 (h.hold c joined))
      · exact .inr (Bool.eq_false_iff.2 joined)
  · intro h
    refine ⟨fun c g action standing => h.safe c (anyStanding_iff_standing.2 ⟨g, action, standing⟩), fun c joined => ?_⟩
    refine anyStanding_iff_standing.1 ((h.hold c).resolve_right fun free => ?_)
    rw [show (s.engine c).sources.guard = false from free] at joined
    cases joined

/-- The entries of two guard tables have the same actions and states. -/
def GuardsAlike (before after : Vector (Vector GuardEntry 16) 4) : Prop :=
  ∀ (c : Chamber) (g : GuardIndex), after[c][g].config.action = before[c][g].config.action ∧
    after[c][g].state = before[c][g].state

theorem GuardsAlike.anyStanding {before after : Vector (Vector GuardEntry 16) 4} (h : GuardsAlike before after) (c : Chamber)
    (action : GuardAction) : Machine.anyStanding after[c] action = Machine.anyStanding before[c] action := by
  rw [Bool.eq_iff_iff, anyStanding_iff_standing, anyStanding_iff_standing]
  simp only [(h c _).1, (h c _).2]

namespace Plant.Obeys

variable {guards after : Vector (Vector GuardEntry 16) 4} {p q : Plant} {x : Ctx} {up : Bool}

theorem heeds (h : p.Obeys guards) (k : p.Heeds q) : q.Obeys guards :=
  ⟨fun c stands => k.safe c (h.safe c stands), fun c => (h.hold c).imp_right (k.unguarded c)⟩

theorem alike (h : p.Obeys guards) (k : GuardsAlike guards after) : p.Obeys after :=
  ⟨fun c stands => h.safe c (k.anyStanding c .safe ▸ stands), fun c => k.anyStanding c .hold ▸ h.hold c⟩

end Plant.Obeys

section
variable {guards : Vector (Vector GuardEntry 16) 4} {p : Plant} {x : Ctx} {up : Bool} {c : Chamber}

/-! #### Trips -/

theorem applyTrip_heeds (sound : p.SoundBut noChamber noChamber up) (c : Chamber) (g : GuardIndex) (action : GuardAction) :
    p.Heeds (applyTrip x c g action p) := by
  have noted : p.Heeds (p.notify x c .guardTrip g.val) := .of_engines rfl
  unfold applyTrip
  dsimp only
  split
  · exact noted.trans (.enterSafe (sound.notify c .guardTrip g.val).safeRests c)
  · exact noted

/-- A trip of action SAFE leaves its chamber SAFE (R109). -/
theorem applyTrip_safe_state (x : Ctx) (c : Chamber) (g : GuardIndex) (p : Plant) :
    ((applyTrip x c g .safe p).engine c).state = .safe := by
  by_cases safe : (p.engine c).state = .safe
  · rw [applyTrip_notes (.inr safe), Plant.notify_engine, safe]
  · rw [applyTrip_safes safe, (enterSafe_rests (fun q r e => expireNow_spares x c q r e) _).2.2.1]

theorem applyTrips_heeds (sound : p.SoundBut noChamber noChamber up) (trips : List (Chamber × GuardIndex × GuardAction)) :
    p.Heeds (applyTrips x trips p) := by
  induction trips generalizing p with
  | nil => exact .refl p
  | cons t rest ih => exact (applyTrip_heeds sound t.1 t.2.1 t.2.2).trans (ih (sound.applyTrip t.2.1 t.2.2))

/-- Every chamber with a trip of action SAFE among several is SAFE after them. -/
theorem applyTrips_safe (sound : p.SoundBut noChamber noChamber up) {trips : List (Chamber × GuardIndex × GuardAction)}
    {g : GuardIndex} (trip : (c, g, .safe) ∈ trips) : ((applyTrips x trips p).engine c).state = .safe := by
  induction trips generalizing p with
  | nil => cases trip
  | cons t rest ih =>
    have tripped := sound.applyTrip (x := x) (c := t.1) t.2.1 t.2.2
    rcases List.mem_cons.1 trip with first | later
    · refine (applyTrips_heeds tripped rest).safe c ?_
      rw [← first]
      exact applyTrip_safe_state x c g p
    · exact ih tripped later

/-! #### Hold demands -/

theorem examineDemand_safe (sound : p.SoundBut noChamber noChamber up) (d : Chamber) (safe : (p.engine c).state = .safe) :
    ((examineDemand x guards d p).engine c).state = .safe := by
  have rests := sound.safeRests
  cases demand : anyStanding guards[d] .hold with
  | true =>
    cases joined : (p.engine d).sources.guard with
    | true => rw [examineDemand_stands demand joined]; exact safe
    | false =>
      rw [examineDemand_joins demand joined]
      by_cases hd : d = c
      · rw [hd, show addSource x (expireNow x) c .guard false p = p by simp only [addSource, safe]]
        exact safe
      · rw [((Plant.Spares.refl (rests c safe).1).addSource (x := x) spares_expireNow hd .guard false).engine]
        exact safe
  | false =>
    by_cases ends : (p.engine d).state = .held ∧ (p.engine d).sources.guard = true
    · rw [examineDemand_ends demand ends.1 ends.2]
      exact (Plant.Heeds.removeSources rests ends.1 fun _ => rfl).safe c safe
    · rw [examineDemand_absent demand (by simpa [imp_iff_not_or] using ends)]
      exact safe

/-- GUARD joins a hold-source set only with a HOLD-action entry standing (R110). -/
theorem examineDemand_hold (d : Chamber) (h : anyStanding guards[c] .hold = true ∨ p.Unguarded c) :
    anyStanding guards[c] .hold = true ∨ (examineDemand x guards d p).Unguarded c := by
  refine h.elim .inl fun free => ?_
  cases demand : anyStanding guards[d] .hold with
  | true =>
    by_cases hd : d = c
    · exact .inl (hd ▸ demand)
    · refine .inr ?_
      cases joined : (p.engine d).sources.guard with
      | true => rw [examineDemand_stands demand joined]; exact free
      | false =>
        rw [examineDemand_joins demand joined]
        exact free.addSource (unguarded_expireNow x) d (fun _ => hd) false
  | false =>
    refine .inr ?_
    by_cases ends : (p.engine d).state = .held ∧ (p.engine d).sources.guard = true
    · rw [examineDemand_ends demand ends.1 ends.2]
      exact free.removeSources (unguarded_expireNow x) d fun _ => rfl
    · rw [examineDemand_absent demand (by simpa [imp_iff_not_or] using ends)]
      exact free

/-- Without one, the examination of its own chamber removes GUARD (R75, R111). -/
theorem examineDemand_settles (sound : p.SoundBut noChamber noChamber up) (c : Chamber) :
    anyStanding guards[c] .hold = true ∨ (examineDemand x guards c p).Unguarded c := by
  cases demand : anyStanding guards[c] .hold with
  | true => exact .inl rfl
  | false =>
    refine .inr ?_
    cases joined : (p.engine c).sources.guard with
    | false => rw [examineDemand_absent demand (.inr joined)]; exact joined
    | true =>
      have held : (p.engine c).state = .held := by
        by_contra notHeld
        have none := (sound.cells c id).sources.2 notHeld
        simp [HoldSources.isEmpty, joined] at none
      have removed : (p.setEngine c { p.engine c with sources := (p.engine c).sources.withoutGuard }).Unguarded c := by
        rw [Plant.Unguarded, Plant.engine_setEngine_self, HoldSources.withoutGuard]
      rw [examineDemand_ends demand held joined]
      unfold removeSources
      dsimp only
      split
      · exact removed.leaveHold (unguarded_expireNow x) c
      · exact removed

/-- The demands of several chambers: a chamber that was SAFE is so after them, and GUARD is a hold source of those examined, and
of those it was no source of, only while a HOLD-action entry stands. -/
theorem examineDemands_acts (sound : p.SoundBut noChamber noChamber up) (ds : List Chamber) :
    (∀ c, (p.engine c).state = .safe → ((examineDemands x guards ds p).engine c).state = .safe) ∧
      ∀ c, c ∈ ds ∨ anyStanding guards[c] .hold = true ∨ p.Unguarded c →
        anyStanding guards[c] .hold = true ∨ (examineDemands x guards ds p).Unguarded c := by
  induction ds generalizing p with
  | nil => exact ⟨fun _ => id, fun _ h => h.resolve_left List.not_mem_nil⟩
  | cons d rest ih =>
    obtain ⟨safe, hold⟩ := ih (sound.examineDemand (x := x) guards d)
    refine ⟨fun c hc => safe c (examineDemand_safe sound d hc), fun c hc => hold c ?_⟩
    rcases hc with listed | kept
    · rcases List.mem_cons.1 listed with rfl | later
      · exact .inr (examineDemand_settles sound c)
      · exact .inl later
    · exact .inr (examineDemand_hold d kept)

end

/-! #### The pass of the guard unit -/

/-- A pass of the guard unit leaves its entries acted upon, where they were so before but for the hold demands it examines: GUARD
is a hold source of a chamber it does not examine only with a HOLD-action entry standing that it does not evaluate. -/
theorem State.Safe.guardPass_obeys {s : State} (sound : s.Safe) {which : Chamber → GuardIndex → Bool} {ds : List Chamber}
    (safe : ∀ c : Chamber, anyStanding s.guards[c] .safe = true → (s.engine c).state = .safe)
    (hold : ∀ c : Chamber, c ∈ ds ∨ s.plant.Unguarded c ∨
      ((∀ g, which c g = false) ∧ anyStanding s.guards[c] .hold = true)) :
    (s.guardPass which ds).plant.Obeys (s.guardPass which ds).guards := by
  have k := State.safe_iff.1 sound
  have tripped := applyTrips_heeds (x := s.ctx) k (newTrips s.guards (evaluateGuards s which))
  obtain ⟨safeAfter, holdAfter⟩ := examineDemands_acts (x := s.ctx) (guards := evaluateGuards s which)
    (k.applyTrips (newTrips s.guards (evaluateGuards s which))) ds
  refine ⟨fun c stands => safeAfter c ?_, fun c => holdAfter c ?_⟩
  · obtain ⟨g, action, standing⟩ := anyStanding_iff_standing.1 stands
    cases stood : (s.guardEntry c g).state.standing with
    | true =>
      refine tripped.safe c (safe c (anyStanding_iff_standing.2 ⟨g, ?_, stood⟩))
      rw [← action, State.guardPass, evaluateGuards_getElem]
      split
      · rw [evaluateEntry_config]; rfl
      · rfl
    | false =>
      refine applyTrips_safe k (g := g) (mem_newTrips.2 ⟨?_, action.symm⟩)
      rw [State.guardPass, evaluateGuards_getElem] at standing
      rw [evaluateGuards_getElem]
      split at standing
      · next evaluated => rw [if_pos evaluated]; exact evaluateEntry_stands stood standing
      · rw [stood] at standing; cases standing
  · rcases hold c with examined | free | ⟨unevaluated, stands⟩
    · exact .inl examined
    · exact .inr (.inr (tripped.unguarded c free))
    · refine .inr (.inl ?_)
      obtain ⟨g, action, standing⟩ := anyStanding_iff_standing.1 stands
      have same : (evaluateGuards s which)[c][g] = s.guards[c][g] := by
        rw [evaluateGuards_getElem, unevaluated g]; rfl
      exact anyStanding_iff_standing.2 ⟨g, by rw [same]; exact action, by rw [same]; exact standing⟩

end Sys2Proof.Machine
end

/-! ### Every command keeps the guards acting (R65, R75, R109 to R111) -/
section
namespace Sys2Proof.Machine

/-- A safe part whose guards act on what stands. -/
structure State.Acting (s : State) : Prop where
  sound : s.Safe
  obeys : s.plant.Obeys s.guards

/-- An operation that leaves the actions and states of the guard entries, the chambers that are SAFE so, and adds no GUARD. -/
structure State.Heeds (s t : State) : Prop where
  guards : GuardsAlike s.guards t.guards
  plant : s.plant.Heeds t.plant

namespace State.Heeds

variable {s t u : State} {r : Request}

theorem refl (s : State) : s.Heeds s := ⟨fun _ _ => ⟨rfl, rfl⟩, .refl _⟩

theorem trans (h : s.Heeds t) (k : t.Heeds u) : s.Heeds u :=
  ⟨fun c g => ⟨(k.guards c g).1.trans (h.guards c g).1, (k.guards c g).2.trans (h.guards c g).2⟩, h.plant.trans k.plant⟩

theorem of_same (guards : t.guards = s.guards) (engines : t.plant.engines = s.plant.engines) : s.Heeds t :=
  ⟨fun c g => by rw [guards]; exact ⟨rfl, rfl⟩, .of_engines engines⟩

theorem of_plant (guards : t.guards = s.guards) (plant : s.plant.Heeds t.plant) : s.Heeds t :=
  ⟨(of_same (t := { s with guards := t.guards }) guards rfl).guards, plant⟩

theorem onPlant {f : Ctx → Plant → Plant} (plant : s.plant.Heeds (f s.ctx s.plant)) : s.Heeds (s.onPlant f) :=
  of_plant rfl plant

theorem setChannel (s : State) (c : Chamber) (h : Chan) (ch : Channel) : s.Heeds (s.setChannel c h ch) := of_same rfl rfl
theorem setStep (s : State) (i : Fin 512) (record : StepRecord) : s.Heeds (s.setStep i record) := of_same rfl rfl
theorem setLevel (s : State) (c : Chamber) (table : LevelTable) : s.Heeds (s.setLevel c table) := of_same rfl rfl
theorem setArbiter (s : State) (a : Arbiter) : s.Heeds (s.setArbiter a) := of_same rfl rfl

/-- The entries of a chamber changed in neither their action nor their state. -/
theorem mapGuards (c : Chamber) {f : GuardEntry → GuardEntry}
    (hf : ∀ e, (f e).config.action = e.config.action ∧ (f e).state = e.state) : s.Heeds (s.mapGuards c f) := by
  refine ⟨fun d g => ?_, .refl _⟩
  by_cases hd : c = d
  · subst hd
    simpa [State.mapGuards] using hf _
  · have apart : c.val ≠ d.val := fun hv => hd (Fin.ext hv)
    simp [State.mapGuards, apart]

theorem setGuard_lapse (s : State) (c : Chamber) (g : GuardIndex) (lapse : Option Nat) :
    s.Heeds (s.setGuard c g { s.guardEntry c g with lapse := lapse }) := by
  refine ⟨fun d k => ?_, .refl _⟩
  have entry : (s.setGuard c g { s.guardEntry c g with lapse := lapse }).guards[d][k] =
      if c = d ∧ g = k then { s.guardEntry c g with lapse := lapse } else s.guards[d][k] :=
    State.guardEntry_setGuard s c d g k _
  rw [entry]
  split
  · next at_ => rw [← at_.1, ← at_.2]; exact ⟨rfl, rfl⟩
  · exact ⟨rfl, rfl⟩

/-! #### Frames, cycles and the ring -/

theorem evaluateConditions (sound : s.Safe) (running : Chamber → Bool) : s.Heeds (s.evaluateConditions running) := by
  refine onPlant (Plant.Heeds.forEach (fun c k => ?_) (fun c k => ?_) (State.safe_iff.1 sound) chambers)
  · split
    · exact k.evaluateCondition
    · exact k
  · split
    · exact .evaluateCondition k.safeRests c
    · exact .refl _

theorem loseRing (sound : s.Safe) : s.Heeds s.loseRing := by
  unfold State.loseRing
  dsimp only
  refine trans (t := { s.notifyRing ringLostSlot 0 with
    ring := { (s.notifyRing ringLostSlot 0).ring.emptyWindow with
      state := .lost, watch := none, openCycle := none } }.drivePermits) (of_same rfl rfl) (onPlant ?_)
  exact Plant.Heeds.forEach (fun _ k => k.loseRing) (fun c k => .loseRing k.safeRests c)
    (State.safe_iff.1 ((sound.notifyRing ringLostSlot 0).drivePermits _)) chambers

theorem arrival (s : State) : s.Heeds s.arrival := by
  unfold State.arrival
  dsimp only
  split <;> split <;> exact of_same rfl rfl

theorem carry (s : State) (c : Chamber) (h : Chan) (v : Nat) : s.Heeds (s.carry c h v) := by
  unfold State.carry
  dsimp only
  split
  · exact refl s
  · refine (setChannel s c h _).trans (mapGuards c fun e => ?_)
    split <;> exact ⟨rfl, rfl⟩

theorem substituteSlot {a : Passage} (rests : a.state.plant.SafeRests) (engines : Vector Engine 4) (k : Nat) (slot : Slot) :
    a.state.Heeds (Machine.substituteSlot engines k slot a).2.state := by
  unfold Machine.substituteSlot
  split
  · split
    · rw [Passage.computeSlot_eq]
      exact (onPlant (f := fun _ _ => a.plantAfter engines _ _ slot) (.computed rests engines _ _ slot)).trans (carry _ _ _ _)
    · exact refl _
  all_goals exact refl _

theorem substituteSlots (engines : Vector Engine 4) (k : Nat) (slots : List Slot) (a : Passage)
    (sound : a.state.plant.SoundBut noChamber (State.Safe.foundIdle engines) a.state.ring.up) :
    a.state.Heeds (Machine.substituteSlots engines k slots a).2.state := by
  induction slots generalizing k a with
  | nil => exact refl _
  | cons slot rest ih =>
    exact (substituteSlot sound.safeRests engines k slot).trans
      (ih (k + 1) _ (State.Safe.substituteSlots engines k [slot] a sound))

theorem substitute (sound : s.Safe) (slots : List Slot) : s.Heeds (s.substitute slots).2 := by
  have k := State.safe_iff.1 sound
  exact substituteSlots s.plant.engines 0 slots { state := s, remaining := s.plant.arbiter.allowance }
    ⟨k.out, k.budget, k.growth, k.queue, k.holder, k.cells, k.permits, k.notices, fun _ idle => ⟨id, idle⟩, k.settled⟩

/-! #### Writes and CHECKs -/

theorem writeSlotMap (s : State) : s.Heeds (Machine.writeSlotMap r s).1 := by
  unfold Machine.writeSlotMap
  repeat' split
  all_goals exact of_same rfl rfl

theorem storeChannel (sound : s.Safe) (c : Chamber) (h : Chan) (record : ChannelRecord) :
    s.Heeds (s.storeChannel c h record) := by
  have stored := setChannel s c h ⟨record, freshStatus record s.now⟩
  by_cases rough : (s.channel c h).record.kind = .roughValve ∨ record.kind = .roughValve
  · rw [State.storeChannel_rough rough]
    have ends := onPlant (s := s.setChannel c h ⟨record, freshStatus record s.now⟩)
      (f := fun x p => endIdleClaim x (expireNow x) c p) (.endIdleClaim (State.safe_iff.1 sound).safeRests c)
    exact (stored.trans ends).trans
      (mapGuards c fun _ => ⟨by rfl, by rfl⟩)
  · rw [State.storeChannel_other rough]
    exact stored.trans (mapGuards c fun _ => ⟨by rfl, by rfl⟩)

theorem writeChannel (sound : s.Safe) : s.Heeds (Machine.writeChannel r s).1 := by
  unfold Machine.writeChannel
  split
  · exact refl s
  · split
    · split
      · exact refl s
      · split
        · exact refl s
        · dsimp only
          split
          · exact refl s
          · split
            · exact refl s
            · split
              · exact refl s
              · exact storeChannel sound _ _ _
    · exact refl s

theorem writeStep (s : State) : s.Heeds (Machine.writeStep r s).1 := by
  unfold Machine.writeStep
  repeat' split
  all_goals exact of_same rfl rfl

theorem writeLevel (s : State) : s.Heeds (Machine.writeLevel r s).1 := by
  unfold Machine.writeLevel
  dsimp only
  repeat' split
  all_goals exact of_same rfl rfl

theorem writeInput (s : State) : s.Heeds (Machine.writeInput r s).1 := by
  unfold Machine.writeInput
  repeat' split
  all_goals exact of_same rfl rfl

theorem examineGrowth {a : Arbiter} (sound : (s.setArbiter a).Safe) : s.Heeds (s.setArbiter a).examineGrowth :=
  (setArbiter s a).trans (onPlant (.examineGrowth (State.safe_iff.1 sound).safeRests))

theorem writeArbiter (sound : s.Safe) : s.Heeds (Machine.writeArbiter r s).1 := by
  unfold Machine.writeArbiter
  dsimp only
  split
  · exact refl s
  · split
    · exact refl s
    · split
      · split
        · split <;> exact of_same rfl rfl
        · split
          · exact refl s
          · next idle =>
            split
            · exact refl s
            · exact examineGrowth (State.Safe.setAllowance sound (not_not.1 idle) (by omega))
      · split
        · exact of_same rfl rfl
        · split
          · exact refl s
          · next fits =>
            exact examineGrowth ⟨⟨sound.budget.1, not_lt.1 fits⟩, sound.growth, sound.queue, sound.holder, sound.cells,
              sound.permits, sound.notices, sound.settled⟩

theorem writeRing (s : State) : s.Heeds (Machine.writeRing r s).1 := by
  unfold Machine.writeRing
  dsimp only
  repeat' split
  all_goals exact of_same rfl rfl

theorem writeNotice (s : State) : s.Heeds (Machine.writeNotice r s).1 := by
  unfold Machine.writeNotice
  dsimp only
  repeat' split
  all_goals exact of_same rfl rfl

theorem checkRecords (n i passed : Nat) (s : State) : s.Heeds (Machine.checkRecords n i passed s).1 := by
  induction n generalizing i passed s with
  | zero => exact refl s
  | succ n ih =>
    unfold Machine.checkRecords
    split
    · dsimp only
      split
      · exact refl s
      · split
        · exact refl s
        · exact (setStep s _ _).trans (ih _ _ _)
    · exact refl s

theorem checkLevelTables (n i passed : Nat) (s : State) : s.Heeds (Machine.checkLevelTables n i passed s).1 := by
  induction n generalizing i passed s with
  | zero => exact refl s
  | succ n ih =>
    unfold Machine.checkLevelTables
    split
    · dsimp only
      split
      · exact refl s
      · exact (setLevel s _ _).trans (ih _ _ _)
    · exact refl s

theorem checkTable (table : Nat) (s : State) : s.Heeds (Machine.checkTable table r s).1 := by
  unfold Machine.checkTable checkSteps checkLevels
  dsimp only
  split
  · split
    · exact refl s
    · exact checkRecords _ _ _ s
  · split
    · exact refl s
    · exact checkLevelTables _ _ _ s
  · exact refl s

/-! #### Chamber commands other than CLEAR, and ASSIGN -/

theorem startChamber (sound : s.Safe) (first : Nat) (c : Chamber) : s.Heeds (Machine.startChamber first c s).1 := by
  unfold Machine.startChamber
  split
  · exact refl s
  · next idle =>
    split
    · exact refl s
    · exact of_plant rfl (.startEngine (State.safe_iff.1 sound).safeRests (not_not.1 idle) first _)

theorem holdChamber (sound : s.Safe) (c : Chamber) : s.Heeds (Machine.holdChamber c s).1 := by
  have held : s.plant.Heeds (addSource s.ctx (expireNow s.ctx) c .controller false s.plant) :=
    .addSource (State.safe_iff.1 sound).safeRests c (by simp) false
  unfold Machine.holdChamber
  split
  iterate 3 exact of_plant rfl held
  all_goals exact refl s

/-- The mode a RESUME stores changes nothing that its removal of sources rests on. -/
theorem resumeChamber (sound : s.Safe) (mode : Nat) (c : Chamber) : s.Heeds (Machine.resumeChamber mode c s).1 := by
  unfold Machine.resumeChamber
  split
  · exact refl s
  · next held =>
    have held : (s.plant.engine c).state = .held := not_not.1 held
    split
    · exact refl s
    · next m _ =>
      have stored : s.plant.Heeds (storeMode c m s.plant) := .setEngine rfl rfl
      have same : ((storeMode c m s.plant).engine c) =
          { s.plant.engine c with hold := (s.plant.engine c).hold.map fun h => { h with mode := m } } :=
        Plant.engine_setEngine_self _ _ _
      have rests : (storeMode c m s.plant).SafeRests := fun d safe => by
        refine (State.safe_iff.1 sound).safeRests d ?_
        by_cases hd : c = d
        · rw [← hd, same, held] at safe; cases safe
        · rwa [storeMode, Plant.engine_setEngine_ne _ _ hd] at safe
      exact of_plant rfl (stored.trans (.removeSources rests (by rw [same]; exact held) (by rw [same]; exact id)))

theorem abortChamber (sound : s.Safe) (c : Chamber) : s.Heeds (Machine.abortChamber c s).1 := by
  by_cases safe : (s.engine c).state = .safe
  · rw [abortChamber_wrongState (.inr safe)]
    exact refl s
  · by_cases idle : (s.engine c).state = .idle
    · rw [abortChamber_wrongState (.inl idle)]
      exact refl s
    · rw [abortChamber_aborts idle safe]
      exact of_plant rfl (.abortEngine (State.safe_iff.1 sound).safeRests safe)

theorem releaseChamber (sound : s.Safe) (c : Chamber) : s.Heeds (Machine.releaseChamber c s).1 := by
  by_cases done : (s.engine c).state = .done
  · rw [releaseChamber_releases done]
    exact of_plant rfl (.releaseEngine (State.safe_iff.1 sound).safeRests done)
  · rw [releaseChamber_wrongState done]
    exact refl s

theorem commandAssign (s : State) : s.Heeds (Machine.commandAssign r s).1 := by
  unfold Machine.commandAssign
  dsimp only
  split <;> exact of_same rfl rfl

end State.Heeds

/-- A part with every engine at its initial values and no ring, as a soft reset leaves it before its evaluation (R164). -/
theorem State.Safe.restarted {s : State} (h : s.Safe) (guards : Vector (Vector GuardEntry 16) 4) (responses : List Response) :
    ({ s with
      plant :=
        { engines := Vector.replicate 4 {}, arbiter := s.plant.arbiter.softReset
          notices := s.plant.notices.map NoticeSlot.softReset, permits := Vector.replicate 4 false }
      guards := guards, ring := s.ring.softReset, responses := responses } : State).Safe := by
  refine ⟨⟨fun _ => le_rfl, le_trans ?_ h.budget.2⟩, ⟨List.nodup_nil, fun _ hg => nomatch hg⟩,
    ⟨List.nodup_nil, fun _ hc => (nomatch hc), fun _ => rfl, fun _ hl => nomatch hl⟩, fun _ hl => (nomatch hl), fun c => ?_,
    fun c => ?_, fun i => ?_, fun _ _ => rfl⟩
  · exact List.sum_le_sum fun c _ => h.budget.1 c
  · simpa [Plant.engine] using Engine.Consistent.initial
  · simp [Ring.softReset, Ring.up, permitLevel]
  · simpa [NoticeSlot.softReset] using (h.notices i).1

namespace State.Acting

variable {s t : State} {r : Request}

theorem heeds (h : s.Acting) (sound : t.Safe) (k : s.Heeds t) : t.Acting :=
  ⟨sound, (h.obeys.heeds k.plant).alike k.guards⟩

/-- An operation on nothing that guards and safety speak of. -/
theorem of_same (h : s.Acting) (guards : t.guards = s.guards) (plant : t.plant = s.plant) (ring : t.ring.up = s.ring.up) :
    t.Acting := h.heeds (h.sound.congr plant ring) (.of_same guards (by rw [plant]))

/-! #### The guard unit -/

/-- The evaluation of any entries, with every hold demand examined. -/
theorem guardPass (h : s.Acting) (which : Chamber → GuardIndex → Bool) : (s.guardPass which chambers).Acting :=
  ⟨h.sound.guardPass _ _, h.sound.guardPass_obeys h.obeys.safe fun c => .inl (mem_chambers c)⟩

theorem acceptLevel (h : s.Acting) (l : Line) : (s.acceptLevel l).Acting :=
  (h.of_same (t := s.setInput l _) rfl rfl rfl).guardPass _

theorem changeLevel (h : s.Acting) (l : Line) (high : Bool) : (s.changeLevel l high).Acting := by
  have set : ∀ i, (s.setInput l i).Acting := fun _ => h.of_same rfl rfl rfl
  unfold State.changeLevel
  dsimp only
  split
  · exact h
  · split
    · exact set _
    · split
      · exact set _
      · split
        · exact (set _).acceptLevel l
        · exact set _

/-- A rewritten entry stands no longer, and its chamber's hold demand is examined (R100). -/
theorem storeGuard (h : s.Acting) (c : Chamber) (g : GuardIndex) (k : GuardConfig) : (s.storeGuard c g k).Acting := by
  refine ⟨h.sound.storeGuard c g k, ?_⟩
  have sound : (s.setGuard c g { config := k, lapse := deriveGrace s.ctx c { config := k } }).Safe := h.sound
  have entry : ∀ (d : Chamber) (j : GuardIndex),
      (s.setGuard c g { config := k, lapse := deriveGrace s.ctx c { config := k } }).guards[d][j] =
        if c = d ∧ g = j then { config := k, lapse := deriveGrace s.ctx c { config := k } } else s.guards[d][j] :=
    fun d j => State.guardEntry_setGuard s c d g j _
  refine sound.guardPass_obeys (fun d stands => h.obeys.safe d ?_) fun d => ?_
  · obtain ⟨j, action, standing⟩ := anyStanding_iff_standing.1 stands
    rw [entry] at action standing
    split at standing
    · cases standing
    · next other =>
      rw [if_neg other] at action
      exact anyStanding_iff_standing.2 ⟨j, action, standing⟩
  · by_cases hd : c = d
    · exact .inl (by simp [hd])
    · refine .inr ((h.obeys.hold d).symm.imp_right fun stands => ⟨fun j => by simp [Ne.symm hd], ?_⟩)
      obtain ⟨j, action, standing⟩ := anyStanding_iff_standing.1 stands
      have same := (entry d j).trans (if_neg fun at_ => hd at_.1)
      exact anyStanding_iff_standing.2 ⟨j, by rw [same]; exact action, by rw [same]; exact standing⟩

theorem writeGuard (h : s.Acting) : (Machine.writeGuard r s).1.Acting := by
  unfold Machine.writeGuard
  split
  · exact h
  · split
    · split
      · exact h
      · split
        · exact h
        · dsimp only
          split
          · exact h
          · split
            · exact h
            · exact h.storeGuard _ _ _
    · exact h

/-- After a soft reset no engine is HELD, and nothing stands but what its INPUT entries find (R115, R164). -/
theorem softReset (h : s.Acting) : s.softReset.Acting := by
  refine ⟨h.sound.softReset, ?_⟩
  unfold State.softReset
  dsimp only
  refine State.Safe.guardPass_obeys (h.sound.restarted _ _) (fun c stands => ?_) fun c => .inr (.inl ?_)
  · obtain ⟨g, -, standing⟩ := anyStanding_iff_standing.1 stands
    simp [GuardState.standing] at standing
  · simp [Plant.Unguarded, Plant.engine]

/-! #### Chamber commands -/

/-- CLEAR is refused while a SAFE-action entry stands (R65). -/
theorem clearChamber (h : s.Acting) (c : Chamber) : (Machine.clearChamber c s).1.Acting := by
  refine ⟨h.sound.clearChamber c, ?_⟩
  by_cases safe : (s.engine c).state = .safe
  · cases stands : anyStanding s.guards[c] .safe with
    | true => rw [clearChamber_stillTripped safe stands]; exact h.obeys
    | false =>
      rw [clearChamber_clears safe stands]
      refine ⟨fun d standing => ?_, fun d => (h.obeys.hold d).imp_right fun free => free.sameSources c _ (by rfl)⟩
      have ne : c ≠ d := fun hd => by
        rw [← hd, stands] at standing
        cases standing
      rw [Plant.setPermit_engine, Plant.engine_setEngine_ne _ _ ne]
      exact h.obeys.safe d standing
  · rw [clearChamber_wrongState safe]
    exact h.obeys

theorem overMask (h : s.Acting) {act : ChamberStep} (hact : ∀ {s : State} c, s.Acting → (act c s).1.Acting)
    (cs : List Chamber) (t : MaskTally) : (Machine.overMask r act cs s t).1.Acting := by
  induction cs generalizing s t with
  | nil => exact h
  | cons c rest ih =>
    unfold Machine.overMask
    split
    · dsimp only
      split
      · exact ih (hact c h) _
      · exact ih (hact c h) _
    · exact ih h _

theorem chamberCommand (h : s.Acting) {act : ChamberStep} (hact : ∀ {s : State} c, s.Acting → (act c s).1.Acting) :
    (Machine.chamberCommand act r s).1.Acting := by
  unfold Machine.chamberCommand
  split
  · exact h
  · exact h.overMask hact _ _

theorem commandStart (h : s.Acting) : (Machine.commandStart r s).1.Acting :=
  h.chamberCommand fun c k => k.heeds (k.sound.startChamber _ c) (.startChamber k.sound _ c)

theorem commandHold (h : s.Acting) : (Machine.commandHold r s).1.Acting :=
  h.chamberCommand fun c k => k.heeds (k.sound.holdChamber c) (.holdChamber k.sound c)

theorem commandResume (h : s.Acting) : (Machine.commandResume r s).1.Acting :=
  h.chamberCommand fun c k => k.heeds (k.sound.resumeChamber _ c) (.resumeChamber k.sound _ c)

theorem commandAbort (h : s.Acting) : (Machine.commandAbort r s).1.Acting :=
  h.chamberCommand fun c k => k.heeds (k.sound.abortChamber c) (.abortChamber k.sound c)

theorem commandRelease (h : s.Acting) : (Machine.commandRelease r s).1.Acting :=
  h.chamberCommand fun c k => k.heeds (k.sound.releaseChamber c) (.releaseChamber k.sound c)

theorem commandClear (h : s.Acting) : (Machine.commandClear r s).1.Acting := h.chamberCommand fun c k => k.clearChamber c

/-! #### Records taken -/

theorem writeTable (h : s.Acting) (table : Nat) : (Machine.writeTable table r s).1.Acting := by
  unfold Machine.writeTable
  split
  · exact h.heeds h.sound.writeSlotMap (.writeSlotMap s)
  · exact h.heeds h.sound.writeChannel (.writeChannel h.sound)
  · exact h.heeds h.sound.writeStep (.writeStep s)
  · exact h.writeGuard
  · exact h.heeds h.sound.writeLevel (.writeLevel s)
  · exact h.heeds h.sound.writeInput (.writeInput s)
  · exact h.heeds h.sound.writeArbiter (.writeArbiter h.sound)
  · exact h.heeds h.sound.writeRing (.writeRing s)
  · exact h.heeds h.sound.writeNotice (.writeNotice s)
  · exact h

theorem checkTable (h : s.Acting) (table : Nat) : (Machine.checkTable table r s).1.Acting :=
  h.heeds (h.sound.checkTable table) (.checkTable table s)

theorem commandLock (h : s.Acting) : (Machine.commandLock s).1.Acting := h.of_same rfl rfl rfl

theorem commandAssign (h : s.Acting) : (Machine.commandAssign r s).1.Acting :=
  h.heeds h.sound.commandAssign (.commandAssign s)

theorem commandOf (h : s.Acting) (code table : Nat) : (Machine.commandOf code table r s).1.Acting := by
  unfold Machine.commandOf
  split
  · exact h
  · exact h.writeTable table
  · exact h.checkTable table
  · exact h.commandStart
  · exact h.commandHold
  · exact h.commandResume
  · exact h.commandAbort
  · exact h.commandRelease
  · exact h.commandClear
  · exact h.commandLock
  · exact h.commandAssign

theorem takeRecord (h : s.Acting) (code : Nat) {command : State → State × Answer} (taken : (command s).1.Acting) :
    (s.takeRecord code r command).Acting := by
  unfold State.takeRecord
  split
  · exact taken.of_same (t := s.takeWith code r command) rfl rfl rfl
  · exact h

theorem broadcast (h : s.Acting) (code : Nat) : (s.broadcast code r).Acting := by
  unfold State.broadcast
  split
  · exact h
  · split
    · exact h.commandHold
    · split
      · exact h.commandResume
      · split
        · exact h.commandAbort
        · exact h

theorem takeEntry (h : s.Acting) (entry : List Byte) : (Machine.takeEntry entry s).1.Acting := by
  unfold Machine.takeEntry
  dsimp only
  split
  · exact h
  · split
    · exact h.broadcast _
    · split
      · exact h
      · split
        · exact h.softReset
        · split
          · exact (h.commandOf _ _).of_same rfl rfl rfl
          · exact h

theorem takeMailbox (h : s.Acting) (entries : List (List Byte)) : (Machine.takeMailbox entries s).2.Acting := by
  induction entries generalizing s with
  | nil => exact h
  | cons entry rest ih => exact ih (h.takeEntry entry)

/-! #### Frames -/

theorem closeCycle (h : s.Acting) (slots : List Slot) : (s.closeCycle slots).Acting := by
  have evaluated := (h.of_same (t := s.takeReadings slots) rfl rfl rfl).guardPass fun _ _ => true
  exact evaluated.heeds (h.sound.closeCycle slots) (.evaluateConditions evaluated.sound _)

theorem overrun (h : s.Acting) : s.overrun.Acting := by
  unfold State.overrun
  split
  · exact h.closeCycle []
  · exact h

theorem takeOutbound (h : s.Acting) (f : Frame) : (s.takeOutbound f).1.Acting := by
  have opened := ((h.heeds h.sound.arrival (.arrival s)).overrun).of_same (t := s.arrival.overrun.openCycleWith f.cycle.toNat)
    rfl rfl rfl
  exact (opened.heeds (opened.sound.substitute f.slots) (.substitute opened.sound f.slots)).takeMailbox f.mailbox

theorem matchReturn (h : s.Acting) (f : Frame) : (s.matchReturn f).Acting := by
  unfold State.matchReturn
  split
  · exact (h.closeCycle f.slots).of_same rfl rfl rfl
  · exact h

theorem takeReturn (h : s.Acting) (f : Frame) : (s.takeReturn f).1.Acting :=
  (h.matchReturn f).heeds (h.sound.takeReturn f) (.of_same rfl rfl)

theorem outboundPassage (h : s.Acting) (time : Nat) (bytes : List Byte) (ht : execOutboundPassage time bytes s = .next t) :
    t.Acting := by
  have moved : (s.advanceTo time).Acting := h.of_same rfl rfl rfl
  unfold execOutboundPassage at ht
  injection ht with ht
  subst ht
  split
  · exact h.of_same rfl rfl rfl
  · split
    · exact moved.of_same rfl rfl rfl
    · exact moved.of_same rfl rfl rfl
    · next f _ => exact (moved.takeOutbound f).of_same rfl rfl rfl

theorem returnPassage (h : s.Acting) (time : Nat) (bytes : List Byte) (ht : execReturnPassage time bytes s = .next t) :
    t.Acting := by
  have moved : (s.advanceTo time).Acting := h.of_same rfl rfl rfl
  unfold execReturnPassage at ht
  injection ht with ht
  subst ht
  split
  · exact h.of_same rfl rfl rfl
  · split
    · exact moved.of_same rfl rfl rfl
    · exact moved.of_same rfl rfl rfl
    · next f _ => exact (moved.takeReturn f).of_same rfl rfl rfl

/-! #### The events between frames -/

/-- An event of the engines and the arbiter, at a time of its own. -/
theorem event (h : s.Acting) (time : Nat) {f : Ctx → Plant → Plant}
    (sound : s.plant.SoundBut noChamber noChamber s.ring.up →
      (f (s.advanceTo time).ctx s.plant).SoundBut noChamber noChamber s.ring.up)
    (heeds : s.plant.Heeds (f (s.advanceTo time).ctx s.plant)) : ((s.advanceTo time).onPlant f).Acting :=
  (h.of_same (t := s.advanceTo time) rfl rfl rfl).heeds ((show (s.advanceTo time).Safe from h.sound).onPlant sound)
    (.onPlant heeds)

theorem growthServed (h : s.Acting) (c : Chamber) (ht : execGrowthServed c s = .next t) : t.Acting := by
  unfold execGrowthServed at ht
  injection ht with ht
  subst ht
  split
  · exact h
  · split
    · exact h.heeds h.sound.examineGrowth (.onPlant (.examineGrowth (State.safe_iff.1 h.sound).safeRests))
    · exact h

theorem lineGranted (h : s.Acting) (c : Chamber) (ht : execLineGranted c s = .next t) : t.Acting := by
  unfold execLineGranted at ht
  injection ht with ht
  subst ht
  split
  · exact h
  · next time _ =>
    split
    · next chosen =>
      exact h.event time (fun q => q.grantLine (expireNow_keeps _ _) (Plant.chosen_mem chosen))
        (.grantLine (State.safe_iff.1 h.sound).safeRests (Plant.chosen_mem chosen))
    · exact h

theorem dwellExpiry (h : s.Acting) (c : Chamber) (ht : execDwellExpiry c s = .next t) : t.Acting := by
  unfold execDwellExpiry at ht
  injection ht with ht
  subst ht
  split
  · exact h
  · next time _ =>
    split
    · next running =>
      exact h.event time (fun q => q.dwellEnds (expireNow_keeps _ _) id)
        (.dwellEnds (State.safe_iff.1 h.sound).safeRests running)
    · exact h

theorem settleExpiry (h : s.Acting) (ht : execSettleExpiry s = .next t) : t.Acting := by
  unfold execSettleExpiry at ht
  injection ht with ht
  subst ht
  split
  · next time _ =>
    exact h.event time (fun q => q.selectLine (expireNow_keeps _ _)) (.selectLine (State.safe_iff.1 h.sound).safeRests)
  · exact h
  · exact h

theorem ringWatchExpiry (h : s.Acting) (ht : execRingWatchExpiry s = .next t) : t.Acting := by
  unfold execRingWatchExpiry at ht
  injection ht with ht
  subst ht
  split
  · exact h
  · next time _ =>
    split
    · have moved : (s.advanceTo time).Acting := h.of_same rfl rfl rfl
      exact moved.heeds moved.sound.loseRing (.loseRing moved.sound)
    · exact h

theorem inputLevelChange (h : s.Acting) (time : Nat) (l : Line) (high : Bool)
    (ht : execInputLevelChange time l high s = .next t) : t.Acting := by
  unfold execInputLevelChange at ht
  injection ht with ht
  subst ht
  split
  · exact h.of_same rfl rfl rfl
  · exact (h.of_same (t := s.advanceTo time) rfl rfl rfl).changeLevel l high

theorem inputAcceptance (h : s.Acting) (l : Line) (ht : execInputAcceptance l s = .next t) : t.Acting := by
  unfold execInputAcceptance at ht
  injection ht with ht
  subst ht
  split
  · exact h
  · next time _ => exact (h.of_same (t := s.advanceTo time) rfl rfl rfl).acceptLevel l

theorem graceLapse (h : s.Acting) (c : Chamber) (g : GuardIndex) (ht : execGraceLapse c g s = .next t) : t.Acting := by
  unfold execGraceLapse at ht
  injection ht with ht
  subst ht
  split
  · exact h
  · next time _ =>
    exact (h.of_same (t := s.advanceTo time) rfl rfl rfl).heeds h.sound (.setGuard_lapse (s.advanceTo time) c g none)

theorem powerOn (s : State) : s.powerOn.Acting :=
  ⟨.powerOn s, show State.reset.plant.Obeys State.reset.guards from State.guardsAct_iff.1 State.GuardsAct.reset⟩

/-- Every command. -/
theorem exec (h : s.Acting) : ∀ i : Instr, exec i s = .next t → t.Acting
  | .outboundPassage time bytes, ht => h.outboundPassage time bytes ht
  | .returnPassage time bytes, ht => h.returnPassage time bytes ht
  | .read _ _, rfl => h.takeRecord _ h
  | .write table _, rfl => h.takeRecord _ (h.writeTable table.toNat)
  | .slotMapWrite _, rfl => h.takeRecord _ (h.writeTable 1)
  | .channelWrite _, rfl => h.takeRecord _ (h.writeTable 2)
  | .stepWrite _, rfl => h.takeRecord _ (h.writeTable 3)
  | .guardWrite _, rfl => h.takeRecord _ (h.writeTable 4)
  | .levelWrite _, rfl => h.takeRecord _ (h.writeTable 5)
  | .inputWrite _, rfl => h.takeRecord _ (h.writeTable 6)
  | .arbiterWrite _, rfl => h.takeRecord _ (h.writeTable 7)
  | .ringWrite _, rfl => h.takeRecord _ (h.writeTable 8)
  | .noticeWrite _, rfl => h.takeRecord _ (h.writeTable 9)
  | .stepCheck _, rfl => h.takeRecord _ (h.checkTable 3)
  | .levelCheck _, rfl => h.takeRecord _ (h.checkTable 5)
  | .checkNoObject table _, rfl => h.takeRecord _ (h.checkTable table.toNat)
  | .start _, rfl => h.takeRecord _ h.commandStart
  | .hold _, rfl => h.takeRecord _ h.commandHold
  | .resume _, rfl => h.takeRecord _ h.commandResume
  | .abort _, rfl => h.takeRecord _ h.commandAbort
  | .release _, rfl => h.takeRecord _ h.commandRelease
  | .clear _, rfl => h.takeRecord _ h.commandClear
  | .lock _, rfl => h.takeRecord _ h.commandLock
  | .assign _, rfl => h.takeRecord _ h.commandAssign
  | .restartPart _, rfl => by split; exacts [h.softReset, h]
  | .broadcast command _, rfl => h.broadcast command.toNat
  | .growthServed c, ht => h.growthServed c ht
  | .lineGranted c, ht => h.lineGranted c ht
  | .dwellExpiry c, ht => h.dwellExpiry c ht
  | .settleExpiry, ht => h.settleExpiry ht
  | .ringWatchExpiry, ht => h.ringWatchExpiry ht
  | .inputLevelChange time l high, ht => h.inputLevelChange time l high ht
  | .inputAcceptance l, ht => h.inputAcceptance l ht
  | .graceLapse c g, ht => h.graceLapse c g ht
  | .powerOnReset _, rfl => by split; exacts [powerOn s, h]
  | .resetEnd, rfl => by split; exacts [h.of_same rfl rfl rfl, h]

end State.Acting

/-- Settles O6: an empty queue idles, and every command keeps the guards acting. -/
theorem stepKeepsGuardsActing : Obligations.StepKeepsGuardsActing := by
  intro s t sound acts ht
  unfold step at ht
  split at ht
  · injection ht with ht
    exact ht ▸ acts
  · next i rest _ =>
    have acting : ({ s with pending := rest } : State).Acting :=
      ⟨sound, show s.plant.Obeys s.guards from State.guardsAct_iff.1 acts⟩
    exact State.guardsAct_iff.2 (acting.exec i ht).obeys

end Sys2Proof.Machine
end

/-! ### The reset line, the filters of the input lines and the graces (R107, R112 to R115, R152) -/
section
namespace Sys2Proof.Machine

/-! #### Reset -/

theorem execPowerOnReset_asserted {cause : ResetCause} (h : cause.asserts = true) (s : State) :
    execPowerOnReset cause s = .next s.powerOn := by
  rw [execPowerOnReset, if_pos h]

theorem execPowerOnReset_ignored {cause : ResetCause} (h : cause.asserts = false) (s : State) :
    execPowerOnReset cause s = .next s := by
  rw [execPowerOnReset, if_neg (ne_true_of_eq_false h)]

/-- The notice slots of Table 10-1, by the residue of the slot number. -/
theorem noticeDefaults_getElem (i : NoticeIndex) : noticeDefaults[i] =
    { cls := if i.val = 24 then 3 else if 24 < i.val then 1 else match i.val % 6 with
        | 0 => 1
        | 1 | 3 | 5 => 2
        | _ => 3
      enabled := true, pending := false, merge := 0, detail := 0, cycle := 0 } := by
  revert i; decide

theorem State.powerOn_input (s : State) (l : Line) : s.powerOn.input l = { raw := (s.input l).raw } := by
  simp [State.input, State.powerOn]

/-- Settles O42: the reset line from both sides of 10 µs, and the values of the reset state read off. -/
theorem resetLineRestores : Obligations.ResetLineRestores := by
  refine ⟨fun s => ⟨rfl, fun t long => ?_, fun t short => ?_, fun l => ?_, fun reset => ?_, fun acts => ?_⟩,
    rfl, rfl, rfl, rfl, rfl, rfl, rfl, rfl, rfl, rfl, fun c => ?_, noticeDefaults_getElem⟩
  · exact execPowerOnReset_asserted (cause := .lineLow t) (decide_eq_true long) s
  · exact execPowerOnReset_ignored (cause := .lineLow t) (decide_eq_false (not_le.2 short)) s
  · have input := State.powerOn_input s l
    have filter := congrArg InputLine.filter input
    have timer := congrArg InputLine.timer input
    have raw := congrArg InputLine.raw input
    exact ⟨filter, timer, raw⟩
  · exact congrArg Host.Outcome.next (if_pos reset)
  · exact congrArg Host.Outcome.next (if_neg (ne_true_of_eq_false acts))
  · exact Vector.getElem_replicate c.isLt

/-! #### Filters -/

section
variable {s : State} {l : Line} {high : Bool}

theorem State.changeLevel_same : s.changeLevel l (s.input l).raw = s := if_pos rfl

theorem State.changeLevel_back (change : high ≠ (s.input l).raw) (back : high = (s.input l).accepted) :
    s.changeLevel l high = s.setInput l { s.input l with raw := high, timer := none } :=
  (if_neg change).trans (if_pos back)

theorem State.changeLevel_away (change : high ≠ (s.input l).raw) (away : high ≠ (s.input l).accepted) :
    s.changeLevel l high =
      if (s.input l).timer.isSome then s.setInput l { s.input l with raw := high }
      else if (s.input l).filter = 0 then (s.setInput l { s.input l with raw := high }).acceptLevel l
      else s.setInput l { s.input l with raw := high, timer := some (s.now + (s.input l).filter * 1000) } :=
  (if_neg change).trans (if_neg away)

theorem State.changeLevel_running (change : high ≠ (s.input l).raw) (away : high ≠ (s.input l).accepted)
    (runs : (s.input l).timer.isSome = true) : s.changeLevel l high = s.setInput l { s.input l with raw := high } :=
  (changeLevel_away change away).trans (if_pos runs)

theorem State.changeLevel_unfiltered (change : high ≠ (s.input l).raw) (away : high ≠ (s.input l).accepted)
    (stopped : (s.input l).timer = none) (unfiltered : (s.input l).filter = 0) :
    s.changeLevel l high = (s.setInput l { s.input l with raw := high }).acceptLevel l :=
  (changeLevel_away change away).trans ((if_neg (by simp [stopped])).trans (if_pos unfiltered))

theorem State.changeLevel_filtered (change : high ≠ (s.input l).raw) (away : high ≠ (s.input l).accepted)
    (stopped : (s.input l).timer = none) (filtered : (s.input l).filter ≠ 0) : s.changeLevel l high =
      s.setInput l { s.input l with raw := high, timer := some (s.now + (s.input l).filter * 1000) } :=
  (changeLevel_away change away).trans ((if_neg (by simp [stopped])).trans (if_neg filtered))

theorem execInputLevelChange_inReset {time : Nat} (reset : s.inReset = true) :
    execInputLevelChange time l high s = .next (s.setInput l { s.input l with raw := high }) :=
  congrArg Host.Outcome.next (if_pos reset)

theorem execInputLevelChange_acting {time : Nat} (acts : s.inReset = false) :
    execInputLevelChange time l high s = .next ((s.advanceTo time).changeLevel l high) :=
  congrArg Host.Outcome.next (if_neg (ne_true_of_eq_false acts))

end

/-- Settles O49, case by case of R113. -/
theorem inputChangeFiltered : Obligations.InputChangeFiltered := by
  refine ⟨fun time l high s reset => execInputLevelChange_inReset reset, fun time l high s acts => ?_⟩
  have becomes : ∀ {t : State}, (s.advanceTo time).changeLevel l high = t →
      exec (.inputLevelChange time l high) s = .next t :=
    fun changed => (execInputLevelChange_acting acts).trans (congrArg Host.Outcome.next changed)
  exact ⟨fun change away stopped => ⟨fun filtered => becomes (State.changeLevel_filtered change away stopped filtered),
      fun unfiltered => becomes (State.changeLevel_unfiltered change away stopped unfiltered)⟩,
    fun change back => becomes (State.changeLevel_back change back),
    fun change away runs => becomes (State.changeLevel_running change away runs)⟩

/-! #### Acceptances and lapses -/

section
variable {s : State} {l : Line} {c : Chamber} {g : GuardIndex}

theorem execInputAcceptance_running {t : Nat} (h : (s.input l).timer = some t) :
    execInputAcceptance l s = .next ((s.advanceTo t).acceptLevel l) := by rw [execInputAcceptance, h]

theorem execInputAcceptance_stopped (h : (s.input l).timer = none) : execInputAcceptance l s = .next s := by
  rw [execInputAcceptance, h]

theorem execGraceLapse_lapses {t : Nat} (h : (s.guardEntry c g).lapse = some t) : execGraceLapse c g s =
    .next ((s.advanceTo t).setGuard c g { s.guardEntry c g with lapse := none }) := by rw [execGraceLapse, h]

theorem execGraceLapse_armed (h : (s.guardEntry c g).lapse = none) : execGraceLapse c g s = .next s := by
  rw [execGraceLapse, h]

/-- A pass whose evaluation is known. -/
theorem State.guardPass_of {which : Chamber → GuardIndex → Bool} {demands : List Chamber}
    {guards : Vector (Vector GuardEntry 16) 4} (evaluated : evaluateGuards s which = guards) : s.guardPass which demands =
      { s with
        guards := guards
        plant := examineDemands s.ctx guards demands (applyTrips s.ctx (newTrips s.guards guards) s.plant) } :=
  evaluated ▸ rfl

theorem watchesLine_iff : watchesLine s l c g = true ↔
    (s.guardEntry c g).config.kind.isInput = true ∧ (s.guardEntry c g).config.source = l := by
  simp [watchesLine]

/-- The evaluation of the entries on a line that has just accepted a level (R114, R115). -/
theorem evaluateGuards_watchesLine (i : InputLine) :
    evaluateGuards (s.setInput l i) (watchesLine (s.setInput l i) l) =
      Vector.ofFn fun c : Fin 4 => Vector.ofFn fun g : Fin 16 =>
        if (s.guardEntry c g).config.kind.isInput = true ∧ (s.guardEntry c g).config.source = l then
          { s.guardEntry c g with
            state := moveInput (inScope s.ctx (s.engine c) g (s.guardEntry c g).config.scope)
              (inputReading i.accepted (s.guardEntry c g).config) (s.guardEntry c g).state }
        else s.guardEntry c g := by
  unfold evaluateGuards
  congr 1; funext c; congr 1; funext g
  split
  · next watches =>
    obtain ⟨input, source⟩ := watchesLine_iff.1 watches
    rw [if_pos ⟨input, source⟩, evaluateEntry_input input, source, State.input_setInput, if_pos rfl]
    rfl
  · next other =>
    exact (if_neg fun watches => other (watchesLine_iff.2 watches)).symm

end

/-- Settles O50: the acceptance is the evaluation of the entries on the line. -/
theorem inputAcceptanceEvaluates : Obligations.InputAcceptanceEvaluates := by
  intro l s t runs at_ guards acted
  have accepts : at_.acceptLevel l =
      { at_.setInput l { s.input l with accepted := (s.input l).raw, timer := none } with
        guards := guards, plant := examineDemands at_.ctx guards chambers acted } :=
    State.guardPass_of (s := at_.setInput l { s.input l with accepted := (s.input l).raw, timer := none })
      (evaluateGuards_watchesLine _)
  exact (execInputAcceptance_running runs).trans (congrArg Host.Outcome.next accepts)

/-- Settles O51: what each event does of a timer that runs and of one that is stopped. -/
theorem graceLapsesAndNothingElse : Obligations.GraceLapsesAndNothingElse := by
  refine ⟨fun c g s => ⟨fun t => execGraceLapse_lapses, execGraceLapse_armed⟩,
    fun l s => ⟨execInputAcceptance_stopped, fun time acts => ?_⟩⟩
  have same := State.changeLevel_same (s := s.advanceTo time) (l := l)
  exact (execInputLevelChange_acting acts).trans (congrArg Host.Outcome.next same)

end Sys2Proof.Machine
end

/-! ### The order of the trips of an evaluation, and the evaluation of a single entry (R103) -/
section
namespace Sys2Proof.Machine

variable {c : Chamber} {g : GuardIndex} {before after : Vector (Vector GuardEntry 16) 4}

theorem guards_ext (h : ∀ (c : Chamber) (g : GuardIndex), before[c][g] = after[c][g]) : before = after :=
  Vector.ext fun c hc => Vector.ext fun g hg => h ⟨c, hc⟩ ⟨g, hg⟩

/-- Chamber by chamber and, of one chamber, entry by entry. -/
def TripBefore (t u : Chamber × GuardIndex × GuardAction) : Prop := t.1 < u.1 ∨ t.1 = u.1 ∧ t.2.1 < u.2.1

theorem TripBefore.ne {t u : Chamber × GuardIndex × GuardAction} (h : TripBefore t u) : t ≠ u := by
  rintro rfl
  rcases h with h | h
  · exact lt_irrefl _ h
  · exact lt_irrefl _ h.2

theorem newTrips_pairwise (before after : Vector (Vector GuardEntry 16) 4) :
    (newTrips before after).Pairwise TripBefore := by
  have chamberOrder : chambers.Pairwise (· < ·) := by decide
  have entryOrder : sixteen.Pairwise (· < ·) := by decide
  unfold newTrips
  rw [List.pairwise_flatMap]
  refine ⟨fun c _ => List.pairwise_filterMap.2 (entryOrder.imp fun lt t ht u hu => ?_),
    chamberOrder.imp fun lt t ht u hu => ?_⟩
  · obtain ⟨-, ⟨⟩⟩ := Option.ite_none_right_eq_some.1 ht
    obtain ⟨-, ⟨⟩⟩ := Option.ite_none_right_eq_some.1 hu
    exact .inr ⟨rfl, lt⟩
  · obtain ⟨_, -, trips⟩ := List.mem_filterMap.1 ht
    obtain ⟨-, ⟨⟩⟩ := Option.ite_none_right_eq_some.1 trips
    obtain ⟨_, -, trips⟩ := List.mem_filterMap.1 hu
    obtain ⟨-, ⟨⟩⟩ := Option.ite_none_right_eq_some.1 trips
    exact .inl lt

theorem newTrips_nodup (before after : Vector (Vector GuardEntry 16) 4) : (newTrips before after).Nodup :=
  (newTrips_pairwise before after).imp TripBefore.ne

/-- An entry that stays as it is does not enter TRIPPED, wherever it is. -/
theorem entersTripped_self (state : GuardState) : entersTripped state state = false := by cases state <;> rfl

/-- When one entry alone has changed, it alone may have tripped. -/
theorem newTrips_single (other : ∀ (d : Chamber) (j : GuardIndex), ¬(c = d ∧ g = j) → after[d][j] = before[d][j]) :
    newTrips before after =
      if entersTripped before[c][g].state after[c][g].state then [(c, g, after[c][g].config.action)] else [] := by
  have only : ∀ d j, entersTripped before[d][j].state after[d][j].state = true → c = d ∧ g = j := by
    intro d j enters
    by_contra apart
    rw [other d j apart, entersTripped_self] at enters
    cases enters
  split
  · next enters =>
    refine List.perm_singleton.1 ((List.perm_ext_iff_of_nodup (newTrips_nodup _ _) (List.nodup_singleton _)).2 ?_)
    rintro ⟨d, j, action⟩
    rw [mem_newTrips, List.mem_singleton]
    constructor
    · rintro ⟨trips, rfl⟩
      obtain ⟨rfl, rfl⟩ := only d j trips
      rfl
    · intro same
      cases same
      exact ⟨enters, rfl⟩
  · next quiet =>
    refine List.eq_nil_iff_forall_not_mem.2 ?_
    rintro ⟨d, j, action⟩ trip
    obtain ⟨trips, -⟩ := mem_newTrips.1 trip
    obtain ⟨rfl, rfl⟩ := only d j trips
    exact quiet trips

end Sys2Proof.Machine
end

/-! ### WRITE on GUARD (R99, R100) -/
section
namespace Sys2Proof.Machine

variable {s : State} {r : Request} {old : GuardConfig}

/-! #### The rules of a guard entry -/

section
variable {record : Chan → ChannelRecord} {k : GuardConfig}

theorem guardRules_iff : (∀ rule ∈ guardRules record k, rule.1) ↔ k.Rules record := by
  simp only [guardRules, List.forall_mem_cons, List.not_mem_nil, false_implies, implies_true, and_true]
  constructor
  · rintro ⟨count, inputCount, levelSource, valueSource, pair, levelTrip, noTrip, above, below, tolerance, inputRelease,
      noTolerance, noGrace⟩
    exact ⟨count, inputCount, fun level => ⟨levelSource level, levelTrip level⟩, valueSource,
      fun deviation => ⟨(pair deviation).1, (pair deviation).2, noTrip (.inl deviation), tolerance deviation⟩,
      fun input => ⟨noTrip (.inr input), inputRelease input⟩, above, fun kind => (below kind).1,
      fun level => (below (.inl level)).2 level, fun used other => ⟨noTolerance used other, noGrace used other⟩⟩
  · intro rules
    exact ⟨rules.count, rules.inputCount, fun level => (rules.levelSource level).1, rules.valueSource,
      fun deviation => ⟨(rules.deviation deviation).1, (rules.deviation deviation).2.1⟩,
      fun level => (rules.levelSource level).2,
      fun kind => kind.elim (fun deviation => (rules.deviation deviation).2.2.1) fun input => (rules.input input).1,
      rules.above, fun kind => ⟨rules.below kind, rules.belowLevel⟩, fun deviation => (rules.deviation deviation).2.2.2,
      fun input => (rules.input input).2, fun used other => (rules.unused used other).1,
      fun used other => (rules.unused used other).2⟩

/-- The rules name the fields of Table 9-5. -/
theorem guardRules_fields : ∀ rule ∈ guardRules record k, 1 ≤ rule.2 ∧ rule.2 ≤ 9 := by
  simp [guardRules]

theorem GuardConfig.Rules.guardFault (rules : k.Rules record) : Machine.guardFault record k = none := by
  rw [Option.eq_none_iff_forall_ne_some]
  intro field hf
  obtain ⟨before, rest, rule, hlist, -, broken⟩ := (guardFault_iff record k field).1 hf
  exact broken (guardRules_iff.2 rules (rule, field) (by rw [hlist]; simp))

theorem firstBroken_of_not_guardRules (hr : ¬k.Rules record) :
    ∃ field, FirstBroken (guardRules record k) field ∧ 1 ≤ field ∧ field ≤ 9 := by
  have broken : ∃ rule ∈ guardRules record k, ¬rule.1 := by
    simpa only [not_forall, exists_prop] using mt guardRules_iff.1 hr
  obtain ⟨field, first, rule, hmem, rfl⟩ := exists_firstBroken _ broken
  exact ⟨rule.2, first, guardRules_fields rule hmem⟩

end

/-! #### The fields of words 0 to 2 -/

theorem GuardKind.isInput_iff (k : GuardKind) : k.isInput = true ↔ k = .inputHigh ∨ k = .inputLow := by
  cases k <;> decide

theorem GuardKind.isFramePaced_iff (k : GuardKind) : k.isFramePaced = true ↔
    k = .levelAbove ∨ k = .levelBelow ∨ k = .valueAbove ∨ k = .valueBelow ∨ k = .deviation := by
  cases k <;> decide

theorem guardKinds_of_code {n : Nat} (h : n ≤ 7) : ∃ kind, guardKinds[n]? = some kind :=
  ⟨_, List.getElem?_eq_getElem (Nat.lt_succ_of_le h)⟩

theorem scopes_of_code {n : Nat} (h : n ≤ 2) : ∃ scope, scopes[n]? = some scope :=
  ⟨_, List.getElem?_eq_getElem (Nat.lt_succ_of_le h)⟩

theorem guardActions_of_code {n : Nat} (h : n ≤ 2) : ∃ action, guardActions[n]? = some action :=
  ⟨_, List.getElem?_eq_getElem (Nat.lt_succ_of_le h)⟩

theorem Request.guardConfig_badKind (h : 7 < r.byte 0) : r.guardConfig 0 old = .error 1 := by
  have absent : guardKinds[r.byte 0]? = none := List.getElem?_eq_none h
  simp [Request.guardConfig, absent]

theorem Request.guardConfig_badSource (h0 : r.byte 0 ≤ 7) (h1 : 15 < r.byte 1) : r.guardConfig 0 old = .error 2 := by
  obtain ⟨kind, hk⟩ := guardKinds_of_code h0
  have range : ¬r.byte 1 < 16 := by omega
  simp [Request.guardConfig, hk, range]

theorem Request.guardConfig_badScope (h0 : r.byte 0 ≤ 7) (h1 : r.byte 1 ≤ 15) (h2 : 2 < r.byte 2) :
    r.guardConfig 0 old = .error 3 := by
  obtain ⟨kind, hk⟩ := guardKinds_of_code h0
  have range : r.byte 1 < 16 := by omega
  have absent : scopes[r.byte 2]? = none := List.getElem?_eq_none h2
  simp [Request.guardConfig, hk, range, absent]

theorem Request.guardConfig_badAction (h0 : r.byte 0 ≤ 7) (h1 : r.byte 1 ≤ 15) (h2 : r.byte 2 ≤ 2) (h3 : 2 < r.byte 3) :
    r.guardConfig 0 old = .error 4 := by
  obtain ⟨kind, hk⟩ := guardKinds_of_code h0
  obtain ⟨scope, hs⟩ := scopes_of_code h2
  have range : r.byte 1 < 16 := by omega
  have absent : guardActions[r.byte 3]? = none := List.getElem?_eq_none h3
  simp [Request.guardConfig, hk, range, hs, absent]

theorem Request.guardConfig_badCount (h0 : r.byte 0 ≤ 7) (h1 : r.byte 1 ≤ 15) (h2 : r.byte 2 ≤ 2) (h3 : r.byte 3 ≤ 2)
    (h4 : 15 < r.byte 4) : r.guardConfig 0 old = .error 5 := by
  obtain ⟨kind, hk⟩ := guardKinds_of_code h0
  obtain ⟨scope, hs⟩ := scopes_of_code h2
  obtain ⟨action, ha⟩ := guardActions_of_code h3
  have range : r.byte 1 < 16 := by omega
  simp [Request.guardConfig, hk, range, hs, ha, h4]

/-- The fields of word 0 by the codes of Table 6-1. -/
theorem Request.guardConfig_kind {kind : GuardKind} {source : Fin 16} {scope : Scope} {action : GuardAction}
    (h0 : guardKinds[r.byte 0]? = some kind) (h1 : r.byte 1 = source.val) (h2 : scopes[r.byte 2]? = some scope)
    (h3 : guardActions[r.byte 3]? = some action) (h4 : r.byte 4 ≤ 15) : r.guardConfig 0 old =
      .ok { old with kind := kind, source := source, scope := scope, action := action, count := r.byte 4 } := by
  simp [Request.guardConfig, h0, h1, h2, h3, Nat.not_lt.2 h4]

/-! #### The outcomes -/

theorem writeGuard_noObject (hl : s.lock = false) (h : 64 ≤ r.index.toNat ∨ 3 < r.word.toNat) :
    writeGuard r s = (s, noObject) := by
  rcases h with h | h
  · simp [writeGuard, hl, Nat.not_lt.2 h]
  · simp [writeGuard, hl, h]

section
variable {c : Chamber} {g : GuardIndex} (hl : s.lock = false) (hi : r.index.toNat = c.val * 16 + g.val)
include hl hi

theorem writeGuard_readOnly (hw : r.word.toNat = 3) : writeGuard r s = (s, s.refuseWith .readOnly 4 r) := by
  have present : r.index.toNat < 64 := by omega
  simp [writeGuard, hl, present, hw, guardTable]

variable (hw : r.word.toNat < 3)
include hw

theorem writeGuard_badField {field : Nat} (hf : r.guardConfig r.word.toNat (s.guardEntry c g).config = .error field) :
    writeGuard r s = (s, badField field) := by
  have present : r.index.toNat < 64 := by omega
  have chamber : r.index.toNat / 16 = c.val := by omega
  have entry : r.index.toNat % 16 = g.val := by omega
  simp [writeGuard, hl, present, chamber, entry, Nat.not_lt.2 hw.le, hw.ne, hf]

variable {k : GuardConfig} (hk : r.guardConfig r.word.toNat (s.guardEntry c g).config = .ok k)
include hk

theorem writeGuard_brokenRule {field : Nat} (hf : guardFault (fun h => (s.channel c h).record) k = some field) :
    writeGuard r s = (s, badField field) := by
  have present : r.index.toNat < 64 := by omega
  have chamber : r.index.toNat / 16 = c.val := by omega
  have entry : r.index.toNat % 16 = g.val := by omega
  simp [writeGuard, hl, present, chamber, entry, Nat.not_lt.2 hw.le, hw.ne, hk, hf]

theorem writeGuard_stored (hf : guardFault (fun h => (s.channel c h).record) k = none) :
    writeGuard r s = (s.storeGuard c g k).acceptWrite 4 r := by
  have present : r.index.toNat < 64 := by omega
  have chamber : r.index.toNat / 16 = c.val := by omega
  have entry : r.index.toNat % 16 = g.val := by omega
  simp [writeGuard, hl, present, chamber, entry, Nat.not_lt.2 hw.le, hw.ne, hk, hf, guardTable]

end

/-! #### The entry stored -/

/-- Whether an INPUT entry put to CLEAR trips at its evaluation (R100, R115). -/
def State.tripsAtWrite (s : State) (c : Chamber) (g : GuardIndex) (k : GuardConfig) : Bool :=
  k.kind.isInput && inScope s.ctx (s.engine c) g k.scope && inputReading (s.input k.source).accepted k == .trip

/-- The entry that a write puts in the place of entry g of chamber c. -/
def State.writtenEntry (s : State) (c : Chamber) (g : GuardIndex) (k : GuardConfig) : GuardEntry :=
  { config := k, state := if s.tripsAtWrite c g k then .tripped else .clear, lapse := deriveGrace s.ctx c { config := k } }

variable {c : Chamber} {g : GuardIndex}

theorem State.evaluateGuards_storeGuard (s : State) (c : Chamber) (g : GuardIndex) (k : GuardConfig) :
    evaluateGuards (s.setGuard c g { config := k, lapse := deriveGrace s.ctx c { config := k } })
        (fun d j => d == c && j == g && k.kind.isInput) =
      (s.setGuard c g (s.writtenEntry c g k)).guards := by
  have cleared := s.guardEntry_setGuard c c g g { config := k, lapse := deriveGrace s.ctx c { config := k } }
  rw [if_pos ⟨rfl, rfl⟩] at cleared
  refine guards_ext fun d j => ?_
  have selected : (d == c && j == g && k.kind.isInput) = true ↔ (c = d ∧ g = j) ∧ k.kind.isInput = true := by
    rw [Bool.and_eq_true, Bool.and_eq_true, beq_iff_eq, beq_iff_eq, eq_comm (a := d), eq_comm (a := j)]
  have written : (s.setGuard c g (s.writtenEntry c g k)).guards[d][j] =
      if c = d ∧ g = j then s.writtenEntry c g k else s.guardEntry d j := State.guardEntry_setGuard s c d g j _
  rw [evaluateGuards_getElem, written]
  by_cases at_ : c = d ∧ g = j
  · obtain ⟨rfl, rfl⟩ := at_
    rw [if_pos (⟨rfl, rfl⟩ : c = c ∧ g = g)]
    by_cases input : k.kind.isInput = true
    · rw [if_pos (selected.2 ⟨⟨rfl, rfl⟩, input⟩), evaluateEntry_input (by rw [cleared]; exact input), cleared,
        State.writtenEntry, State.tripsAtWrite, input, Bool.true_and]
      rfl
    · rw [if_neg fun both => input (selected.1 both).2, cleared, State.writtenEntry, State.tripsAtWrite,
        Bool.eq_false_of_not_eq_true input]
      rfl
  · rw [if_neg at_, if_neg fun both => at_ (selected.1 both).1, State.guardEntry_setGuard, if_neg at_]

theorem State.storeGuard_eq (s : State) (c : Chamber) (g : GuardIndex) (k : GuardConfig) : s.storeGuard c g k =
    { s.setGuard c g (s.writtenEntry c g k) with
      plant := examineDemand s.ctx (s.setGuard c g (s.writtenEntry c g k)).guards c
        (if s.tripsAtWrite c g k then applyTrip s.ctx c g k.action s.plant else s.plant) } := by
  have entry : ∀ (e : GuardEntry) (d : Chamber) (j : GuardIndex), (s.setGuard c g e).guards[d][j] =
      if c = d ∧ g = j then e else s.guardEntry d j := fun e d j => State.guardEntry_setGuard s c d g j e
  have trips : newTrips (s.setGuard c g { config := k, lapse := deriveGrace s.ctx c { config := k } }).guards
      (s.setGuard c g (s.writtenEntry c g k)).guards = if s.tripsAtWrite c g k then [(c, g, k.action)] else [] := by
    rw [newTrips_single (c := c) (g := g) fun d j apart => by rw [entry, entry, if_neg apart, if_neg apart], entry, entry,
      if_pos (⟨rfl, rfl⟩ : c = c ∧ g = g), if_pos (⟨rfl, rfl⟩ : c = c ∧ g = g)]
    unfold State.writtenEntry
    cases s.tripsAtWrite c g k <;> rfl
  unfold State.storeGuard
  refine (State.guardPass_of (State.evaluateGuards_storeGuard s c g k)).trans ?_
  rw [trips]
  cases s.tripsAtWrite c g k <;> rfl

/-- Settles O23. -/
theorem guardWriteStored : Obligations.GuardWriteStored := by
  refine ⟨fun k => ⟨k.isInput_iff, k.isFramePaced_iff⟩, fun r s h hl => ⟨fun absent => ?_, fun c g hi =>
    ⟨fun hw => ?_, fun hw => ?_, fun hw => ⟨fun old => ⟨?_, rfl, rfl⟩, fun k hk => ⟨fun rules => ?_, fun field first => ?_,
      firstBroken_of_not_guardRules⟩⟩⟩⟩⟩
  · exact congrArg _ (h.answers_noObject _ (writeGuard_noObject hl absent))
  · exact congrArg _ (h.answers_refused (writeGuard_readOnly hl hi hw))
  · have refuses : ∀ {field}, r.guardConfig 0 (s.guardEntry c g).config = .error field →
        exec (.guardWrite r) s = .next (s.refusedField r field) := fun hf =>
      congrArg _ (h.answers_badField (writeGuard_badField hl hi (by omega) (by rw [hw]; exact hf)))
    exact ⟨fun h0 => refuses (Request.guardConfig_badKind h0), fun h0 h1 => refuses (Request.guardConfig_badSource h0 h1),
      fun h0 h1 h2 => refuses (Request.guardConfig_badScope h0 h1 h2),
      fun h0 h1 h2 h3 => refuses (Request.guardConfig_badAction h0 h1 h2 h3),
      fun h0 h1 h2 h3 h4 => refuses (Request.guardConfig_badCount h0 h1 h2 h3 h4)⟩
  · intro kind source scope action h0 h1 h2 h3 h4
    refine Request.guardConfig_kind ?_ h1 ?_ ?_ h4
    · rw [h0]; cases kind <;> rfl
    · rw [h2]; cases scope <;> rfl
    · rw [h3]; cases action <;> rfl
  · intro trips written acted
    have input : (k.kind == .inputHigh || k.kind == .inputLow) = k.kind.isInput := by cases k.kind <;> rfl
    have atWrite : trips = s.tripsAtWrite c g k := by
      show ((k.kind == .inputHigh || k.kind == .inputLow) && _ && _) = _
      rw [input]
      rfl
    have stored := h.answers_stored (writeGuard_stored hl hi hw hk rules.guardFault)
    rw [State.storeGuard_eq, State.writtenEntry, ← atWrite] at stored
    exact congrArg _ stored
  · exact congrArg _ (h.answers_badField (writeGuard_brokenRule hl hi hw hk ((guardFault_iff _ _ _).2 first)))

end Sys2Proof.Machine
end

/-! ### The moves and readings of a guard entry (R98, R104 to R106, Table 6-5) -/
section
namespace Sys2Proof.Machine

/-! #### Table 6-5 -/

section
variable {C n : Nat} {scope : Bool} {reading : Reading} {state : GuardState}

theorem moveFramePaced_rests (h : scope = false ∨ reading ≠ .trip) (rested : state.standing = false) :
    moveFramePaced C scope reading state = .clear := by
  have quiet : ¬(scope && reading == .trip) = true := by
    rcases h with h | h <;> simp [h]
  cases state with
  | clear | counting n => exact if_neg quiet
  | tripped | releasing n => cases rested

theorem moveFramePaced_stays (h : reading ≠ .release) (stands : state.standing = true) :
    moveFramePaced C scope reading state = .tripped := by
  cases state with
  | clear | counting n => cases stands
  | tripped | releasing n => exact if_neg h

/-- The trip readings counted up to C (Table 6-5). -/
theorem moveFramePaced_trip (before : n < C) :
    moveFramePaced C true .trip .clear = (if C = 1 then .tripped else .counting 1) ∧
      moveFramePaced C true .trip (.counting n) = if n + 1 = C then .tripped else .counting (n + 1) := by
  have first : C ≤ 1 ↔ C = 1 := by omega
  have last : C ≤ n + 1 ↔ n + 1 = C := by omega
  simp [moveFramePaced, first, last]

/-- The release readings counted up to C (Table 6-5). -/
theorem moveFramePaced_release (before : n < C) :
    moveFramePaced C scope .release .tripped = (if C = 1 then .clear else .releasing 1) ∧
      moveFramePaced C scope .release (.releasing n) = if n + 1 = C then .clear else .releasing (n + 1) := by
  have first : C ≤ 1 ↔ C = 1 := by omega
  have last : C ≤ n + 1 ↔ n + 1 = C := by omega
  simp [moveFramePaced, first, last]

theorem moveInput_clear : moveInput true .trip .clear = .tripped ∧ moveInput scope .release .clear = .clear ∧
    (∀ reading, moveInput false reading .clear = .clear) ∧ moveInput scope .release .tripped = .clear ∧
    moveInput scope .trip .tripped = .tripped :=
  ⟨rfl, by cases scope <;> rfl, fun _ => rfl, rfl, rfl⟩

end

/-! #### Readings -/

section
variable {x : Ctx} {c : Chamber} {e : GuardEntry} {k : GuardConfig} {v : Nat} {reading : Reading}

theorem readAbove_eq (k : GuardConfig) (v : Nat) : readAbove k v =
    if k.trip < v then .trip else if k.release < v then .neither else .release := by
  unfold readAbove
  split
  · rfl
  · by_cases above : k.release < v
    · rw [if_neg (Nat.not_le.2 above), if_pos above]
    · rw [if_pos (Nat.not_lt.1 above), if_neg above]

theorem readBelow_eq (k : GuardConfig) (v : Nat) : readBelow k v =
    if v < k.trip then .trip else if v < k.release then .neither else .release := by
  unfold readBelow
  split
  · rfl
  · by_cases below : v < k.release
    · rw [if_neg (Nat.not_le.2 below), if_pos below]
    · rw [if_pos (Nat.not_lt.1 below), if_neg below]

theorem distance_eq (f s : Nat) : distance f s = max f s - min f s := by
  unfold distance
  omega

theorem GuardEntry.takes_kept (kept : e.sourceLost = false) : e.takes reading = reading :=
  if_neg (ne_true_of_eq_false kept)

/-- The trip reading of an entry that has lost its source is left open (log 29); it never reads release (R105). -/
theorem GuardEntry.takes_lost (lost : e.sourceLost = true) :
    e.takes reading = .trip ∨ e.takes reading = .neither ∧ reading ≠ .trip := by
  unfold GuardEntry.takes
  rw [if_pos lost]
  split
  · exact .inl rfl
  · cases reading
    · exact .inl rfl
    · exact .inr ⟨rfl, by simp⟩
    · exact .inr ⟨rfl, by simp⟩

theorem frameReading_levelAbove (hk : e.config.kind = .levelAbove) :
    frameReading x c e = readAbove e.config (x.pressureLevel c) := by simp only [frameReading, hk]

theorem frameReading_levelBelow (hk : e.config.kind = .levelBelow) :
    frameReading x c e = readBelow e.config (x.pressureLevel c) := by simp only [frameReading, hk]

theorem frameReading_valueAbove (hk : e.config.kind = .valueAbove) : frameReading x c e =
    if (x.record c e.config.source).kind.isReadback then e.takes (readAbove e.config (x.status c e.config.source).value)
    else .trip := by simp only [frameReading, hk]

theorem frameReading_valueBelow (hk : e.config.kind = .valueBelow) : frameReading x c e =
    if (x.record c e.config.source).kind.isReadback then e.takes (readBelow e.config (x.status c e.config.source).value)
    else .trip := by simp only [frameReading, hk]

theorem frameReading_unpaired (hk : e.config.kind = .deviation)
    (h : (x.record c e.config.source).kind ≠ .flowRead ∨ (x.record c e.config.source).pair = none) :
    frameReading x c e = .trip := by
  have unpaired : x.deviationPair c e.config.source = none := by
    rcases h with h | h
    · exact if_neg h
    · simp [Ctx.deviationPair, h]
  simp only [frameReading, hk, unpaired]

/-- What a DEVIATION entry reads of its pair (R106). -/
def GuardEntry.deviationReading (e : GuardEntry) (deviation : Nat) : Reading :=
  if e.lapse = none ∧ e.config.tolerance < deviation then .trip
  else if deviation ≤ e.config.release then .release else .neither

/-- With the release band at or below the tolerance (R99). -/
theorem GuardEntry.deviationReading_eq (bands : e.config.release ≤ e.config.tolerance) (deviation : Nat) :
    e.deviationReading deviation =
      if deviation ≤ e.config.release then .release
      else if e.config.tolerance < deviation ∧ e.lapse = none then .trip else .neither := by
  unfold GuardEntry.deviationReading
  by_cases inside : deviation ≤ e.config.release
  · rw [if_neg fun trips => Nat.not_lt.2 (inside.trans bands) trips.2, if_pos inside, if_pos inside]
  · rw [if_neg inside, if_neg inside]
    exact if_congr and_comm rfl rfl

theorem frameReading_paired {h : Chan} (hk : e.config.kind = .deviation)
    (hs : (x.record c e.config.source).kind = .flowRead) (hp : (x.record c e.config.source).pair = some h) :
    frameReading x c e = e.takes
      (e.deviationReading (distance (x.status c e.config.source).value (x.status c h).carried)) := by
  have paired : x.deviationPair c e.config.source = some h := Ctx.deviationPair_eq_some_iff.2 ⟨hs, hp⟩
  simp only [frameReading, hk, paired, GuardEntry.deviationReading]

theorem frameReading_noReadback (hk : e.config.kind = .valueAbove ∨ e.config.kind = .valueBelow)
    (hs : (x.record c e.config.source).kind.isReadback = false) : frameReading x c e = .trip := by
  rcases hk with hk | hk
  · rw [frameReading_valueAbove hk, if_neg (ne_true_of_eq_false hs)]
  · rw [frameReading_valueBelow hk, if_neg (ne_true_of_eq_false hs)]

/-- The entry as it reads when it has lost no source. -/
def GuardEntry.mended (e : GuardEntry) : GuardEntry := { e with sourceLost := false }

theorem frameReading_mended {value : Reading} (valid : (x.record c e.config.source).kind.isReadback = true)
    (hk : e.config.kind = .valueAbove ∧ value = readAbove e.config (x.status c e.config.source).value ∨
      e.config.kind = .valueBelow ∧ value = readBelow e.config (x.status c e.config.source).value) :
    frameReading x c e = e.takes value ∧ frameReading x c e.mended = value := by
  rcases hk with ⟨hk, rfl⟩ | ⟨hk, rfl⟩
  · exact ⟨(frameReading_valueAbove hk).trans (if_pos valid),
      ((frameReading_valueAbove (e := e.mended) hk).trans (if_pos valid)).trans (GuardEntry.takes_kept rfl)⟩
  · exact ⟨(frameReading_valueBelow hk).trans (if_pos valid),
      ((frameReading_valueBelow (e := e.mended) hk).trans (if_pos valid)).trans (GuardEntry.takes_kept rfl)⟩

theorem frameReading_lost
    (hk : e.config.kind = .valueAbove ∨ e.config.kind = .valueBelow ∨ e.config.kind = .deviation)
    (lost : e.sourceLost = true) : frameReading x c e = .trip ∨
      frameReading x c e = .neither ∧ frameReading x c { e with sourceLost := false } ≠ .trip := by
  have takes : ∀ {reading}, frameReading x c e = e.takes reading ∧ frameReading x c e.mended = reading →
      frameReading x c e = .trip ∨ frameReading x c e = .neither ∧ frameReading x c e.mended ≠ .trip := by
    rintro reading ⟨asIs, mended⟩
    rw [asIs, mended]
    exact GuardEntry.takes_lost lost
  cases valid : (x.record c e.config.source).kind.isReadback with
  | false =>
    rcases hk with hk | hk | hk
    · exact .inl (frameReading_noReadback (.inl hk) valid)
    · exact .inl (frameReading_noReadback (.inr hk) valid)
    · exact .inl (frameReading_unpaired hk (.inl fun flow => by rw [flow] at valid; cases valid))
  | true =>
    rcases hk with hk | hk | hk
    · exact takes (frameReading_mended valid (.inl ⟨hk, rfl⟩))
    · exact takes (frameReading_mended valid (.inr ⟨hk, rfl⟩))
    · cases hp : x.deviationPair c e.config.source with
      | none => exact .inl (by simp only [frameReading, hk, hp])
      | some h =>
        obtain ⟨hs, hp⟩ := Ctx.deviationPair_eq_some_iff.1 hp
        exact takes ⟨frameReading_paired hk hs hp,
          (frameReading_paired (e := e.mended) hk hs hp).trans (GuardEntry.takes_kept rfl)⟩

theorem frameReading_ne_release
    (hk : e.config.kind = .valueAbove ∨ e.config.kind = .valueBelow ∨ e.config.kind = .deviation)
    (lost : e.sourceLost = true) : frameReading x c e ≠ .release := by
  rcases frameReading_lost (x := x) (c := c) hk lost with reads | ⟨reads, -⟩ <;> rw [reads] <;> simp

/-- R106, with the release band at or below the tolerance (R99). -/
theorem frameReading_deviation {h : Chan} (hk : e.config.kind = .deviation)
    (hs : (x.record c e.config.source).kind = .flowRead) (hp : (x.record c e.config.source).pair = some h)
    (kept : e.sourceLost = false) (bands : e.config.release ≤ e.config.tolerance) :
    let deviation := max (x.status c e.config.source).value (x.status c h).carried -
      min (x.status c e.config.source).value (x.status c h).carried
    frameReading x c e =
      if deviation ≤ e.config.release then .release
      else if e.config.tolerance < deviation ∧ e.lapse = none then .trip else .neither := by
  intro deviation
  rw [frameReading_paired hk hs hp, GuardEntry.takes_kept kept, distance_eq]
  exact GuardEntry.deviationReading_eq bands deviation

end

/-! #### The entries at a cycle close (R103, R145) -/

section
variable {s : State} {c : Chamber} {g : GuardIndex} {slots : List Slot}

theorem State.closeCycle_guards : (s.closeCycle slots).guards =
    ((s.takeReadings slots).guardPass (fun _ _ => true) chambers).guards := rfl

theorem State.closeCycle_guardEntry :
    (s.closeCycle slots).guardEntry c g = evaluateEntry (s.takeReadings slots) c g := by
  rw [State.guardEntry, State.closeCycle_guards, ← State.guardEntry, State.guardPass_guardEntry, if_pos rfl]

theorem State.closeCycle_framePaced (hk : (s.guardEntry c g).config.kind.isFramePaced = true) :
    (s.closeCycle slots).guardEntry c g =
      { s.guardEntry c g with
        state := moveFramePaced (s.guardEntry c g).config.count
          (inScope s.ctx (s.engine c) g (s.guardEntry c g).config.scope)
          (frameReading (s.takeReadings slots).ctx c (s.guardEntry c g)) (s.guardEntry c g).state } :=
  State.closeCycle_guardEntry.trans (evaluateEntry_framePaced (s := s.takeReadings slots) hk)

theorem State.closeCycle_input (hk : (s.guardEntry c g).config.kind.isInput = true) :
    (s.closeCycle slots).guardEntry c g =
      { s.guardEntry c g with
        state := moveInput (inScope s.ctx (s.engine c) g (s.guardEntry c g).config.scope)
          (inputReading (s.input (s.guardEntry c g).config.source).accepted (s.guardEntry c g).config)
          (s.guardEntry c g).state } :=
  State.closeCycle_guardEntry.trans (evaluateEntry_input (s := s.takeReadings slots) hk)

theorem State.closeCycle_off (hk : (s.guardEntry c g).config.kind = .off) :
    (s.closeCycle slots).guardEntry c g = s.guardEntry c g :=
  State.closeCycle_guardEntry.trans (evaluateEntry_off (s := s.takeReadings slots) hk)

/-- A standing entry that has lost its source stands (R105). -/
theorem State.closeCycle_lost (hk : (s.guardEntry c g).config.kind = .valueAbove ∨
      (s.guardEntry c g).config.kind = .valueBelow ∨ (s.guardEntry c g).config.kind = .deviation)
    (lost : (s.guardEntry c g).sourceLost = true) (stands : (s.guardEntry c g).state.standing = true) :
    (s.closeCycle slots).guardEntry c g = { s.guardEntry c g with state := .tripped } := by
  have paced := (GuardKind.isFramePaced_iff _).2 (.inr (.inr hk))
  rw [State.closeCycle_framePaced paced, moveFramePaced_stays (frameReading_ne_release hk lost) stands]

end

/-! #### Scopes (Table 6-4) -/

theorem inScope_runOnly_iff {x : Ctx} {e : Engine} {g : GuardIndex} :
    inScope x e g .runOnly = true ↔ e.state = .running := by simp only [inScope, beq_iff_eq]

theorem inScope_flagged_iff {x : Ctx} {e : Engine} {g : GuardIndex} : inScope x e g .flagged = true ↔
    e.state = .running ∧ (x.stepRecord e.step).guardMask.getLsbD g.val = true := by
  simp only [inScope, Bool.and_eq_true, beq_iff_eq]

end Sys2Proof.Machine
end

/-! ### What a trip and a hold demand do to a chamber (R108 to R111, R122) -/
section
namespace Sys2Proof.Machine

variable {x : Ctx} {p : Plant} {c : Chamber} {g : GuardIndex} {guards : Vector (Vector GuardEntry 16) 4} {h : HoldRecord}

theorem Plant.setEngine_own (p : Plant) (c : Chamber) : p.setEngine c (p.engine c) = p := by
  unfold Plant.setEngine Plant.engine
  rw [show p.engines.set c.val p.engines[c] c.isLt = p.engines from Vector.set_getElem_self c.isLt]

/-! #### SAFE entry by a trip -/

/-- The chamber in SAFE, with what it had of the arbiter handed back and both notices raised (R61, R108, R109, R122). -/
structure Plant.TripsSafe (x : Ctx) (c : Chamber) (g : GuardIndex) (p q : Plant) : Prop where
  engine : q.engine c =
    { p.engine c with
      state := .safe, timer := none, counter := 0, awaited := .nothing, hold := none, sources := {}, loops := []
      range := none, outputTable := safeOutputs x c }
  reservation : q.reservation c = p.allowance c
  permit : q.permits[c] = false
  out : q.Out c
  line : q.arbiter.line ≠ .granted c
  tripped : q.Raised c .guardTrip
  entered : q.Raised c .safeEntered
  handsBack : (p.raiseAt (noticeSlot c .guardTrip) g.val x.cycle).HandsBack x (expireNow x) c
    { p.engine c with awaited := .nothing, timer := none, counter := 0 } q
  spares : ∀ d, d ≠ c → p.Out d → p.Spares d q

theorem enterSafe_tripsSafe (x : Ctx) (c : Chamber) (g : GuardIndex) (p : Plant) :
    p.TripsSafe x c g (enterSafe x (expireNow x) c (p.notify x c .guardTrip g.val)) := by
  obtain ⟨out, line, engine, reservation, permit⟩ :=
    enterSafe_rests (x := x) (expire := expireNow x) (c := c) (fun q r d => expireNow_spares x c q r d)
      (p.notify x c .guardTrip g.val)
  refine ⟨engine, reservation, permit, out, line, ?_, ?_, ?_, fun d ne outside => ?_⟩
  · exact (Plant.raised_notify x c .guardTrip g.val p).leaves ((Plant.Leaves.refl _).enterSafe (leaves_expireNow x) c)
  · exact Plant.raised_notify _ _ _ _ _
  · exact enterSafe_handsBack (fun q r d => expireNow_spares x c q r d) (fun t d q => settles_expireWithin x 4 d q)
      (p.notify x c .guardTrip g.val)
  · exact ((Plant.Spares.refl outside).notify c .guardTrip g.val).enterSafe spares_expireNow ne.symm

/-! #### The hold by GUARD -/

/-- The chamber in HELD by GUARD, with what it had of the arbiter handed back (R70, R110). -/
structure Plant.EntersGuardHold (x : Ctx) (c : Chamber) (p q : Plant) : Prop where
  engine : q.engine c =
    { p.engine c with
      state := .held, awaited := .nothing, timer := none, counter := 0, sources := { guard := true }
      hold := some ((p.engine c).writeHold x.now (x.stepRecord (p.engine c).step) false)
      outputTable := holdOutputs x c (p.engine c).outputTable }
  handsBack : p.HandsBack x (expireNow x) c
    { p.engine c with
      awaited := .nothing, timer := none, counter := 0
      hold := some ((p.engine c).writeHold x.now (x.stepRecord (p.engine c).step) false) } q
  reservation : q.reservation c = p.allowance c
  permit : q.permits[c] = p.permits[c]
  out : q.Out c
  line : q.arbiter.line ≠ .granted c
  entered : q.Raised c .holdEntered
  spares : ∀ d, d ≠ c → p.Out d → p.Spares d q

theorem enterHold_guard (x : Ctx) (c : Chamber) (p : Plant) :
    p.EntersGuardHold x c (enterHold x (expireNow x) (examineGrowth x (expireNow x)) c .guard false p) := by
  have spares := fun (q r : Plant) (d : Chamber) => expireNow_spares x c q r d
  have rests := enterHold_rests (x := x) spares (examine := examineGrowth x (expireNow x))
    (fun q => examineGrowth_spares spares) .guard false p
  refine ⟨rests.engine, ?_, rests.reservation, rests.permit, rests.out, rests.line, ?_, fun d ne outside => ?_⟩
  · exact enterHold_handsBack spares (fun t d q => settles_expireWithin x 4 d q) .guard false p
  · exact Plant.raised_notify _ _ _ _ _
  · exact (Plant.Spares.refl outside).enterHold spares_expireNow (fun q hq => hq.examineGrowth spares_expireNow) ne.symm _ _

/-- A chamber that is not HELD has no hold source (R67). -/
theorem Engine.Consistent.unguarded {e : Engine} (cell : e.Consistent) (free : e.state ≠ .held) :
    e.sources.guard = false := by
  have empty := cell.sources.2 free
  simp only [HoldSources.isEmpty, Bool.and_eq_true, Bool.not_eq_true'] at empty
  exact empty.1.1.2

theorem examineDemand_enters (cell : (p.engine c).Consistent) (demand : anyStanding guards[c] .hold = true)
    (active : (p.engine c).state = .running ∨ (p.engine c).state = .waiting) :
    p.EntersGuardHold x c (examineDemand x guards c p) := by
  have fresh := cell.unguarded (by rcases active with k | k <;> rw [k] <;> simp)
  have enters : addSource x (expireNow x) c .guard false p =
      enterHold x (expireNow x) (examineGrowth x (expireNow x)) c .guard false p := by
    unfold addSource
    rcases active with k | k <;> simp only [k]
  rw [examineDemand_joins demand fresh, enters]
  exact enterHold_guard x c p

theorem examineDemand_held (demand : anyStanding guards[c] .hold = true) (held : (p.engine c).state = .held) :
    examineDemand x guards c p =
      p.setEngine c { p.engine c with sources := { (p.engine c).sources with guard := true } } := by
  cases joined : (p.engine c).sources.guard with
  | false =>
    rw [examineDemand_joins demand joined]
    unfold addSource
    simp only [held, HoldSources.insert]
  | true =>
    have same : ({ (p.engine c).sources with guard := true } : HoldSources) = (p.engine c).sources := by rw [← joined]
    rw [examineDemand_stands demand joined, same]
    exact (p.setEngine_own c).symm

theorem examineDemand_idle (cell : (p.engine c).Consistent) (demand : anyStanding guards[c] .hold = true)
    (idle : (p.engine c).state = .idle ∨ (p.engine c).state = .done ∨ (p.engine c).state = .safe) :
    examineDemand x guards c p = p := by
  have fresh := cell.unguarded (by rcases idle with k | k | k <;> rw [k] <;> simp)
  rw [examineDemand_joins demand fresh]
  unfold addSource
  rcases idle with k | k | k <;> simp only [k]

/-! #### The hold demand lifted -/

theorem HoldSources.guardAlone_of_isEmpty {sources : HoldSources} (joined : sources.guard = true)
    (empty : sources.withoutGuard.isEmpty = true) : sources = { guard := true } := by
  obtain ⟨controller, guard, ring, engine⟩ := sources
  simp only [HoldSources.withoutGuard, HoldSources.isEmpty, Bool.and_eq_true, Bool.not_eq_true'] at empty joined
  simp [joined, empty]

theorem removeSources_all (x : Ctx) (expire : Expire) (c : Chamber) (p : Plant) :
    removeSources x expire c {} p = leaveHold x expire c (p.setEngine c { p.engine c with sources := {} }) := rfl

section
variable (lifted : anyStanding guards[c] .hold = false) (held : (p.engine c).state = .held)
include lifted held

theorem examineDemand_leavesOthers (joined : (p.engine c).sources.guard = true)
    (others : (p.engine c).sources ≠ { guard := true }) : examineDemand x guards c p =
      p.setEngine c { p.engine c with sources := { (p.engine c).sources with guard := false } } := by
  rw [examineDemand_ends lifted held joined]
  exact if_neg fun empty => others (HoldSources.guardAlone_of_isEmpty joined empty)

variable (last : (p.engine c).sources = { guard := true })
include last

theorem examineDemand_last : examineDemand x guards c p = removeSources x (expireNow x) c {} p := by
  rw [examineDemand_ends lifted held (by rw [last]), last]
  rfl

theorem examineDemand_boundary {up : Bool} (sound : p.Sound up) (record : (p.engine c).hold = some h) :
    (p.leavingHold x c h).ResumesBoundary x c h (examineDemand x guards c p) := by
  obtain ⟨out, line, settled⟩ := sound.held_settled held
  rw [examineDemand_last lifted held last]
  exact removeSources_leaves rfl out line settled record

theorem examineDemand_resumes {up : Bool} (sound : p.Sound up) (record : (p.engine c).hold = some h)
    (notEnd : (x.stepRecord h.step).isEnd = false) (unclaimed : (x.stepRecord h.step).claimsRoughing = false)
    (load : stepLoad x c (x.stepRecord h.step) (h.values x) ≤ p.allowance c)
    (timeLeft : h.heldFrom = .running → h.takenUp < (x.stepRecord h.step).dwell) :
    examineDemand x guards c p = p.setEngine c (((p.engine c).leaving x h).resumed x h) :=
  (examineDemand_boundary lifted held last sound record).runs sound.budget (sound.held_settled held).2.2 notEnd unclaimed
    load timeLeft

end

/-! #### The clauses of R98 to R111 together -/

theorem framePacedMoves {C n : Nat} (before : n < C) :
    (moveFramePaced C true .trip .clear = if C = 1 then .tripped else .counting 1) ∧
    (moveFramePaced C true .trip (.counting n) = if n + 1 = C then .tripped else .counting (n + 1)) ∧
    (∀ reading, reading ≠ .trip → moveFramePaced C true reading .clear = .clear ∧
      moveFramePaced C true reading (.counting n) = .clear) ∧
    (∀ reading, moveFramePaced C false reading .clear = .clear ∧ moveFramePaced C false reading (.counting n) = .clear) ∧
    ∀ scope,
      (moveFramePaced C scope .release .tripped = if C = 1 then .clear else .releasing 1) ∧
      (moveFramePaced C scope .release (.releasing n) = if n + 1 = C then .clear else .releasing (n + 1)) ∧
      ∀ reading, reading ≠ .release →
        moveFramePaced C scope reading .tripped = .tripped ∧ moveFramePaced C scope reading (.releasing n) = .tripped :=
  ⟨(moveFramePaced_trip before).1, (moveFramePaced_trip before).2,
    fun _ other => ⟨moveFramePaced_rests (.inr other) rfl, moveFramePaced_rests (.inr other) rfl⟩,
    fun _ => ⟨moveFramePaced_rests (.inl rfl) rfl, moveFramePaced_rests (.inl rfl) rfl⟩,
    fun _ => ⟨(moveFramePaced_release before).1, (moveFramePaced_release before).2,
      fun _ other => ⟨moveFramePaced_stays other rfl, moveFramePaced_stays other rfl⟩⟩⟩

/-- Settles O54. -/
theorem framePacedStatesMove : Obligations.FramePacedStatesMove := by
  refine ⟨fun C n _ before => framePacedMoves before, fun n => ⟨rfl, rfl, rfl⟩, fun s c g slots => State.closeCycle_framePaced,
    fun s c g slots => ⟨fun input => State.closeCycle_input ((GuardKind.isInput_iff _).2 input), State.closeCycle_off,
      fun kind lost stands => State.closeCycle_lost kind lost stands⟩, fun s slots => rfl,
    fun before after => ⟨fun c g action => mem_newTrips, newTrips_pairwise before after⟩,
    fun x guards p => ⟨rfl, rfl, fun c g action trips => rfl, fun c cs => rfl⟩,
    fun x p c g action => ⟨applyTrip_notes, fun isSafe other => ?_⟩, fun x c e => ?_,
    fun accepted k => ⟨fun high => ?_, fun low => ?_⟩, fun x e g => ⟨rfl, inScope_runOnly_iff, inScope_flagged_iff⟩,
    fun scope => moveInput_clear, fun x up p guards c sound => ⟨fun demand => ?_, fun lifted => ?_⟩⟩
  · subst isSafe
    rw [applyTrip_safes other]
    have safe := enterSafe_tripsSafe x c g p
    exact ⟨rfl, safe.engine, safe.reservation, safe.permit, safe.out, safe.line, safe.tripped, safe.entered, safe.handsBack,
      safe.spares⟩
  · refine ⟨fun kind _ => ?_, fun kind _ => ?_, fun kind valid kept _ => ?_, fun kind valid kept _ => ?_,
      frameReading_noReadback, frameReading_unpaired, frameReading_lost, fun h => frameReading_deviation⟩
    · rw [frameReading_levelAbove kind, readAbove_eq]
    · rw [frameReading_levelBelow kind, readBelow_eq]
    · rw [frameReading_valueAbove kind, if_pos valid, GuardEntry.takes_kept kept, readAbove_eq]
    · rw [frameReading_valueBelow kind, if_pos valid, GuardEntry.takes_kept kept, readBelow_eq]
  · simp only [inputReading, high]
  · simp only [inputReading, low]
  · have demand := anyStanding_iff.2 demand
    refine ⟨fun active => ?_, examineDemand_held demand, examineDemand_idle (sound.cells c) demand⟩
    have enters := examineDemand_enters (x := x) (sound.cells c) demand active
    exact ⟨enters.engine, enters.handsBack, enters.reservation, enters.permit, enters.out, enters.line, enters.entered,
      enters.spares⟩
  · have lifted := Bool.eq_false_of_not_eq_true (mt anyStanding_iff.1 lifted)
    refine ⟨examineDemand_absent lifted, examineDemand_leavesOthers lifted, fun held last => ⟨?_, ?_, ?_⟩⟩
    · exact (examineDemand_last lifted held last).trans (removeSources_all _ _ _ _)
    · exact fun h record => examineDemand_boundary lifted held last sound record
    · intro h record step values elapsed notEnd unclaimed load timeLeft
      rw [examineDemand_resumes lifted held last sound record notEnd unclaimed load timeLeft, Engine.leaving_resumed]
      rfl

end Sys2Proof.Machine
end

/-! ### WRITE on ARBITER (R134 to R136) -/
section
namespace Sys2Proof.Machine

variable {s : State} {r : Request}

theorem State.Takes.answers_overBudget (h : s.Takes r) {command : State → State × Answer}
    (hc : command s = (s, s.overBudget)) : s.takeRecord codeWrite r command =
      s.answered codeWrite r .overBudget (packData (be2 s.plant.arbiter.budget ++ be2 s.plant.reserved)) := by
  rw [h.takeRecord, hc]; rfl

/-- An examination of an empty queue, or of one whose head neither fits nor is stuck, leaves the part (R129). -/
theorem State.examineGrowth_ends
    (h : ∀ g rest, s.plant.arbiter.growth = g :: rest → headFits s.plant g = false ∧ headStuck s.plant g = false) :
    s.examineGrowth = s := by
  rw [State.examineGrowth, State.onPlant, Machine.examineGrowth_ends h]

/-! #### The outcomes -/

section
variable (hl : s.lock = false)
include hl

theorem writeArbiter_noObject (h : 4 < r.index.toNat ∨ 1 < r.word.toNat) : writeArbiter r s = (s, noObject) := by
  simp [writeArbiter, hl, h]

theorem writeArbiter_settleTime (hi : r.index.toNat = 4) (hw : r.word.toNat = 1) : writeArbiter r s =
    (s.setArbiter { s.plant.arbiter with settleTime := r.number 0 2 }).acceptWrite 7 r := by
  simp [writeArbiter, hl, hi, hw, arbiterTable]

section
variable (hi : r.index.toNat = 4) (hw : r.word.toNat = 0)
include hi hw

theorem writeArbiter_budget (fits : s.plant.reserved ≤ r.number 0 2) : writeArbiter r s =
    (s.setArbiter { s.plant.arbiter with budget := r.number 0 2 }).examineGrowth.acceptWrite 7 r := by
  simp [writeArbiter, hl, hi, hw, Nat.not_lt.2 fits, arbiterTable]

theorem writeArbiter_budget_exceeded (exceeds : ¬s.plant.reserved ≤ r.number 0 2) :
    writeArbiter r s = (s, s.overBudget) := by
  simp [writeArbiter, hl, hi, hw, Nat.lt_of_not_le exceeds]

end

variable {c : Chamber} (hc : r.index.toNat = c.val)
include hc

theorem writeArbiter_priority (hw : r.word.toNat = 1) (within : r.byte 0 ≤ 15) : writeArbiter r s =
    (s.setArbiter { s.plant.arbiter with priority := s.plant.arbiter.priority.set c (r.byte 0) }).acceptWrite 7 r := by
  simp [writeArbiter, hl, hc, hw, Nat.not_lt.2 within, Nat.not_lt.2 c.isLt.le, arbiterTable]

theorem writeArbiter_priority_badValue (hw : r.word.toNat = 1) (above : ¬r.byte 0 ≤ 15) :
    writeArbiter r s = (s, badField 2) := by
  simp [writeArbiter, hl, hc, hw, Nat.lt_of_not_le above, Nat.not_lt.2 c.isLt.le]

variable (hw : r.word.toNat = 0)
include hw

theorem writeArbiter_inUse (busy : (s.engine c).state ≠ .idle) : writeArbiter r s = (s, s.refuseWith .inUse 7 r) := by
  simp [writeArbiter, hl, hc, hw, busy, Nat.not_lt.2 c.isLt.le, arbiterTable]

variable (idle : (s.engine c).state = .idle)
include idle

theorem writeArbiter_allowance
    (fits : max (r.number 0 2) (s.plant.reservation c) + otherReservations s.plant c ≤ s.plant.arbiter.budget) :
    writeArbiter r s = (s.setArbiter
      { s.plant.arbiter with
        allowance := s.plant.arbiter.allowance.set c (r.number 0 2)
        reservation := s.plant.arbiter.reservation.set c (r.number 0 2) }).examineGrowth.acceptWrite 7 r := by
  simp [writeArbiter, hl, hc, hw, idle, Nat.not_lt.2 fits, Nat.not_lt.2 c.isLt.le, arbiterTable]

theorem writeArbiter_allowance_exceeded
    (exceeds : ¬max (r.number 0 2) (s.plant.reservation c) + otherReservations s.plant c ≤ s.plant.arbiter.budget) :
    writeArbiter r s = (s, s.overBudget) := by
  simp [writeArbiter, hl, hc, hw, idle, Nat.lt_of_not_le exceeds, Nat.not_lt.2 c.isLt.le]

end

/-- Settles O25. -/
theorem arbiterWritesStored : Obligations.ArbiterWritesStored := by
  refine ⟨fun r s takes hl => ⟨fun absent => ?_, fun hi hw => ?_, fun hi hw => ?_, fun c hc => ⟨fun hw => ?_, fun hw =>
    ⟨fun busy => ?_, fun idle => ?_⟩⟩⟩, fun s => State.examineGrowth_ends⟩
  · exact congrArg _ (takes.answers_noObject _ (writeArbiter_noObject hl absent))
  · exact congrArg _ (takes.answers_stored (writeArbiter_settleTime hl hi hw))
  · split
    · next fits => exact congrArg _ (takes.answers_stored (writeArbiter_budget hl hi hw fits))
    · next exceeds => exact congrArg _ (takes.answers_overBudget (writeArbiter_budget_exceeded hl hi hw exceeds))
  · split
    · next within => exact congrArg _ (takes.answers_stored (writeArbiter_priority hl hc hw within))
    · next above => exact congrArg _ (takes.answers_badField (writeArbiter_priority_badValue hl hc hw above))
  · exact congrArg _ (takes.answers_refused (writeArbiter_inUse hl hc hw busy))
  · split
    · next fits => exact congrArg _ (takes.answers_stored (writeArbiter_allowance hl hc hw idle fits))
    · next exceeds => exact congrArg _ (takes.answers_overBudget (writeArbiter_allowance_exceeded hl hc hw idle exceeds))

end Sys2Proof.Machine
end

/-! ### HOLD (R69 to R73) -/
section
namespace Sys2Proof.Machine

variable {s : State} {x : Ctx} {expire : Expire} {c : Chamber} {p q : Plant}

theorem addSource_enters (source : HoldSource) (atDeadline : Bool)
    (active : (p.engine c).state = .running ∨ (p.engine c).state = .waiting) :
    addSource x expire c source atDeadline p = enterHold x expire (examineGrowth x expire) c source atDeadline p := by
  unfold addSource
  rcases active with k | k <;> simp only [k]

theorem addSource_joins (source : HoldSource) (atDeadline : Bool) (held : (p.engine c).state = .held) :
    addSource x expire c source atDeadline p =
      p.setEngine c { p.engine c with sources := (p.engine c).sources.insert source } := by
  unfold addSource
  simp only [held]

theorem holdChamber_adds
    (active : (s.engine c).state = .running ∨ (s.engine c).state = .waiting ∨ (s.engine c).state = .held) :
    holdChamber c s = ({ s with plant := addSource s.ctx (expireNow s.ctx) c .controller false s.plant }, none) := by
  unfold holdChamber
  rcases active with k | k | k <;> rw [k] <;> rfl

theorem holdChamber_wrongState
    (other : (s.engine c).state = .idle ∨ (s.engine c).state = .done ∨ (s.engine c).state = .safe) :
    holdChamber c s = (s, some { result := .wrongState }) := by
  unfold holdChamber
  rcases other with k | k | k <;> rw [k] <;> rfl

/-- The hold record of an engine held before its deadline: one already present is kept, without elapsed time (R69). -/
theorem Engine.writeHold_early (e : Engine) (now : Nat) (step : StepRecord) : e.writeHold now step false =
    match e.hold with
    | some h => { h with elapsed := 0, mode := .continue }
    | none =>
      { heldFrom := if e.state = .running then .running else .waiting, step := e.step
        elapsed := if e.state = .running then min (now - e.startTime) step.dwell else 0
        loops := e.loops, startTable := e.startTable, outputTable := e.outputTable, mode := .continue } := by
  unfold Engine.writeHold
  cases e.hold <;> simp

/-- What a chamber gives up at hold entry (R70). -/
theorem enterHold_givesUp (x : Ctx) (c : Chamber) (source : HoldSource) (atDeadline : Bool) (p : Plant) :
    p.GivesUp x (expireNow x) c
      { p.engine c with hold := some ((p.engine c).writeHold x.now (x.stepRecord (p.engine c).step) atDeadline)
                        timer := none, counter := 0, awaited := .nothing }
      (enterHold x (expireNow x) (examineGrowth x (expireNow x)) c source atDeadline p) := by
  have spares := fun (q r : Plant) (d : Chamber) => expireNow_spares x c q r d
  have rests := enterHold_rests (x := x) spares (examine := examineGrowth x (expireNow x))
    (fun q => examineGrowth_spares spares) source atDeadline p
  refine ⟨rests.out, rests.line, rests.reservation, ?_, fun d ne outside => ?_⟩
  · exact enterHold_handsBack spares (fun t d q => settles_expireWithin x 4 d q) source atDeadline p
  · exact (Plant.Spares.refl outside).enterHold spares_expireNow (fun q hq => hq.examineGrowth spares_expireNow) ne.symm _ _

/-- A notice raised in the course of an event is pending where the slot was enabled before it. -/
theorem Plant.Raised.pending {n : ChamberNotice} (raised : q.Raised c n) (leaves : p.Leaves q)
    (enabled : p.notices[noticeSlot c n].enabled = true) : q.notices[noticeSlot c n].pending = true :=
  raised ((leaves.enabled _).trans enabled)

/-- Settles O33. -/
theorem holdEnters : Obligations.HoldEnters := by
  intro r s c takes only e dwell record
  have written : e.writeHold s.now (s.stepRecord e.step) false = record := e.writeHold_early _ _
  refine ⟨fun active => ?_, fun held => ?_, fun other => ?_⟩
  · have givesUp := enterHold_givesUp s.ctx c .controller false s.plant
    have rests := enterHold_rests (x := s.ctx) (fun q r d => expireNow_spares s.ctx c q r d)
      (fun q => examineGrowth_spares (x := s.ctx) fun q r d => expireNow_spares s.ctx c q r d) .controller false s.plant
    have leaves := (Plant.Leaves.refl s.plant).addSource (x := s.ctx) (leaves_expireNow s.ctx) c .controller false
    refine ⟨_, congrArg _ (takes.chamber_accepts only codeHold (holdChamber_adds (active.imp_right .inl))), ?_⟩
    rw [addSource_enters (p := s.plant) _ _ active] at leaves ⊢
    rw [← written]
    exact ⟨rests.engine, givesUp.reservation, rests.permit, givesUp.out, givesUp.line, givesUp.others, givesUp.handsBack,
      (Plant.raised_notify _ _ _ _ _).pending leaves⟩
  · refine congrArg _ (takes.chamber_accepts only codeHold ?_)
    rw [holdChamber_adds (.inr (.inr held)), addSource_joins (p := s.plant) _ _ held]
    rfl
  · exact congrArg _ (takes.chamber_refuses only codeHold (holdChamber_wrongState other))

end Sys2Proof.Machine
end

/-! ### A selection of the roughing line (R123, R124) -/
section
namespace Sys2Proof.Machine

/-- The chamber of the lowest priority value, the earliest of those, is the one a selection chooses (R123). -/
theorem chooseChamber_lowest {priority : Vector Nat 4} {c : Chamber} {before after : List Chamber}
    (lower : ∀ d ∈ before, priority[c] < priority[d]) (lowest : ∀ d ∈ after, priority[c] ≤ priority[d]) :
    chooseChamber priority (before ++ c :: after) = some c := by
  induction before with
  | nil =>
    rw [List.nil_append, chooseChamber]
    cases later : chooseChamber priority after with
    | none => rfl
    | some d => exact if_neg (Nat.not_lt.2 (lowest d (chooseChamber_mem later)))
  | cons d rest ih =>
    obtain ⟨first, others⟩ := List.forall_mem_cons.1 lower
    rw [List.cons_append, chooseChamber, ih others]
    exact if_pos first

theorem filter_ne_of_nodup {c : Chamber} {before after : List Chamber} (distinct : (before ++ c :: after).Nodup) :
    (before ++ c :: after).filter (· ≠ c) = before ++ after := by
  obtain ⟨outside, -⟩ := List.nodup_cons.1 (List.nodup_middle.1 distinct)
  rw [List.mem_append, not_or] at outside
  have kept {rest : List Chamber} (h : c ∉ rest) : rest.filter (· ≠ c) = rest :=
    List.filter_eq_self.2 fun d hd => by simpa using fun same : d = c => h (same ▸ hd)
  rw [List.filter_append, List.filter_cons_of_neg (by simp), kept outside.1, kept outside.2]

variable {s : State} {x : Ctx} {expire : Expire} {c : Chamber} {p : Plant}

/-! #### The chamber chosen -/

/-- Chamber c is queued for a line that a selection gives to it (R119, R120, R127). -/
structure Plant.Selects (p : Plant) (c : Chamber) (left : List Chamber) : Prop where
  chosen : p.chosen = some c
  remaining : p.arbiter.queue.filter (· ≠ c) = left
  state : ((p.engine c).state = .waiting ∧ (p.engine c).awaited = .line) ∨ (p.engine c).state = .idle
  outside : c ∉ left
  growth : ∀ g ∈ p.arbiter.growth, g.chamber ≠ c

theorem Plant.Sound.selects {up : Bool} (sound : p.Sound up) {before after : List Chamber}
    (queue : p.arbiter.queue = before ++ c :: after)
    (lower : ∀ d ∈ before, p.arbiter.priority[c] < p.arbiter.priority[d])
    (lowest : ∀ d ∈ after, p.arbiter.priority[c] ≤ p.arbiter.priority[d]) : p.Selects c (before ++ after) := by
  obtain ⟨distinct, waits, -⟩ := sound.queue
  have state := waits c (by rw [queue]; simp)
  rw [queue] at distinct
  refine ⟨?_, by rw [queue, filter_ne_of_nodup distinct], state, ?_, fun g hg same => ?_⟩
  · rw [Plant.chosen, queue, chooseChamber_lowest lower lowest]
  · exact (List.nodup_cons.1 (List.nodup_middle.1 distinct)).1
  · obtain ⟨waiting, growing, -⟩ := sound.growth.2 g hg
    rw [same] at waiting growing
    rcases state with ⟨-, line⟩ | idle
    · rw [growing] at line; cases line
    · rw [waiting] at idle; cases idle

namespace Plant.Selects

variable {left : List Chamber} (selects : p.Selects c left)
include selects

theorem grantLine_eq : grantLine x expire c p = handLine x expire c (p.setLine (.granted c) left) := by
  rw [grantLine, selects.remaining]

theorem selectLine_eq : selectLine x expire p = grantLine x expire c p := by
  rw [selectLine, selects.chosen]

/-- An IDLE chamber holds the line, and that is all (R124). -/
theorem grants_idle (idle : (p.engine c).state = .idle) : grantLine x expire c p = p.setLine (.granted c) left := by
  rw [selects.grantLine_eq]
  exact if_neg fun waits => by rw [Plant.setLine_engine, idle] at waits; cases waits.1

theorem grants_waiting (waiting : (p.engine c).state = .waiting) :
    grantLine x expire c p = runStep x expire c (p.setLine (.granted c) left) := by
  have line : (p.engine c).awaited = .line := by
    rcases selects.state with ⟨-, line⟩ | idle
    · exact line
    · rw [waiting] at idle; cases idle
  rw [selects.grantLine_eq]
  exact if_pos ⟨waiting, line⟩

/-- A fresh step enters RUNNING (R49, R124). -/
theorem grants_fresh (waiting : (p.engine c).state = .waiting) (fresh : (p.engine c).hold = none) :
    grantLine x expire c p = (p.setLine (.granted c) left).setEngine c
      ((p.engine c).runFresh x.now (x.stepRecord (p.engine c).step) (p.engine c).outputTable) := by
  rw [selects.grants_waiting waiting, runStep, Plant.setLine_engine]
  simp only [fresh]

/-- A step with its resume pending is taken up (R77, R78). -/
theorem grants_resumed {h : HoldRecord} (waiting : (p.engine c).state = .waiting) (pending : (p.engine c).hold = some h) :
    (p.setLine (.granted c) left).ResumesIn x c h (grantLine x (expireNow x) c p) := by
  rw [selects.grants_waiting waiting]
  exact runStep_resumes ⟨selects.outside, selects.growth⟩ pending

end Plant.Selects

/-! #### SETTLE_EXPIRY and LINE_GRANTED -/

theorem execSettleExpiry_stopped (h : ∀ t, s.plant.arbiter.line ≠ .settling t) : execSettleExpiry s = .next s := by
  unfold execSettleExpiry
  split
  · next t settling => exact absurd settling (h t)
  · rfl
  · rfl

theorem execLineGranted_other (h : s.plant.chosen ≠ some c) : execLineGranted c s = .next s := by
  unfold execLineGranted
  split
  · rfl
  · rw [if_neg h]

theorem execLineGranted_held {d : Chamber} (h : s.plant.arbiter.line = .granted d) : execLineGranted c s = .next s := by
  rw [execLineGranted, h]
  rfl

theorem execSettleExpiry_settling {t : Nat} (h : s.plant.arbiter.line = .settling t) : execSettleExpiry s =
    .next { s.advanceTo t with
      plant := selectLine (s.advanceTo t).ctx (expireNow (s.advanceTo t).ctx) s.plant } := by
  rw [execSettleExpiry, h]
  rfl

theorem execLineGranted_chosen {t : Nat} (h : s.plant.arbiter.line = .settling t) (chosen : s.plant.chosen = some c) :
    execLineGranted c s = .next { s.advanceTo t with
      plant := grantLine (s.advanceTo t).ctx (expireNow (s.advanceTo t).ctx) c s.plant } := by
  rw [execLineGranted, h]
  dsimp only [LineState.selectionTime]
  rw [if_pos chosen]
  rfl

/-- Settles O44. -/
theorem selectionGrantsLine : Obligations.SelectionGrantsLine := by
  refine ⟨fun s => ⟨execSettleExpiry_stopped, fun c none => ?_⟩, fun s t settling => ⟨fun empty => ?_, ?_⟩⟩
  · rcases none with empty | ⟨d, granted⟩
    · exact execLineGranted_other (by rw [Plant.chosen, empty]; nofun)
    · exact execLineGranted_held granted
  · refine (execSettleExpiry_settling settling).trans ?_
    rw [selectLine, Plant.chosen, empty]
    rfl
  · intro c before after queue lower lowest safe granted e step running
    have selects := Plant.Sound.selects safe queue lower lowest
    have both {q : Plant} (grants : grantLine (s.advanceTo t).ctx (expireNow (s.advanceTo t).ctx) c s.plant = q) :
        exec .settleExpiry s = .next { s.advanceTo t with plant := q } ∧
          exec (.lineGranted c) s = .next { s.advanceTo t with plant := q } := by
      rw [← grants]
      exact ⟨(execSettleExpiry_settling settling).trans (by rw [selects.selectLine_eq]),
        execLineGranted_chosen settling selects.chosen⟩
    refine ⟨fun idle => both (selects.grants_idle idle), fun waiting fresh => both ?_, fun h waiting pending => ?_,
      fun d ne => ?_⟩
    · rw [selects.grants_fresh waiting fresh, Engine.runFresh, ← fresh]
      rfl
    · exact ⟨_, selects.grants_resumed waiting pending, both rfl⟩
    · exact execLineGranted_other (by rw [selects.chosen]; simpa using ne.symm)

end Sys2Proof.Machine
end

/-! ### The deadline of a conditioned step (R52, R57, R58, R61, R69, R70) -/
section
namespace Sys2Proof.Machine

variable {s : State} {x : Ctx} {c : Chamber} {p q : Plant} {e : Engine}

/-- A RUNNING engine awaits nothing and has no hold source (Tables 3-1 and 2-6, R67). -/
theorem Engine.Consistent.running (h : e.Consistent) (hs : e.state = .running) : e.awaited = .nothing ∧ e.sources = {} :=
  ⟨Decidable.not_not.1 fun k => by simpa [hs] using h.awaited.1 k, HoldSources.eq_empty (h.sources.2 (by simp [hs]))⟩

/-- The notice that an event begins with takes nothing from the chambers the event spares. -/
theorem Plant.Spares.of_notify {d : Chamber} {n : ChamberNotice} {k : Nat} (out : p.Out d)
    (spared : (p.notify x c n k).Spares d q) : p.Spares d q := ((Plant.Spares.refl out).notify c n k).trans spared

/-- The deadline of a conditioned step raises STEP_TIMEOUT, whatever its action (R57). -/
theorem dwellEnds_raises (running : (p.engine c).state = .running) (runs : (p.engine c).timer.isSome = true)
    (conditioned : (x.stepRecord (p.engine c).step).isConditioned = true) :
    (dwellEnds x (expireNow x) c p).Raised c .stepTimeout := by
  have raised := Plant.raised_notify x c .stepTimeout (p.engine c).step p
  have refl := Plant.Leaves.refl (p.notify x c .stepTimeout (p.engine c).step)
  unfold dwellEnds
  dsimp only
  rw [if_pos ⟨running, runs⟩, if_pos conditioned]
  split
  · exact raised.leaves (refl.endStep (leaves_expireNow x) c)
  · exact raised.leaves (refl.addSource (leaves_expireNow x) c .engine true)
  · exact raised.leaves (refl.enterSafe (leaves_expireNow x) c)
  · exact raised

/-- DWELL_EXPIRY of a running timer is its expiry in the context of its time, or of the timebase past it (R52). -/
theorem execDwellExpiry_expires {t : Nat} (safe : s.Safe) (timer : (s.engine c).timer = some t) :
    let x := (s.advanceTo t).ctx
    ∃ q : Plant, execDwellExpiry c s = .next { s.advanceTo t with plant := q } ∧ s.plant.Leaves q ∧
      s.plant.Expires x (expireNow x) c q ∧
      ((s.stepRecord (s.engine c).step).isConditioned = true → q.Raised c .stepTimeout) := by
  intro x
  have runs : (s.engine c).timer.isSome = true := Option.isSome_iff_exists.2 ⟨t, timer⟩
  have running : (s.engine c).state = .running := (safe.cells c).timer runs
  obtain ⟨out, fresh⟩ := Plant.Sound.running safe running
  refine ⟨_, execDwellExpiry_running timer running, (Plant.Leaves.refl s.plant).dwellEnds (leaves_expireNow x) c, ?_,
    dwellEnds_raises (x := x) running runs⟩
  exact dwellEnds_takes (fun d q r e => expireNow_spares x d q r e) (leaves_expireNow x)
    (fun t d q => settles_expireWithin x 4 d q) out running runs fresh

/-! #### Step conditions at a cycle close (R54 to R56) -/

section
variable {expire : Expire}

theorem evaluateCondition_rests
    (h : (p.engine c).state ≠ .running ∨ (x.stepRecord (p.engine c).step).isConditioned = false) :
    evaluateCondition x expire c p = p :=
  if_neg fun ⟨running, conditioned⟩ => h.elim (absurd running) fun k => by rw [k] at conditioned; cases conditioned

variable (running : (p.engine c).state = .running)
  (conditioned : (x.stepRecord (p.engine c).step).isConditioned = true)
include running conditioned

theorem evaluateCondition_zeroes (unmet : conditionMet x c (x.stepRecord (p.engine c).step) = false) :
    evaluateCondition x expire c p = p.setEngine c { p.engine c with counter := 0 } :=
  (if_pos ⟨running, conditioned⟩).trans (if_neg (ne_true_of_eq_false unmet))

variable (met : conditionMet x c (x.stepRecord (p.engine c).step) = true)
include met

theorem evaluateCondition_counts (below : (p.engine c).counter + 1 < (x.stepRecord (p.engine c).step).count) :
    evaluateCondition x expire c p = p.setEngine c { p.engine c with counter := (p.engine c).counter + 1 } :=
  (if_pos ⟨running, conditioned⟩).trans ((if_pos met).trans (if_neg (Nat.not_le.2 below)))

theorem evaluateCondition_ends (reached : (x.stepRecord (p.engine c).step).count ≤ (p.engine c).counter + 1) :
    evaluateCondition x expire c p =
      endStep x expire c (p.setEngine c { p.engine c with counter := (p.engine c).counter + 1 }) :=
  (if_pos ⟨running, conditioned⟩).trans ((if_pos met).trans (if_pos reached))

theorem evaluateCondition_takes {up : Bool} (sound : p.Sound up)
    (reached : (x.stepRecord (p.engine c).step).count ≤ (p.engine c).counter + 1) :
    (p.setEngine c (({ p.engine c with counter := (p.engine c).counter + 1 } : Engine).afterStep
      (x.stepRecord (p.engine c).step))).TakesBoundary x (expireNow x) c (evaluateCondition x (expireNow x) c p) := by
  obtain ⟨out, fresh⟩ := sound.running running
  have takes := endStep_takes (x := x) (p := p.setEngine c { p.engine c with counter := (p.engine c).counter + 1 }) out
    (by rw [Plant.engine_setEngine_self]; exact fresh)
  rw [Plant.engine_setEngine_self, Plant.setEngine_setEngine] at takes
  rw [evaluateCondition_ends running conditioned met reached]
  exact takes

end

/-! #### Table 3-5 -/

section
variable {step : StepRecord}

theorem conditionMet_pumpTo (kind : step.kind.toNat = 1) : conditionMet x c step = true ↔ x.pressureLevel c ≤ step.level := by
  rw [conditionMet, show step.kindOf = some .pumpTo from StepRecord.kindOf_eq_some_iff.2 kind]
  exact decide_eq_true_iff

theorem conditionMet_ventTo (kind : step.kind.toNat = 2) : conditionMet x c step = true ↔ step.level ≤ x.pressureLevel c := by
  rw [conditionMet, show step.kindOf = some .ventTo from StepRecord.kindOf_eq_some_iff.2 kind]
  exact decide_eq_true_iff

theorem Ctx.valueOfKind_eq {k : ChannelKind} {h : Chan} (named : (x.record c h).kind = k)
    (alone : ∀ j, (x.record c j).kind = k → j = h) : x.valueOfKind c k = (x.status c h).value := by
  rw [Ctx.valueOfKind, Ctx.channelOfKind_eq named alone]

theorem conditionMet_strike (kind : step.kind.toNat = 3) : conditionMet x c step = true ↔
    step.minForward ≤ x.valueOfKind c .rfForward ∧
      powerRatio (x.valueOfKind c .rfForward) (x.valueOfKind c .rfReflected) ≤ step.ratio := by
  rw [conditionMet, show step.kindOf = some .strike from StepRecord.kindOf_eq_some_iff.2 kind]
  simp only [Bool.and_eq_true, decide_eq_true_eq]

end

/-- The step conditions of a cycle close are those of the chambers that were RUNNING before it (R54). -/
theorem State.closeCycle_eq (s : State) (slots : List Slot) :
    let guarded := (s.takeReadings slots).guardPass (fun _ _ => true) chambers
    s.closeCycle slots = { guarded with plant := chambers.foldl (fun p c =>
      if (s.engine c).state = .running then evaluateCondition guarded.ctx (expireNow guarded.ctx) c p else p) guarded.plant } := by
  simp only [State.closeCycle, State.evaluateConditions, State.onPlant, beq_iff_eq]
  rfl

/-- Settles O47. -/
theorem dwellExpiryTimesOut : Obligations.DwellExpiryTimesOut := by
  refine ⟨fun s c t safe timer conditioned => ?_, fun x up p c sound => ⟨evaluateCondition_rests, fun running conditioned =>
      ⟨evaluateCondition_zeroes running conditioned, fun met => ⟨evaluateCondition_counts running conditioned met,
        evaluateCondition_takes running conditioned met sound⟩⟩⟩,
    fun x c step => ⟨conditionMet_pumpTo, conditionMet_ventTo, fun f g kind forward reflected oneF oneG => ?_⟩,
    State.closeCycle_eq⟩
  · intro e step raised handsBack
    have running : e.state = .running := (safe.cells c).timer (Option.isSome_iff_exists.2 ⟨t, timer⟩)
    obtain ⟨awaited, sources⟩ := (safe.cells c).running running
    obtain ⟨q, expiry, leaves, expires, timeout⟩ := execDwellExpiry_expires safe timer
    refine ⟨fun action => ?_, fun action => ?_, fun action => ?_⟩
    · obtain ⟨givesUp, permit, -, entered, engine⟩ := expires.safe conditioned action
      rw [← awaited] at givesUp engine
      rw [← sources] at engine
      exact ⟨q, expiry, engine, givesUp.reservation, permit, givesUp.out, givesUp.line, (timeout conditioned).pending leaves,
        entered.pending leaves, givesUp.handsBack, fun d ne outside => (givesUp.others d ne outside).of_notify outside⟩
    · obtain ⟨givesUp, permit, -, entered, engine⟩ := expires.holds conditioned action
      rw [← awaited] at givesUp engine
      exact ⟨q, expiry, engine, givesUp.reservation, permit, givesUp.out, givesUp.line, (timeout conditioned).pending leaves,
        entered.pending leaves, givesUp.handsBack, fun d ne outside => (givesUp.others d ne outside).of_notify outside⟩
    · exact ⟨q, expiry, (timeout conditioned).pending leaves, expires.advances conditioned action⟩
  · rw [conditionMet_strike kind, Ctx.valueOfKind_eq forward oneF, Ctx.valueOfKind_eq reflected oneG]
    rfl

end Sys2Proof.Machine
end

/-! ### The rows that take a record, and what every command leaves of the queue (R142, R152, R154, R155) -/
section
namespace Sys2Proof.Machine

variable {s : State} {r : Request}

/-- A row that takes a record does so by a command that leaves the queue of waiting commands (R155). -/
theorem exec_takesRecord (s : State) {code : Nat} : ∀ i : Instr, recordOf i = some (code, r) → code ≠ codeAssign ∧
    ∃ command : State → State × Answer, s.Serves (command s).1 ∧ exec i s = .next (s.takeRecord code r command)
  | .read _ _, h => by cases h; exact ⟨by decide, _, .refl s, rfl⟩
  | .write table _, h => by cases h; exact ⟨by decide, _, .writeTable s table.toNat, rfl⟩
  | .slotMapWrite _, h => by cases h; exact ⟨by decide, _, .writeSlotMap s, rfl⟩
  | .channelWrite _, h => by cases h; exact ⟨by decide, _, .writeChannel s, rfl⟩
  | .stepWrite _, h => by cases h; exact ⟨by decide, _, .writeStep s, rfl⟩
  | .guardWrite _, h => by cases h; exact ⟨by decide, _, .writeGuard s, rfl⟩
  | .levelWrite _, h => by cases h; exact ⟨by decide, _, .writeLevel s, rfl⟩
  | .inputWrite _, h => by cases h; exact ⟨by decide, _, .writeInput s, rfl⟩
  | .arbiterWrite _, h => by cases h; exact ⟨by decide, _, .writeArbiter s, rfl⟩
  | .ringWrite _, h => by cases h; exact ⟨by decide, _, .writeRing s, rfl⟩
  | .noticeWrite _, h => by cases h; exact ⟨by decide, _, .writeNotice s, rfl⟩
  | .stepCheck _, h => by cases h; exact ⟨by decide, _, .checkSteps s, rfl⟩
  | .levelCheck _, h => by cases h; exact ⟨by decide, _, .checkLevels s, rfl⟩
  | .checkNoObject table _, h => by cases h; exact ⟨by decide, _, .checkTable s table.toNat, rfl⟩
  | .start _, h => by cases h; exact ⟨by decide, _, .commandStart s, rfl⟩
  | .hold _, h => by cases h; exact ⟨by decide, _, .commandHold s, rfl⟩
  | .resume _, h => by cases h; exact ⟨by decide, _, .commandResume s, rfl⟩
  | .abort _, h => by cases h; exact ⟨by decide, _, .commandAbort s, rfl⟩
  | .release _, h => by cases h; exact ⟨by decide, _, .commandRelease s, rfl⟩
  | .clear _, h => by cases h; exact ⟨by decide, _, .commandClear s, rfl⟩
  | .lock _, h => by cases h; exact ⟨by decide, _, .commandLock s, rfl⟩

/-- An ASSIGN in reset, for another address or without room is not taken (R152, R154, R155). -/
theorem State.takeRecord_assign_left
    (h : s.inReset = true ∨ r.address ≠ s.address ∨ Config.responseRoom ≤ s.responses.length)
    (command : State → State × Answer) : s.takeRecord codeAssign r command = s := by
  refine if_neg fun taken => ?_
  simp only [State.addressed, State.hasRoom, Bool.and_eq_true, Bool.not_eq_true', beq_iff_eq, decide_eq_true_eq] at taken
  obtain ⟨⟨acts, own, -⟩, room⟩ := taken
  rcases h with reset | other | full
  · rw [acts] at reset; cases reset
  · exact other own
  · exact Nat.not_lt.2 full room

/-- A RESTART_PART in reset, for another address or at address 0 is not taken (R152, R155, R164). -/
theorem execRestartPart_left (h : s.inReset = true ∨ r.address ≠ s.address ∨ s.address = 0#8) :
    execRestartPart r s = .next s := by
  refine congrArg Host.Outcome.next (if_neg fun taken => ?_)
  simp only [State.addressed, Bool.and_eq_true, Bool.not_eq_true', beq_iff_eq, bne_iff_ne, Bool.or_eq_true] at taken
  obtain ⟨acts, own, assigned⟩ := taken
  rcases h with reset | other | none
  · rw [acts] at reset; cases reset
  · exact other own
  · exact assigned.elim (fun some => some none) (by decide)

/-- Settles O14: every row of `recordOf` takes its record by `takeRecord`; ASSIGN and RESTART_PART by conditions of their own. -/
theorem recordNotTakenLeavesPart : Obligations.RecordNotTakenLeavesPart := by
  refine ⟨fun i code r s row left => ?_, fun r s h => congrArg _ (State.takeRecord_assign_left h _),
    fun r s h => execRestartPart_left h⟩
  obtain ⟨other, command, -, row⟩ := exec_takesRecord s i row
  rw [row, State.takeRecord_left left other]

theorem State.takeOutbound_pending (s : State) (f : Frame) : (s.takeOutbound f).1.pending = s.pending := by
  have opened : ((s.arrival.overrun).openCycleWith f.cycle.toNat).pending = s.pending :=
    (State.Serves.overrun _).pending.trans (State.Serves.arrival s).pending
  exact (takeMailbox_pending _ _).trans ((State.Serves.substitute _ _).pending.trans opened)

theorem State.takeReturn_pending (s : State) (f : Frame) : (s.takeReturn f).1.pending = s.pending := by
  have matched : (s.matchReturn f).pending = s.pending := by
    unfold State.matchReturn
    split
    · exact (State.Serves.closeCycle s f.slots).pending
    · rfl
  unfold State.takeReturn State.postNotices State.postResponses
  exact matched

theorem State.changeLevel_pending (s : State) (l : Line) (high : Bool) : (s.changeLevel l high).pending = s.pending := by
  unfold State.changeLevel
  dsimp only
  split
  · rfl
  · split
    · rfl
    · split
      · rfl
      · split
        · exact (State.Serves.guardPass _ _ _).pending
        · rfl

theorem execOutboundPassage_pending (time : Nat) (bytes : List Byte) (s : State) :
    ∃ t, execOutboundPassage time bytes s = .next t ∧ t.pending = s.pending := by
  refine ⟨_, rfl, ?_⟩
  split
  · rfl
  · split
    · rfl
    · rfl
    · next f _ => exact (s.advanceTo time).takeOutbound_pending f

theorem execReturnPassage_pending (time : Nat) (bytes : List Byte) (s : State) :
    ∃ t, execReturnPassage time bytes s = .next t ∧ t.pending = s.pending := by
  refine ⟨_, rfl, ?_⟩
  split
  · rfl
  · split
    · rfl
    · rfl
    · next f _ => exact (s.advanceTo time).takeReturn_pending f

/-- A row that takes no record by the part's own address answers a next state too, and leaves the queue. -/
theorem exec_event_pending (s : State) : ∀ i : Instr, recordOf i = none → ∃ t, exec i s = .next t ∧ t.pending = s.pending
  | .outboundPassage time bytes, _ => execOutboundPassage_pending time bytes s
  | .returnPassage time bytes, _ => execReturnPassage_pending time bytes s
  | .restartPart _, _ => ⟨_, rfl, by split; exacts [s.softReset_pending, rfl]⟩
  | .assign _, _ => ⟨_, rfl, State.takeRecord_pending _ (.commandAssign s)⟩
  | .broadcast command _, _ => ⟨_, rfl, (State.Serves.broadcast s command.toNat).pending⟩
  | .growthServed _, _ => ⟨_, rfl, by split; exacts [rfl, by split <;> rfl]⟩
  | .lineGranted _, _ => ⟨_, rfl, by split; exacts [rfl, by split <;> rfl]⟩
  | .dwellExpiry _, _ => ⟨_, rfl, by split; exacts [rfl, by split <;> rfl]⟩
  | .settleExpiry, _ => ⟨_, rfl, by split <;> rfl⟩
  | .ringWatchExpiry, _ => ⟨_, rfl, by split; exacts [rfl, by split <;> rfl]⟩
  | .inputLevelChange time l high, _ => ⟨_, rfl, by split; exacts [rfl, (s.advanceTo time).changeLevel_pending l high]⟩
  | .inputAcceptance _, _ => ⟨_, rfl, by split <;> rfl⟩
  | .graceLapse _ _, _ => ⟨_, rfl, by split <;> rfl⟩
  | .powerOnReset _, _ => ⟨_, rfl, by split <;> rfl⟩
  | .resetEnd, _ => ⟨_, rfl, by split <;> rfl⟩

/-- Settles O2: the rows that take a record, and the others one by one. -/
theorem everyCommandAnswers : Obligations.EveryCommandAnswers := by
  intro i s
  cases row : recordOf i with
  | none => exact exec_event_pending s i row
  | some taken =>
    obtain ⟨-, command, serves, next⟩ := exec_takesRecord s i row
    exact ⟨_, next, State.takeRecord_pending _ serves⟩

end Sys2Proof.Machine
end

/-! ### Passages by the class of their frame (R142 to R144, R152) -/
section
namespace Sys2Proof.Machine

variable {s : State} {time : Nat} {bytes : List Byte} {f : Frame}

theorem State.overrun_eq (s : State) : s.overrun = if s.ring.openCycle = none then s else s.closeCycle [] := by
  unfold State.overrun
  cases s.ring.openCycle <;> rfl

theorem exec_outbound_inReset (reset : s.inReset = true) : exec (.outboundPassage time bytes) s = .next (s.sendDown bytes) :=
  congrArg Host.Outcome.next (if_pos reset)

theorem exec_return_inReset (reset : s.inReset = true) : exec (.returnPassage time bytes) s = .next (s.sendUp bytes) :=
  congrArg Host.Outcome.next (if_pos reset)

section
variable (acts : s.inReset = false)
include acts

theorem exec_outbound_bad (h : classify directionOut bytes = .bad) :
    exec (.outboundPassage time bytes) s = .next ((s.advanceTo time).badFrame.sendDown bytes) := by
  refine congrArg Host.Outcome.next ((if_neg (ne_true_of_eq_false acts)).trans ?_)
  rw [h]

theorem exec_outbound_foreign (h : classify directionOut bytes = .foreign) :
    exec (.outboundPassage time bytes) s = .next ((s.advanceTo time).sendDown bytes) := by
  refine congrArg Host.Outcome.next ((if_neg (ne_true_of_eq_false acts)).trans ?_)
  rw [h]

theorem exec_outbound_good (h : classify directionOut bytes = .good f) :
    exec (.outboundPassage time bytes) s =
      .next (((s.advanceTo time).takeOutbound f).1.sendDown ((s.advanceTo time).takeOutbound f).2.bytes) := by
  refine congrArg Host.Outcome.next ((if_neg (ne_true_of_eq_false acts)).trans ?_)
  rw [h]

theorem exec_return_bad (h : classify directionReturn bytes = .bad) :
    exec (.returnPassage time bytes) s = .next ((s.advanceTo time).badFrame.sendUp bytes) := by
  refine congrArg Host.Outcome.next ((if_neg (ne_true_of_eq_false acts)).trans ?_)
  rw [h]

theorem exec_return_foreign (h : classify directionReturn bytes = .foreign) :
    exec (.returnPassage time bytes) s = .next ((s.advanceTo time).sendUp bytes) := by
  refine congrArg Host.Outcome.next ((if_neg (ne_true_of_eq_false acts)).trans ?_)
  rw [h]

theorem exec_return_good (h : classify directionReturn bytes = .good f) :
    exec (.returnPassage time bytes) s =
      .next (((s.advanceTo time).takeReturn f).1.sendUp ((s.advanceTo time).takeReturn f).2.bytes) := by
  refine congrArg Host.Outcome.next ((if_neg (ne_true_of_eq_false acts)).trans ?_)
  rw [h]

end

/-- Settles O12: what is named along the way is what `takeOutbound` and `takeReturn` do, operation by operation. -/
theorem goodFramesInOrder : Obligations.GoodFramesInOrder := by
  refine ⟨fun time bytes f s acts good => ?_, fun time bytes f s acts good => ?_⟩
  · intro arrived closed opened filled taken
    have overrun : arrived.overrun = closed := arrived.overrun_eq
    rw [exec_outbound_good acts good, State.takeOutbound, overrun]
    rfl
  · intro now closed matched responded noticed
    have matching : now.matchReturn f = matched := rfl
    rw [exec_return_good acts good, State.takeReturn, matching]

/-- Settles O13, class by class. -/
theorem framesPassUntouched : Obligations.FramesPassUntouched := fun _ _ _ =>
  ⟨fun reset => ⟨exec_outbound_inReset reset, exec_return_inReset reset⟩, fun acts =>
    ⟨exec_outbound_bad acts, exec_return_bad acts, exec_outbound_foreign acts, exec_return_foreign acts⟩⟩

end Sys2Proof.Machine
end

/-! ### WRITE on RING (R146) -/
section
namespace Sys2Proof.Machine

variable {s : State} {r : Request}

section
variable (hl : s.lock = false)
include hl

theorem writeRing_noObject (h : r.index.toNat ≠ 0 ∨ 2 < r.word.toNat) : writeRing r s = (s, noObject) := by
  simp [writeRing, hl, h]

variable (hi : r.index.toNat = 0)
include hi

theorem writeRing_readOnly (hw : r.word.toNat = 2) : writeRing r s = (s, s.refuseWith .readOnly 8 r) := by
  simp [writeRing, hl, hi, hw, ringTable]

theorem writeRing_badNominal (hw : r.word.toNat = 0) (h : r.number 0 2 < 250 ∨ 8000 < r.number 0 2) :
    writeRing r s = (s, badField 1) := by
  simp [writeRing, hl, hi, hw, h]

theorem writeRing_nominal (hw : r.word.toNat = 0) (h1 : 250 ≤ r.number 0 2) (h2 : r.number 0 2 ≤ 8000) :
    writeRing r s = ({ s with ring := s.ring.writeNominal (r.number 0 2) } : State).acceptWrite 8 r := by
  simp [writeRing, hl, hi, hw, Nat.not_lt.2 h1, Nat.not_lt.2 h2, ringTable]

theorem writeRing_badSurvival (hw : r.word.toNat = 1) (h : r.byte 0 < 2 ∨ 64 < r.byte 0) :
    writeRing r s = (s, badField 2) := by
  simp only [writeRing, hl, hi, hw, h]
  simp

theorem writeRing_survival (hw : r.word.toNat = 1) (h1 : 2 ≤ r.byte 0) (h2 : r.byte 0 ≤ 64) :
    writeRing r s = ({ s with ring := { s.ring with survival := r.byte 0 } } : State).acceptWrite 8 r := by
  simp [writeRing, hl, hi, hw, Nat.not_lt.2 h1, Nat.not_lt.2 h2, ringTable]

end

/-- Settles O26, outcome by outcome of R146. -/
theorem ringWritesStored : Obligations.RingWritesStored := fun _ _ takes hl =>
  ⟨fun absent => congrArg _ (takes.answers_noObject _ (writeRing_noObject hl absent)), fun hi =>
    ⟨fun hw => congrArg _ (takes.answers_refused (writeRing_readOnly hl hi hw)),
      fun hw => ⟨fun h1 h2 => congrArg _ (takes.answers_stored (writeRing_nominal hl hi hw h1 h2)),
        fun bad => congrArg _ (takes.answers_badField (writeRing_badNominal hl hi hw bad))⟩,
      fun hw => ⟨fun h1 h2 => congrArg _ (takes.answers_stored (writeRing_survival hl hi hw h1 h2)),
        fun bad => congrArg _ (takes.answers_badField (writeRing_badSurvival hl hi hw bad))⟩⟩⟩

end Sys2Proof.Machine
end

/-! ### A good outbound arrival at the cycle tracker (R117, R147 to R149, R151) -/
section
namespace Sys2Proof.Machine

namespace Ring

variable {r : Ring} {now : Nat}

theorem comeUp_seeking (h : r.state = .seeking) :
    r.comeUp = { r.emptyWindow with state := .training, learned := r.nominal, rejected := false } := by
  rw [comeUp, h]

theorem comeUp_lost (h : r.state = .lost) : r.comeUp = { r.emptyWindow with state := .training, rejected := false } := by
  rw [comeUp, h]

theorem comeUp_of_up (h : r.state = .training ∨ r.state = .tracking) : r.comeUp = r := by
  rcases h with h | h <;> rw [comeUp, h]

theorem countInterval_first (h : r.lastArrival = none) : r.countInterval now = { r with lastArrival := some now } := by
  rw [countInterval, h]

theorem countInterval_next {last : Nat} (h : r.lastArrival = some last) :
    r.countInterval now = { r with lastArrival := some now, count := r.count + 1, sum := r.sum + (now - last) } := by
  rw [countInterval, h]

/-- A window that is not complete is judged by no one (R147, R149). -/
theorem arrive_incomplete {q : Ring} (hq : r.comeUp.countInterval now = q) (h : q.count < 64) :
    r.arrive now = ({ q with watch := some (now + q.survival * q.learned) }, none) := by
  simp only [arrive, hq, if_neg (Nat.not_le.2 h)]

/-- A complete window is judged before the watch restarts (R148, R149). -/
theorem arrive_complete {q j : Ring} {rejected : Option Nat} (hq : r.comeUp.countInterval now = q) (h : 64 ≤ q.count)
    (hj : q.judge = (j, rejected)) : r.arrive now = ({ j with watch := some (now + j.survival * j.learned) }, rejected) := by
  simp only [arrive, hq, if_pos h, hj]

/-! #### The judgement of a window (R148) -/

section
variable {m : Nat} (mean : r.sum / 64 = m)
include mean

theorem judge_begins (h : r.state = .training) (near : r.meanWithinNominal m = true) :
    r.judge = ({ r with count := 0, sum := 0, state := .tracking, learned := m }, none) := by
  subst mean
  exact (if_neg (by simp [h])).trans (if_pos near)

theorem judge_fails (h : r.state = .training) (far : ¬r.meanWithinNominal m = true) :
    r.judge = ({ r with count := 0, sum := 0 }, some m) := by
  subst mean
  exact (if_neg (by simp [h])).trans (if_neg far)

theorem judge_follows (h : r.state = .tracking) (near : r.meanWithinNominal m = true) :
    r.judge = ({ r with
      count := 0, sum := 0, rejected := false
      learned := if r.learned / 100 ≤ (m - r.learned) + (r.learned - m) then m else r.learned }, none) := by
  subst mean
  exact (if_pos h).trans (if_pos near)

theorem judge_rejects (h : r.state = .tracking) (far : ¬r.meanWithinNominal m = true) :
    r.judge = ({ r with count := 0, sum := 0, rejected := true }, if r.rejected then none else some m) := by
  subst mean
  exact (if_pos h).trans (if_neg far)

end

theorem meanWithinNominal_iff {m : Nat} :
    r.meanWithinNominal m = true ↔ (m - r.nominal) + (r.nominal - m) ≤ r.nominal / 10 := decide_eq_true_iff

/-! #### What an arrival leaves -/

theorem comeUp_up (r : Ring) : r.comeUp.up = true ∧ r.comeUp.lastCycle = r.lastCycle := by
  unfold comeUp
  split
  · exact ⟨rfl, rfl⟩
  · exact ⟨rfl, rfl⟩
  · next h => exact ⟨by simp [up, h], rfl⟩
  · next h => exact ⟨by simp [up, h], rfl⟩

theorem countInterval_up (r : Ring) (now : Nat) :
    (r.countInterval now).up = r.up ∧ (r.countInterval now).lastCycle = r.lastCycle := by
  unfold countInterval
  split <;> exact ⟨rfl, rfl⟩

theorem judge_up (h : r.up = true) : r.judge.1.up = true ∧ r.judge.1.lastCycle = r.lastCycle := by
  unfold judge
  dsimp only
  split
  · split
    · exact ⟨h, rfl⟩
    · exact ⟨h, rfl⟩
  · split
    · exact ⟨rfl, rfl⟩
    · exact ⟨h, rfl⟩

/-- After an arrival the ring is up, and the cycle number last taken stands (R151, R169). -/
theorem arrive_up (r : Ring) (now : Nat) : (r.arrive now).1.up = true ∧ (r.arrive now).1.lastCycle = r.lastCycle := by
  have came := r.comeUp_up
  have counted := r.comeUp.countInterval_up now
  rw [came.1, came.2] at counted
  by_cases complete : 64 ≤ (r.comeUp.countInterval now).count
  · have judged := judge_up counted.1
    rw [arrive_complete rfl complete rfl]
    exact ⟨judged.1, judged.2.trans counted.2⟩
  · rw [arrive_incomplete rfl (Nat.not_le.1 complete)]
    exact counted

end Ring

/-! #### The notices and the permits of an arrival -/

/-- The plant after a good outbound arrival: the permits of R117 with the ring up, RING_UP after a lost ring (R151), and
TRAINING_REJECTED for a window rejected (R148). -/
def State.arrivalPlant (s : State) : Plant :=
  let driven : Plant := { s.plant with permits := Vector.ofFn fun c : Fin 4 => permitLevel true (s.engine c).state }
  let raised := if s.ring.state = .lost then driven.raiseAt ringUpSlot 0 s.ring.lastCycle else driven
  match (s.ring.arrive s.now).2 with
  | none => raised
  | some m => raised.raiseAt trainingRejectedSlot (min m 65535) s.ring.lastCycle

theorem State.arrival_eq (s : State) :
    s.arrival = { s with ring := (s.ring.arrive s.now).1, plant := s.arrivalPlant } := by
  obtain ⟨up, cycle⟩ := s.ring.arrive_up s.now
  unfold State.arrival State.arrivalPlant
  simp only [State.notifyRing, State.onPlant, State.drivePermits, State.ctx, up, cycle]
  by_cases h : s.ring.state = .lost <;> cases (s.ring.arrive s.now).2 <;> simp [h, cycle] <;> rfl

section
variable (s : State)

theorem State.arrivalPlant_rest :
    s.arrivalPlant = { s.plant with permits := s.arrivalPlant.permits, notices := s.arrivalPlant.notices } := by
  unfold State.arrivalPlant
  cases (s.ring.arrive s.now).2 <;> by_cases lost : s.ring.state = .lost <;> simp only [lost, if_true, if_false] <;> rfl

theorem State.arrivalPlant_permits (c : Chamber) :
    s.arrivalPlant.permits[c] = permitLevel true (s.engine c).state := by
  unfold State.arrivalPlant
  cases (s.ring.arrive s.now).2 <;> by_cases lost : s.ring.state = .lost <;> simp [lost]

theorem State.arrivalPlant_others {i : NoticeIndex} (h1 : i ≠ ringUpSlot) (h2 : i ≠ trainingRejectedSlot) :
    s.arrivalPlant.notices[i] = s.plant.notices[i] := by
  unfold State.arrivalPlant
  cases (s.ring.arrive s.now).2 <;> by_cases lost : s.ring.state = .lost <;>
    simp only [lost, if_true, if_false, Plant.raiseAt_notices, h1.symm, h2.symm]

theorem State.arrivalPlant_ringUp : s.arrivalPlant.notices[ringUpSlot] =
    if s.ring.state = .lost then s.plant.notices[ringUpSlot].occur 0 s.ring.lastCycle
    else s.plant.notices[ringUpSlot] := by
  have other : trainingRejectedSlot ≠ ringUpSlot := by decide
  unfold State.arrivalPlant
  cases (s.ring.arrive s.now).2 <;> by_cases lost : s.ring.state = .lost <;>
    simp only [lost, if_true, if_false, Plant.raiseAt_notices, other]

theorem State.arrivalPlant_rejected : s.arrivalPlant.notices[trainingRejectedSlot] =
    (s.ring.arrive s.now).2.elim s.plant.notices[trainingRejectedSlot] fun m =>
      s.plant.notices[trainingRejectedSlot].occur (min m 65535) s.ring.lastCycle := by
  have other : ringUpSlot ≠ trainingRejectedSlot := by decide
  unfold State.arrivalPlant
  cases (s.ring.arrive s.now).2 <;> by_cases lost : s.ring.state = .lost <;>
    simp only [lost, if_true, if_false, Plant.raiseAt_notices, other, Option.elim]

end

/-- Settles O60: the plant of the arrival, then the tracker by its state and its window. -/
theorem arrivalTrains : Obligations.ArrivalTrains := by
  refine ⟨fun s => ?_, fun r now => ⟨fun seeking => ?_, fun lost => ?_, fun up => ⟨fun first room => ?_, fun last arrived =>
    ⟨fun room => ?_, fun full => ?_⟩⟩⟩⟩
  · intro t judged before
    have plant : t.plant = s.arrivalPlant := congrArg State.plant s.arrival_eq
    rw [plant]
    refine ⟨s.arrival_eq.trans ?_, fun c => ?_, fun i => s.arrivalPlant_others, fun up => ?_, fun lost => ?_, fun none => ?_,
      fun m rejected => ?_⟩
    · rw [← s.arrivalPlant_rest]
    · rw [s.arrivalPlant_permits]
      simp [permitLevel]
    · rw [s.arrivalPlant_ringUp, if_neg up]
    · rw [s.arrivalPlant_ringUp, if_pos lost]
    · rw [s.arrivalPlant_rejected, none, Option.elim_none]
    · rw [s.arrivalPlant_rejected, rejected, Option.elim_some]
  · have counted := (congrArg (·.countInterval now) (Ring.comeUp_seeking seeking)).trans (Ring.countInterval_first rfl)
    exact Ring.arrive_incomplete counted (Nat.zero_lt_succ 63)
  · have counted := (congrArg (·.countInterval now) (Ring.comeUp_lost lost)).trans (Ring.countInterval_first rfl)
    exact Ring.arrive_incomplete counted (Nat.zero_lt_succ 63)
  · have counted := (congrArg (·.countInterval now) (Ring.comeUp_of_up up)).trans (Ring.countInterval_first first)
    exact Ring.arrive_incomplete counted room
  · have counted := (congrArg (·.countInterval now) (Ring.comeUp_of_up up)).trans (Ring.countInterval_next arrived)
    exact Ring.arrive_incomplete counted room
  · have counted := (congrArg (·.countInterval now) (Ring.comeUp_of_up up)).trans (Ring.countInterval_next arrived)
    have judges {j : Ring} {rejected : Option Nat} := Ring.arrive_complete (j := j) (rejected := rejected) counted full.ge
    exact ⟨fun training near => judges (Ring.judge_begins rfl training (Ring.meanWithinNominal_iff.2 near)),
      fun training far => judges (Ring.judge_fails rfl training fun near => far (Ring.meanWithinNominal_iff.1 near)),
      fun tracking near => judges (Ring.judge_follows rfl tracking (Ring.meanWithinNominal_iff.2 near)),
      fun tracking far => judges (Ring.judge_rejects rfl tracking fun near => far (Ring.meanWithinNominal_iff.1 near))⟩

end Sys2Proof.Machine
end

/-! ### The bytes of a frame and its class (R140 to R142) -/
section
namespace Sys2Proof.Machine

/-! #### Two-byte fields -/

theorem be1_toNat (b : Byte) : be1 b.toNat = [b] := by rw [be1, BitVec.ofNat_toNat, BitVec.setWidth_eq]

@[simp] theorem be1_length (n : Nat) : (be1 n).length = 1 := rfl

@[simp] theorem be2_length (n : Nat) : (be2 n).length = 2 := rfl

theorem fromBytes_pair (a b : Byte) : fromBytes [a, b] = 256 * a.toNat + b.toNat := by
  simp only [fromBytes, List.foldl_cons, List.foldl_nil]
  omega

theorem fromBytes_be2 (w : Half) : fromBytes (be2 w.toNat) = w.toNat := by
  have bound := w.isLt
  rw [show be2 w.toNat = [BitVec.ofNat 8 (w.toNat / 256), BitVec.ofNat 8 w.toNat] from rfl, fromBytes_pair]
  simp only [BitVec.toNat_ofNat]
  omega

theorem be2_fromBytes (a b : Byte) : be2 (fromBytes [a, b]) = [a, b] := by
  have high : BitVec.ofNat 8 ((256 * a.toNat + b.toNat) / 256) = a := by
    apply BitVec.eq_of_toNat_eq
    rw [BitVec.toNat_ofNat]
    omega
  have low : BitVec.ofNat 8 (256 * a.toNat + b.toNat) = b := by
    apply BitVec.eq_of_toNat_eq
    rw [BitVec.toNat_ofNat]
    omega
  rw [fromBytes_pair, show ∀ n, be2 n = [BitVec.ofNat 8 (n / 256), BitVec.ofNat 8 n] from fun _ => rfl, high, low]

/-- A 16-bit word is read back from its two bytes. -/
theorem ofNat_fromBytes_be2 (w : Half) : BitVec.ofNat 16 (fromBytes (be2 w.toNat)) = w := by
  rw [fromBytes_be2, BitVec.ofNat_toNat, BitVec.setWidth_eq]

/-- Two bytes are those of the word they carry. -/
theorem be2_ofNat_fromBytes (a b : Byte) : be2 (BitVec.ofNat 16 (fromBytes [a, b])).toNat = [a, b] := by
  rw [BitVec.toNat_ofNat, Nat.mod_eq_of_lt (by rw [fromBytes_pair]; omega), be2_fromBytes]

theorem fromBytes_eq_iff {l : List Byte} (two : l.length = 2) (w : Half) :
    fromBytes l = w.toNat ↔ l = be2 w.toNat := by
  obtain ⟨a, b, rfl⟩ := List.length_eq_two.1 two
  exact ⟨fun h => by rw [← h, be2_fromBytes], fun h => by rw [h, fromBytes_be2]⟩

/-! #### Slots and mailbox entries -/

theorem slotOf_bytes (k : Slot) (rest : List Byte) : slotOf (k.bytes ++ rest) = k := by
  have setpoint := ofNat_fromBytes_be2 k.setpoint
  have readback := ofNat_fromBytes_be2 k.readback
  cases k
  exact Slot.mk.injEq .. ▸ ⟨setpoint, readback, rfl, rfl⟩

theorem bytes_slotOf {l : List Byte} (six : 6 ≤ l.length) : (slotOf l).bytes = l.take 6 := by
  match l, six with
  | a :: b :: c :: d :: e :: g :: rest, _ =>
    have setpoint : be2 (slotOf (a :: b :: c :: d :: e :: g :: rest)).setpoint.toNat = [a, b] := be2_ofNat_fromBytes a b
    have readback : be2 (slotOf (a :: b :: c :: d :: e :: g :: rest)).readback.toNat = [c, d] := be2_ofNat_fromBytes c d
    rw [Slot.bytes, setpoint, readback]
    rfl

theorem slotsOf_length (n : Nat) (l : List Byte) : (slotsOf n l).length = n := by
  induction n generalizing l with
  | zero => rfl
  | succ n ih => exact congrArg (· + 1) (ih _)

theorem entriesOf_length (m : Nat) (l : List Byte) : (entriesOf m l).length = m := by
  induction m generalizing l with
  | zero => rfl
  | succ m ih => exact congrArg (· + 1) (ih _)

theorem slotsOf_flatMap (slots : List Slot) (rest : List Byte) :
    slotsOf slots.length (slots.flatMap Slot.bytes ++ rest) = slots := by
  induction slots with
  | nil => rfl
  | cons k slots ih =>
    rw [List.flatMap_cons, List.append_assoc, List.length_cons, slotsOf, slotOf_bytes,
      show (k.bytes ++ (slots.flatMap Slot.bytes ++ rest)).drop 6 = slots.flatMap Slot.bytes ++ rest from rfl, ih]

theorem entriesOf_flatten (entries : List (List Byte)) (rest : List Byte) (sixteen : ∀ e ∈ entries, e.length = 16) :
    entriesOf entries.length (entries.flatten ++ rest) = entries := by
  induction entries with
  | nil => rfl
  | cons e entries ih =>
    have first : e.length = 16 := sixteen e List.mem_cons_self
    rw [List.flatten_cons, List.append_assoc, List.length_cons, entriesOf, List.take_left' first, List.drop_left' first,
      ih fun e he => sixteen e (List.mem_cons_of_mem _ he)]

theorem flatMap_slotsOf {n : Nat} {l : List Byte} (room : 6 * n ≤ l.length) :
    (slotsOf n l).flatMap Slot.bytes = l.take (6 * n) := by
  induction n generalizing l with
  | zero => rfl
  | succ n ih =>
    rw [slotsOf, List.flatMap_cons, bytes_slotOf (by omega), ih (by rw [List.length_drop]; omega),
      show 6 * (n + 1) = 6 + 6 * n by omega, List.take_add]

theorem flatten_entriesOf (m : Nat) (l : List Byte) : (entriesOf m l).flatten = l.take (16 * m) := by
  induction m generalizing l with
  | zero => rfl
  | succ m ih => rw [entriesOf, List.flatten_cons, ih, show 16 * (m + 1) = 16 + 16 * m by omega, List.take_add]

theorem length_flatMap_bytes (slots : List Slot) : (slots.flatMap Slot.bytes).length = 6 * slots.length := by
  induction slots with
  | nil => rfl
  | cons k slots ih =>
    rw [List.flatMap_cons, List.length_append, ih, List.length_cons, show k.bytes.length = 6 from rfl]
    omega

theorem length_flatten_entries {entries : List (List Byte)} (sixteen : ∀ e ∈ entries, e.length = 16) :
    entries.flatten.length = 16 * entries.length := by
  induction entries with
  | nil => rfl
  | cons e entries ih =>
    rw [List.flatten_cons, List.length_append, ih fun e he => sixteen e (List.mem_cons_of_mem _ he),
      sixteen e List.mem_cons_self, List.length_cons]
    omega

/-! #### The frame -/

/-- The contents of a frame are read back from its bytes, whatever its check (R140). -/
theorem frameOf_body (f : Frame) (check : List Byte) (sixteen : ∀ e ∈ f.mailbox, e.length = 16) :
    frameOf (f.body ++ check) f.slots.length f.mailbox.length = f := by
  have after : (f.body ++ check).drop 6 = f.slots.flatMap Slot.bytes ++ (f.mailbox.flatten ++ check) := by
    rw [← List.append_assoc]
    rfl
  have slots : slotsOf f.slots.length ((f.body ++ check).drop 6) = f.slots := by rw [after, slotsOf_flatMap]
  have mailbox : entriesOf f.mailbox.length ((f.body ++ check).drop (6 + 6 * f.slots.length)) = f.mailbox := by
    rw [← List.drop_drop, after, List.drop_left' (length_flatMap_bytes _), entriesOf_flatten _ _ sixteen]
  have cycle := ofNat_fromBytes_be2 f.cycle
  rw [frameOf, slots, mailbox]
  exact Frame.mk.injEq .. ▸ ⟨rfl, rfl, cycle, rfl, rfl⟩

/-- The bytes a frame is read from are those of its contents (R140). -/
theorem body_frameOf {bytes : List Byte}
    (length : bytes.length = frameLength (byteAt bytes 4) (byteAt bytes 5)) :
    (frameOf bytes (byteAt bytes 4) (byteAt bytes 5)).body = bytes.take (bytes.length - 2) := by
  have six : 6 ≤ bytes.length := by rw [length, frameLength]; omega
  match bytes, six with
  | a :: b :: c :: d :: e :: g :: rest, _ =>
    have room : rest.length + 6 = 6 + 6 * e.toNat + 16 * g.toNat + 2 := length
    have cycle : be2 (BitVec.ofNat 16 (numberAt (a :: b :: c :: d :: e :: g :: rest) 2 2)).toNat = [c, d] :=
      be2_ofNat_fromBytes c d
    have slots : (slotsOf e.toNat rest).flatMap Slot.bytes = rest.take (6 * e.toNat) := flatMap_slotsOf (by omega)
    have mailbox : (entriesOf g.toNat ((a :: b :: c :: d :: e :: g :: rest).drop (6 + 6 * e.toNat))).flatten =
        (rest.drop (6 * e.toNat)).take (16 * g.toNat) := by
      rw [flatten_entriesOf, ← List.drop_drop]
      rfl
    have fields : [a, b] ++ [c, d] ++ [e] ++ [g] ++ rest.take (6 * e.toNat) ++ (rest.drop (6 * e.toNat)).take (16 * g.toNat) =
        a :: b :: c :: d :: e :: g :: rest.take (6 * e.toNat + 16 * g.toNat) := by
      rw [List.take_add]
      rfl
    have taken : (a :: b :: c :: d :: e :: g :: rest).take ((a :: b :: c :: d :: e :: g :: rest).length - 2) =
        a :: b :: c :: d :: e :: g :: rest.take (6 * e.toNat + 16 * g.toNat) := by
      rw [show (a :: b :: c :: d :: e :: g :: rest).length - 2 = 6 * e.toNat + 16 * g.toNat + 6 by
        simp only [List.length_cons]; omega]
      rfl
    rw [taken, ← fields, ← slots, ← mailbox, ← cycle, ← be1_toNat e, ← be1_toNat g, Frame.body]
    simp only [frameOf, slotsOf_length, entriesOf_length]
    rfl

theorem Frame.body_length (f : Frame) (sixteen : ∀ e ∈ f.mailbox, e.length = 16) :
    f.body.length = 6 + 6 * f.slots.length + 16 * f.mailbox.length := by
  simp only [Frame.body, List.length_append, length_flatMap_bytes, length_flatten_entries sixteen, be1_length, be2_length,
    List.length_cons, List.length_nil]

/-! #### Classes -/

/-- The last two bytes carry the check of the others exactly when the bytes are the others with their check computed. -/
theorem checked_iff {bytes : List Byte} (two : 2 ≤ bytes.length) :
    numberAt bytes (bytes.length - 2) 2 = (crc16 (bytes.take (bytes.length - 2))).toNat ↔
      bytes = bytes.take (bytes.length - 2) ++ be2 (crc16 (bytes.take (bytes.length - 2))).toNat := by
  have last : (bytes.drop (bytes.length - 2)).length = 2 := by rw [List.length_drop]; omega
  rw [numberAt, bytesAt, List.take_of_length_le last.le, fromBytes_eq_iff last]
  conv_rhs => lhs; rw [← List.take_append_drop (bytes.length - 2) bytes]
  exact List.append_cancel_left_eq .. |>.symm.to_iff

/-- A frame is bad by its length, its check or its expected length (R141). -/
theorem badFrame_iff (bytes : List Byte) : badFrame bytes = true ↔
    bytes.length < 8 ∨ 840 < bytes.length ∨
      bytes ≠ bytes.take (bytes.length - 2) ++ be2 (crc16 (bytes.take (bytes.length - 2))).toNat ∨
      bytes.length ≠ frameLength (byteAt bytes 4) (byteAt bytes 5) := by
  by_cases short : bytes.length < 8
  · simp [badFrame, short]
  · have two : 2 ≤ bytes.length := by omega
    simp only [badFrame, Bool.or_eq_true, decide_eq_true_eq, bne_iff_ne, Ne, checked_iff two, short, false_or, or_assoc]

/-- A frame that is not bad is foreign by its kind, its direction, n or m (R141). -/
def ForeignTo (direction : Byte) (bytes : List Byte) : Prop :=
  bytes.getD 0 0#8 ≠ processKind ∨ bytes.getD 1 0#8 ≠ direction ∨ byteAt bytes 4 < 1 ∨ 128 < byteAt bytes 4 ∨
    4 < byteAt bytes 5

section
variable {direction : Byte} {bytes : List Byte}

theorem classify_bad (bad : badFrame bytes = true) : classify direction bytes = .bad := if_pos bad

theorem classify_foreign (sound : badFrame bytes = false) (foreign : ForeignTo direction bytes) :
    classify direction bytes = .foreign :=
  (if_neg (ne_true_of_eq_false sound)).trans (if_pos foreign)

theorem classify_good (sound : badFrame bytes = false) (own : ¬ForeignTo direction bytes) :
    classify direction bytes = .good (frameOf bytes (byteAt bytes 4) (byteAt bytes 5)) :=
  (if_neg (ne_true_of_eq_false sound)).trans (if_neg own)

/-- The three classes exclude each other, so that each case says when its class is met (R141). -/
theorem classify_cases (direction : Byte) (bytes : List Byte) :
    (classify direction bytes = .bad ∧ badFrame bytes = true) ∨
    (classify direction bytes = .foreign ∧ badFrame bytes = false ∧ ForeignTo direction bytes) ∨
    (classify direction bytes = .good (frameOf bytes (byteAt bytes 4) (byteAt bytes 5)) ∧ badFrame bytes = false ∧
      ¬ForeignTo direction bytes) := by
  cases sound : badFrame bytes with
  | true => exact .inl ⟨classify_bad sound, rfl⟩
  | false =>
    by_cases foreign : ForeignTo direction bytes
    · exact .inr (.inl ⟨classify_foreign sound foreign, rfl, foreign⟩)
    · exact .inr (.inr ⟨classify_good sound foreign, rfl, foreign⟩)

theorem classify_bad_iff : classify direction bytes = .bad ↔ badFrame bytes = true := by
  rcases classify_cases direction bytes with ⟨h, bad⟩ | ⟨h, sound, -⟩ | ⟨h, sound, -⟩
  · simp [h, bad]
  · simp [h, sound]
  · simp [h, sound]

theorem classify_foreign_iff :
    classify direction bytes = .foreign ↔ ¬badFrame bytes = true ∧ ForeignTo direction bytes := by
  rcases classify_cases direction bytes with ⟨h, bad⟩ | ⟨h, sound, foreign⟩ | ⟨h, -, own⟩
  · simp [h, bad]
  · simp [h, sound, foreign]
  · simp [h, own]

theorem classify_good_iff {f : Frame} : classify direction bytes = .good f ↔
    badFrame bytes = false ∧ ¬ForeignTo direction bytes ∧ f = frameOf bytes (byteAt bytes 4) (byteAt bytes 5) := by
  rcases classify_cases direction bytes with ⟨h, bad⟩ | ⟨h, -, foreign⟩ | ⟨h, sound, own⟩
  · simp [h, bad]
  · simp [h, foreign]
  · simp [h, sound, own, eq_comm]

end

/-- The bytes of a frame of a legal shape have its counts, the length they give and a right check (R140). -/
theorem Frame.classify_bytes {direction : Byte} {f : Frame} (kind : f.kind = processKind) (port : f.direction = direction)
    (present : 1 ≤ f.slots.length) (slots : f.slots.length ≤ 128) (mailbox : f.mailbox.length ≤ 4)
    (sixteen : ∀ e ∈ f.mailbox, e.length = 16) : classify direction f.bytes = .good f := by
  have n : byteAt f.bytes 4 = f.slots.length := (BitVec.toNat_ofNat ..).trans (Nat.mod_eq_of_lt (by omega))
  have m : byteAt f.bytes 5 = f.mailbox.length := (BitVec.toNat_ofNat ..).trans (Nat.mod_eq_of_lt (by omega))
  have body := f.body_length sixteen
  have length : f.bytes.length = f.body.length + 2 := by rw [Frame.bytes, List.length_append, be2_length]
  have before : f.bytes.take (f.bytes.length - 2) = f.body := by
    rw [length, Nat.add_sub_cancel, Frame.bytes, List.take_left]
  rw [classify_good_iff]
  refine ⟨Bool.eq_false_iff.2 fun bad => ?_, fun foreign => ?_, ?_⟩
  · rw [badFrame_iff, before, n, m, frameLength, length, body] at bad
    rcases bad with short | long | check | expected
    · omega
    · omega
    · exact check rfl
    · omega
  · rw [ForeignTo, n, m] at foreign
    rcases foreign with other | other | few | many | entries
    · exact other kind
    · exact other port
    · omega
    · omega
    · omega
  · rw [n, m, Frame.bytes, frameOf_body f _ sixteen]

/-- Settles O11: the bytes before the check are the contents, and the check of a frame that is not bad is theirs. -/
theorem unalteredFrameKeepsItsBytes : Obligations.UnalteredFrameKeepsItsBytes := by
  intro direction bytes f good
  obtain ⟨sound, -, rfl⟩ := classify_good_iff.1 good
  have sound := mt (badFrame_iff bytes).2 (ne_true_of_eq_false sound)
  simp only [not_or, Ne, not_not] at sound
  obtain ⟨-, -, check, length⟩ := sound
  rw [Frame.bytes, body_frameOf length]
  exact check.symm

/-- Settles O10: the classes by the bytes, the round trip of a legal frame, and the CRC-16 bit by bit. -/
theorem frameDecodesItsBytes : Obligations.FrameDecodesItsBytes := by
  refine ⟨fun direction bytes => ?_, rfl, rfl, rfl,
    fun direction f kind port present slots mailbox sixteen =>
      f.classify_bytes kind port present slots mailbox sixteen,
    fun f => rfl, rfl, crc16_feed⟩
  intro n m before bad foreign
  have bad_iff : badFrame bytes = true ↔ bad := badFrame_iff bytes
  refine ⟨classify_bad_iff.trans bad_iff, classify_foreign_iff.trans (and_congr_left' (not_congr bad_iff)),
    fun sound own => ?_⟩
  have sound : badFrame bytes = false := Bool.eq_false_iff.2 (mt bad_iff.1 sound)
  exact ⟨_, classify_good sound own, slotsOf_length _ _, entriesOf_length _ _⟩

end Sys2Proof.Machine
end

/-! ### An IDLE chamber through the events of the others (R90, R122 to R124, R127) -/
section
namespace Sys2Proof.Machine

/-- Chamber c has the IDLE engine e and no growth request; unlike with `Plant.Spares` it may stand in the roughing queue and be
given the line. -/
structure Plant.Sleeps (c : Chamber) (e : Engine) (p : Plant) : Prop where
  idle : e.state = .idle
  engine : p.engine c = e
  growth : ∀ g ∈ p.arbiter.growth, g.chamber ≠ c

namespace Plant.Sleeps

variable {c d : Chamber} {e : Engine} {p : Plant} {x : Ctx} {expire : Expire}

theorem setEngine (h : p.Sleeps c e) (ne : d ≠ c) (f : Engine) : (p.setEngine d f).Sleeps c e :=
  ⟨h.idle, (Plant.engine_setEngine_ne p f ne).trans h.engine, h.growth⟩

theorem setLine (h : p.Sleeps c e) (l : LineState) (w : List Chamber) : (p.setLine l w).Sleeps c e :=
  ⟨h.idle, h.engine, h.growth⟩

theorem setReservation (h : p.Sleeps c e) (d : Chamber) (v : Nat) : (p.setReservation d v).Sleeps c e :=
  ⟨h.idle, h.engine, h.growth⟩

theorem notify (h : p.Sleeps c e) (d : Chamber) (n : ChamberNotice) (k : Nat) : (p.notify x d n k).Sleeps c e :=
  ⟨h.idle, h.engine, h.growth⟩

theorem setGrowth (h : p.Sleeps c e) {w : List GrowthRequest} (hw : ∀ g ∈ w, g.chamber ≠ c) : (p.setGrowth w).Sleeps c e :=
  ⟨h.idle, h.engine, hw⟩

theorem claimLine (h : p.Sleeps c e) (d : Chamber) : (claimLine d p).Sleeps c e := by
  unfold Machine.claimLine
  split
  · exact h.setLine _ _
  all_goals
    split
    · exact h
    · exact h.setLine _ _

theorem withdrawBoth (h : p.Sleeps c e) (d : Chamber) : (withdrawBoth d p).Sleeps c e :=
  (h.setLine _ _).setGrowth fun g hg => h.growth g (List.mem_of_mem_filter hg)

variable (hE : ∀ d (q : Plant), d ≠ c → q.Sleeps c e → (expire d q).Sleeps c e)
include hE

theorem runStep (h : p.Sleeps c e) (ne : d ≠ c) : (runStep x expire d p).Sleeps c e := by
  unfold Machine.runStep
  dsimp only
  split
  · exact h.setEngine ne _
  · split
    · exact h.setEngine ne _
    · split
      · exact hE _ _ ne (h.setEngine ne _)
      · exact h.setEngine ne _

/-- A selection that gives the line to an IDLE chamber leaves its engine (R124). -/
theorem selectLine (h : p.Sleeps c e) : (selectLine x expire p).Sleeps c e := by
  unfold Machine.selectLine
  split
  · exact h.setLine _ _
  · next d _ =>
    have granted := h.setLine (.granted d) (p.arbiter.queue.filter (· ≠ d))
    unfold grantLine handLine
    split
    · next waits =>
      refine granted.runStep hE ?_
      rintro rfl
      rw [granted.engine, h.idle] at waits
      cases waits.1
    · exact granted

theorem releaseLine (h : p.Sleeps c e) (d : Chamber) : (releaseLine x expire d p).Sleeps c e := by
  unfold Machine.releaseLine
  split
  · split
    · exact (h.setLine _ _).selectLine hE
    · exact h.setLine _ _
  · exact h

theorem considerLine (h : p.Sleeps c e) (ne : d ≠ c) : (considerLine x expire d p).Sleeps c e := by
  unfold Machine.considerLine
  dsimp only
  split
  · exact ((h.releaseLine hE d).setEngine ne _).notify _ _ _
  · split
    · split
      · exact (h.claimLine d).runStep hE ne
      · exact (h.claimLine d).setEngine ne _
    · exact (h.releaseLine hE d).runStep hE ne

theorem giveBack {examine : Plant → Plant} (hx : ∀ q : Plant, q.Sleeps c e → (examine q).Sleeps c e) (h : p.Sleeps c e)
    (d : Chamber) : (giveBack x expire examine d p).Sleeps c e :=
  hx _ (((h.withdrawBoth d).releaseLine hE d).setReservation d _)

theorem enterHold {examine : Plant → Plant} (hx : ∀ q : Plant, q.Sleeps c e → (examine q).Sleeps c e) (h : p.Sleeps c e)
    (ne : d ≠ c) (source : HoldSource) (atDeadline : Bool) : (enterHold x expire examine d source atDeadline p).Sleeps c e :=
  (((h.setEngine ne _).giveBack hE hx d).setEngine ne _).notify _ _ _

theorem examineHead {q : Plant} (h : p.Sleeps c e) (he : examineHead x expire p = some q) : q.Sleeps c e := by
  unfold Machine.examineHead at he
  split at he
  · cases he
  · next g rest hg =>
    have ne : g.chamber ≠ c := h.growth g (by rw [hg]; exact List.mem_cons_self)
    have served := (h.setReservation g.chamber g.requested).setGrowth (w := rest)
      fun r hr => h.growth r (by rw [hg]; exact List.mem_cons_of_mem _ hr)
    split at he
    · dsimp only at he
      split at he <;> cases he
      · exact served.considerLine hE ne
      · exact served
    · split at he
      · cases he
        exact (h.enterHold (x := x) hE (examine := id) (fun _ hq => hq) ne .engine false).notify _ _ _
      · cases he

theorem examineHeads (n : Nat) (h : p.Sleeps c e) : (examineHeads x expire n p).Sleeps c e := by
  induction n generalizing p with
  | zero => exact h
  | succ n ih =>
    unfold Machine.examineHeads
    split
    · exact h
    · next he => exact ih (h.examineHead hE he)

theorem examineGrowth (h : p.Sleeps c e) : (examineGrowth x expire p).Sleeps c e := h.examineHeads hE _

theorem addSource (h : p.Sleeps c e) (ne : d ≠ c) (source : HoldSource) (atDeadline : Bool) :
    (addSource x expire d source atDeadline p).Sleeps c e := by
  unfold Machine.addSource
  dsimp only
  split
  · exact h.enterHold hE (fun _ hq => hq.examineGrowth hE) ne source atDeadline
  · exact h.enterHold hE (fun _ hq => hq.examineGrowth hE) ne source atDeadline
  · exact h.setEngine ne _
  all_goals exact h

theorem stepBoundary (h : p.Sleeps c e) (ne : d ≠ c) : (stepBoundary x expire d p).Sleeps c e := by
  unfold Machine.stepBoundary
  dsimp only
  split
  · exact ((h.setEngine ne _).enterHold (x := x) hE (fun _ hq => hq.examineGrowth hE) ne .engine false).notify _ _ _
  · split
    · have settled := h.setReservation d (requestedReservation x d p)
      split
      · exact (settled.examineGrowth hE).considerLine hE ne
      · exact settled.considerLine hE ne
    · have waits : (waitFor x d .growth (Machine.releaseLine x expire d p)).Sleeps c e :=
        (h.releaseLine (x := x) hE d).setEngine ne _
      refine (waits.setGrowth fun g hg => ?_).examineGrowth hE
      rcases List.mem_append.1 hg with queued | asked
      · exact waits.growth g queued
      · rw [List.mem_singleton.1 asked]
        exact ne

theorem enterSafe (h : p.Sleeps c e) (ne : d ≠ c) : (enterSafe x expire d p).Sleeps c e := by
  have gave := (h.setEngine ne { p.engine d with timer := none, counter := 0, awaited := .nothing }).giveBack (x := x) hE
    (fun _ hq => hq.examineGrowth (x := x) hE) d
  exact ⟨h.idle, (Plant.engine_setEngine_ne _ _ ne).trans gave.engine, gave.growth⟩

theorem dwellEnds (h : p.Sleeps c e) (ne : d ≠ c) : (dwellEnds x expire d p).Sleeps c e := by
  unfold Machine.dwellEnds
  dsimp only
  split
  · split
    · have raised := h.notify (x := x) d .stepTimeout (p.engine d).step
      split
      · exact (raised.setEngine ne _).stepBoundary hE ne
      · exact raised.addSource hE ne _ _
      · exact raised.enterSafe hE ne
      · exact raised.setEngine ne _
    · exact (h.setEngine ne _).stepBoundary hE ne
  · exact h

end Plant.Sleeps

theorem sleeps_expireWithin {c : Chamber} {e : Engine} (x : Ctx) (n : Nat) (d : Chamber) (q : Plant) (ne : d ≠ c)
    (h : q.Sleeps c e) : (expireWithin x n d q).Sleeps c e := by
  induction n generalizing d q with
  | zero => exact h
  | succ n ih => exact h.dwellEnds ih ne

/-- The turn of another chamber at ring loss (R150). -/
theorem Plant.Sleeps.loseRing {c d : Chamber} {e : Engine} {p : Plant} {x : Ctx} (h : p.Sleeps c e) (ne : d ≠ c) :
    (loseRing x (expireNow x) d p).Sleeps c e := by
  have expiries := sleeps_expireWithin (c := c) (e := e) x 4
  unfold Machine.loseRing
  split
  · exact h.addSource expiries ne _ _
  · exact h.addSource expiries ne _ _
  · exact h.addSource expiries ne _ _
  · unfold endIdleClaim
    split
    · exact h.releaseLine expiries d
    · exact h.setLine _ _
  · exact h
  · exact h

end Sys2Proof.Machine
end

/-! ### Ring loss, turn by turn (R150) -/
section
namespace Sys2Proof.Machine

/-- The plant as ring loss finds it when the turns begin: RING_LOST raised, the RF permits dropped (R117, R150). -/
def Plant.ringLost (cycle : Nat) (p : Plant) : Plant :=
  { p.raiseAt ringLostSlot 0 cycle with permits := Vector.replicate 4 false }

/-- The plant after the turns of the first n chambers. -/
def lossTurn (x : Ctx) (p : Plant) : Nat → Plant
  | 0 => p
  | n + 1 => if h : n < 4 then loseRing x (expireNow x) ⟨n, h⟩ (lossTurn x p n) else lossTurn x p n

variable {x : Ctx} {c d : Chamber} {p q : Plant} {up : Bool} {n : Nat}

theorem lossTurn_succ (x : Ctx) (p : Plant) (c : Chamber) :
    lossTurn x p (c.val + 1) = loseRing x (expireNow x) c (lossTurn x p c.val) := dif_pos c.isLt

/-! #### What the turns keep -/

/-- What the turns of all but one chamber keep stands over a run of turns without the turn of that chamber. -/
theorem lossTurn_keeps {P : Plant → Prop} (c : Chamber)
    (keeps : ∀ (d : Chamber) (q : Plant), d ≠ c → P q → P (loseRing x (expireNow x) d q)) {i : Nat} (le : i ≤ n)
    (others : ∀ m, i ≤ m → m < n → m ≠ c.val) (h : P (lossTurn x p i)) : P (lossTurn x p n) := by
  induction n, le using Nat.le_induction with
  | base => exact h
  | succ m le ih =>
    have before := ih fun k hk lt => others k hk (Nat.lt_succ_of_lt lt)
    rw [lossTurn]
    split
    · next lt => exact keeps ⟨m, lt⟩ _ (fun same => others m le (Nat.lt_succ_self m) (congrArg Fin.val same)) before
    · exact before

theorem lossTurn_before {P : Plant → Prop} (c : Chamber)
    (keeps : ∀ (d : Chamber) (q : Plant), d ≠ c → P q → P (loseRing x (expireNow x) d q)) (h : P p) :
    P (lossTurn x p c.val) :=
  lossTurn_keeps (i := 0) c keeps (Nat.zero_le _) (fun _ _ lt => lt.ne) h

theorem lossTurn_after {P : Plant → Prop} (c : Chamber)
    (keeps : ∀ (d : Chamber) (q : Plant), d ≠ c → P q → P (loseRing x (expireNow x) d q))
    (h : P (lossTurn x p (c.val + 1))) : P (lossTurn x p 4) :=
  lossTurn_keeps c keeps c.isLt (fun _ le _ => (Nat.lt_of_succ_le le).ne') h

theorem lossTurn_always {P : Plant → Prop} (keeps : ∀ (d : Chamber) (q : Plant), P q → P (loseRing x (expireNow x) d q))
    (h : P p) : ∀ n, P (lossTurn x p n)
  | 0 => h
  | n + 1 => by
    rw [lossTurn]
    split
    · exact keeps _ _ (lossTurn_always keeps h n)
    · exact lossTurn_always keeps h n

theorem lossTurn_sound (h : p.Sound up) (n : Nat) : (lossTurn x p n).Sound up :=
  lossTurn_always (fun _ _ k => Plant.soundBut_none.1 (Plant.soundBut_none.2 k).loseRing) h n

theorem lossTurn_leaves (p : Plant) (n : Nat) : p.Leaves (lossTurn x p n) :=
  lossTurn_always (P := p.Leaves) (fun d _ k => k.loseRing (leaves_expireNow x) d) (.refl p) n

/-- A chamber in neither queue comes to its turn as it is. -/
theorem lossTurn_spares (h : p.Out c) : p.Spares c (lossTurn x p c.val) :=
  lossTurn_before (P := p.Spares c) c (fun _ _ ne k => k.loseRing ne) (.refl h)

/-- What the turn of a chamber leaves of it stands: it is in neither queue by then. -/
theorem lossTurn_stands (h : p.Sound up) (c : Chamber) : (lossTurn x p (c.val + 1)).Spares c (lossTurn x p 4) := by
  have rests := loseRing_rests (x := x) (lossTurn_sound (x := x) h c.val) c
  rw [← lossTurn_succ] at rests
  exact lossTurn_after (P := (lossTurn x p (c.val + 1)).Spares c) c (fun _ _ ne k => k.loseRing ne) (.refl rests.1)

theorem lossTurn_takes (c : Chamber) :
    (lossTurn x p c.val).LosesRing x (expireNow x) c (lossTurn x p (c.val + 1)) := by
  rw [lossTurn_succ]
  exact loseRing_takes c _

/-! #### The end state -/

/-- In the end no chamber stands in a queue or at the line (R122, R131). -/
theorem lossTurn_rests (h : p.Sound up) (c : Chamber) :
    (lossTurn x p 4).Out c ∧ (lossTurn x p 4).arbiter.line ≠ .granted c := by
  have stands := lossTurn_stands (x := x) h c
  have rests := loseRing_rests (x := x) (lossTurn_sound (x := x) h c.val) c
  rw [← lossTurn_succ] at rests
  exact ⟨stands.out, fun granted => rests.2 (stands.line.1 granted)⟩

theorem lossTurn_queue (h : p.Sound up) : (lossTurn x p 4).arbiter.queue = [] :=
  List.eq_nil_iff_forall_not_mem.2 fun c queued => (lossTurn_rests (x := x) h c).1.1 queued

theorem lossTurn_growth (h : p.Sound up) : (lossTurn x p 4).arbiter.growth = [] :=
  List.eq_nil_iff_forall_not_mem.2 fun g queued => (lossTurn_rests (x := x) h g.chamber).1.2 g queued rfl

/-- The chamber that holds the line leaves it SETTLING in its turn (R122). -/
theorem loseRing_settles (h : p.Sound up) (granted : p.arbiter.line = .granted c) (settles : p.arbiter.settleTime ≠ 0) :
    (loseRing x (expireNow x) c p).Settles (x.now + p.arbiter.settleTime * 1000) := by
  have takes := loseRing_takes (x := x) c p
  rcases h.holder c granted with running | idle
  · exact (takes.enters (.inl running)).1.handsBack.settles granted settles
  · rw [(takes.claimEnds idle).1 granted]
    exact Plant.lineLeft_settles granted settles

theorem lossTurn_settles (h : p.Sound up) (granted : p.arbiter.line = .granted c) (settles : p.arbiter.settleTime ≠ 0) :
    (lossTurn x p 4).Settles (x.now + p.arbiter.settleTime * 1000) := by
  have out : p.Out c := ⟨h.queue.2.2.2 c granted, fun g hg same => by
    have waiting := (h.growth.2 g hg).1
    rcases h.holder c granted with k | k <;> rw [same, k] at waiting <;> cases waiting⟩
  have spares := lossTurn_spares (x := x) out
  have turn := loseRing_settles (x := x) (lossTurn_sound h c.val) (spares.line.2 granted)
    (by rw [spares.settleTime]; exact settles)
  rw [← lossTurn_succ, spares.settleTime] at turn
  exact lossTurn_after (P := Plant.Settles _) c (fun d _ _ k => k.loseRing (settles_expireWithin x 4) d) turn

/-! #### One chamber -/

/-- The reservation of a chamber that ends IDLE, HELD or SAFE is its allowance (R126). -/
theorem lossTurn_settled (h : p.Sound up) (c : Chamber)
    (hs : ((lossTurn x p 4).engine c).state = .idle ∨ ((lossTurn x p 4).engine c).state = .held ∨
      ((lossTurn x p 4).engine c).state = .safe) : (lossTurn x p 4).reservation c = p.allowance c := by
  rw [(lossTurn_sound (x := x) h 4).settled c hs, Plant.allowance, (lossTurn_leaves p 4).allowances]
  rfl

/-- An engine that comes to its turn RUNNING or WAITING is HELD by RING in the end (R69 to R71). -/
theorem lossTurn_enters (h : p.Sound up) (comes : (lossTurn x p c.val).engine c = p.engine c)
    (active : (p.engine c).state = .running ∨ (p.engine c).state = .waiting) :
    (lossTurn x p 4).engine c =
      { p.engine c with
        state := .held, awaited := .nothing, timer := none, counter := 0, sources := { ring := true }
        hold := some ((p.engine c).writeHold x.now (x.stepRecord (p.engine c).step) false)
        outputTable := heldValues x c (p.engine c).outputTable } ∧
    (lossTurn x p 4).reservation c = p.allowance c ∧ (lossTurn x p 4).Raised c .holdEntered := by
  obtain ⟨-, -, raised, engine⟩ := (lossTurn_takes (x := x) (p := p) c).enters (by rw [comes]; exact active)
  rw [comes] at engine
  have ends := (lossTurn_stands (x := x) h c).engine.trans engine
  have leaves : (lossTurn x p (c.val + 1)).Leaves (lossTurn x p 4) :=
    lossTurn_after (P := Plant.Leaves _) c (fun d _ _ k => k.loseRing (leaves_expireNow x) d) (.refl _)
  refine ⟨?_, lossTurn_settled h c (.inr (.inl (by rw [ends]))), raised.leaves leaves⟩
  rw [Engine.writeHold_early]
  exact ends

/-- A chamber that is neither IDLE nor WAITING comes to its turn as it is. -/
theorem lossTurn_comes (h : p.Sound up)
    (state : (p.engine c).state = .running ∨ (p.engine c).state = .held ∨ (p.engine c).state = .done ∨
      (p.engine c).state = .safe) : p.Spares c (lossTurn x p c.val) := by
  refine lossTurn_spares (h.out ?_ ?_) <;> rcases state with k | k | k | k <;> rw [k] <;> decide

/-- So does every engine where the turns before serve none (R123, R129). -/
theorem lossTurn_comes_unserved (unserved : p.ServesNone) : (lossTurn x p c.val).engine c = p.engine c :=
  (lossTurn_before (P := fun q => q.ServesNone ∧ q.engine c = p.engine c) c
    (fun d _ ne k => ⟨(k.1.loseRing d).1, ((k.1.loseRing d).2 c ne.symm).trans k.2⟩) ⟨unserved, rfl⟩).2

/-- A HELD engine has RING join its sources (R68). -/
theorem lossTurn_joins (h : p.Sound up) (c : Chamber) (held : ((lossTurn x p c.val).engine c).state = .held) :
    (lossTurn x p 4).engine c = { (lossTurn x p c.val).engine c with
      sources := { ((lossTurn x p c.val).engine c).sources with ring := true } } := by
  rw [(lossTurn_stands h c).engine, (lossTurn_takes c).joins held, Plant.engine_setEngine_self]

/-- A chamber that comes to its turn DONE or SAFE stands (R150). -/
theorem lossTurn_rested (h : p.Sound up) (c : Chamber)
    (rests : ((lossTurn x p c.val).engine c).state = .done ∨ ((lossTurn x p c.val).engine c).state = .safe) :
    (lossTurn x p 4).engine c = (lossTurn x p c.val).engine c ∧
      (lossTurn x p 4).reservation c = (lossTurn x p c.val).reservation c := by
  have stands := lossTurn_stands (x := x) h c
  rw [(lossTurn_takes c).stands rests] at stands
  exact ⟨stands.engine, stands.reservation⟩

/-- An IDLE engine stays as it is, whatever becomes of its chamber's implicit claim (R90). -/
theorem lossTurn_idle (h : p.Sound up) (idle : (p.engine c).state = .idle) :
    (lossTurn x p 4).engine c = p.engine c := by
  have sleeps : (lossTurn x p c.val).Sleeps c (p.engine c) :=
    lossTurn_before (P := Plant.Sleeps c (p.engine c)) c (fun _ _ ne k => k.loseRing ne) ⟨idle, rfl, h.not_growing idle⟩
  have comes : ((lossTurn x p c.val).engine c).state = .idle := by rw [sleeps.engine, idle]
  have turn : lossTurn x p (c.val + 1) = endIdleClaim x (expireNow x) c (lossTurn x p c.val) := by
    rw [lossTurn_succ, loseRing, comes]
  rw [(lossTurn_stands h c).engine, turn, (endIdleClaim_rests (lossTurn_sound h c.val) comes).2.2, sleeps.engine]

/-- A WAITING engine ends HELD by RING, but where it comes to its turn DONE or SAFE (R150). -/
theorem lossTurn_waiting (h : p.Sound up) (waiting : (p.engine c).state = .waiting) :
    (((lossTurn x p 4).engine c).state = .held ∧ ((lossTurn x p 4).engine c).sources.ring = true ∧
      (lossTurn x p 4).reservation c = p.allowance c) ∨
    ((((lossTurn x p c.val).engine c).state = .done ∨ ((lossTurn x p c.val).engine c).state = .safe) ∧
      (lossTurn x p 4).engine c = (lossTurn x p c.val).engine c) := by
  have awake : (lossTurn x p c.val).Awake c := lossTurn_always (fun d _ k => k.loseRing (awake_expireWithin x 4) d)
    (show (p.engine c).state ≠ .idle by simp [waiting]) c.val
  have takes := lossTurn_takes (x := x) (p := p) c
  have stands := (lossTurn_stands (x := x) h c).engine
  have held (e : Engine) (ends : (lossTurn x p 4).engine c = e) (state : e.state = .held) (ring : e.sources.ring = true) :
      ((lossTurn x p 4).engine c).state = .held ∧ ((lossTurn x p 4).engine c).sources.ring = true ∧
        (lossTurn x p 4).reservation c = p.allowance c :=
    ⟨by rw [ends, state], by rw [ends, ring], lossTurn_settled h c (.inr (.inl (by rw [ends, state])))⟩
  cases state : ((lossTurn x p c.val).engine c).state with
  | idle => exact absurd state awake
  | running => exact .inl (held _ (stands.trans (takes.enters (.inl state)).2.2.2) rfl rfl)
  | waiting => exact .inl (held _ (stands.trans (takes.enters (.inr state)).2.2.2) rfl rfl)
  | held => exact .inl (held _ (lossTurn_joins h c state) state rfl)
  | done => exact .inr ⟨.inl rfl, (lossTurn_rested h c (.inl state)).1⟩
  | safe => exact .inr ⟨.inr rfl, (lossTurn_rested h c (.inr state)).1⟩

/-! #### The event -/

theorem Plant.Sound.ringLost (h : p.Sound up) (cycle : Nat) : (p.ringLost cycle).Sound false :=
  ⟨h.budget, h.growth, h.queue, h.holder, h.cells, fun c => by simp [Plant.ringLost, permitLevel], h.notices.raiseAt _ _ _,
    h.settled⟩

theorem Plant.leaves_ringLost (p : Plant) (cycle : Nat) : p.Leaves (p.ringLost cycle) :=
  have raised := (Plant.Leaves.refl p).raiseAt ringLostSlot 0 cycle
  ⟨raised.budget, raised.allowances, raised.settleTime, raised.priority, raised.range, raised.cls, raised.enabled,
    raised.pending⟩

theorem NoticeSlot.occur_pending (n : NoticeSlot) (detail cycle : Nat) (enabled : n.enabled = true) :
    (n.occur detail cycle).pending = true := by
  unfold NoticeSlot.occur
  rw [if_neg (by simp [enabled])]
  split
  · assumption
  · rfl

theorem Plant.ringLost_pending (p : Plant) (cycle : Nat) (enabled : p.notices[ringLostSlot].enabled = true) :
    (p.ringLost cycle).notices[ringLostSlot].pending = true := by
  have raised := Plant.raiseAt_notices p ringLostSlot ringLostSlot 0 cycle
  rw [if_pos rfl] at raised
  exact (congrArg NoticeSlot.pending raised).trans (NoticeSlot.occur_pending _ _ _ enabled)

theorem State.loseRing_eq (s : State) : s.loseRing =
    { s with
      plant := lossTurn s.ctx (s.plant.ringLost s.ring.lastCycle) 4
      ring := { s.ring with
        lastArrival := none, count := 0, sum := 0, state := .lost, watch := none, openCycle := none } } := by
  have permits : (Vector.ofFn fun c : Fin 4 => permitLevel false (s.engine c).state) = Vector.replicate 4 false := by
    ext c hc
    simp [permitLevel]
  rw [Plant.ringLost, ← permits]
  rfl

theorem execRingWatchExpiry_stopped {s : State} (stopped : s.ring.watch = none) : execRingWatchExpiry s = .next s := by
  rw [execRingWatchExpiry, stopped]

theorem execRingWatchExpiry_loses {s : State} {t : Nat} (watch : s.ring.watch = some t) (ringUp : s.ring.up = true) :
    execRingWatchExpiry s = .next (s.advanceTo t).loseRing := by
  rw [execRingWatchExpiry, watch]
  exact congrArg Host.Outcome.next (if_pos ringUp)

/-- Settles O48: the turns are those of `lossTurn`, from the plant with RING_LOST raised and the permits dropped. -/
theorem ringLossHoldsEngines : Obligations.RingLossHoldsEngines := by
  refine fun s => ⟨execRingWatchExpiry_stopped, fun t safe watch ringUp => ?_⟩
  intro x
  have sound := Plant.Sound.ringLost safe s.ring.lastCycle
  have leaves := (s.plant.leaves_ringLost s.ring.lastCycle).trans (lossTurn_leaves (x := x) _ 4)
  refine ⟨lossTurn x (s.plant.ringLost s.ring.lastCycle) 4, lossTurn x (s.plant.ringLost s.ring.lastCycle),
    (execRingWatchExpiry_loses watch ringUp).trans (congrArg _ (State.loseRing_eq _)), rfl, lossTurn_takes, rfl,
    lossTurn_queue sound, lossTurn_growth sound, fun c => (lossTurn_rests sound c).2, fun c => ?_,
    fun ⟨c, granted⟩ settles => lossTurn_settles sound granted settles,
    fun enabled => (lossTurn_leaves _ 4).pending _ (s.plant.ringLost_pending _ enabled), fun c => ?_⟩
  · rw [(lossTurn_sound sound 4).permits c]
    rfl
  · intro e dwell record unserved
    have written : e.writeHold x.now (x.stepRecord e.step) false = record := e.writeHold_early _ _
    refine ⟨(lossTurn_stands sound c).engine, fun active => ?_, fun waiting => lossTurn_waiting sound waiting, fun held => ?_,
      fun other => ?_⟩
    · have comes : (lossTurn x (s.plant.ringLost s.ring.lastCycle) c.val).engine c = e :=
        active.elim (fun running => (lossTurn_comes sound (.inl running)).engine) fun waits => lossTurn_comes_unserved waits.2
      obtain ⟨engine, reservation, raised⟩ := lossTurn_enters sound comes (active.imp_right And.left)
      rw [← written]
      exact ⟨engine, reservation, raised.pending leaves⟩
    · have spares := lossTurn_comes (x := x) (c := c) sound (.inr (.inl held))
      rw [lossTurn_joins sound c (by rw [spares.engine]; exact held), spares.engine]
      rfl
    · rcases other with idle | rested
      · have engine := lossTurn_idle (x := x) sound idle
        have settled := lossTurn_settled (x := x) sound c (.inl (by rw [engine]; exact idle))
        exact ⟨engine, settled.trans (safe.settled c (.inl idle)).symm⟩
      · have spares := lossTurn_comes (x := x) (c := c) sound (.inr (.inr rested))
        obtain ⟨engine, reservation⟩ := lossTurn_rested (x := x) sound c (by rw [spares.engine]; exact rested)
        exact ⟨engine.trans spares.engine, reservation.trans spares.reservation⟩

end Sys2Proof.Machine
end

/-! ### What a lock protects, as one value that the operations keep (R163) -/
section
namespace Sys2Proof.Machine

/-- The arbiter's configuration (R126, R133). -/
structure ArbiterConfig where
  budget : Nat
  allowance : Vector Nat 4
  settleTime : Nat
  priority : Vector Nat 4

def Arbiter.config (a : Arbiter) : ArbiterConfig := ⟨a.budget, a.allowance, a.settleTime, a.priority⟩

theorem Plant.Leaves.config {p q : Plant} (h : p.Leaves q) : q.arbiter.config = p.arbiter.config := by
  simp only [Arbiter.config, h.budget, h.allowances, h.settleTime, h.priority]

/-- START leaves the configuration as every other event of the engines does. -/
theorem startEngine_config (x : Ctx) (c : Chamber) (first last : Nat) (p : Plant) :
    (startEngine x (expireNow x) c first last p).arbiter.config = p.arbiter.config :=
  (Plant.Leaves.startEngine (leaves_expireNow x) c first last p).config

/-- The lock flag and the fields of the tables that a lock covers: what `State.SameTables` compares, side by side. -/
structure LockedFields where
  lock : Bool
  slotMap : Vector SlotUse 128
  records : Chamber → Chan → ChannelRecord
  thresholds : Chamber → Vector Nat 15
  guards : Chamber → GuardIndex → GuardConfig
  filters : Line → Nat
  arbiter : ArbiterConfig
  nominal : Nat
  survival : Nat

def State.lockedFields (s : State) : LockedFields where
  lock := s.lock
  slotMap := s.slotMap
  records c h := (s.channel c h).record
  thresholds c := s.levels[c].thresholds
  guards c g := (s.guardEntry c g).config
  filters l := (s.input l).filter
  arbiter := s.plant.arbiter.config
  nominal := s.ring.nominal
  survival := s.ring.survival

/-- The operation that took s to t changed nothing of what a lock protects. -/
abbrev State.KeepsLocked (s t : State) : Prop := t.lockedFields = s.lockedFields

namespace State.KeepsLocked

variable {s t u : State} {r : Request}

theorem lock (h : s.KeepsLocked t) : t.lock = s.lock := congrArg LockedFields.lock h

theorem sameTables (h : s.KeepsLocked t) : s.SameTables t where
  slotMap := congrArg LockedFields.slotMap h
  channels c k := congrFun (congrFun (congrArg LockedFields.records h) c) k
  thresholds c := congrFun (congrArg LockedFields.thresholds h) c
  guards c g := congrFun (congrFun (congrArg LockedFields.guards h) c) g
  filters l := congrFun (congrArg LockedFields.filters h) l
  budget := congrArg (·.arbiter.budget) h
  allowances := congrArg (·.arbiter.allowance) h
  settleTime := congrArg (·.arbiter.settleTime) h
  priority := congrArg (·.arbiter.priority) h
  nominal := congrArg LockedFields.nominal h
  survival := congrArg LockedFields.survival h

theorem refl (s : State) : s.KeepsLocked s := rfl

theorem trans (h : s.KeepsLocked t) (k : t.KeepsLocked u) : s.KeepsLocked u := Eq.trans k h

/-! #### The updates -/

theorem setPlant {p : Plant} (h : p.arbiter.config = s.plant.arbiter.config) : s.KeepsLocked { s with plant := p } := by
  simp only [State.KeepsLocked, State.lockedFields, h]
  rfl

theorem onPlant {f : Ctx → Plant → Plant} (h : s.plant.Leaves (f s.ctx s.plant)) : s.KeepsLocked (s.onPlant f) :=
  setPlant h.config

theorem setChannels {channels : Vector (Vector Channel 16) 4}
    (h : ∀ (c : Chamber) (k : Chan), channels[c][k].record = (s.channel c k).record) :
    s.KeepsLocked { s with channels := channels } := by
  have records : (fun (c : Chamber) (k : Chan) => channels[c][k].record) = fun c k => (s.channel c k).record :=
    funext₂ h
  exact congrArg (fun records => { s.lockedFields with records := records }) records

theorem setLevels {levels : Vector LevelTable 4}
    (h : ∀ c : Chamber, levels[c].thresholds = s.levels[c].thresholds) : s.KeepsLocked { s with levels := levels } := by
  have thresholds : (fun c : Chamber => levels[c].thresholds) = fun c => s.levels[c].thresholds := funext h
  exact congrArg (fun thresholds => { s.lockedFields with thresholds := thresholds }) thresholds

theorem setGuards {guards : Vector (Vector GuardEntry 16) 4}
    (h : ∀ (c : Chamber) (g : GuardIndex), guards[c][g].config = (s.guardEntry c g).config) :
    s.KeepsLocked { s with guards := guards } := by
  have configs : (fun (c : Chamber) (g : GuardIndex) => guards[c][g].config) = fun c g => (s.guardEntry c g).config :=
    funext₂ h
  exact congrArg (fun guards => { s.lockedFields with guards := guards }) configs

theorem setInputs {inputs : Vector InputLine 16} (h : ∀ l : Line, inputs[l].filter = (s.input l).filter) :
    s.KeepsLocked { s with inputs := inputs } := by
  have filters : (fun l : Line => inputs[l].filter) = fun l => (s.input l).filter := funext h
  exact congrArg (fun filters => { s.lockedFields with filters := filters }) filters

theorem setRing {ring : Ring} (nominal : ring.nominal = s.ring.nominal) (survival : ring.survival = s.ring.survival) :
    s.KeepsLocked { s with ring := ring } := by
  simp only [State.KeepsLocked, State.lockedFields, nominal, survival]
  rfl

theorem mapGuards (c : Chamber) {f : GuardEntry → GuardEntry} (h : ∀ e, (f e).config = e.config) :
    s.KeepsLocked (s.mapGuards c f) := by
  refine setGuards fun d g => ?_
  by_cases at_ : c.val = d.val
  · simp [← Fin.ext at_, State.guardEntry, h]
  · simp [at_, State.guardEntry]

theorem setGuard {c : Chamber} {g : GuardIndex} {e : GuardEntry} (h : e.config = (s.guardEntry c g).config) :
    s.KeepsLocked (s.setGuard c g e) := by
  refine setGuards fun d j => ?_
  have entry : (s.setGuard c g e).guardEntry d j = if c = d ∧ g = j then e else s.guardEntry d j :=
    State.guardEntry_setGuard s c d g j e
  refine (congrArg GuardEntry.config entry).trans ?_
  split
  · next at_ => rw [h, at_.1, at_.2]
  · rfl

theorem setInput {l : Line} {i : InputLine} (h : i.filter = (s.input l).filter) : s.KeepsLocked (s.setInput l i) := by
  refine setInputs fun m => ?_
  refine (congrArg InputLine.filter (State.input_setInput s l m i)).trans ?_
  split
  · next at_ => rw [h, at_]
  · rfl

/-! #### Guards, input lines, cycles and the ring -/

theorem guardPass (s : State) (which : Chamber → GuardIndex → Bool) (ds : List Chamber) :
    s.KeepsLocked (s.guardPass which ds) := by
  have evaluated : s.KeepsLocked { s with guards := evaluateGuards s which } := setGuards fun c g => by
    rw [evaluateGuards_getElem]
    split
    · exact evaluateEntry_config s c g
    · rfl
  exact evaluated.trans (setPlant (((Plant.Leaves.refl s.plant).applyTrips _).examineDemands _ ds).config)

theorem acceptLevel (s : State) (l : Line) : s.KeepsLocked (s.acceptLevel l) :=
  (setInput (l := l) (by rfl)).trans (guardPass _ _ _)

theorem changeLevel (s : State) (l : Line) (high : Bool) : s.KeepsLocked (s.changeLevel l high) := by
  unfold State.changeLevel
  dsimp only
  split
  · exact refl s
  · split
    · exact setInput rfl
    · split
      · exact setInput rfl
      · split
        · exact (setInput (by rfl)).trans (acceptLevel _ l)
        · exact setInput rfl

theorem takeReadings (s : State) (slots : List Slot) : s.KeepsLocked (s.takeReadings slots) :=
  setChannels fun c k => (State.Undisturbed.takeReadings s slots).facts.records c k

theorem evaluateConditions (s : State) (running : Chamber → Bool) : s.KeepsLocked (s.evaluateConditions running) := by
  refine onPlant ((Plant.Leaves.refl s.plant).forEach (fun c k => ?_) _)
  split
  · exact k.evaluateCondition (leaves_expireNow _) c
  · exact k

theorem closeCycle (s : State) (slots : List Slot) : s.KeepsLocked (s.closeCycle slots) :=
  ((takeReadings s slots).trans (guardPass _ _ _)).trans (evaluateConditions _ _)

theorem overrun (s : State) : s.KeepsLocked s.overrun := by
  unfold State.overrun
  split
  · exact closeCycle s []
  · exact refl s

end State.KeepsLocked

section
variable (r : Ring)

theorem Ring.comeUp_config : r.comeUp.nominal = r.nominal ∧ r.comeUp.survival = r.survival := by
  unfold Ring.comeUp
  split <;> exact ⟨rfl, rfl⟩

theorem Ring.countInterval_config (now : Nat) :
    (r.countInterval now).nominal = r.nominal ∧ (r.countInterval now).survival = r.survival := by
  unfold Ring.countInterval
  split <;> exact ⟨rfl, rfl⟩

theorem Ring.judge_config : r.judge.1.nominal = r.nominal ∧ r.judge.1.survival = r.survival := by
  unfold Ring.judge
  dsimp only
  split <;> split <;> exact ⟨rfl, rfl⟩

/-- An arrival measures the period; N and S stay (R146 to R149). -/
theorem Ring.arrive_config (now : Nat) :
    (r.arrive now).1.nominal = r.nominal ∧ (r.arrive now).1.survival = r.survival := by
  obtain ⟨nominal, survival⟩ := r.comeUp.countInterval_config now
  rw [r.comeUp_config.1] at nominal
  rw [r.comeUp_config.2] at survival
  unfold Ring.arrive
  dsimp only
  split
  · exact ⟨(Ring.judge_config _).1.trans nominal, (Ring.judge_config _).2.trans survival⟩
  · exact ⟨nominal, survival⟩

end

namespace State.KeepsLocked

variable {s t u : State} {r : Request}

theorem arrival (s : State) : s.KeepsLocked s.arrival := by
  obtain ⟨nominal, survival⟩ := s.ring.arrive_config s.now
  rw [State.arrival_eq]
  exact (setRing nominal survival).trans (setPlant (by rw [State.arrivalPlant_rest]))

theorem loseRing (s : State) : s.KeepsLocked s.loseRing := by
  rw [State.loseRing_eq]
  exact (setPlant ((s.plant.leaves_ringLost _).trans (lossTurn_leaves _ 4)).config).trans (setRing rfl rfl)

theorem carry (s : State) (c : Chamber) (h : Chan) (v : Nat) : s.KeepsLocked (s.carry c h v) := by
  unfold State.carry
  dsimp only
  split
  · exact refl s
  · refine trans (t := s.setChannel c h _) (setChannels fun d k => ?_) (mapGuards c fun e => ?_)
    · refine (congrArg Channel.record (State.channel_setChannel s c d h k _)).trans ?_
      split
      · next at_ => rw [at_.1, at_.2]
      · rfl
    · split <;> rfl

theorem substituteSlot (engines : Vector Engine 4) (k : Nat) (slot : Slot) (a : Passage) :
    a.state.KeepsLocked (Machine.substituteSlot engines k slot a).2.state := by
  unfold Machine.substituteSlot
  split
  · split
    · rw [Passage.computeSlot_eq]
      exact (setPlant ((Plant.Leaves.refl _).computed rfl engines _ _ slot).config).trans (carry _ _ _ _)
    · exact refl _
  · exact refl _
  · exact refl _

theorem substituteSlots (engines : Vector Engine 4) (k : Nat) (slots : List Slot) (a : Passage) :
    a.state.KeepsLocked (Machine.substituteSlots engines k slots a).2.state := by
  induction slots generalizing k a with
  | nil => exact refl _
  | cons slot rest ih => exact (substituteSlot engines k slot a).trans (ih (k + 1) _)

theorem substitute (s : State) (slots : List Slot) : s.KeepsLocked (s.substitute slots).2 :=
  substituteSlots s.plant.engines 0 slots { state := s, remaining := s.plant.arbiter.allowance }

theorem softReset (s : State) : s.KeepsLocked s.softReset := by
  unfold State.softReset
  refine trans ?_ (guardPass _ _ _)
  have cleared := setGuards (s := s)
    (guards := Vector.ofFn fun c : Fin 4 => Vector.ofFn fun g : Fin 16 =>
      { s.guardEntry c g with state := .clear, lapse := deriveGrace s.ctx c (s.guardEntry c g) })
    fun c g => by simp
  exact cleared

end State.KeepsLocked

end Sys2Proof.Machine
end

/-! ### What the commands of the management agent leave of the part (R66, R160 to R163) -/
section
namespace Sys2Proof.Machine

/-- The six chamber commands, as what each does at one engine (Table 9-2). -/
inductive ChamberStep.IsCommand : ChamberStep → Prop
  | start (first : Nat) : IsCommand (startChamber first)
  | hold : IsCommand holdChamber
  | resume (mode : Nat) : IsCommand (resumeChamber mode)
  | abort : IsCommand abortChamber
  | release : IsCommand releaseChamber
  | clear : IsCommand clearChamber

section
variable {act : ChamberStep} {r : Request}

/-- A chamber command changes the plant alone, and of the plant not the arbiter's configuration. -/
theorem ChamberStep.IsCommand.changes (command : act.IsCommand) (c : Chamber) (s : State) :
    ∃ p : Plant, (act c s).1 = { s with plant := p } ∧ p.arbiter.config = s.plant.arbiter.config := by
  have refused : ∃ p : Plant, s = { s with plant := p } ∧ p.arbiter.config = s.plant.arbiter.config := ⟨s.plant, rfl, rfl⟩
  have leaves := leaves_expireNow s.ctx
  have own := Plant.Leaves.refl s.plant
  cases command with
  | start first =>
    unfold startChamber
    split
    · exact refused
    · split
      · exact refused
      · exact ⟨_, rfl, startEngine_config _ _ _ _ _⟩
  | hold =>
    unfold holdChamber
    split
    iterate 3 exact ⟨_, rfl, (own.addSource leaves c _ _).config⟩
    iterate 3 exact refused
  | resume mode =>
    unfold resumeChamber
    split
    · exact refused
    · split
      · exact refused
      · exact ⟨_, rfl, ((own.setEngine c _ (.inl (by rfl))).removeSources leaves c _).config⟩
  | abort =>
    unfold abortChamber
    split
    iterate 4 exact ⟨_, rfl, (own.abortEngine leaves c).config⟩
    iterate 2 exact refused
  | release =>
    unfold releaseChamber
    split
    · exact ⟨_, rfl, (own.releaseEngine leaves c).config⟩
    · exact refused
  | clear =>
    unfold clearChamber
    split
    · exact refused
    · split
      · exact refused
      · exact ⟨_, rfl, rfl⟩

theorem ChamberStep.IsCommand.address (command : act.IsCommand) (c : Chamber) (s : State) :
    (act c s).1.address = s.address := by
  obtain ⟨p, changed, -⟩ := command.changes c s
  rw [changed]

theorem ChamberStep.IsCommand.responses (command : act.IsCommand) (c : Chamber) (s : State) :
    (act c s).1.responses = s.responses := by
  obtain ⟨p, changed, -⟩ := command.changes c s
  rw [changed]

theorem ChamberStep.IsCommand.keepsLocked (command : act.IsCommand) (c : Chamber) (s : State) :
    s.KeepsLocked (act c s).1 := by
  obtain ⟨p, changed, config⟩ := command.changes c s
  rw [changed]
  exact .setPlant config

/-- What a chamber command leaves at every engine it leaves of a mask. -/
theorem overMask_keeps {α : Type} {f : State → α} (keeps : ∀ (c : Chamber) (s : State), f (act c s).1 = f s)
    (cs : List Chamber) (s : State) (t : MaskTally) : f (overMask r act cs s t).1 = f s := by
  induction cs generalizing s t with
  | nil => rfl
  | cons c rest ih =>
    rw [overMask_cons, ih]
    split
    · exact keeps c s
    · rfl

theorem chamberCommand_keeps {α : Type} {f : State → α} (keeps : ∀ (c : Chamber) (s : State), f (act c s).1 = f s)
    (s : State) : f (chamberCommand act r s).1 = f s := by
  unfold chamberCommand
  split
  · rfl
  · exact overMask_keeps keeps chambers s {}

end

variable {s : State} {r : Request}

/-! #### The seven tables on a locked part -/

section
variable (hl : s.lock = true)
include hl

theorem writeChannel_locked : writeChannel r s = (s, s.refuseWith .locked 2 r) := if_pos hl
theorem writeGuard_locked : writeGuard r s = (s, s.refuseWith .locked 4 r) := if_pos hl
theorem writeLevel_locked : writeLevel r s = (s, s.refuseWith .locked 5 r) := if_pos hl
theorem writeInput_locked : writeInput r s = (s, s.refuseWith .locked 6 r) := if_pos hl
theorem writeArbiter_locked : writeArbiter r s = (s, s.refuseWith .locked 7 r) := if_pos hl
theorem writeRing_locked : writeRing r s = (s, s.refuseWith .locked 8 r) := if_pos hl

end

/-- Settles O28: the lock flag is examined first. -/
theorem lockedWritesRefused : Obligations.LockedWritesRefused := fun _ _ takes hl =>
  ⟨congrArg _ (takes.answers_refused (writeSlotMap_locked hl)), congrArg _ (takes.answers_refused (writeChannel_locked hl)),
    congrArg _ (takes.answers_refused (writeGuard_locked hl)), congrArg _ (takes.answers_refused (writeLevel_locked hl)),
    congrArg _ (takes.answers_refused (writeInput_locked hl)), congrArg _ (takes.answers_refused (writeArbiter_locked hl)),
    congrArg _ (takes.answers_refused (writeRing_locked hl))⟩

/-! #### Writes, CHECKs and commands -/

namespace State.KeepsLocked

theorem writeStep (s : State) : s.KeepsLocked (Machine.writeStep r s).1 := by
  unfold Machine.writeStep
  split
  · split <;> rfl
  · rfl

theorem writeNotice (s : State) : s.KeepsLocked (Machine.writeNotice r s).1 := by
  unfold Machine.writeNotice
  dsimp only
  repeat' split
  all_goals rfl

theorem writeTable (hl : s.lock = true) (table : Nat) : s.KeepsLocked (Machine.writeTable table r s).1 := by
  unfold Machine.writeTable
  split
  · rw [writeSlotMap_locked hl]
  · rw [writeChannel_locked hl]
  · exact writeStep s
  · rw [writeGuard_locked hl]
  · rw [writeLevel_locked hl]
  · rw [writeInput_locked hl]
  · rw [writeArbiter_locked hl]
  · rw [writeRing_locked hl]
  · exact writeNotice s
  · rfl

theorem checkSteps (s : State) : s.KeepsLocked (Machine.checkSteps r s).1 := by
  unfold Machine.checkSteps
  dsimp only
  split
  · rfl
  · rw [(State.KeepsInUse.checkRecords _ _ _ s).2]
    rfl

theorem checkLevels (s : State) : s.KeepsLocked (Machine.checkLevels r s).1 := by
  unfold Machine.checkLevels
  dsimp only
  split
  · rfl
  · obtain ⟨kept, levels⟩ := State.KeepsInUse.checkLevelTables (r.byte 0) r.index.toNat 0 s
    rw [levels]
    exact setLevels fun c => (kept c).1

theorem checkTable (s : State) (table : Nat) : s.KeepsLocked (Machine.checkTable table r s).1 := by
  unfold Machine.checkTable
  split
  · exact checkSteps s
  · exact checkLevels s
  · rfl

theorem chamberCommand {act : ChamberStep} (command : act.IsCommand) (s : State) :
    s.KeepsLocked (Machine.chamberCommand act r s).1 := chamberCommand_keeps (fun c s => command.keepsLocked c s) s

theorem commandAssign (s : State) : s.KeepsLocked (Machine.commandAssign r s).1 := by
  unfold Machine.commandAssign
  dsimp only
  split <;> rfl

/-- LOCK of a part that is locked already. -/
theorem commandLock (hl : s.lock = true) : s.KeepsLocked (Machine.commandLock s).1 := by
  have same : (Machine.commandLock s).1 = s := by
    show { s with lock := true } = s
    rw [← hl]
  exact congrArg State.lockedFields same

theorem commandOf (hl : s.lock = true) (code table : Nat) : s.KeepsLocked (Machine.commandOf code table r s).1 := by
  unfold Machine.commandOf
  split
  · rfl
  · exact writeTable hl table
  · exact checkTable s table
  · exact chamberCommand (.start _) s
  · exact chamberCommand .hold s
  · exact chamberCommand (.resume _) s
  · exact chamberCommand .abort s
  · exact chamberCommand .release s
  · exact chamberCommand .clear s
  · exact commandLock hl
  · exact commandAssign s

theorem broadcast (s : State) (code : Nat) : s.KeepsLocked (s.broadcast code r) := by
  unfold State.broadcast
  split
  · rfl
  · split
    · exact chamberCommand .hold s
    · split
      · exact chamberCommand (.resume _) s
      · split
        · exact chamberCommand .abort s
        · rfl

theorem takeRecord (code : Nat) {command : State → State × Answer} (h : s.KeepsLocked (command s).1) :
    s.KeepsLocked (s.takeRecord code r command) := by
  unfold State.takeRecord
  split
  · exact h
  · rfl

/-! #### Frames -/

theorem takeEntry (hl : s.lock = true) (entry : List Byte) : s.KeepsLocked (Machine.takeEntry entry s).1 := by
  unfold Machine.takeEntry
  dsimp only
  split
  · rfl
  · split
    · exact broadcast s _
    · split
      · rfl
      · split
        · exact softReset s
        · split
          · exact commandOf hl _ _
          · rfl

theorem takeMailbox (hl : s.lock = true) (entries : List (List Byte)) : s.KeepsLocked (Machine.takeMailbox entries s).2 := by
  induction entries generalizing s with
  | nil => rfl
  | cons entry rest ih =>
    have taken := takeEntry hl entry
    exact taken.trans (ih (taken.lock.trans hl))

theorem takeOutbound (hl : s.lock = true) (f : Frame) : s.KeepsLocked (s.takeOutbound f).1 := by
  have opened : s.KeepsLocked ((s.arrival.overrun).openCycleWith f.cycle.toNat) :=
    ((arrival s).trans (overrun _)).trans (setRing rfl rfl)
  have substituted := opened.trans (substitute _ f.slots)
  exact substituted.trans (takeMailbox (substituted.lock.trans hl) f.mailbox)

theorem takeReturn (s : State) (f : Frame) : s.KeepsLocked (s.takeReturn f).1 := by
  have matched : s.KeepsLocked (s.matchReturn f) := by
    unfold State.matchReturn
    split
    · exact (closeCycle s f.slots).trans (setRing rfl rfl)
    · rfl
  exact matched.trans rfl

theorem outboundPassage (hl : s.lock = true) (time : Nat) (bytes : List Byte) {t : State}
    (ht : execOutboundPassage time bytes s = .next t) : s.KeepsLocked t := by
  unfold execOutboundPassage at ht
  injection ht with ht
  subst ht
  split
  · rfl
  · split
    · rfl
    · rfl
    · next f _ => exact takeOutbound (s := s.advanceTo time) hl f

theorem returnPassage (time : Nat) (bytes : List Byte) {t : State}
    (ht : execReturnPassage time bytes s = .next t) : s.KeepsLocked t := by
  unfold execReturnPassage at ht
  injection ht with ht
  subst ht
  split
  · rfl
  · split
    · rfl
    · rfl
    · next f _ => exact takeReturn (s.advanceTo time) f

/-! #### The events between frames -/

/-- An event of the engines and the arbiter, at a time of its own. -/
theorem event (time : Nat) {f : Ctx → Plant → Plant} (h : s.plant.Leaves (f (s.advanceTo time).ctx s.plant)) :
    s.KeepsLocked ((s.advanceTo time).onPlant f) := onPlant (s := s.advanceTo time) h

theorem growthServed (c : Chamber) {t : State} (ht : execGrowthServed c s = .next t) : s.KeepsLocked t := by
  unfold execGrowthServed at ht
  injection ht with ht
  subst ht
  split
  · rfl
  · split
    · exact onPlant ((Plant.Leaves.refl _).examineGrowth (leaves_expireNow _))
    · rfl

theorem lineGranted (c : Chamber) {t : State} (ht : execLineGranted c s = .next t) : s.KeepsLocked t := by
  unfold execLineGranted at ht
  injection ht with ht
  subst ht
  split
  · rfl
  · split
    · exact event _ ((Plant.Leaves.refl _).grantLine (leaves_expireNow _) c)
    · rfl

theorem dwellExpiry (c : Chamber) {t : State} (ht : execDwellExpiry c s = .next t) : s.KeepsLocked t := by
  unfold execDwellExpiry at ht
  injection ht with ht
  subst ht
  split
  · rfl
  · split
    · exact event _ ((Plant.Leaves.refl _).dwellEnds (leaves_expireNow _) c)
    · rfl

theorem settleExpiry {t : State} (ht : execSettleExpiry s = .next t) : s.KeepsLocked t := by
  unfold execSettleExpiry at ht
  injection ht with ht
  subst ht
  split
  · exact event _ ((Plant.Leaves.refl _).selectLine (leaves_expireNow _))
  · rfl
  · rfl

theorem ringWatchExpiry {t : State} (ht : execRingWatchExpiry s = .next t) : s.KeepsLocked t := by
  unfold execRingWatchExpiry at ht
  injection ht with ht
  subst ht
  split
  · rfl
  · next time _ =>
    split
    · exact loseRing (s.advanceTo time)
    · rfl

theorem graceLapse (c : Chamber) (g : GuardIndex) {t : State} (ht : execGraceLapse c g s = .next t) : s.KeepsLocked t := by
  unfold execGraceLapse at ht
  injection ht with ht
  subst ht
  split
  · rfl
  · next time _ => exact setGuard (s := s.advanceTo time) (e := { s.guardEntry c g with lapse := none }) rfl

theorem endReset (s : State) : s.KeepsLocked s.endReset :=
  setInputs (s := s) (inputs := s.endReset.inputs) fun l => by simp [State.endReset]

/-- Every command but an asserting power-on reset. -/
theorem exec (hl : s.lock = true) {t : State} : ∀ i : Instr, (∀ cause, i = .powerOnReset cause → cause.asserts = false) →
    exec i s = .next t → s.KeepsLocked t
  | .outboundPassage time bytes, _, ht => outboundPassage hl time bytes ht
  | .returnPassage time bytes, _, ht => returnPassage time bytes ht
  | .read _ _, _, rfl => takeRecord _ (refl s)
  | .write table _, _, rfl => takeRecord _ (writeTable hl table.toNat)
  | .slotMapWrite _, _, rfl => takeRecord _ (writeTable hl 1)
  | .channelWrite _, _, rfl => takeRecord _ (writeTable hl 2)
  | .stepWrite _, _, rfl => takeRecord _ (writeStep s)
  | .guardWrite _, _, rfl => takeRecord _ (writeTable hl 4)
  | .levelWrite _, _, rfl => takeRecord _ (writeTable hl 5)
  | .inputWrite _, _, rfl => takeRecord _ (writeTable hl 6)
  | .arbiterWrite _, _, rfl => takeRecord _ (writeTable hl 7)
  | .ringWrite _, _, rfl => takeRecord _ (writeTable hl 8)
  | .noticeWrite _, _, rfl => takeRecord _ (writeNotice s)
  | .stepCheck _, _, rfl => takeRecord _ (checkSteps s)
  | .levelCheck _, _, rfl => takeRecord _ (checkLevels s)
  | .checkNoObject table _, _, rfl => takeRecord _ (checkTable s table.toNat)
  | .start _, _, rfl => takeRecord _ (chamberCommand (.start _) s)
  | .hold _, _, rfl => takeRecord _ (chamberCommand .hold s)
  | .resume _, _, rfl => takeRecord _ (chamberCommand (.resume _) s)
  | .abort _, _, rfl => takeRecord _ (chamberCommand .abort s)
  | .release _, _, rfl => takeRecord _ (chamberCommand .release s)
  | .clear _, _, rfl => takeRecord _ (chamberCommand .clear s)
  | .lock _, _, rfl => takeRecord _ (commandLock hl)
  | .assign _, _, rfl => takeRecord _ (commandAssign s)
  | .restartPart _, _, rfl => by split; exacts [softReset s, refl s]
  | .broadcast command _, _, rfl => broadcast s command.toNat
  | .growthServed c, _, ht => growthServed c ht
  | .lineGranted c, _, ht => lineGranted c ht
  | .dwellExpiry c, _, ht => dwellExpiry c ht
  | .settleExpiry, _, ht => settleExpiry ht
  | .ringWatchExpiry, _, ht => ringWatchExpiry ht
  | .inputLevelChange time l high, _, rfl => by
    split; exacts [setInput (i := { s.input l with raw := high }) rfl, changeLevel (s.advanceTo time) l high]
  | .inputAcceptance l, _, rfl => by split; exacts [refl s, acceptLevel (s.advanceTo _) l]
  | .graceLapse c g, _, ht => graceLapse c g ht
  | .powerOnReset cause, short, ht => by
    rw [show Machine.exec (.powerOnReset cause) s = _ from execPowerOnReset_ignored (short cause rfl) s] at ht
    injection ht with ht
    exact ht ▸ refl s
  | .resetEnd, _, rfl => by split; exacts [endReset s, refl s]

end State.KeepsLocked

/-- Settles O8: every command but an asserting power-on reset keeps the fields that a lock protects, the flag among them. -/
theorem lockedPartKeepsItsTables : Obligations.LockedPartKeepsItsTables := by
  intro i s t hl ht
  by_cases asserted : ∃ cause, i = .powerOnReset cause ∧ cause.asserts = true
  · exact .inl asserted
  · refine .inr ?_
    have kept := State.KeepsLocked.exec hl i (fun cause is => Bool.eq_false_iff.2 fun asserts => asserted ⟨cause, is, asserts⟩) ht
    exact ⟨kept.lock.trans hl, kept.sameTables⟩

end Sys2Proof.Machine
end

/-! ### WRITE of a read-only table, and CHECK of a table that has none (R157, R158, R165, R166) -/
section
namespace Sys2Proof.Machine

variable {s : State} {r : Request} {table : Byte}

theorem writeTable_withoutRow (h : tableHasOwnWriteRow table = false) :
    writeTable table.toNat r s = (s, writeReadOnly table.toNat r s) := by
  have outside : ¬(1 ≤ table.toNat ∧ table.toNat ≤ 9) := by simpa [tableHasOwnWriteRow] using h
  unfold writeTable
  split
  iterate 9 omega
  rfl

theorem checkTable_withoutCheck (h : tableHasCheck table = false) : checkTable table.toNat r s = (s, noObject) := by
  have other : table.toNat ≠ 3 ∧ table.toNat ≠ 5 := by simpa [tableHasCheck] using h
  unfold checkTable
  split
  iterate 2 omega
  rfl

/-- Settles O18. -/
theorem writeReadOnlyAndCheckNoObject : Obligations.WriteReadOnlyAndCheckNoObject := by
  intro table r s takes
  refine ⟨fun readOnly => ?_, fun unchecked => congrArg _ (takes.answers_noObject _ (checkTable_withoutCheck unchecked))⟩
  have written : exec (.write table r) s = .next (s.answered codeWrite r (writeReadOnly table.toNat r s).result
      (writeReadOnly table.toNat r s).data) := by
    refine congrArg _ ((takes.takeRecord _ _).trans ?_)
    rw [writeTable_withoutRow readOnly]
  refine ⟨fun data word => ?_, fun absent => ?_⟩
  · rw [written, writeReadOnly, word]
  · rw [written, writeReadOnly, absent]
    rfl

end Sys2Proof.Machine
end

/-! ### LOCK and ASSIGN (R154, R163) -/
section
namespace Sys2Proof.Machine

variable {s : State} {r : Request}

/-- An ASSIGN is taken at the address as it stands, 0 while the part is unassigned (R154). -/
theorem State.takeRecord_assign (acts : s.inReset = false) (own : r.address = s.address)
    (room : s.responses.length < Config.responseRoom) (command : State → State × Answer) :
    s.takeRecord codeAssign r command =
      (command s).1.answered codeAssign r (command s).2.result (command s).2.data := by
  refine if_pos ?_
  simp [acts, State.addressed, own, State.hasRoom, room]

theorem commandAssign_assigns (low : 1 ≤ r.byte 0) (high : r.byte 0 ≤ 254) : commandAssign r s =
    ({ s with address := BitVec.ofNat 8 (r.byte 0) }, { result := .accepted, data := packData (be1 (r.byte 0)) }) :=
  if_neg (by omega)

theorem commandAssign_badValue (h : r.byte 0 = 0 ∨ r.byte 0 = 255) : commandAssign r s =
    (s, { result := .badValue, data := packData (be1 0 ++ [s.address]) }) := if_pos h

/-- Settles O40. -/
theorem lockAndAssign : Obligations.LockAndAssign := by
  refine ⟨fun r s takes => congrArg _ (takes.takeRecord codeLock commandLock), fun r s acts own room =>
    ⟨fun low high => congrArg Host.Outcome.next ?_, fun bad => congrArg Host.Outcome.next ?_⟩⟩
  · rw [State.takeRecord_assign acts own room, commandAssign_assigns low high]
  · rw [State.takeRecord_assign acts own room, commandAssign_badValue bad]

end Sys2Proof.Machine
end

/-! ### Broadcasts (R156) -/
section
namespace Sys2Proof.Machine

variable {s : State} {r : Request} {entry : List Byte}

/-- A part with an address takes a broadcast of one of the three commands, its mask being sound. -/
theorem State.broadcast_taken (acts : s.inReset = false) (assigned : s.address ≠ 0#8) (sound : r.index.toNat < 16) (code : Nat) :
    s.broadcast code r =
      if code = codeHold then maskState r holdChamber s 4
      else if code = codeResume then maskState r (resumeChamber (r.byte 0)) s 4
      else if code = codeAbort then maskState r abortChamber s 4
      else s := by
  have masked : ∀ act : ChamberStep, (chamberCommand act r s).1 = maskState r act s 4 := fun _ =>
    congrArg Prod.fst (chamberCommand_sound sound)
  rw [← masked, ← masked, ← masked]
  exact if_neg (by simpa [acts, assigned, Request.badMask] using sound)

theorem State.broadcast_left
    (h : s.address = 0#8 ∨ 16 ≤ r.index.toNat ∨ code ≠ codeHold ∧ code ≠ codeResume ∧ code ≠ codeAbort) :
    s.broadcast code r = s := by
  unfold State.broadcast
  split
  · rfl
  · next taken =>
    simp only [Bool.or_eq_true, beq_iff_eq, Request.badMask, decide_eq_true_eq, not_or] at taken
    obtain ⟨⟨-, assigned⟩, sound⟩ := taken
    obtain ⟨hold, resume, abort⟩ := (h.resolve_left assigned).resolve_left sound
    rw [if_neg hold, if_neg resume, if_neg abort]

theorem ChamberStep.IsCommand.maskState_responses {act : ChamberStep} (command : act.IsCommand) (n : Nat) :
    (maskState r act s n).responses = s.responses := by
  unfold maskState
  induction chambers.take n generalizing s with
  | nil => rfl
  | cons c rest ih =>
    rw [List.foldl_cons, ih]
    split
    · exact command.responses c s
    · rfl

/-- A broadcast entry travels on as it came, and what it does is the row of its command (R156). -/
theorem takeEntry_broadcast (checked : entryCheckCorrect entry = true) (address : entry.getD 0 0#8 = 0xFF#8)
    (used : entry.getD 1 0#8 ≠ 0#8) : takeEntry entry s =
      (if 12 < byteAt entry 1 then s else s.broadcast (byteAt entry 1) (requestOf entry), entry) := by
  have notEmpty : entryIsEmpty entry = false := by
    simpa [entryIsEmpty, byteAt, ← BitVec.toNat_inj] using used
  unfold takeEntry
  by_cases unknown : 12 < byteAt entry 1
  · simp [unknown]
  · simp [notEmpty, checked, unknown, show (requestOf entry).address = 0xFF#8 from address]

/-- Settles O41. -/
theorem broadcastExecuted : Obligations.BroadcastExecuted := by
  intro command r s acts after
  have after_eq : ∀ act, after act = maskState r act s 4 := fun _ => rfl
  refine ⟨fun assigned sound => ⟨fun hold => ?_, fun resume => ?_, fun abort => ?_⟩, fun left => ?_, fun act is => ?_,
    fun entry checked address request code used => ?_⟩
  · exact congrArg _ ((State.broadcast_taken acts assigned sound _).trans (if_pos hold))
  · rw [after_eq]
    exact congrArg _ ((State.broadcast_taken acts assigned sound _).trans (by rw [resume]; rfl))
  · rw [after_eq]
    exact congrArg _ ((State.broadcast_taken acts assigned sound _).trans (by rw [abort]; rfl))
  · exact congrArg _ (State.broadcast_left left)
  · have command : act.IsCommand := by
      rcases is with rfl | rfl | rfl
      exacts [.hold, .resume _, .abort]
    exact command.maskState_responses 4
  · rw [takeEntry_broadcast checked address (by rw [code]; exact used)]
    have codeOf : byteAt entry 1 = command.toNat := congrArg BitVec.toNat code
    refine ⟨rfl, fun known => ?_⟩
    rw [codeOf, request, if_neg (Nat.not_lt.2 known)]
    rfl

end Sys2Proof.Machine
end

/-! ### The commands that the lock does not cover (R163) -/
section
namespace Sys2Proof.Machine

/-- The part with its lock flag set. -/
abbrev State.withLock (s : State) : State := { s with lock := true }

/-- A command that does and answers on a locked part what it does on an unlocked one. -/
def IgnoresLock (command : State → State × Answer) : Prop :=
  ∀ s : State, command s.withLock = ((command s).1.withLock, (command s).2)

variable {s : State} {r : Request}

theorem IgnoresLock.takeRecord {command : State → State × Answer} (h : IgnoresLock command) (code : Nat) (s : State) :
    s.withLock.takeRecord code r command = (s.takeRecord code r command).withLock := by
  have taken : s.withLock.takeWith code r command = (s.takeWith code r command).withLock := by
    rw [State.takeWith, h s]
    rfl
  unfold State.takeRecord
  split
  · next takes => exact taken.trans (congrArg State.withLock (if_pos takes).symm)
  · next left => exact congrArg State.withLock (if_neg left).symm

/-! #### READ, WRITE and CHECK -/

/-- IDENT alone shows the flag (R166). -/
theorem State.withLock_tableWord {table : Nat} (other : table ≠ 11) (index word : Nat) :
    s.withLock.tableWord table index word = s.tableWord table index word := by
  unfold State.tableWord
  split
  iterate 10 rfl
  · exact absurd rfl other
  · rfl

theorem readTable_ignoresLock {table : Nat} (other : table ≠ 11) : IgnoresLock fun s => (s, readTable table r s) := by
  intro s
  show (s.withLock, readTable table r s.withLock) = (s.withLock, readTable table r s)
  rw [readTable, State.withLock_tableWord other]
  rfl

section
variable {table : Nat} (other : table ≠ 11)
include other

theorem State.withLock_wordOrZero : s.withLock.wordOrZero table r = s.wordOrZero table r :=
  congrArg (·.getD zeroData) (State.withLock_tableWord other _ _)

theorem State.withLock_refuseWith (result : Result) : s.withLock.refuseWith result table r = s.refuseWith result table r :=
  congrArg _ (State.withLock_wordOrZero other)

theorem State.withLock_acceptWrite :
    s.withLock.acceptWrite table r = ((s.acceptWrite table r).1.withLock, (s.acceptWrite table r).2) :=
  congrArg (fun data => (s.withLock, ({ result := .accepted, data := data } : Answer))) (State.withLock_wordOrZero other)

end

theorem writeStep_ignoresLock : IgnoresLock (writeStep r) := by
  intro s
  have apart : stepTable ≠ 11 := by decide
  by_cases there : r.index.toNat < 512 ∧ r.word.toNat < 8
  · rw [writeStep, writeStep, dif_pos there, dif_pos there]
    show (if s.stepInUse r.index.toNat then _ else _) = _
    split
    · rw [State.withLock_refuseWith apart]
    · exact State.withLock_acceptWrite (s := s.setStep ⟨_, there.1⟩ _) apart
  · rw [writeStep, writeStep, dif_neg there, dif_neg there]

theorem writeNotice_ignoresLock : IgnoresLock (writeNotice r) := by
  intro s
  have apart : noticeTable ≠ 11 := by decide
  unfold writeNotice
  by_cases slot : r.index.toNat < 27
  · rw [dif_pos slot, dif_pos slot]
    split
    · rfl
    · split
      · rw [State.withLock_refuseWith apart]
      · split
        · rfl
        · split
          · rfl
          · exact State.withLock_acceptWrite
              (s := { s with plant := { s.plant with notices := s.plant.notices.set _ _ slot } }) apart
  · rw [dif_neg slot, dif_neg slot]
    split
    · split
      · rfl
      · exact State.withLock_acceptWrite (s := { s with threshold := r.byte 0 }) apart
    · rfl

theorem checkRecords_withLock (n i passed : Nat) (s : State) : checkRecords n i passed s.withLock =
    ((checkRecords n i passed s).1.withLock, (checkRecords n i passed s).2) := by
  induction n generalizing i passed s with
  | zero => rfl
  | succ n ih =>
    unfold checkRecords
    by_cases hi : i < 512
    · rw [dif_pos hi, dif_pos hi]
      dsimp only
      split
      · rfl
      · split
        · rfl
        · exact ih _ _ (s.setStep ⟨i, hi⟩ { s.pool[i] with check := .checked })
    · rw [dif_neg hi, dif_neg hi]

theorem checkLevelTables_withLock (n i passed : Nat) (s : State) : checkLevelTables n i passed s.withLock =
    ((checkLevelTables n i passed s).1.withLock, (checkLevelTables n i passed s).2) := by
  induction n generalizing i passed s with
  | zero => rfl
  | succ n ih =>
    unfold checkLevelTables
    by_cases hi : i < 4
    · rw [dif_pos hi, dif_pos hi]
      dsimp only
      split
      · rfl
      · exact ih _ _ (s.setLevel ⟨i, hi⟩ { s.levels[i] with checked := true })
    · rw [dif_neg hi, dif_neg hi]

theorem checkSteps_ignoresLock : IgnoresLock (checkSteps r) := by
  intro s
  unfold checkSteps
  dsimp only
  split
  · rfl
  · exact checkRecords_withLock _ _ _ s

theorem checkLevels_ignoresLock : IgnoresLock (checkLevels r) := by
  intro s
  unfold checkLevels
  dsimp only
  split
  · rfl
  · exact checkLevelTables_withLock _ _ _ s

theorem checkTable_ignoresLock (table : Nat) : IgnoresLock (checkTable table r) := by
  intro s
  unfold checkTable
  split
  · exact checkSteps_ignoresLock s
  · exact checkLevels_ignoresLock s
  · rfl

theorem commandAssign_ignoresLock : IgnoresLock (commandAssign r) := by
  intro s
  unfold commandAssign
  dsimp only
  split <;> rfl

/-! #### The chamber commands -/

theorem resumeChamber_unnamed {c : Chamber} {mode : Nat} (held : (s.engine c).state = .held) (h : resumeMode mode = none) :
    resumeChamber mode c s = (s, some { result := .badValue }) := by
  rw [resumeChamber, if_neg (not_not.2 held), h]

theorem ChamberStep.IsCommand.withLock {act : ChamberStep} (command : act.IsCommand) (c : Chamber) (s : State) :
    act c s.withLock = ((act c s).1.withLock, (act c s).2) := by
  cases command with
  | start first =>
    by_cases idle : (s.engine c).state = .idle
    · cases walk : startWalk s.ctx s.slotMap c first with
      | error f => rw [startChamber_walkRefuses (s := s.withLock) idle walk, startChamber_walkRefuses idle walk]
      | ok last =>
        rw [startChamber_starts (s := s.withLock) idle walk, startChamber_starts idle walk]
        rfl
    · rw [startChamber_wrongState (s := s.withLock) first idle, startChamber_wrongState first idle]
  | hold =>
    by_cases active : (s.engine c).state = .running ∨ (s.engine c).state = .waiting ∨ (s.engine c).state = .held
    · rw [holdChamber_adds (s := s.withLock) active, holdChamber_adds active]
      rfl
    · have other : (s.engine c).state = .idle ∨ (s.engine c).state = .done ∨ (s.engine c).state = .safe := by
        revert active
        cases (s.engine c).state <;> simp
      rw [holdChamber_wrongState (s := s.withLock) other, holdChamber_wrongState other]
  | resume mode =>
    by_cases held : (s.engine c).state = .held
    · cases named : resumeMode mode with
      | none => rw [resumeChamber_unnamed (s := s.withLock) held named, resumeChamber_unnamed held named]
      | some m =>
        rw [resumeChamber_resumes (s := s.withLock) held named, resumeChamber_resumes held named]
        rfl
    · rw [resumeChamber_wrongState (s := s.withLock) mode held, resumeChamber_wrongState mode held]
  | abort =>
    by_cases rests : (s.engine c).state = .idle ∨ (s.engine c).state = .safe
    · rw [abortChamber_wrongState (s := s.withLock) rests, abortChamber_wrongState rests]
    · obtain ⟨notIdle, notSafe⟩ := not_or.1 rests
      rw [abortChamber_aborts (s := s.withLock) notIdle notSafe, abortChamber_aborts notIdle notSafe]
      rfl
  | release =>
    by_cases done : (s.engine c).state = .done
    · rw [releaseChamber_releases (s := s.withLock) done, releaseChamber_releases done]
      rfl
    · rw [releaseChamber_wrongState (s := s.withLock) done, releaseChamber_wrongState done]
  | clear =>
    by_cases safe : (s.engine c).state = .safe
    · cases stands : anyStanding s.guards[c] .safe with
      | true => rw [clearChamber_stillTripped (s := s.withLock) safe stands, clearChamber_stillTripped safe stands]
      | false =>
        rw [clearChamber_clears (s := s.withLock) safe stands, clearChamber_clears safe stands]
        rfl
    · rw [clearChamber_wrongState (s := s.withLock) safe, clearChamber_wrongState safe]

theorem overMask_withLock {act : ChamberStep} (command : act.IsCommand) (cs : List Chamber) (s : State) (t : MaskTally) :
    overMask r act cs s.withLock t = ((overMask r act cs s t).1.withLock, (overMask r act cs s t).2) := by
  induction cs generalizing s t with
  | nil => rfl
  | cons c rest ih =>
    rw [overMask_cons, overMask_cons, command.withLock, ← ih]
    congr 1
    split <;> rfl

theorem ChamberStep.IsCommand.ignoresLock {act : ChamberStep} (command : act.IsCommand) : IgnoresLock (chamberCommand act r) := by
  intro s
  unfold chamberCommand
  split
  · rfl
  · rw [overMask_withLock command]

/-- Settles O9: each of these rows takes its record by a command that ignores the lock. -/
theorem unlockedCommandsIgnoreLock : Obligations.UnlockedCommandsIgnoreLock := by
  intro i s t uncovered ht
  obtain ⟨code, r, command, ignores, takes⟩ : ∃ (code : Nat) (r : Request) (command : State → State × Answer),
      IgnoresLock command ∧ ∀ u : State, exec i u = .next (u.takeRecord code r command) := by
    cases i with
    | read table r => exact ⟨_, r, _, readTable_ignoresLock uncovered, fun _ => rfl⟩
    | stepWrite r => exact ⟨_, r, _, writeStep_ignoresLock, fun _ => rfl⟩
    | noticeWrite r => exact ⟨_, r, _, writeNotice_ignoresLock, fun _ => rfl⟩
    | stepCheck r => exact ⟨_, r, _, checkSteps_ignoresLock, fun _ => rfl⟩
    | levelCheck r => exact ⟨_, r, _, checkLevels_ignoresLock, fun _ => rfl⟩
    | checkNoObject table r => exact ⟨_, r, _, checkTable_ignoresLock table.toNat, fun _ => rfl⟩
    | start r => exact ⟨_, r, _, (ChamberStep.IsCommand.start _).ignoresLock, fun _ => rfl⟩
    | hold r => exact ⟨_, r, _, ChamberStep.IsCommand.hold.ignoresLock, fun _ => rfl⟩
    | resume r => exact ⟨_, r, _, (ChamberStep.IsCommand.resume _).ignoresLock, fun _ => rfl⟩
    | abort r => exact ⟨_, r, _, ChamberStep.IsCommand.abort.ignoresLock, fun _ => rfl⟩
    | release r => exact ⟨_, r, _, ChamberStep.IsCommand.release.ignoresLock, fun _ => rfl⟩
    | clear r => exact ⟨_, r, _, ChamberStep.IsCommand.clear.ignoresLock, fun _ => rfl⟩
    | assign r => exact ⟨_, r, _, commandAssign_ignoresLock, fun _ => rfl⟩
    | _ => exact uncovered.elim
  rw [takes] at ht ⊢
  injection ht with ht
  rw [← ht]
  exact congrArg Host.Outcome.next (ignores.takeRecord code s)

end Sys2Proof.Machine
end

/-! ### The taking of a record: its answer, and the mailbox entry that carries it (R153 to R156, R167) -/
section
namespace Sys2Proof.Machine

/-! #### ASSIGN alone changes the address (R154) -/

section
variable (s : State) (r : Request)

theorem writeSlotMap_address : (writeSlotMap r s).1.address = s.address := by
  unfold writeSlotMap
  repeat' split
  all_goals rfl

theorem writeChannel_address : (writeChannel r s).1.address = s.address := by
  have stored : ∀ c h record, (s.storeChannel c h record).address = s.address := fun c h record => by
    unfold State.storeChannel
    dsimp only
    split <;> rfl
  unfold writeChannel
  dsimp only
  repeat' split
  all_goals first
    | exact stored _ _ _
    | rfl

theorem writeStep_address : (writeStep r s).1.address = s.address := by
  unfold writeStep
  repeat' split
  all_goals rfl

theorem writeGuard_address : (writeGuard r s).1.address = s.address := by
  unfold writeGuard
  dsimp only
  repeat' split
  all_goals rfl

theorem writeLevel_address : (writeLevel r s).1.address = s.address := by
  unfold writeLevel
  dsimp only
  repeat' split
  all_goals rfl

theorem writeInput_address : (writeInput r s).1.address = s.address := by
  unfold writeInput
  dsimp only
  repeat' split
  all_goals rfl

theorem writeArbiter_address : (writeArbiter r s).1.address = s.address := by
  unfold writeArbiter
  dsimp only
  repeat' split
  all_goals rfl

theorem writeRing_address : (writeRing r s).1.address = s.address := by
  unfold writeRing
  dsimp only
  repeat' split
  all_goals rfl

theorem writeNotice_address : (writeNotice r s).1.address = s.address := by
  unfold writeNotice
  dsimp only
  repeat' split
  all_goals rfl

theorem writeTable_address (table : Nat) : (writeTable table r s).1.address = s.address := by
  unfold writeTable
  split
  · exact writeSlotMap_address s r
  · exact writeChannel_address s r
  · exact writeStep_address s r
  · exact writeGuard_address s r
  · exact writeLevel_address s r
  · exact writeInput_address s r
  · exact writeArbiter_address s r
  · exact writeRing_address s r
  · exact writeNotice_address s r
  · rfl

theorem checkTable_address (table : Nat) : (checkTable table r s).1.address = s.address := by
  unfold checkTable
  split
  · unfold checkSteps
    dsimp only
    split
    · rfl
    · rw [(State.KeepsInUse.checkRecords _ _ _ s).2]
  · unfold checkLevels
    dsimp only
    split
    · rfl
    · rw [(State.KeepsInUse.checkLevelTables _ _ _ s).2]
  · rfl

/-- The commands before ASSIGN in Table 9-2. -/
theorem commandOf_address {code : Nat} (known : 1 ≤ code) (other : code ≤ 10) (table : Nat) :
    (commandOf code table r s).1.address = s.address := by
  have chamber : ∀ {act : ChamberStep}, act.IsCommand → (chamberCommand act r s).1.address = s.address :=
    fun command => chamberCommand_keeps command.address s
  interval_cases code
  · rfl
  · exact writeTable_address s r table
  · exact checkTable_address s r table
  · exact chamber (.start _)
  · exact chamber .hold
  · exact chamber (.resume _)
  · exact chamber .abort
  · exact chamber .release
  · exact chamber .clear
  · rfl

end

/-! #### The rows and their codes -/

variable {s : State} {r : Request}

/-- A row that takes a record by the part's own address does the command of its code, on some table (R158). -/
theorem exec_recordOf {code : Nat} : ∀ i : Instr, recordOf i = some (code, r) → (1 ≤ code ∧ code ≤ 10) ∧
    ∃ table, ∀ s : State, exec i s = .next (s.takeRecord code r (commandOf code table r))
  | .read table _, h => by cases h; exact ⟨by decide, table.toNat, fun _ => rfl⟩
  | .write table _, h => by cases h; exact ⟨by decide, table.toNat, fun _ => rfl⟩
  | .slotMapWrite _, h => by cases h; exact ⟨by decide, 1, fun _ => rfl⟩
  | .channelWrite _, h => by cases h; exact ⟨by decide, 2, fun _ => rfl⟩
  | .stepWrite _, h => by cases h; exact ⟨by decide, 3, fun _ => rfl⟩
  | .guardWrite _, h => by cases h; exact ⟨by decide, 4, fun _ => rfl⟩
  | .levelWrite _, h => by cases h; exact ⟨by decide, 5, fun _ => rfl⟩
  | .inputWrite _, h => by cases h; exact ⟨by decide, 6, fun _ => rfl⟩
  | .arbiterWrite _, h => by cases h; exact ⟨by decide, 7, fun _ => rfl⟩
  | .ringWrite _, h => by cases h; exact ⟨by decide, 8, fun _ => rfl⟩
  | .noticeWrite _, h => by cases h; exact ⟨by decide, 9, fun _ => rfl⟩
  | .stepCheck _, h => by cases h; exact ⟨by decide, 3, fun _ => rfl⟩
  | .levelCheck _, h => by cases h; exact ⟨by decide, 5, fun _ => rfl⟩
  | .checkNoObject table _, h => by cases h; exact ⟨by decide, table.toNat, fun _ => rfl⟩
  | .start _, h => by cases h; exact ⟨by decide, 0, fun _ => rfl⟩
  | .hold _, h => by cases h; exact ⟨by decide, 0, fun _ => rfl⟩
  | .resume _, h => by cases h; exact ⟨by decide, 0, fun _ => rfl⟩
  | .abort _, h => by cases h; exact ⟨by decide, 0, fun _ => rfl⟩
  | .release _, h => by cases h; exact ⟨by decide, 0, fun _ => rfl⟩
  | .clear _, h => by cases h; exact ⟨by decide, 0, fun _ => rfl⟩
  | .lock _, h => by cases h; exact ⟨by decide, 0, fun _ => rfl⟩

theorem rowOf_eq_none {code table : Byte} (h : rowOf code table r = none) : code = 0#8 ∨ 12 < code.toNat := by
  by_contra known
  obtain ⟨used, known⟩ := not_or.1 known
  have positive : code.toNat ≠ 0 := fun zero => used (BitVec.eq_of_toNat_eq zero)
  have bounded : code.toNat ≤ 12 := Nat.not_lt.1 known
  unfold rowOf at h
  generalize code.toNat = n at h positive bounded
  interval_cases n <;> first | exact positive rfl | cases h

/-- The row of a record does the command of its code on the table it names; RESTART_PART queues no response (R155, R158). -/
theorem exec_rowOf {code table : Byte} {i : Instr} (row : rowOf code table r = some i) :
    1 ≤ code.toNat ∧ code.toNat ≤ 12 ∧ (code = 11#8 → exec i s = execRestartPart r s) ∧
      (code ≠ 11#8 → exec i s = .next (s.takeRecord code.toNat r (commandOf code.toNat table.toNat r))) := by
  have restart : code = 11#8 ↔ code.toNat = 11 := ⟨congrArg BitVec.toNat, fun h => BitVec.eq_of_toNat_eq h⟩
  rw [Ne, restart]
  unfold rowOf at row
  generalize code.toNat = n at row ⊢
  split at row
  · cases row
    exact ⟨by decide, by decide, nofun, fun _ => rfl⟩
  · cases row
    refine ⟨by decide, by decide, nofun, fun _ => ?_⟩
    show _ = Host.Outcome.next (s.takeRecord codeWrite r (writeTable table.toNat r))
    split
    iterate 9 next named => rw [named]; rfl
    rfl
  · cases row
    refine ⟨by decide, by decide, nofun, fun _ => ?_⟩
    show _ = Host.Outcome.next (s.takeRecord codeCheck r (checkTable table.toNat r))
    split
    iterate 2 next named => rw [named]; rfl
    rfl
  iterate 7
    · cases row
      exact ⟨by decide, by decide, nofun, fun _ => rfl⟩
  · cases row
    exact ⟨by decide, by decide, fun _ => rfl, fun other => absurd rfl other⟩
  · cases row
    exact ⟨by decide, by decide, nofun, fun _ => rfl⟩
  · cases row

end Sys2Proof.Machine
end

/-! ### The entry that carries a record (Table 9-1, R153, R155) -/
section
namespace Sys2Proof.Machine

variable {s : State} {r : Request} {entry : List Byte}

/-! #### Its bytes -/

/-- The bytes of a record before its check. -/
def Request.fields (r : Request) (code table : Byte) : List Byte :=
  [r.address, code, r.tag, table] ++ be2 r.index.toNat ++ [r.word] ++ r.data.toList

theorem Request.fields_length (code table : Byte) : (r.fields code table).length = 15 := by
  simp [Request.fields]

theorem packData_toList (data : Data) : packData data.toList = data := by
  refine Vector.ext fun i hi => ?_
  simp [packData, List.getD_eq_getElem?_getD]

theorem requestOf_fields (code table check : Byte) : requestOf (r.fields code table ++ [check]) = r := by
  have index : bytesAt (r.fields code table ++ [check]) 4 2 = be2 r.index.toNat := rfl
  have data : bytesAt (r.fields code table ++ [check]) 7 8 = r.data.toList :=
    List.take_left' (l₁ := r.data.toList) (l₂ := [check]) (by simp)
  unfold requestOf
  rw [numberAt, index, ofNat_fromBytes_be2, data, packData_toList]
  rfl

theorem entryCheckCorrect_iff (entry : List Byte) :
    entryCheckCorrect entry = true ↔ entry.getD 15 0#8 = crc8 (entry.take 15) := beq_iff_eq

theorem entryCheckCorrect_sealed {fields : List Byte} (length : fields.length = 15) :
    entryCheckCorrect (fields ++ [crc8 fields]) = true := by
  rw [entryCheckCorrect_iff, List.take_left' length, List.getD_eq_getElem?_getD,
    List.getElem?_append_right (Nat.le_of_eq length), length]
  rfl

theorem byteAt_eq_iff {i : Nat} {b : Byte} : byteAt entry i = b.toNat ↔ entry.getD i 0#8 = b := BitVec.toNat_inj

/-! #### Its taking -/

theorem takeEntry_unread (h : entryIsEmpty entry = true ∨ entryCheckCorrect entry = false ∨ 12 < byteAt entry 1) :
    takeEntry entry s = (s, entry) := by
  refine if_pos ?_
  simpa [or_assoc] using h

theorem State.addressed_iff {code : Nat} :
    s.addressed code r = true ↔ r.address = s.address ∧ (s.address ≠ 0#8 ∨ code = codeAssign) := by
  simp [State.addressed]

section
variable (readable : ¬(entryIsEmpty entry = true ∨ entryCheckCorrect entry = false ∨ 12 < byteAt entry 1))
  (single : (requestOf entry).address ≠ 0xFF#8)
include readable single

/-- A readable entry that is no broadcast. -/
theorem takeEntry_single : takeEntry entry s =
    if s.addressed (byteAt entry 1) (requestOf entry) = false then (s, entry)
    else if byteAt entry 1 = codeRestart then (s.softReset, emptyEntry)
    else if s.hasRoom then
      (s.takeWith (byteAt entry 1) (requestOf entry)
        (commandOf (byteAt entry 1) (byteAt entry 3) (requestOf entry)), emptyEntry)
    else (s, entry) := by
  unfold takeEntry
  refine (if_neg (by simpa [or_assoc] using readable)).trans ((if_neg single).trans ?_)
  simp only [Bool.not_eq_true']

theorem takeEntry_left (h : s.addressed (byteAt entry 1) (requestOf entry) = false ∨
    byteAt entry 1 ≠ codeRestart ∧ s.hasRoom = false) : takeEntry entry s = (s, entry) := by
  rw [takeEntry_single readable single]
  rcases h with other | ⟨ordinary, full⟩
  · rw [if_pos other]
  · rw [if_neg ordinary, full]
    exact ite_self _

theorem takeEntry_restart (own : s.addressed (byteAt entry 1) (requestOf entry) = true)
    (restart : byteAt entry 1 = codeRestart) : takeEntry entry s = (s.softReset, emptyEntry) := by
  rw [takeEntry_single readable single, if_neg (by simp [own]), if_pos restart]

/-- A record in a frame is taken as the record of its row (log 3). -/
theorem takeEntry_takes (own : s.addressed (byteAt entry 1) (requestOf entry) = true)
    (ordinary : byteAt entry 1 ≠ codeRestart) (acts : s.inReset = false) (room : s.hasRoom = true) :
    takeEntry entry s = (s.takeRecord (byteAt entry 1) (requestOf entry)
      (commandOf (byteAt entry 1) (byteAt entry 3) (requestOf entry)), emptyEntry) := by
  rw [takeEntry_single readable single, if_neg (by simp [own]), if_neg ordinary, if_pos room, State.takeRecord,
    if_pos (by simp [acts, own, room])]

end

theorem State.hasRoom_iff : s.hasRoom = true ↔ s.responses.length < 8 := decide_eq_true_iff

theorem execRestartPart_taken (acts : s.inReset = false) (own : s.addressed codeRestart r = true) :
    execRestartPart r s = .next s.softReset :=
  congrArg Host.Outcome.next (if_pos (by simp [acts, own]))

/-- Settles O15: the answer of a taken record, the bytes and the check of its entry, and the entry taken or left. -/
theorem takenRecordAnswered : Obligations.TakenRecordAnswered := by
  refine ⟨fun i code r s t row takes ht => ?_, fun r code table => ?_, ⟨entryCheckCorrect_iff, rfl, crc8_feed⟩,
    fun entry s acts => ?_, fun _ _ _ => ⟨rfl, rfl⟩⟩
  · obtain ⟨⟨low, high⟩, table, does⟩ := exec_recordOf i row
    have serves := State.Serves.commandOf (r := r) s code table
    have taken := (does s).symm.trans ht
    injection taken with taken
    rw [takes.takeRecord] at taken
    rw [← taken]
    exact ⟨_, _, congrArg (· ++ [responseTo code r (commandOf code table r s).2]) serves.responses, serves.now,
      serves.inReset, commandOf_address s r low high table, serves.txDown, serves.txUp⟩
  · exact ⟨by simp, requestOf_fields code table _, entryCheckCorrect_sealed (Request.fields_length code table), rfl, rfl⟩
  · intro r row restart mine
    have own : s.addressed (byteAt entry 1) r = true ↔ mine := by
      rw [State.addressed_iff, show codeAssign = (12#8).toNat from rfl, byteAt_eq_iff]
    have restarts : byteAt entry 1 = codeRestart ↔ restart := byteAt_eq_iff (b := 11#8)
    have unknown : row = none → entryIsEmpty entry = true ∨ 12 < byteAt entry 1 := fun none =>
      (rowOf_eq_none none).imp_left fun zero => beq_iff_eq.2 ((byteAt_eq_iff (b := 0#8)).2 zero)
    refine ⟨fun left => ?_, fun checked single isMine room i known => ?_⟩
    · by_cases unread : entryIsEmpty entry = true ∨ entryCheckCorrect entry = false ∨ 12 < byteAt entry 1
      · exact takeEntry_unread unread
      · rcases left with none | wrong | ⟨single, left⟩
        · exact absurd ((unknown none).imp_right .inr) unread
        · exact absurd (.inr (.inl wrong)) unread
        · refine takeEntry_left unread single (left.imp (fun other => ?_) fun ⟨ordinary, full⟩ => ⟨?_, ?_⟩)
          · exact Bool.eq_false_iff.2 fun addressed => other (own.1 addressed)
          · exact fun is => ordinary (restarts.1 is)
          · exact Bool.eq_false_iff.2 fun free => Nat.not_lt.2 full (State.hasRoom_iff.1 free)
    · obtain ⟨low, high, restarted, ordinary⟩ := exec_rowOf (s := s) known
      have readable : ¬(entryIsEmpty entry = true ∨ entryCheckCorrect entry = false ∨ 12 < byteAt entry 1) := by
        have used : ¬entryIsEmpty entry = true := fun empty => Nat.ne_of_gt low (beq_iff_eq.1 empty)
        have sound : ¬12 < byteAt entry 1 := Nat.not_lt.2 high
        simp [used, checked, sound]
      have addressed := own.2 isMine
      by_cases is : restart
      · refine ⟨s.softReset, ?_, takeEntry_restart readable single addressed (restarts.2 is)⟩
        have named : s.addressed codeRestart r = true := by rw [← restarts.2 is]; exact addressed
        rw [restarted is, execRestartPart_taken acts named]
      · exact ⟨_, ordinary is, takeEntry_takes readable single addressed (fun r => is (restarts.1 r)) acts
          (State.hasRoom_iff.2 (room.resolve_left is))⟩

end Sys2Proof.Machine
end

/-! ### The words of the tables as Chapter 9 packs them, and READ of every table but STEP (R153, R159) -/
section
namespace Sys2Proof.Machine

variable {s : State} {r : Request}

/-! #### READ -/

theorem readTable_word {table : Nat} (other : table ≠ 3) {data : Data}
    (word : s.tableWord table r.index.toNat r.word.toNat = some data) :
    readTable table r s = { result := .accepted, data := data } := by
  rw [readTable, word]
  exact if_neg other

theorem readTable_absent {table : Nat} (absent : s.tableWord table r.index.toNat r.word.toNat = none) :
    readTable table r s = noObject := by
  rw [readTable, absent]

/-! #### Fields -/

theorem flagByte_beq {α : Type} [DecidableEq α] (a b : α) : flagByte (a == b) = be1 (if a = b then 1 else 0) := by
  simp [flagByte]

theorem flagByte_isSome {α : Type} (a : Option α) : flagByte a.isSome = be1 (if a = none then 0 else 1) := by
  cases a <;> rfl

/-- Four successive values of a run of fields. -/
theorem take_four_drop {α : Type} (l : List α) (k : Nat) (h : k + 4 ≤ l.length) :
    (l.drop k).take 4 = [l[k], l[k + 1], l[k + 2], l[k + 3]] := by
  rw [List.drop_eq_getElem_cons (by omega), List.drop_eq_getElem_cons (by omega), List.drop_eq_getElem_cons (by omega),
    List.drop_eq_getElem_cons (by omega)]
  rfl

theorem valueGroup_eq (t : ValueTable) (g : Fin 4) : valueGroup t g.val =
    packData (be2 t[4 * g.val] ++ be2 t[4 * g.val + 1] ++ be2 t[4 * g.val + 2] ++ be2 t[4 * g.val + 3]) := by
  rw [valueGroup, take_four_drop _ _ (by simp; omega)]
  simp only [Vector.getElem_toList]
  rfl

/-- A loop stack of at most two entries, the bottom entry first. -/
theorem loopStackData_eq (loops : List LoopEntry) : loops.length ≤ 2 → loopStackData loops = match loops with
    | [] => packData (be2 0xFFFF ++ be2 0 ++ be2 0xFFFF ++ be2 0)
    | [bottom] => packData (be2 bottom.step ++ be2 bottom.remaining ++ be2 0xFFFF ++ be2 0)
    | top :: bottom :: _ => packData (be2 bottom.step ++ be2 bottom.remaining ++ be2 top.step ++ be2 top.remaining) := by
  intro few
  match loops, few with
  | [], _ => rfl
  | [_], _ => rfl
  | [_, _], _ => rfl

theorem chamberByte_eq (place : Option Chamber) : chamberByte place = be1 (match place with | none => 0xFF | some c => c.val) := by
  cases place <;> rfl

theorem growthBytes_eq (request : Option GrowthRequest) : growthBytes request = match request with
    | none => be1 0xFF ++ be2 0
    | some g => be1 g.chamber.val ++ be2 g.requested := by
  cases request <;> rfl

theorem levelByte_codes : levelByte true = be1 1 ∧ levelByte false = be1 0 ∨ levelByte true = be1 0 ∧ levelByte false = be1 1 := by
  unfold levelByte
  cases Config.highCarriesOne
  · exact .inr ⟨rfl, rfl⟩
  · exact .inl ⟨rfl, rfl⟩

theorem pairByte_eq (pair : Option Chan) : pairByte pair = be1 (match pair with | none => 0xFF | some h => h.val) := by
  cases pair <;> rfl

theorem GuardKind.code_eq (kind : GuardKind) : kind.code = match kind with
    | .off => 0 | .levelAbove => 1 | .levelBelow => 2 | .valueAbove => 3 | .valueBelow => 4 | .deviation => 5
    | .inputHigh => 6 | .inputLow => 7 := by
  cases kind <;> rfl

theorem idxOf_scopes (scope : Scope) :
    scopes.idxOf scope = match scope with | .always => 0 | .runOnly => 1 | .flagged => 2 := by
  cases scope <;> rfl

theorem idxOf_guardActions (action : GuardAction) :
    guardActions.idxOf action = match action with | .note => 0 | .hold => 1 | .safe => 2 := by
  cases action <;> rfl

theorem GuardState.fields_bytes (state : GuardState) : be1 state.fields.1 ++ be1 state.fields.2 = match state with
    | .clear => be1 0 ++ be1 0
    | .counting n => be1 1 ++ be1 n
    | .tripped => be1 2 ++ be1 0
    | .releasing n => be1 3 ++ be1 n := by
  cases state <;> rfl

theorem SlotUse.data_eq (use : SlotUse) : use.data = packData (match use with
    | .unmapped => be1 0 ++ be1 0xFF ++ be1 0xFF
    | .channel c h => be1 1 ++ be1 c.val ++ be1 h.val
    | .report c => be1 2 ++ be1 c.val ++ be1 0xFF) := by
  cases use <;> rfl

theorem holdData_some (k : HoldRecord) : holdData (some k) =
    packData (be1 (match k.heldFrom with | .running => 2 | .waiting => 1) ++ be2 k.step ++
      be1 (match k.mode with | .continue => 0 | .restart => 1) ++ be4 k.elapsed) := by
  obtain ⟨heldFrom, step, elapsed, loops, start, output, mode⟩ := k
  cases heldFrom <;> cases mode <;> rfl

/-! #### Words of one object -/

section
variable (ch : Channel) (e : GuardEntry) (engine : Engine) (permit : Bool)

theorem Channel.wordData_record : ch.wordData 0 = some (packData (
    be1 (match ch.record.kind with
      | .none => 0 | .gasFlow => 1 | .valve => 2 | .roughValve => 3 | .throttle => 4 | .rfPower => 5 | .setpoint => 6
      | .pressure => 7 | .flowRead => 8 | .rfForward => 9 | .rfReflected => 10 | .readback => 11) ++
    be1 (if ch.record.owner = .controller then 1 else 0) ++ be1 (if ch.record.holdBehaviour = .keep then 1 else 0) ++
    be1 ch.record.weight ++ be1 (match ch.record.pair with | none => 0xFF | some h => h.val))) := by
  rw [← pairByte_eq, ← flagByte_beq, ← flagByte_beq]
  exact congrArg (fun code => some (packData (be1 code ++ flagByte (ch.record.owner == .controller) ++
    flagByte (ch.record.holdBehaviour == .keep) ++ be1 ch.record.weight ++ pairByte ch.record.pair)))
    (ChannelKind.code_eq ch.record.kind)

/-- Word 3 of a channel is its status by the class of its kind (R9). -/
theorem Channel.wordData_status : ch.wordData 3 = some (match ch.record.kind with
    | .none => zeroData
    | .gasFlow | .valve | .roughValve | .throttle | .rfPower | .setpoint =>
      packData (be2 ch.status.carried ++ be4 ch.status.changed)
    | .pressure | .flowRead | .rfForward | .rfReflected | .readback =>
      packData (be2 ch.status.value ++ be1 ch.status.missing ++ be1 (if ch.status.stale then 1 else 0))) := by
  obtain ⟨⟨kind, _, _, _, _, _, _, _, _, _, _, _⟩, status⟩ := ch
  cases kind <;> rfl

theorem Channel.wordData_none {word : Nat} (h : 4 ≤ word) : ch.wordData word = none := by
  obtain ⟨n, rfl⟩ := Nat.exists_eq_add_of_le' h
  rfl

theorem GuardEntry.wordData_none {word : Nat} (h : 4 ≤ word) : e.wordData word = none := by
  obtain ⟨n, rfl⟩ := Nat.exists_eq_add_of_le' h
  rfl

theorem GuardEntry.wordData_config : e.wordData 0 = some (packData (
    be1 (match e.config.kind with
      | .off => 0 | .levelAbove => 1 | .levelBelow => 2 | .valueAbove => 3 | .valueBelow => 4 | .deviation => 5
      | .inputHigh => 6 | .inputLow => 7) ++
    be1 e.config.source.val ++ be1 (match e.config.scope with | .always => 0 | .runOnly => 1 | .flagged => 2) ++
    be1 (match e.config.action with | .note => 0 | .hold => 1 | .safe => 2) ++ be1 e.config.count)) := by
  rw [← GuardKind.code_eq, ← idxOf_scopes, ← idxOf_guardActions]
  rfl

/-- Word 3 of a guard entry is its status, the grace for DEVIATION alone (R101). -/
theorem GuardEntry.wordData_status : e.wordData 3 = some (packData (be1 e.state.fields.1 ++ be1 e.state.fields.2 ++
    if e.config.kind = .deviation then e.graceBytes else [])) := rfl

theorem engineData_range : engineData engine permit 1 = some (packData (match engine.range with
    | none => be2 0xFFFF ++ be2 0xFFFF
    | some (first, last) => be2 first ++ be2 last)) := by
  unfold engineData
  cases engine.range <;> rfl

theorem engineData_tables (g : Fin 4) :
    engineData engine permit (4 + g.val) = some (valueGroup engine.outputTable g.val) ∧
      engineData engine permit (8 + g.val) = some (valueGroup engine.startTable g.val) := by
  fin_cases g <;> exact ⟨rfl, rfl⟩

/-- Words 13 to 21 carry the hold record, zeros while there is none (log 13). -/
theorem engineData_unheld (h : engine.hold = none) {word : Nat} (low : 13 ≤ word) (high : word ≤ 21) :
    engineData engine permit word = some zeroData := by
  interval_cases word <;> simp only [engineData, h]

theorem engineData_held {k : HoldRecord} (h : engine.hold = some k) :
    engineData engine permit 12 = some (holdData (some k)) ∧
      engineData engine permit 13 = some (loopStackData k.loops) ∧
      ∀ g : Fin 4, engineData engine permit (14 + g.val) = some (valueGroup k.startTable g.val) ∧
        engineData engine permit (18 + g.val) = some (valueGroup k.outputTable g.val) := by
  refine ⟨by simp only [engineData, h], by simp only [engineData, h], fun g => ?_⟩
  fin_cases g <;> simp [engineData, h]

theorem engineData_none {word : Nat} (h : 22 ≤ word) : engineData engine permit word = none := by
  obtain ⟨n, rfl⟩ := Nat.exists_eq_add_of_le' h
  rfl

theorem arbiterStateData_none (p : Plant) {word : Nat} (h : 6 ≤ word) : arbiterStateData p word = none := by
  obtain ⟨n, rfl⟩ := Nat.exists_eq_add_of_le' h
  rfl

theorem InputLine.wordData_none (i : InputLine) {word : Nat} (h : 2 ≤ word) : i.wordData word = none := by
  obtain ⟨n, rfl⟩ := Nat.exists_eq_add_of_le' h
  rfl

theorem Ring.wordData_none (ring : Ring) {word : Nat} (h : 3 ≤ word) : ring.wordData word = none := by
  obtain ⟨n, rfl⟩ := Nat.exists_eq_add_of_le' h
  rfl

theorem State.identData_none (s : State) {word : Nat} (h : 2 ≤ word) : s.identData word = none := by
  obtain ⟨n, rfl⟩ := Nat.exists_eq_add_of_le' h
  rfl

end

/-! #### Rows of the table directory -/

theorem State.tableWord_channel (s : State) (c : Chamber) (h : Chan) (word : Nat) :
    s.tableWord 2 (c.val * 16 + h.val) word = (s.channel c h).wordData word := by
  have chamber : (c.val * 16 + h.val) / 16 = c.val := by omega
  have channel : (c.val * 16 + h.val) % 16 = h.val := by omega
  refine (dif_pos (by omega)).trans ?_
  simp only [chamber, channel]

theorem State.tableWord_guard (s : State) (c : Chamber) (g : GuardIndex) (word : Nat) :
    s.tableWord 4 (c.val * 16 + g.val) word = (s.guardEntry c g).wordData word := by
  have chamber : (c.val * 16 + g.val) / 16 = c.val := by omega
  have entry : (c.val * 16 + g.val) % 16 = g.val := by omega
  refine (dif_pos (by omega)).trans ?_
  simp only [chamber, entry]

theorem State.tableWord_input (s : State) (l : Line) (word : Nat) : s.tableWord 6 l.val word = (s.input l).wordData word :=
  dif_pos l.isLt

theorem State.tableWord_engine (s : State) (c : Chamber) (word : Nat) :
    s.tableWord 10 c.val word = engineData (s.engine c) s.plant.permits[c] word := dif_pos c.isLt

theorem State.tableWord_level (s : State) (c : Chamber) (word : Nat) :
    s.tableWord 5 c.val word = levelWordData s.ctx c word := dif_pos c.isLt

theorem State.tableWord_slot (s : State) (k : Fin 128) (word : Nat) :
    s.tableWord 1 k.val word = if word = 0 then some s.slotMap[k].data else none := dif_pos k.isLt

theorem Arbiter.wordData_chamber (a : Arbiter) (c : Chamber) :
    a.wordData c.val 0 = some (packData (be2 a.allowance[c])) ∧ a.wordData c.val 1 = some (packData (be1 a.priority[c])) :=
  ⟨dif_pos c.isLt, dif_pos c.isLt⟩

theorem Arbiter.wordData_none (a : Arbiter) (index : Nat) {word : Nat} (h : 2 ≤ word) : a.wordData index word = none := by
  obtain ⟨n, rfl⟩ := Nat.exists_eq_add_of_le' h
  unfold Arbiter.wordData
  split
  · rfl
  · split <;> rfl

theorem Plant.reserved_sum (p : Plant) :
    p.reserved = p.reservation 0 + p.reservation 1 + p.reservation 2 + p.reservation 3 := by
  simp only [Plant.reserved, chambers, List.map_cons, List.map_nil, List.sum_cons, List.sum_nil]
  omega

theorem Plant.reservation_words (p : Plant) : p.arbiter.reservation.toList.flatMap be2 =
    be2 (p.reservation 0) ++ be2 (p.reservation 1) ++ be2 (p.reservation 2) ++ be2 (p.reservation 3) := by
  have four := take_four_drop p.arbiter.reservation.toList 0 (by simp)
  rw [List.drop_zero, List.take_of_length_le (by simp)] at four
  rw [four]
  simp only [Vector.getElem_toList]
  rfl

theorem levelWordData_thresholds (x : Ctx) (c : Chamber) {word : Nat} (h : word < 3) : levelWordData x c word =
    let t := x.levels[c].thresholds
    some (packData (be2 t[4 * word] ++ be2 t[4 * word + 1] ++ be2 t[4 * word + 2] ++ be2 t[4 * word + 3])) := by
  refine (if_pos (by omega)).trans ?_
  rw [thresholdsIn, if_neg (by omega), take_four_drop _ _ (by simp; omega)]
  simp only [Vector.getElem_toList]
  rfl

theorem levelWordData_last (x : Ctx) (c : Chamber) : levelWordData x c 3 =
    let t := x.levels[c].thresholds
    some (packData (be2 t[12] ++ be2 t[13] ++ be2 t[14])) := by
  have three : (x.levels[c].thresholds.toList.drop 12).take 3 =
      [x.levels[c].thresholds[12], x.levels[c].thresholds[13], x.levels[c].thresholds[14]] := by
    rw [List.drop_eq_getElem_cons (by simp), List.drop_eq_getElem_cons (by simp), List.drop_eq_getElem_cons (by simp)]
    simp only [Vector.getElem_toList]
    rfl
  show some (packData (((x.levels[c].thresholds.toList.drop 12).take 3).flatMap be2)) = _
  rw [three]
  rfl

theorem levelWordData_check (x : Ctx) (c : Chamber) : levelWordData x c 4 =
    some (packData (be1 (if x.levels[c].checked then 0 else 1) ++ be1 (x.pressureLevel c))) := by
  show some (packData (flagByte (!x.levels[c].checked) ++ be1 (x.pressureLevel c))) = _
  cases x.levels[c].checked <;> rfl

theorem levelWordData_none (x : Ctx) (c : Chamber) {word : Nat} (h : 5 ≤ word) : levelWordData x c word = none :=
  (if_neg (by omega)).trans (if_neg (by omega))

theorem State.noticeData_slot (s : State) (i : NoticeIndex) :
    s.noticeData i.val 0 = some (packData (be1 s.plant.notices[i].cls ++ flagByte s.plant.notices[i].enabled)) ∧
      s.noticeData i.val 1 = some (packData (flagByte s.plant.notices[i].pending ++ be1 s.plant.notices[i].merge ++
        be2 s.plant.notices[i].detail ++ be2 s.plant.notices[i].cycle)) ∧
      ∀ word, 2 ≤ word → s.noticeData i.val word = none := by
  refine ⟨dif_pos i.isLt, dif_pos i.isLt, fun word h => ?_⟩
  obtain ⟨n, rfl⟩ := Nat.exists_eq_add_of_le' h
  exact dif_pos i.isLt

/-- How many indices a table has (Table 9-3); NOTICE has the threshold behind its 27 slots, STATE and ARBITER the arbiter behind
the four chambers. -/
def tableSize : Nat → Nat
  | 1 => 128
  | 2 | 4 => 64
  | 3 => 512
  | 5 => 4
  | 6 => 16
  | 7 | 10 => 5
  | 8 | 11 => 1
  | 9 => 28
  | _ => 0

/-- Outside the indices of Table 9-3 there is no word (R157). -/
theorem State.tableWord_outside (s : State) {table index : Nat} (h : tableSize table ≤ index) (word : Nat) :
    s.tableWord table index word = none := by
  unfold tableSize at h
  split at h
  iterate 6 exact dif_neg (Nat.not_lt.2 h)
  · exact (dif_neg (by omega)).trans (if_neg (by omega))
  · exact (dif_neg (by omega)).trans (if_neg (by omega))
  · exact if_neg (by omega)
  · exact if_neg (by omega)
  · exact (dif_neg (by omega)).trans (if_neg (by omega))
  · unfold State.tableWord
    split
    iterate 11 contradiction
    rfl

/-- Settles O16: READ by the word as it stands, and the words table by table. -/
theorem readAnswersWord : Obligations.ReadAnswersWord := by
  refine ⟨fun table r s takes other => ⟨fun data word => ?_, fun absent => ?_⟩, fun s c => ⟨fun h => ?_, fun g => ?_,
    fun l => ?_, ?_, ?_, fun k => ?_, ?_, ?_, ⟨rfl, rfl, rfl, fun n => s.ring.wordData_none⟩, s.noticeData_slot,
    ⟨rfl, fun n beyond => if_neg (by omega)⟩, fun table k n outside => s.tableWord_outside ?_ n,
    fun l n beyond => (s.tableWord_input l n).trans (InputLine.wordData_none _ beyond), fun n => s.identData_none, rfl, rfl⟩⟩
  · refine congrArg _ ((takes.takeRecord codeRead _).trans ?_)
    rw [readTable_word other word]
  · exact congrArg _ (takes.answers_noObject codeRead (by rw [readTable_absent absent]))
  case refine_3 =>
    intro word r t kind
    have words : ∀ n, word n = (s.channel c h).wordData n := s.tableWord_channel c h
    exact ⟨(words 0).trans (s.channel c h).wordData_record, words 1, words 2,
      (words 3).trans (s.channel c h).wordData_status,
      fun n beyond => (words n).trans ((s.channel c h).wordData_none beyond)⟩
  case refine_4 =>
    intro word e k standing kind
    have words : ∀ n, word n = e.wordData n := s.tableWord_guard c g
    have stands : be1 e.state.fields.1 ++ be1 e.state.fields.2 = standing := GuardState.fields_bytes e.state
    have status := (words 3).trans e.wordData_status
    rw [stands] at status
    refine ⟨(words 0).trans e.wordData_config, words 1, words 2, fun other => ?_, fun deviation armed => ?_,
      fun t deviation grace => ?_, fun n beyond => (words n).trans (e.wordData_none beyond)⟩
    · rw [status, if_neg other, List.append_nil]
    · rw [status, if_pos deviation, GuardEntry.graceBytes, armed, List.append_assoc]
    · rw [status, if_pos deviation, GuardEntry.graceBytes, grace, List.append_assoc]
  case refine_5 =>
    refine ⟨s.tableWord_input l 0, (s.tableWord_input l 1).trans ?_, levelByte_codes⟩
    show some (packData (levelByte (s.input l).raw ++ levelByte (s.input l).accepted ++
      (flagByte (s.input l).timer.isSome ++ be4 ((s.input l).timer.getD 0)))) = _
    rw [flagByte_isSome, ← List.append_assoc]
  case refine_6 =>
    intro word e values stack bit
    have words : ∀ n, word n = engineData e s.plant.permits[c] n := s.tableWord_engine c
    have group : ∀ (t : ValueTable) (g : Fin 4), some (valueGroup t g.val) = some (values t g) := fun t g =>
      congrArg some (valueGroup_eq t g)
    have tables := engineData_tables e s.plant.permits[c]
    refine ⟨(words 0).trans ?_, (words 1).trans (engineData_range _ _), fun few => (words 2).trans ?_, words 3,
      fun g => ⟨(words _).trans ((tables g).1.trans (group _ g)), (words _).trans ((tables g).2.trans (group _ g))⟩,
      fun unheld => ⟨(words 12).trans ?_, fun n low high => (words n).trans (engineData_unheld _ _ unheld low high)⟩,
      fun k held => ?_, fun n beyond => (words n).trans (engineData_none _ _ beyond)⟩
    · show some (packData (be1 e.state.code ++ be2 e.step ++ be1 e.awaited.code ++ be1 e.sources.bits ++ be1 e.counter ++
        flagByte e.timer.isSome ++ flagByte s.plant.permits[c])) = _
      rw [flagByte_isSome]
      rfl
    · exact congrArg some (loopStackData_eq _ few)
    · show some (holdData e.hold) = _
      rw [unheld]
      rfl
    · obtain ⟨record, loops, heldTables⟩ := engineData_held e s.plant.permits[c] held
      exact ⟨(words 12).trans (record.trans (congrArg some (holdData_some k))),
        fun few => (words 13).trans (loops.trans (congrArg some (loopStackData_eq _ few))),
        fun g => ⟨(words _).trans ((heldTables g).1.trans (group _ g)), (words _).trans ((heldTables g).2.trans (group _ g))⟩⟩
  case refine_7 =>
    intro word a place request
    have words : ∀ n, word n = arbiterStateData s.plant n := fun n => rfl
    refine ⟨rfl, (words 1).trans ?_, (words 2).trans ?_, (words 3).trans ?_, (words 4).trans ?_, (words 5).trans ?_,
      fun n beyond => (words n).trans (arbiterStateData_none _ beyond)⟩
    · simp only [arbiterStateData, chamberByte_eq]
      rfl
    · simp only [arbiterStateData, growthBytes_eq]
      rfl
    · simp only [arbiterStateData, growthBytes_eq]
      rfl
    · rw [← Plant.reservation_words]
      rfl
    · rw [← Plant.reserved_sum]
      rfl
  case refine_8 =>
    exact ⟨(s.tableWord_slot k 0).trans (congrArg some (SlotUse.data_eq _)),
      fun n beyond => (s.tableWord_slot k n).trans (if_neg (by omega))⟩
  case refine_9 =>
    intro word t
    have words : ∀ n, word n = levelWordData s.ctx c n := s.tableWord_level c
    exact ⟨(words 0).trans (levelWordData_thresholds s.ctx c (word := 0) (by decide)),
      (words 1).trans (levelWordData_thresholds s.ctx c (word := 1) (by decide)),
      (words 2).trans (levelWordData_thresholds s.ctx c (word := 2) (by decide)),
      (words 3).trans (levelWordData_last s.ctx c), (words 4).trans (levelWordData_check s.ctx c),
      fun n beyond => (words n).trans (levelWordData_none s.ctx c beyond)⟩
  case refine_10 =>
    obtain ⟨allowance, priority⟩ := s.plant.arbiter.wordData_chamber c
    exact ⟨allowance, priority, rfl, rfl, fun k n => s.plant.arbiter.wordData_none k⟩
  case refine_11 =>
    rcases Nat.lt_or_ge table 12 with known | beyond
    · have inside := outside.resolve_left (by omega)
      interval_cases table
      · exact Nat.zero_le _
      iterate 2 exact inside
      · exact inside.elim
      iterate 8 exact inside
    · obtain ⟨m, rfl⟩ := Nat.exists_eq_add_of_le' beyond
      exact Nat.zero_le _

end Sys2Proof.Machine
end

/-! ### The trips of a plant at rest, and RESTART_PART (R115, R155, R164) -/
section
namespace Sys2Proof.Machine

variable {x : Ctx} {p q : Plant} {c : Chamber} {g : GuardIndex} {s : State}

/-! #### SAFE entry of a chamber that has nothing to hand back -/

/-- What a soft reset leaves of arbiter and permits: nothing is claimed, every reservation is its allowance, every permit is off. -/
structure Plant.Unclaimed (p : Plant) : Prop where
  line : p.arbiter.line = .free
  queue : p.arbiter.queue = []
  growth : p.arbiter.growth = []
  reservation : p.arbiter.reservation = p.arbiter.allowance
  permits : p.permits = Vector.replicate 4 false

/-- An engine that has entered SAFE from the reset state (R61). -/
def safeEngine (x : Ctx) (c : Chamber) : Engine := { state := .safe, outputTable := safeOutputs x c }

namespace Plant.Unclaimed

theorem of_same (h : p.Unclaimed) (arbiter : q.arbiter = p.arbiter) (permits : q.permits = p.permits) : q.Unclaimed := by
  obtain ⟨line, queue, growth, reservation, off⟩ := h
  constructor <;> simpa only [arbiter, permits]

theorem returnReservation (h : p.Unclaimed) (c : Chamber) : returnReservation c p = p := by
  have same : p.arbiter.reservation.set c.val (p.allowance c) c.isLt = p.arbiter.reservation := by
    rw [Plant.allowance, ← h.reservation]
    exact Vector.set_getElem_self c.isLt
  unfold Machine.returnReservation Plant.setReservation
  rw [same]

theorem giveBack (h : p.Unclaimed) (expire : Expire) (c : Chamber) :
    giveBack x expire (examineGrowth x expire) c p = p := by
  have out : p.Out c := ⟨by simp [h.queue], by simp [h.growth]⟩
  rw [giveBack_of_out _ out (by simp [h.line]), h.returnReservation, examineGrowth_ends (by simp [h.growth])]

theorem setPermit_false (h : p.Unclaimed) (c : Chamber) : p.setPermit c false = p := by
  have same : p.permits.set c.val false c.isLt = p.permits := by
    rw [h.permits]
    exact Vector.ext fun i hi => by simp
  unfold Plant.setPermit
  rw [same]

theorem enterSafe (h : p.Unclaimed) (blank : p.engine c = {}) (expire : Expire) :
    enterSafe x expire c p = (p.setEngine c (safeEngine x c)).notify x c .safeEntered 0 := by
  have cleared : p.setEngine c { p.engine c with timer := none, counter := 0, awaited := .nothing } = p := by
    rw [blank]
    exact (congrArg (p.setEngine c) blank.symm).trans (p.setEngine_own c)
  unfold Machine.enterSafe
  dsimp only
  rw [cleared, h.giveBack, blank]
  exact congrArg (Plant.notify x c .safeEntered 0)
    ((h.of_same rfl rfl : (p.setEngine c (safeEngine x c)).Unclaimed).setPermit_false c)

end Plant.Unclaimed

/-! #### Several trips -/

/-- What trips do to a plant at rest: GUARD_TRIP of each chamber of a trip, SAFE entry of each chamber of a trip of action SAFE,
and nothing else. -/
structure Plant.TripsAtRest (x : Ctx) (p : Plant) (trips : List (Chamber × GuardIndex × GuardAction)) (q : Plant) : Prop where
  arbiter : q.arbiter = p.arbiter
  permits : q.permits = p.permits
  safe : ∀ c g, (c, g, .safe) ∈ trips → q.engine c = safeEngine x c
  blank : ∀ c, (∀ g, (c, g, .safe) ∉ trips) → q.engine c = {}
  tripped : ∀ c g action, (c, g, action) ∈ trips → q.Raised c .guardTrip
  entered : ∀ c g, (c, g, .safe) ∈ trips → q.Raised c .safeEntered
  silent : ∀ i, (∀ c g action, (c, g, action) ∈ trips → i ≠ noticeSlot c .guardTrip) →
    (∀ c g, (c, g, .safe) ∈ trips → i ≠ noticeSlot c .safeEntered) → q.notices[i] = p.notices[i]

theorem Plant.notify_notice_ne {i : NoticeIndex} {n : ChamberNotice} {k : Nat} (ne : i ≠ noticeSlot c n) :
    (p.notify x c n k).notices[i] = p.notices[i] :=
  (Plant.raiseAt_notices p _ i k x.cycle).trans (if_neg ne.symm)

namespace Plant.TripsAtRest

variable {trips : List (Chamber × GuardIndex × GuardAction)}

/-- A trip of another action, or of a chamber that is SAFE already, raises GUARD_TRIP alone. -/
theorem notes {action : GuardAction} (h : p.TripsAtRest x trips q)
    (known : action = .safe → ∃ g, (c, g, .safe) ∈ trips) :
    p.TripsAtRest x (trips ++ [(c, g, action)]) (q.notify x c .guardTrip g.val) := by
  have safes : ∀ {d j}, (d, j, .safe) ∈ trips ++ [(c, g, action)] → ∃ j, (d, j, GuardAction.safe) ∈ trips := by
    intro d j trip
    rcases List.mem_append.1 trip with before | last
    · exact ⟨j, before⟩
    · cases List.mem_singleton.1 last
      exact known rfl
  refine ⟨h.arbiter, h.permits, fun d j trip => ?_, fun d none => ?_, fun d j a trip => ?_, fun d j trip => ?_,
    fun i quiet entries => ?_⟩
  · obtain ⟨j, before⟩ := safes trip
    exact h.safe d j before
  · exact h.blank d fun j trip => none j (List.mem_append_left _ trip)
  · rcases List.mem_append.1 trip with before | last
    · exact (h.tripped d j a before).leaves ((Plant.Leaves.refl q).notify ..)
    · cases List.mem_singleton.1 last
      exact Plant.raised_notify _ _ _ _ _
  · obtain ⟨j, before⟩ := safes trip
    exact (h.entered d j before).leaves ((Plant.Leaves.refl q).notify ..)
  · rw [Plant.notify_notice_ne (quiet c g action (by simp))]
    exact h.silent i (fun d j a trip => quiet d j a (List.mem_append_left _ trip))
      fun d j trip => entries d j (List.mem_append_left _ trip)

/-- A trip of action SAFE with its SAFE entry. -/
theorem safes (h : p.TripsAtRest x trips q) :
    p.TripsAtRest x (trips ++ [(c, g, .safe)])
      (((q.notify x c .guardTrip g.val).setEngine c (safeEngine x c)).notify x c .safeEntered 0) := by
  have leaves {q : Plant} (n : ChamberNotice) (k : Nat) : q.Leaves (q.notify x c n k) := (Plant.Leaves.refl q).notify ..
  have raised {d : Chamber} {n : ChamberNotice} (k : q.Raised d n) :
      (((q.notify x c .guardTrip g.val).setEngine c (safeEngine x c)).notify x c .safeEntered 0).Raised d n :=
    have noted : (q.notify x c .guardTrip g.val).Raised d n := k.leaves (leaves .guardTrip g.val)
    Plant.Raised.leaves (p := (q.notify x c .guardTrip g.val).setEngine c (safeEngine x c)) noted (leaves .safeEntered 0)
  have other {d : Chamber} (ne : c ≠ d) :
      (((q.notify x c .guardTrip g.val).setEngine c (safeEngine x c)).notify x c .safeEntered 0).engine d = q.engine d :=
    Plant.engine_setEngine_ne _ _ ne
  refine ⟨h.arbiter, h.permits, fun d j trip => ?_, fun d none => ?_, fun d j a trip => ?_, fun d j trip => ?_,
    fun i quiet entries => ?_⟩
  · by_cases same : c = d
    · subst same
      exact Plant.engine_setEngine_self ..
    · rcases List.mem_append.1 trip with before | last
      · exact (other same).trans (h.safe d j before)
      · cases List.mem_singleton.1 last
        exact (same rfl).elim
  · have ne : c ≠ d := by
      rintro rfl
      exact none g (by simp)
    exact (other ne).trans (h.blank d fun j trip => none j (List.mem_append_left _ trip))
  · rcases List.mem_append.1 trip with before | last
    · exact raised (h.tripped d j a before)
    · cases List.mem_singleton.1 last
      exact Plant.Raised.notify (show ((q.notify x c .guardTrip g.val).setEngine c _).Raised c .guardTrip from
        Plant.raised_notify _ _ _ _ _) _ _
  · rcases List.mem_append.1 trip with before | last
    · exact raised (h.entered d j before)
    · cases List.mem_singleton.1 last
      exact Plant.raised_notify _ _ _ _ _
  · rw [Plant.notify_notice_ne (entries c g (by simp)), Plant.setEngine_notices,
      Plant.notify_notice_ne (quiet c g .safe (by simp))]
    exact h.silent i (fun d j a trip => quiet d j a (List.mem_append_left _ trip))
      fun d j trip => entries d j (List.mem_append_left _ trip)

theorem applyTrip (h : p.TripsAtRest x trips q) (rest : p.Unclaimed) (c : Chamber) (g : GuardIndex) (action : GuardAction) :
    p.TripsAtRest x (trips ++ [(c, g, action)]) (applyTrip x c g action q) := by
  by_cases known : ∃ j, (c, j, .safe) ∈ trips
  · obtain ⟨j, before⟩ := known
    rw [applyTrip_notes (.inr (by rw [h.safe c j before]; rfl))]
    exact h.notes fun _ => ⟨j, before⟩
  · by_cases safe : action = .safe
    · subst safe
      have fresh : ∀ j, (c, j, .safe) ∉ trips := not_exists.1 known
      have blank := h.blank c fresh
      rw [applyTrip_safes (by rw [blank]; decide),
        (rest.of_same h.arbiter h.permits : (q.notify x c .guardTrip g.val).Unclaimed).enterSafe blank]
      exact h.safes
    · rw [applyTrip_notes (.inl safe)]
      exact h.notes fun is => (safe is).elim

end Plant.TripsAtRest

theorem applyTrips_atRest (rest : p.Unclaimed) (blank : ∀ c, p.engine c = {})
    (trips : List (Chamber × GuardIndex × GuardAction)) : p.TripsAtRest x trips (applyTrips x trips p) := by
  induction trips using List.reverseRecOn with
  | nil => exact ⟨rfl, rfl, by simp, fun c _ => blank c, by simp, by simp, fun _ _ _ => rfl⟩
  | append_singleton earlier t ih =>
    have last : applyTrips x (earlier ++ [t]) p = applyTrip x t.1 t.2.1 t.2.2 (applyTrips x earlier p) := by
      simp [applyTrips]
    rw [last]
    exact ih.applyTrip rest ..

/-! #### The INPUT entries after a reset -/

/-- An INPUT entry of scope ALWAYS whose line reads trip. -/
def State.InputTrips (s : State) (c : Chamber) (g : GuardIndex) : Prop :=
  let k := (s.guardEntry c g).config
  k.kind.isInput = true ∧ k.scope = .always ∧ inputReading (s.input k.source).accepted k = .trip

/-- Every engine and guard entry at rest, nothing claimed: what a soft reset leaves before it evaluates the INPUT entries. -/
structure State.AtRest (s : State) : Prop where
  unclaimed : s.plant.Unclaimed
  blank : ∀ c, s.engine c = {}
  clear : ∀ c g, (s.guardEntry c g).state = .clear

/-- The evaluation of the INPUT entries with its trips (R115), without hold demands. -/
def State.inputPass (s : State) : State := s.guardPass (fun c g => (s.guardEntry c g).config.kind.isInput) []

namespace State.AtRest

/-- An idle engine has the entries of scope ALWAYS alone in scope (R102). -/
theorem inScope_idle {e : Engine} (idle : e.state = .idle) {scope : Scope} :
    inScope x e g scope = true ↔ scope = .always := by
  cases scope <;> simp [inScope, idle]

theorem moveInput_clear {scope : Bool} {reading : Reading} :
    moveInput scope reading .clear = if scope = true ∧ reading = .trip then .tripped else .clear := by
  simp [moveInput]

theorem inputPass_guardEntry (h : s.AtRest) (c : Chamber) (g : GuardIndex) :
    (s.InputTrips c g → s.inputPass.guardEntry c g = { s.guardEntry c g with state := .tripped }) ∧
      (¬s.InputTrips c g → s.inputPass.guardEntry c g = s.guardEntry c g) := by
  have own : (s.guardEntry c g) = { s.guardEntry c g with state := .clear } := by rw [← h.clear c g]
  have scope := inScope_idle (x := s.ctx) (e := s.engine c) (g := g) (by rw [h.blank c])
    (scope := (s.guardEntry c g).config.scope)
  by_cases input : (s.guardEntry c g).config.kind.isInput = true
  · have moved : s.inputPass.guardEntry c g = _ :=
      State.guardPass_guardEntry.trans ((if_pos input).trans (evaluateEntry_input input))
    simp only [h.clear c g, moveInput_clear, scope] at moved
    refine ⟨fun ⟨_, always, trip⟩ => moved.trans ?_, fun quiet => moved.trans ?_⟩
    · rw [if_pos ⟨always, trip⟩]
    · rw [if_neg fun ⟨always, trip⟩ => quiet ⟨input, always, trip⟩]
      exact own.symm
  · exact ⟨fun trips => (input trips.1).elim, fun _ => State.guardPass_guardEntry.trans (if_neg input)⟩

theorem examineDemands_nil (guards : Vector (Vector GuardEntry 16) 4) : examineDemands x guards [] p = p := rfl

theorem inputPass_eq (s : State) : s.inputPass =
    { s with guards := s.inputPass.guards
             plant := applyTrips s.ctx (newTrips s.guards s.inputPass.guards) s.plant } := by
  have pass := State.guardPass_of (s := s) (which := fun c g => (s.guardEntry c g).config.kind.isInput) (demands := [])
    (guards := s.inputPass.guards) rfl
  rw [examineDemands_nil] at pass
  exact pass

theorem inputPass_plant (s : State) :
    s.inputPass.plant = applyTrips s.ctx (newTrips s.guards s.inputPass.guards) s.plant := by
  rw [inputPass_eq]

theorem inputPass_frame (s : State) :
    s.inputPass = { s with plant := s.inputPass.plant, guards := s.inputPass.guards } :=
  (inputPass_eq s).trans (by rw [inputPass_plant])

theorem mem_inputTrips (h : s.AtRest) {action : GuardAction} : (c, g, action) ∈ newTrips s.guards s.inputPass.guards ↔
    s.InputTrips c g ∧ action = (s.guardEntry c g).config.action := by
  obtain ⟨tripped, kept⟩ := h.inputPass_guardEntry c g
  have clear : s.guards[c][g].state = .clear := h.clear c g
  rw [mem_newTrips, clear]
  by_cases trips : s.InputTrips c g
  · have after : s.inputPass.guards[c][g] = { s.guardEntry c g with state := .tripped } := tripped trips
    rw [after]
    simp [trips, entersTripped]
  · have after : s.inputPass.guards[c][g] = s.guardEntry c g := kept trips
    rw [after, h.clear c g]
    simp [trips, entersTripped]

theorem inputPass_trips (h : s.AtRest) :
    s.plant.TripsAtRest s.ctx (newTrips s.guards s.inputPass.guards) s.inputPass.plant := by
  rw [inputPass_plant]
  exact applyTrips_atRest h.unclaimed h.blank _

theorem inputPass_quiet (h : s.AtRest) (quiet : ∀ c g, ¬s.InputTrips c g) : s.inputPass = s := by
  have guards : s.inputPass.guards = s.guards := guards_ext fun c g => (h.inputPass_guardEntry c g).2 (quiet c g)
  have none : newTrips s.guards s.inputPass.guards = [] :=
    List.eq_nil_iff_forall_not_mem.2 fun ⟨c, g, _⟩ trip => quiet c g (h.mem_inputTrips.1 trip).1
  rw [inputPass_eq, none, guards]
  rfl

end State.AtRest

/-! #### The soft reset -/

/-- A soft reset before its evaluation of the INPUT entries. -/
def State.softCleared (s : State) : State :=
  { s with
    plant :=
      { engines := Vector.replicate 4 {}, arbiter := s.plant.arbiter.softReset
        notices := s.plant.notices.map NoticeSlot.softReset, permits := Vector.replicate 4 false }
    guards := Vector.ofFn fun c : Fin 4 => Vector.ofFn fun g : Fin 16 =>
      { s.guardEntry c g with state := .clear, lapse := deriveGrace s.ctx c (s.guardEntry c g) }
    ring := s.ring.softReset
    responses := [] }

theorem State.softReset_eq (s : State) : s.softReset = s.softCleared.inputPass := rfl

theorem State.softCleared_guardEntry (s : State) (c : Chamber) (g : GuardIndex) : s.softCleared.guardEntry c g =
    { s.guardEntry c g with state := .clear, lapse := deriveGrace s.ctx c (s.guardEntry c g) } := by
  simp [State.softCleared, State.guardEntry]

theorem State.softCleared_atRest (s : State) : s.softCleared.AtRest where
  unclaimed := ⟨rfl, rfl, rfl, rfl, rfl⟩
  blank c := by simp [State.softCleared, State.engine, Plant.engine]
  clear c g := by rw [s.softCleared_guardEntry]

theorem State.softCleared_enabled (s : State) (i : NoticeIndex) :
    s.softCleared.plant.notices[i].enabled = s.plant.notices[i].enabled := by
  simp [State.softCleared, NoticeSlot.softReset]

theorem State.softCleared_pending {n : ChamberNotice} (raised : s.softCleared.inputPass.plant.Raised c n)
    (enabled : s.plant.notices[noticeSlot c n].enabled = true) :
    s.softCleared.inputPass.plant.notices[noticeSlot c n].pending = true := by
  have leaves : s.softCleared.plant.Leaves s.softCleared.inputPass.plant := by
    rw [AtRest.inputPass_plant]
    exact (Plant.Leaves.refl _).applyTrips _
  exact raised ((leaves.enabled _).trans ((s.softCleared_enabled _).trans enabled))

/-- Settles O39: the cleared part is at rest, and its INPUT entries that read trip do what trips do to a plant at rest. -/
theorem restartPartResets : Obligations.RestartPartResets := by
  intro r s acts assigned own a trips safes cleared entered
  have taken : exec (.restartPart r) s = .next s.softCleared.inputPass :=
    (execRestartPart_taken acts (by simp [State.addressed, own, assigned])).trans (congrArg Host.Outcome.next s.softReset_eq)
  have is : cleared = s.softCleared := rfl
  clear_value cleared
  subst is
  have rest := s.softCleared_atRest
  have entries : ∀ c g, (s.softCleared.guardEntry c g).config = (s.guardEntry c g).config := fun c g =>
    (congrArg GuardEntry.config (s.softCleared_guardEntry c g) :)
  have same : entered = s.softCleared.inputPass := by
    unfold State.inputPass
    simp only [entries]
    rfl
  clear_value entered
  subst same
  have inputs : ∀ c g, s.softCleared.InputTrips c g ↔ trips c g := by
    intro c g
    unfold State.InputTrips
    rw [entries]
    rfl
  have trip : ∀ {c g action}, (c, g, action) ∈ newTrips s.softCleared.guards s.softCleared.inputPass.guards ↔
      trips c g ∧ action = (s.guardEntry c g).config.action := by
    intro c g action
    rw [rest.mem_inputTrips, inputs, entries]
  have done := rest.inputPass_trips
  refine ⟨taken, fun quiet => rest.inputPass_quiet fun c g => mt (inputs c g).1 (quiet c g),
    State.AtRest.inputPass_frame _, fun c g => ?_, done.arbiter, done.permits, fun c => ⟨?_, fun calm => ?_⟩,
    fun c => ⟨?_, ?_⟩, fun i quiet entries => ?_⟩
  · rw [← inputs]
    exact rest.inputPass_guardEntry c g
  · rintro ⟨g, trips, action⟩
    exact done.safe c g (trip.2 ⟨trips, action.symm⟩)
  · exact done.blank c fun g t => calm ⟨g, (trip.1 t).1, (trip.1 t).2.symm⟩
  · rintro ⟨g, trips⟩
    exact State.softCleared_pending (done.tripped c g _ (trip.2 ⟨trips, rfl⟩))
  · rintro ⟨g, trips, action⟩
    exact State.softCleared_pending (done.entered c g (trip.2 ⟨trips, action.symm⟩))
  · exact done.silent i (fun c g action t => quiet c ⟨g, (trip.1 t).1⟩)
      fun c g t => entries c ⟨g, (trip.1 t).1, (trip.1 t).2.symm⟩

end Sys2Proof.Machine
end

/-! ### WRITE on NOTICE (R170) -/
section
namespace Sys2Proof.Machine

variable {s : State} {r : Request}

theorem writeNotice_noObject (h : 28 ≤ r.index.toNat ∨ 1 < r.word.toNat ∨ r.index.toNat = 27 ∧ r.word.toNat ≠ 0) :
    writeNotice r s = (s, noObject) := by
  unfold writeNotice
  split
  · rw [if_pos (show 1 < r.word.toNat by omega)]
  · rw [if_neg (show ¬(r.index.toNat = 27 ∧ r.word.toNat = 0) by omega)]

section
variable (hi : r.index.toNat = 27) (hw : r.word.toNat = 0)
include hi hw

theorem writeNotice_threshold (within : r.byte 0 ≤ 4) :
    writeNotice r s = ({ s with threshold := r.byte 0 } : State).acceptWrite 9 r := by
  simp [writeNotice, hi, hw, Nat.not_lt.2 within, noticeTable]

theorem writeNotice_badThreshold (above : ¬r.byte 0 ≤ 4) : writeNotice r s = (s, badField 3) := by
  simp [writeNotice, hi, hw, Nat.lt_of_not_le above]

end

section
variable {i : NoticeIndex} (hi : r.index.toNat = i.val)
include hi

theorem writeNotice_status (hw : r.word.toNat = 1) : writeNotice r s = (s, s.refuseWith .readOnly 9 r) := by
  simp [writeNotice, hi, hw, noticeTable]

variable (hw : r.word.toNat = 0)
include hw

theorem writeNotice_badClass (above : 3 < r.byte 0) : writeNotice r s = (s, badField 1) := by
  simp [writeNotice, hi, hw, above]

variable (cls : r.byte 0 ≤ 3)
include cls

theorem writeNotice_badEnable (above : 1 < r.byte 1) : writeNotice r s = (s, badField 2) := by
  simp [writeNotice, hi, hw, Nat.not_lt.2 cls, above]

theorem writeNotice_slot (enable : r.byte 1 ≤ 1) : writeNotice r s = ({ s with plant := { s.plant with
    notices := s.plant.notices.set i { s.plant.notices[i] with cls := r.byte 0, enabled := r.byte 1 == 1 } } } :
      State).acceptWrite 9 r := by
  simp [writeNotice, hi, hw, Nat.not_lt.2 cls, Nat.not_lt.2 enable, noticeTable]

end

/-- Settles O27, outcome by outcome of R170. -/
theorem noticeWritesStored : Obligations.NoticeWritesStored := by
  refine fun r s takes => ⟨fun absent => ?_, fun hi hw => ?_, fun i hi => ⟨fun hw => ?_, fun hw =>
    ⟨fun above => ?_, fun cls above => ?_, fun cls enable => ?_⟩⟩⟩
  · exact congrArg _ (takes.answers_noObject _ (writeNotice_noObject absent))
  · split
    · next within => exact congrArg _ (takes.answers_stored (writeNotice_threshold hi hw within))
    · next above => exact congrArg _ (takes.answers_badField (writeNotice_badThreshold hi hw above))
  · exact congrArg _ (takes.answers_refused (writeNotice_status hi hw))
  · exact congrArg _ (takes.answers_badField (writeNotice_badClass hi hw above))
  · exact congrArg _ (takes.answers_badField (writeNotice_badEnable hi hw cls above))
  · exact congrArg _ (takes.answers_stored (writeNotice_slot hi hw cls enable))

end Sys2Proof.Machine
end

/-! ### Notices raised, chosen and posted (R167, R169, R171) -/
section
namespace Sys2Proof.Machine

/-! #### Occurrences (R169) -/

namespace NoticeSlot

variable {n : NoticeSlot} (detail cycle : Nat)

theorem occur_disabled (disabled : n.enabled = false) : n.occur detail cycle = n := by
  simp [occur, disabled]

theorem occur_first (enabled : n.enabled = true) (quiet : n.pending = false) :
    n.occur detail cycle = { n with pending := true, merge := 1, detail := detail, cycle := cycle } := by
  simp [occur, enabled, quiet]

theorem occur_again (enabled : n.enabled = true) (pending : n.pending = true) :
    n.occur detail cycle = { n with merge := min 255 (n.merge + 1), detail := detail, cycle := cycle } := by
  simp [occur, enabled, pending]

end NoticeSlot

/-! #### The notice posted next (R171) -/

theorem eligibleNotice_iff {notices : Vector NoticeSlot 27} {threshold : Nat} {i : NoticeIndex} :
    eligibleNotice notices threshold i = true ↔ notices[i].pending = true ∧ threshold ≤ notices[i].cls := by
  simp [eligibleNotice]

/-- In a list that rises, positions are in the order of the values. -/
theorem idxOf_le_idxOf_iff {l : List NoticeIndex} (rises : l.SortedLT) {i j : NoticeIndex} (hi : i ∈ l) (hj : j ∈ l) :
    l.idxOf i ≤ l.idxOf j ↔ i ≤ j := by
  have order := rises.strictMono_get.le_iff_le (a := ⟨l.idxOf i, List.idxOf_lt_length_iff.2 hi⟩)
    (b := ⟨l.idxOf j, List.idxOf_lt_length_iff.2 hj⟩)
  simpa using order.symm

section
variable (notices : Vector NoticeSlot 27) (threshold : Nat)

/-- The slots that may be posted, in slot order. -/
def eligibleSlots : List NoticeIndex := noticeIndices.filter (eligibleNotice notices threshold)

variable {notices threshold} {i : NoticeIndex}

theorem mem_eligibleSlots : i ∈ eligibleSlots notices threshold ↔
    notices[i].pending = true ∧ threshold ≤ notices[i].cls := by
  rw [eligibleSlots, List.mem_filter, eligibleNotice_iff]
  exact and_iff_right (List.mem_finRange i)

theorem eligibleSlots_sortedLT : (eligibleSlots notices threshold).SortedLT :=
  ((List.pairwise_lt_finRange 27).filter _).sortedLT

/-- The model's scan is the library's: the first slot of the highest class. -/
theorem nextNotice_eq_argmax :
    nextNotice notices threshold = (eligibleSlots notices threshold).argmax fun i => notices[i].cls := by
  unfold nextNotice List.argmax
  congr 1
  funext best i
  cases best <;> rfl

theorem nextNotice_eq_none_iff : nextNotice notices threshold = none ↔
    ∀ i : NoticeIndex, ¬(notices[i].pending = true ∧ threshold ≤ notices[i].cls) := by
  simp only [nextNotice_eq_argmax, List.argmax_eq_none, List.eq_nil_iff_forall_not_mem, mem_eligibleSlots]

theorem nextNotice_eq_some_iff : nextNotice notices threshold = some i ↔
    (notices[i].pending = true ∧ threshold ≤ notices[i].cls) ∧
      ∀ j : NoticeIndex, notices[j].pending = true ∧ threshold ≤ notices[j].cls →
        notices[j].cls < notices[i].cls ∨ notices[j].cls = notices[i].cls ∧ i ≤ j := by
  rw [nextNotice_eq_argmax, List.argmax_eq_some_iff]
  simp only [← mem_eligibleSlots]
  refine and_congr_right fun hi => ⟨fun ⟨highest, first⟩ j hj => ?_, fun best => ⟨fun j hj => ?_, fun j hj least => ?_⟩⟩
  · refine (highest j hj).lt_or_eq.imp_right fun same => ⟨same, ?_⟩
    exact (idxOf_le_idxOf_iff eligibleSlots_sortedLT hi hj).1 (first j hj same.ge)
  · exact (best j hj).elim Nat.le_of_lt fun same => same.1.le
  · exact (idxOf_le_idxOf_iff eligibleSlots_sortedLT hi hj).2
      ((best j hj).elim (fun lower => absurd least (Nat.not_le.2 lower)) And.right)

end

/-! #### Records posted, entry by entry (R167, R171) -/

variable {entry : List Byte} {rest : List (List Byte)}

theorem entryIsEmpty_iff : entryIsEmpty entry = true ↔ entry.getD 1 0#8 = 0#8 := by
  simp [entryIsEmpty, byteAt, ← BitVec.toNat_inj]

section
variable {record : List Byte} {records : List (List Byte)}

@[simp] theorem postInto_noRecords : ∀ entries : List (List Byte), postInto entries [] = (entries, [])
  | [] => rfl
  | _ :: _ => rfl

theorem postInto_empty (empty : entryIsEmpty entry = true) : postInto (entry :: rest) (record :: records) =
    (record :: (postInto rest records).1, (postInto rest records).2) := by
  rw [postInto, if_pos empty]

theorem postInto_used (used : ¬entryIsEmpty entry = true) : ∀ records : List (List Byte),
    postInto (entry :: rest) records = (entry :: (postInto rest records).1, (postInto rest records).2)
  | [] => by simp
  | _ :: _ => by rw [postInto, if_neg used]

/-- A response that is posted leaves the queue because the model drops as many as `postInto` does not leave over; the subtraction
never truncates. -/
theorem postInto_left_le : ∀ entries records : List (List Byte), (postInto entries records).2.length ≤ records.length
  | [], _ => le_refl _
  | _ :: _, [] => le_refl _
  | entry :: rest, record :: records => by
    by_cases empty : entryIsEmpty entry = true
    · rw [postInto_empty empty]
      exact Nat.le_succ_of_le (postInto_left_le rest records)
    · rw [postInto_used empty]
      exact postInto_left_le rest (record :: records)

end

namespace State

variable {s : State}

@[simp] theorem postResponses_nil (s : State) : s.postResponses [] = ([], s) := by
  simp [postResponses, postInto]

theorem postResponses_idle (idle : s.responses = []) (mailbox : List (List Byte)) :
    s.postResponses mailbox = (mailbox, s) := by
  cases s
  subst idle
  simp [postResponses]

theorem postResponses_used (used : ¬entryIsEmpty entry = true) :
    s.postResponses (entry :: rest) = (entry :: (s.postResponses rest).1, (s.postResponses rest).2) := by
  simp only [postResponses, postInto_used used]

theorem postResponses_empty {p : Response} {later : List Response} (empty : entryIsEmpty entry = true)
    (queued : s.responses = p :: later) : s.postResponses (entry :: rest) =
      (p.record s.address :: (({ s with responses := later } : State).postResponses rest).1,
        (({ s with responses := later } : State).postResponses rest).2) := by
  have left := postInto_left_le rest (later.map fun p => p.record s.address)
  rw [List.length_map] at left
  simp only [postResponses, queued, List.map_cons, postInto_empty empty, List.length_cons, Nat.succ_sub left,
    List.drop_succ_cons]

@[simp] theorem postNotices_nil (s : State) : s.postNotices [] = ([], s) := rfl

theorem postNotices_used (used : ¬entryIsEmpty entry = true) :
    s.postNotices (entry :: rest) = (entry :: (s.postNotices rest).1, (s.postNotices rest).2) := by
  simp only [postNotices, Machine.postNotices, if_neg used]

theorem postNotices_idle (idle : nextNotice s.plant.notices s.threshold = none) :
    ∀ mailbox : List (List Byte), s.postNotices mailbox = (mailbox, s)
  | [] => rfl
  | entry :: rest => by
    by_cases empty : entryIsEmpty entry = true
    · simp only [postNotices, Machine.postNotices, if_pos empty, idle]
    · rw [postNotices_used empty, postNotices_idle idle rest]

theorem postNotices_empty {i : NoticeIndex} (empty : entryIsEmpty entry = true)
    (next : nextNotice s.plant.notices s.threshold = some i) :
    let left : State :=
      { s with plant := { s.plant with notices := s.plant.notices.set i s.plant.notices[i].posted } }
    s.postNotices (entry :: rest) =
      (s.plant.notices[i].record i s.address :: (left.postNotices rest).1, (left.postNotices rest).2) := by
  simp only [postNotices, Machine.postNotices, if_pos empty, next]

end State

/-! #### The records posted (Table 9-1) -/

theorem Response.record_eq (p : Response) (address : Byte) : p.record address = sealEntry
    ([address, p.code, p.tag] ++ be1 p.result.code ++ be2 p.index.toNat ++ [p.word] ++ p.data.toList) := rfl

theorem noticeChamber_eq (i : NoticeIndex) : noticeChamber i = be1 (if i.val < 24 then i.val / 6 else 0xFF) :=
  (apply_ite be1 _ _ _).symm

theorem NoticeSlot.record_eq (n : NoticeSlot) (i : NoticeIndex) (address : Byte) : n.record i address = sealEntry
    ([address, 0x40#8, 0#8] ++ be1 i.val ++ be1 (if i.val < 24 then i.val / 6 else 0xFF) ++ [0#8] ++ be1 n.cls ++
      be2 n.detail ++ be1 n.merge ++ be2 n.cycle ++ [0#8, 0#8, 0#8]) := by
  rw [NoticeSlot.record, noticeChamber_eq]
  rfl

/-- Settles O59. -/
theorem noticesRaisedAndPosted : Obligations.NoticesRaisedAndPosted := by
  refine ⟨fun n detail cycle => ⟨n.occur_disabled detail cycle, n.occur_first detail cycle, n.occur_again detail cycle⟩,
    fun notices threshold => ⟨nextNotice_eq_none_iff, fun i => nextNotice_eq_some_iff⟩, fun s entry rest => ?_,
    fun p address => ⟨by simp, p.record_eq address⟩, fun n i address => ⟨by simp, n.record_eq i address⟩⟩
  simp only [← entryIsEmpty_iff]
  exact ⟨s.postResponses_nil, s.postNotices_nil, fun idle => State.postResponses_idle idle _, State.postResponses_used,
    fun p later => State.postResponses_empty, fun idle => State.postNotices_idle idle _, State.postNotices_used,
    fun i => State.postNotices_empty⟩

end Sys2Proof.Machine
end

/-! ### A step by the queue it finds -/
section
namespace Sys2Proof.Machine

variable {s : State}

theorem step_idle (empty : s.pending = []) : step s = .next s := by
  rw [step, empty]

theorem step_front {i : Instr} {rest : List Instr} (queued : s.pending = i :: rest) :
    step s = exec i { s with pending := rest } := by
  rw [step, queued]

/-- Settles O1: the queue is empty or has a front, and the rest behind a command put before the queue is the queue itself. -/
theorem stepRunsFrontCommand : Obligations.StepRunsFrontCommand :=
  ⟨fun _ _ => step_front rfl, fun _ _ _ => step_front, fun _ => step_idle⟩

end Sys2Proof.Machine
end
